-- ==== Sys2Proof/Word.lean ====
section
/-! DEFINITION. The word types of the TQ9-A and their plainest arithmetic (spec/00_scope.md R5, R7). -/

namespace Sys2Proof

/-- A byte is 8 bits (R5). -/
abbrev Byte := BitVec 8

/-- The 32 bits that one lane's v register holds (R39). -/
abbrev Lane := BitVec 32

/-- The 64 bits of a k register and of an instruction word (R5, R39). -/
abbrev Word := BitVec 64

/-- A set of the 32 lanes of a warp: bit i stands for lane i (R42). -/
abbrev LaneSet := BitVec 32

/-- Number of a vector register field (R75). -/
abbrev VReg := BitVec 8
/-- Number of a uniform register k0 to k63 (R75). -/
abbrev KReg := BitVec 6
/-- Number of an aperture a0 to a15. -/
abbrev ApReg := BitVec 4
/-- Number of a pool p0 to p15. -/
abbrev PoolReg := BitVec 4
/-- Number of a shape register s0 to s15. -/
abbrev ShapeReg := BitVec 4
/-- Number of an accumulator tile t0 to t3. -/
abbrev TileReg := BitVec 2
/-- Number of a format slot f0 to f7. -/
abbrev SlotReg := BitVec 3

end Sys2Proof
end

