-- ==== Sys2Proof/Syntax.lean ====
section
/-! DEFINITION. The syntax of the TQ9-A: one constructor of `Instr` per row of spec/opcode_table.json:
180 instruction words (spec/05 R74 to R88) and 84 device steps (spec/95_what_each_step_holds.md). -/

namespace Sys2Proof

/-- The type codes 0x00 to 0x15 of R77, in code order. -/
inductive Ty where
  | b32 | b64 | i8 | i16 | i32 | i64 | n8 | n16 | n32 | n64 | f16 | bf16 | f32 | f64
  | e4m3 | e5m2 | x80 | f16x2 | bf16x2 | e4m3x4 | e5m2x4 | i8x4
  deriving DecidableEq, Repr

/-- Rounding modes, R57. -/
inductive Rnd where
  | rne | rtz | rup | rdn
  deriving DecidableEq, Repr

/-- Scopes, R24; code 7 is reserved and has no constructor (R78). -/
inductive Scope where
  | thread | warp | wg | cluster | field | device | system
  deriving DecidableEq, Repr

/-- Compare conditions, R109. -/
inductive Cond where
  | eq | ne | lt | le | gt | ge | ord | uno
  deriving DecidableEq, Repr

/-- SHFL modes, R112. -/
inductive ShflMode where
  | idx | up | down | xor
  deriving DecidableEq, Repr

/-- SCAN and REDUCE operations, R115. -/
inductive RedOp where
  | add | min | max | and | or | xor
  deriving DecidableEq, Repr

/-- POOLOP functions, R118. -/
inductive PoolFn where
  | or | and | andn | xor
  deriving DecidableEq, Repr

/-- The addressed spaces a field selects. The code of a space differs by field: see Decode (R122, R141, R191, R201). -/
inductive Space where
  | sp | gl | vt
  deriving DecidableEq, Repr

/-- FENCE kinds, R153. -/
inductive FenceKind where
  | acq | rel | acqrel | sc
  deriving DecidableEq, Repr

/-- Atomic operations, R161, in aop order. -/
inductive AtomOp where
  | add | min | max | and | or | xor | exch | inc | dec
  deriving DecidableEq, Repr

/-- SIGREP rules, R196. -/
inductive RepRule where
  | first | mean | maxnorm
  deriving DecidableEq, Repr

/-- Prefetch levels, R150. -/
inductive PrefLevel where
  | l1 | slice
  deriving DecidableEq, Repr

/-- The guard and gap of a word (R74): aperture g, its negation n, and the issue gap. -/
structure Ctl where
  g : ApReg
  n : Bool
  gap : BitVec 3
  deriving DecidableEq, Repr

/-- Common layout with one source; with u set the fields name k registers (R76, R95). -/
structure Alu1 where
  ctl : Ctl
  ty : Ty
  u : Bool
  rnd : Rnd
  sat : Bool
  d : VReg
  a : VReg
  deriving DecidableEq, Repr

/-- Common layout with two sources. -/
structure Alu2 where
  ctl : Ctl
  ty : Ty
  u : Bool
  rnd : Rnd
  sat : Bool
  d : VReg
  a : VReg
  b : VReg
  deriving DecidableEq, Repr

/-- Common layout with three sources. -/
structure Alu3 where
  ctl : Ctl
  ty : Ty
  u : Bool
  rnd : Rnd
  sat : Bool
  d : VReg
  a : VReg
  b : VReg
  c : VReg
  deriving DecidableEq, Repr

/-- I form of MOVI (R79, R97). -/
structure MoviW where
  ctl : Ctl
  ty : Ty
  d : VReg
  imm : BitVec 27
  deriving DecidableEq, Repr

/-- I form with a source (R101). -/
structure ImmW where
  ctl : Ctl
  ty : Ty
  d : VReg
  a : VReg
  imm : BitVec 27
  deriving DecidableEq, Repr

/-- L form, MOVL only (R80). -/
structure MovlW where
  ctl : Ctl
  ty : Ty
  u : Bool
  d : VReg
  lit : Word
  deriving DecidableEq, Repr

/-- MOVS (R97). -/
structure MovsW where
  ctl : Ctl
  ty : Ty
  u : Bool
  d : VReg
  sr : BitVec 8
  deriving DecidableEq, Repr

structure BckW where
  ctl : Ctl
  ty : Ty
  d : VReg
  a : KReg
  deriving DecidableEq, Repr

structure LanekW where
  ctl : Ctl
  ty : Ty
  d : KReg
  a : VReg
  deriving DecidableEq, Repr

/-- LEA: sh in m[5:3], sx in m[6] (R98). -/
structure LeaW where
  ctl : Ctl
  ty : Ty
  u : Bool
  sh : BitVec 3
  sx : Bool
  d : VReg
  a : VReg
  b : VReg
  deriving DecidableEq, Repr

/-- CVT: destination type ty, source type src in m[9:5] (R107). -/
structure CvtW where
  ctl : Ctl
  ty : Ty
  src : Ty
  u : Bool
  rnd : Rnd
  sat : Bool
  d : VReg
  a : VReg
  deriving DecidableEq, Repr

/-- PACK and UNPK: packed type ty, scalar type src (R108). -/
structure PackW where
  ctl : Ctl
  ty : Ty
  src : Ty
  rnd : Rnd
  sat : Bool
  d : VReg
  a : VReg
  deriving DecidableEq, Repr

/-- CMP and FCMP: t the true aperture, f the false aperture (R109). -/
structure CmpW where
  ctl : Ctl
  ty : Ty
  u : Bool
  cond : Cond
  t : ApReg
  f : ApReg
  a : VReg
  b : VReg
  deriving DecidableEq, Repr

structure SelW where
  ctl : Ctl
  ty : Ty
  d : VReg
  a : VReg
  b : VReg
  sel : ApReg
  deriving DecidableEq, Repr

structure AopW where
  ctl : Ctl
  tt : BitVec 4
  d : ApReg
  a : ApReg
  b : ApReg
  deriving DecidableEq, Repr

/-- ACNT and AFIRST (R111). -/
structure AkW where
  ctl : Ctl
  d : KReg
  a : ApReg
  deriving DecidableEq, Repr

/-- AMOVK: toA = `.toa`, a[ap] := k[k]; otherwise `.tok`, k[k] := a[ap] (R111). -/
structure AmovkW where
  ctl : Ctl
  toA : Bool
  k : KReg
  ap : ApReg
  deriving DecidableEq, Repr

structure ShflW where
  ctl : Ctl
  ty : Ty
  mode : ShflMode
  delta : BitVec 5
  d : VReg
  a : VReg
  b : VReg
  deriving DecidableEq, Repr

structure BcastW where
  ctl : Ctl
  ty : Ty
  d : VReg
  a : VReg
  k : KReg
  deriving DecidableEq, Repr

structure ScanW where
  ctl : Ctl
  ty : Ty
  op : RedOp
  excl : Bool
  rnd : Rnd
  sat : Bool
  d : VReg
  a : VReg
  deriving DecidableEq, Repr

structure ShflxW where
  ctl : Ctl
  d : VReg
  a : VReg
  b : VReg
  deriving DecidableEq, Repr

structure PdepW where
  ctl : Ctl
  pd : PoolReg
  ae : ApReg
  deriving DecidableEq, Repr

structure PextW where
  ctl : Ctl
  ad : ApReg
  pa : PoolReg
  deriving DecidableEq, Repr

structure PoolopW where
  ctl : Ctl
  fn : PoolFn
  pd : PoolReg
  pa : PoolReg
  pb : PoolReg
  deriving DecidableEq, Repr

/-- PCNT and PFIRST (R118). -/
structure PkW where
  ctl : Ctl
  kd : KReg
  pa : PoolReg
  deriving DecidableEq, Repr

/-- PCLR and PFILL (R118). -/
structure PdW where
  ctl : Ctl
  pd : PoolReg
  deriving DecidableEq, Repr

/-- PST and PLD (R122). -/
structure PmemW where
  ctl : Ctl
  p : PoolReg
  kB : KReg
  sp : Space
  scope : Scope
  off : BitVec 17
  deriving DecidableEq, Repr

/-- APPLY (R125). -/
structure ApplyW where
  ctl : Ctl
  pa : PoolReg
  kt : KReg
  ev : BitVec 8
  cs : VReg
  cn : BitVec 5
  rel : Bool
  deriving DecidableEq, Repr

/-- APPLYW (R125). -/
structure ApplywW where
  ctl : Ctl
  pa : PoolReg
  kt : KReg
  ev : BitVec 8
  rel : Bool
  deriving DecidableEq, Repr

structure ReleaseW where
  ctl : Ctl
  all : Bool
  pa : PoolReg
  deriving DecidableEq, Repr

structure BraW where
  ctl : Ctl
  off : BitVec 27
  deriving DecidableEq, Repr

/-- BANY, BALL, BNONE (R133). -/
structure BapW where
  ctl : Ctl
  ap : ApReg
  off : BitVec 27
  deriving DecidableEq, Repr

/-- BK: condition code 0 to 5 in d, k0 to k15 in cond (R133). -/
structure BkW where
  ctl : Ctl
  cc : Cond
  k : BitVec 4
  off : BitVec 27
  deriving DecidableEq, Repr

/-- CALL and LOOP (R133). -/
structure CallW where
  ctl : Ctl
  d : KReg
  off : BitVec 27
  deriving DecidableEq, Repr

structure CalliW where
  ctl : Ctl
  u : Bool
  d : KReg
  a : VReg
  deriving DecidableEq, Repr

structure RetW where
  ctl : Ctl
  a : KReg
  deriving DecidableEq, Repr

structure TakeW where
  ctl : Ctl
  d : KReg
  ap : ApReg
  deriving DecidableEq, Repr

structure GiveW where
  ctl : Ctl
  a : KReg
  b : KReg
  deriving DecidableEq, Repr

/-- STALL and YIELD (R139). -/
structure StallW where
  ctl : Ctl
  n : BitVec 7
  deriving DecidableEq, Repr

/-- The index of an M-form word (R82, R143): lane-linear (b = 0xFF), or a v register with its width, sign and scale. -/
inductive Index where
  | lane
  | reg (b : VReg) (iw : BitVec 2) (sgn : Bool) (sc : BitVec 3)
  deriving DecidableEq, Repr

/-- M-form loads and stores (R82, R140). -/
structure MemW where
  ctl : Ctl
  ty : Ty
  d : VReg
  a : KReg
  idx : Index
  scope : Scope
  off : BitVec 9
  nt : Bool
  deriving DecidableEq, Repr

structure PrefW where
  ctl : Ctl
  ty : Ty
  lvl : PrefLevel
  a : KReg
  idx : Index
  off : BitVec 9
  nt : Bool
  deriving DecidableEq, Repr

/-- LDK and STK (R141). -/
structure UmemW where
  ctl : Ctl
  ty : Ty
  d : KReg
  a : KReg
  sp : Space
  scope : Scope
  off : BitVec 9
  nt : Bool
  deriving DecidableEq, Repr

structure WaitaW where
  ctl : Ctl
  d : KReg
  a : KReg
  b : KReg
  sp : Space
  scope : Scope
  off : BitVec 9
  deriving DecidableEq, Repr

/-- WAIT thresholds (R154). -/
structure WaitW where
  ctl : Ctl
  l : BitVec 7
  s : BitVec 7
  c : BitVec 7
  t : BitVec 7
  x : BitVec 7
  deriving DecidableEq, Repr

structure FenceW where
  ctl : Ctl
  scope : Scope
  kind : FenceKind
  deriving DecidableEq, Repr

/-- CWB and CINV (R149). -/
structure CacheW where
  ctl : Ctl
  all : Bool
  a : KReg
  b : KReg
  deriving DecidableEq, Repr

/-- ATOM, ATOMN, ATOMS, ATOMV (R160). -/
structure AtomW where
  ctl : Ctl
  ty : Ty
  d : VReg
  a : KReg
  idx : Index
  scope : Scope
  op : AtomOp
  off : BitVec 5
  ra : Bool
  deriving DecidableEq, Repr

/-- CAS, CASS, CASV (R160, R161). -/
structure CasW where
  ctl : Ctl
  ty : Ty
  d : VReg
  a : KReg
  idx : Index
  scope : Scope
  off : BitVec 5
  deriving DecidableEq, Repr

structure BarW where
  ctl : Ctl
  n : BitVec 8
  id : BitVec 4
  scope : Scope
  deriving DecidableEq, Repr

structure GbarW where
  ctl : Ctl
  id : BitVec 2
  scope : Scope
  deriving DecidableEq, Repr

structure EvsetW where
  ctl : Ctl
  a : KReg
  scope : Scope
  deriving DecidableEq, Repr

structure EvclrW where
  ctl : Ctl
  a : KReg
  deriving DecidableEq, Repr

structure EvwaitW where
  ctl : Ctl
  a : KReg
  any : Bool
  clr : Bool
  scope : Scope
  deriving DecidableEq, Repr

structure EvtestW where
  ctl : Ctl
  d : KReg
  a : KReg
  any : Bool
  clr : Bool
  scope : Scope
  deriving DecidableEq, Repr

/-- RPUT, RGET, RCUR (R169). -/
structure RingW where
  ctl : Ctl
  d : KReg
  a : KReg
  b : KReg
  scope : Scope
  cons : BitVec 3
  vt : Bool
  deriving DecidableEq, Repr

/-- A word whose one operand is a k register (WLSORT, STAMP, SLEEP). -/
structure KaW where
  ctl : Ctl
  a : KReg
  deriving DecidableEq, Repr

/-- WLPUSH and WLINS (R172). -/
structure WlpushW where
  ctl : Ctl
  a : KReg
  b : VReg
  deriving DecidableEq, Repr

structure WlpopW where
  ctl : Ctl
  d : VReg
  ap : ApReg
  a : KReg
  deriving DecidableEq, Repr

/-- A word with a k destination and a k source (WLCNT, CPYQ, XCNT). -/
structure KdaW where
  ctl : Ctl
  d : KReg
  a : KReg
  deriving DecidableEq, Repr

structure SetshapeW where
  ctl : Ctl
  fs : SlotReg
  s : ShapeReg
  a : KReg
  b : KReg
  c : KReg
  twin : Bool
  deriving DecidableEq, Repr

structure GetshapeW where
  ctl : Ctl
  s : ShapeReg
  a : KReg
  deriving DecidableEq, Repr

structure WloadW where
  ctl : Ctl
  fs : SlotReg
  s : ShapeReg
  a : KReg
  b : KReg
  c : KReg
  twin : Bool
  lk : Bool
  ln : Bool
  deriving DecidableEq, Repr

/-- MMA and MMAS (R178). -/
structure MmaW where
  ctl : Ctl
  fs : SlotReg
  s : ShapeReg
  t : TileReg
  a : KReg
  b : KReg
  twin : Bool
  lk : Bool
  lm : Bool
  deriving DecidableEq, Repr

/-- TACQ, TREL, TZERO (R178). -/
structure TileW where
  ctl : Ctl
  t : TileReg
  deriving DecidableEq, Repr

/-- TLD and TST with the controls of their c field (R191). -/
structure TmemW where
  ctl : Ctl
  fs : SlotReg
  s : ShapeReg
  t : TileReg
  a : KReg
  b : KReg
  sp : Space
  scope : Scope
  add : Bool
  ln : Bool
  lm : Bool
  ty : Ty
  deriving DecidableEq, Repr

/-- SIGHASH: h = H - 1, p = P - 1 (R178, R194). -/
structure SighashW where
  ctl : Ctl
  fs : SlotReg
  s : ShapeReg
  a : KReg
  b : KReg
  c : KReg
  h : BitVec 4
  p : BitVec 4
  lm : Bool
  deriving DecidableEq, Repr

structure SigrepW where
  ctl : Ctl
  fs : SlotReg
  s : ShapeReg
  a : KReg
  b : KReg
  c : KReg
  rule : RepRule
  lm : Bool
  deriving DecidableEq, Repr

structure SigscatW where
  ctl : Ctl
  fs : SlotReg
  s : ShapeReg
  t : TileReg
  a : KReg
  b : KReg
  ln : Bool
  lm : Bool
  ty : Ty
  deriving DecidableEq, Repr

/-- SIGBWD: spread = m[8] (R198). -/
structure SigbwdW where
  ctl : Ctl
  s : ShapeReg
  a : KReg
  b : KReg
  c : KReg
  spread : Bool
  lm : Bool
  ty : Ty
  deriving DecidableEq, Repr

structure QhistW where
  ctl : Ctl
  fs : SlotReg
  s : ShapeReg
  a : KReg
  b : KReg
  lk : Bool
  lm : Bool
  acc : Bool
  ty : Ty
  deriving DecidableEq, Repr

structure QscaleW where
  ctl : Ctl
  fs : SlotReg
  s : ShapeReg
  a : KReg
  b : KReg
  c : KReg
  p : Bool
  deriving DecidableEq, Repr

structure QcvtW where
  ctl : Ctl
  fs : SlotReg
  s : ShapeReg
  a : KReg
  b : KReg
  c : KReg
  lk : Bool
  lm : Bool
  ty : Ty
  deriving DecidableEq, Repr

/-- CPY, CPYT, CPYG, CPYS, CPYR (R201). -/
structure CopyW where
  ctl : Ctl
  ty : Ty
  d : KReg
  a : KReg
  b : KReg
  c : KReg
  src : Space
  dst : Space
  cw : Bool
  nt : Bool
  out : Bool
  deriving DecidableEq, Repr

/-- XLD, XST, XADD (R214). -/
structure XlistW where
  ctl : Ctl
  d : KReg
  a : KReg
  b : KReg
  c : KReg
  deriving DecidableEq, Repr

/-- XCUR, XNEXT, XRANGE: a and a run of two from b (R214). -/
structure XpairW where
  ctl : Ctl
  d : KReg
  a : KReg
  b : KReg
  deriving DecidableEq, Repr

structure XdenseW where
  ctl : Ctl
  d : KReg
  a : KReg
  b : KReg
  c : KReg
  sp : Space
  deriving DecidableEq, Repr

structure MergeW where
  ctl : Ctl
  d : KReg
  a : KReg
  b : VReg
  c : VReg
  st : ApReg
  drop0 : Bool
  sp : Space
  deriving DecidableEq, Repr

/-- TRAP and BKPT (R224). -/
structure TrapW where
  ctl : Ctl
  n : BitVec 7
  deriving DecidableEq, Repr

structure RftW where
  ctl : Ctl
  pools : Bool
  deriving DecidableEq, Repr

structure MovpW where
  ctl : Ctl
  d : KReg
  sr : BitVec 8
  deriving DecidableEq, Repr

/-- ICINV and TLBINV (R233). -/
structure InvW where
  ctl : Ctl
  all : Bool
  a : KReg
  b : KReg
  scope : Scope
  deriving DecidableEq, Repr

/-- An executor: a core and its context number 0 to 40 (R235). -/
structure ExecId where
  core : Nat
  ctx : Nat
  deriving DecidableEq, Repr

/-- Outcome of the check of what an event reads (R333 to R338): good; corrected; the unit fails its check in the store that holds it; the
64-byte DRAM block behind a cache slice fails (domain 7); or the check of a crossing fails, and the receiving copy is poisoned. -/
inductive Ecc where
  | good | corrected | uncorrectable | block | span
  deriving DecidableEq, Repr

/-- What an event performs of an operation: lanes, and of their 16-byte accesses the low half, the high half or both (R146, R254). -/
structure LanePart where
  lanes : BitVec 32
  halves : BitVec 2
  deriving DecidableEq, Repr

/-- Where a flit's replay runs, and whether the flit then arrives (R318). -/
structure Replay where
  port : Nat
  ok : Bool
  deriving DecidableEq, Repr

/-- What the debugger stops: an executor, or its whole workgroup (R175, R262). -/
structure StopTarget where
  x : ExecId
  whole : Bool
  deriving DecidableEq, Repr

/-- A breakpoint's context filter, all contexts or one, and whether it stops the whole workgroup (R308, R331). -/
structure StopFilter where
  ctx : Option Nat
  whole : Bool
  deriving DecidableEq, Repr

/-- Header of a fabric message that arrives: source endpoint, tag, channel and nflit as the header carries them; and whether the zero
fields of its layout, and the bytes beyond its layout, are zero (R313, R315). -/
structure MsgHdr where
  src : Nat
  tag : Nat
  vc : Nat
  nflit : Nat
  zero : Bool
  pad : Bool
  deriving DecidableEq, Repr

/-- The engines of a core that ocx can freeze (R332). -/
inductive Engine where
  | copy | matrix | index | workList | ring
  deriving DecidableEq, Repr

/-- The steps of the TQ9-A: every row of spec/opcode_table.json. -/
inductive Instr where
  -- moves (R97)
  | mov (w : Alu1) | movi (w : MoviW) | movl (w : MovlW) | movs (w : MovsW) | bck (w : BckW) | lanek (w : LanekW)
  -- integers (R98 to R101)
  | add (w : Alu2) | sub (w : Alu2) | mul (w : Alu2) | mulh (w : Alu2) | mad (w : Alu3) | add3 (w : Alu3)
  | div (w : Alu2) | rem (w : Alu2) | min (w : Alu2) | max (w : Alu2) | abs (w : Alu1) | neg (w : Alu1)
  | and (w : Alu2) | or (w : Alu2) | xor (w : Alu2) | not (w : Alu1)
  | shl (w : Alu2) | shr (w : Alu2) | sha (w : Alu2) | rot (w : Alu2) | popc (w : Alu1) | clz (w : Alu1)
  | brev (w : Alu1) | bfx (w : Alu3) | bfi (w : Alu3) | lea (w : LeaW)
  | addi (w : ImmW) | andi (w : ImmW) | ori (w : ImmW) | shli (w : ImmW)
  -- floats (R102 to R106)
  | fadd (w : Alu2) | fsub (w : Alu2) | fmul (w : Alu2) | fma (w : Alu3) | fmin (w : Alu2) | fmax (w : Alu2)
  | fdiv (w : Alu2) | fsqrt (w : Alu1) | rcpa (w : Alu1) | rsqa (w : Alu1)
  | fexp2 (w : Alu1) | flog2 (w : Alu1) | fsinpi (w : Alu1) | fcospi (w : Alu1)
  | fclass (w : Alu1) | frnd (w : Alu1) | fscale (w : Alu2) | frcp (w : Alu1)
  -- conversions, compares, apertures, cross-lane (R107 to R115)
  | cvt (w : CvtW) | pack (w : PackW) | unpk (w : PackW) | cmp (w : CmpW) | fcmp (w : CmpW) | sel (w : SelW)
  | aop (w : AopW) | acnt (w : AkW) | afirst (w : AkW) | amovk (w : AmovkW)
  | shfl (w : ShflW) | bcast (w : BcastW) | scan (w : ScanW) | reduce (w : ScanW) | shflx (w : ShflxW)
  -- sets (R118 to R132)
  | pdep (w : PdepW) | pext (w : PextW) | poolop (w : PoolopW) | pcnt (w : PkW) | pfirst (w : PkW)
  | pclr (w : PdW) | pfill (w : PdW) | pst (w : PmemW) | pld (w : PmemW)
  | apply (w : ApplyW) | applyw (w : ApplywW) | yieldh (w : Ctl) | release (w : ReleaseW)
  -- control (R133 to R139)
  | bra (w : BraW) | bany (w : BapW) | ball (w : BapW) | bnone (w : BapW) | bk (w : BkW)
  | call (w : CallW) | calli (w : CalliW) | ret (w : RetW) | exit (w : Ctl) | loop (w : CallW)
  | take (w : TakeW) | give (w : GiveW) | nop (w : Ctl) | stall (w : StallW) | yield (w : StallW)
  -- loads, stores, waits, fences (R140 to R156)
  | ld (w : MemW) | st (w : MemW) | ldx (w : MemW) | stx (w : MemW) | lds (w : MemW) | sts (w : MemW)
  | ldsx (w : MemW) | stsx (w : MemW) | ldv (w : MemW) | stv (w : MemW) | ldk (w : UmemW) | stk (w : UmemW)
  | lda (w : MemW) | stl (w : MemW) | waita (w : WaitaW) | pref (w : PrefW)
  | wait (w : WaitW) | fence (w : FenceW) | cwb (w : CacheW) | cinv (w : CacheW)
  -- atomics and synchronisation (R159 to R173)
  | atom (w : AtomW) | atomn (w : AtomW) | cas (w : CasW) | atoms (w : AtomW) | cass (w : CasW)
  | atomv (w : AtomW) | casv (w : CasW)
  | bar (w : BarW) | gbar (w : GbarW) | evset (w : EvsetW) | evclr (w : EvclrW) | evwait (w : EvwaitW)
  | evtest (w : EvtestW) | rput (w : RingW) | rget (w : RingW) | rcur (w : RingW)
  | wlsort (w : KaW) | wlpush (w : WlpushW) | wlpop (w : WlpopW) | wlins (w : WlpushW) | wlcnt (w : KdaW)
  -- shapes, matrix, Lens, quantising (R177 to R199, R208 to R211)
  | setshape (w : SetshapeW) | getshape (w : GetshapeW) | wload (w : WloadW) | wdrop (w : Ctl) | opfence (w : Ctl)
  | mma (w : MmaW) | mmas (w : MmaW) | tacq (w : TileW) | trel (w : TileW) | tzero (w : TileW)
  | tld (w : TmemW) | tst (w : TmemW) | sighash (w : SighashW) | sigrep (w : SigrepW) | sigscat (w : SigscatW)
  | sigbwd (w : SigbwdW) | qhist (w : QhistW) | qscale (w : QscaleW) | qcvt (w : QcvtW)
  -- copies, index engine, merge (R200 to R221)
  | cpy (w : CopyW) | cpyt (w : CopyW) | cpyg (w : CopyW) | cpys (w : CopyW) | cpyr (w : CopyW) | cpyq (w : KdaW)
  | xld (w : XlistW) | xst (w : XlistW) | xadd (w : XlistW) | xcur (w : XpairW) | xnext (w : XpairW)
  | xcnt (w : KdaW) | xdense (w : XdenseW) | xrange (w : XpairW) | merge (w : MergeW)
  -- system (R224 to R234)
  | trap (w : TrapW) | bkpt (w : TrapW) | rft (w : RftW) | movp (w : MovpW) | icinv (w : InvW) | tlbinv (w : InvW)
  | stamp (w : KaW) | sleep (w : KaW)
  -- device steps: clauses and executors
  | clauseFetch (x : ExecId) (fresh : Bool) (ecc : Ecc)
  | issueSlotAward (core : Nat)
  | resultLanding (x : ExecId)
  | clauseCommit (x : ExecId)
  | runAheadEnd (x : ExecId)
  | workgroupSave (core : Nat)
  | handlerEntry (x : ExecId)
  -- device steps: memory
  | loadComplete (x : ExecId) (op : Nat) (part : LanePart) (regs : BitVec 4) (ecc : Ecc)
  | storePerformed (x : ExecId) (op : Nat) (part : LanePart)
  | waitaTimeout (x : ExecId)
  | sleepTimeout (x : ExecId)
  | atomicPerformed (x : ExecId) (op : Nat) (order : List Nat) (ecc : Ecc)
  | l1Writeback (core : Nat) (ctx : Nat) (line : Nat) (drop : Bool)
  | markEviction (sector : Nat)
  -- device steps: engines
  | copyComplete (x : ExecId) (op : Nat) (ecc : Ecc)
  | matrixCommandPerformed (x : ExecId) (op : Nat) (badRow : Option Nat) (ecc : Ecc)
  | tacqHold (x : ExecId)
  | indexStep (x : ExecId) (op : Nat) (ecc : Ecc)
  | mergePerformed (x : ExecId) (op : Nat) (ecc : Ecc)
  | ringPublish (x : ExecId) (op : Nat)
  | ringReceive (x : ExecId) (op : Nat)
  | workListPerform (core : Nat)
  | workListSpill (core : Nat) (n : Nat) (refill : Bool)
  | applyRoundStart (core : Nat)
  | applyRoundEnd (core : Nat)
  | applywBlockEnd (x : ExecId)
  | coreFreed (core : Nat)
  -- device steps: launches and scheduling
  | doorbell (h : MsgHdr) (offset tail : Nat)
  | recordTake (q l : Nat)
  | launchRelease (cluster : Nat)
  | gangPlace (cluster : Nat)
  | launchRetire (gen : Nat)
  | targetReservation (gen : Nat)
  | reservationTimerExpiry (gen : Nat)
  | watchdogExpiry (core : Nat)
  | governorTick (cluster : Nat)
  -- device steps: pages and replay
  | pageAnswer (h : MsgHdr) (ctx reqid gen status : Nat)
  | workgroupRestore (reqid : Nat) (core : Nat)
  | shootdown (h : MsgHdr) (ctx number addr len : Nat)
  | shootdownAck (number : Nat)
  -- device steps that a cycle or a start brings about
  | startStep (fail : Option Nat) (unit : Nat) (downPorts : List Nat)
  | syncPacket (field : Nat)
  | pcSample (core : Nat)
  | limiterCompare (field : Nat) (current : Nat)
  | limiterRise (field : Nat)
  | coolantStep (tenths : Nat)
  -- device steps: fabric and host
  | hostMemoryWrite (h : MsgHdr) (addr : Nat) (data : List Byte)
  | hostMemoryRead (h : MsgHdr) (addr len : Nat)
  | peerAtomic (h : MsgHdr) (addr op ty : Nat) (x y : Word)
  | remoteResponse (h : MsgHdr) (status : Nat) (data : List Byte)
  | epochNotice (h : MsgHdr) (ep reason : Nat)
  | flitReplay (r : Replay)
  | linkDown (port : Nat)
  | portRetry (port : Nat) (ok : Bool)
  | interrupt (vector : Nat)
  | setQueueTable (h : MsgHdr) (addr : Nat)
  | setContextTable (h : MsgHdr) (addr : Nat)
  | setGovernorTable (h : MsgHdr) (addr : Nat)
  | setTraceDescriptor (h : MsgHdr) (addr ctx : Nat)
  | setHostEndpoint (h : MsgHdr) (ep : Nat)
  | permitPeer (h : MsgHdr) (ep : Nat)
  | revokePeer (h : MsgHdr) (ep : Nat)
  | startLevel (h : MsgHdr) (q l : Nat)
  | stopLevel (h : MsgHdr) (q l : Nat)
  | killContext (h : MsgHdr) (ctx : Nat)
  | bumpEpoch (h : MsgHdr) (ep : Nat)
  | readErrorLog (h : MsgHdr) (index : Nat)
  | readCounts (h : MsgHdr)
  | unknownManagementCommand (h : MsgHdr) (code : Nat)
  -- device steps: power, clocks, trace, integrity, debugger
  | coldStart
  | warmStart
  | warmStartPreserve
  | powerDown
  | throttle (n : Nat)
  | i3cRegisterWrite (reg : Nat) (value : Byte)
  | patrolRead (unit : Nat) (ecc : Ecc)
  | ocxInterrupt (t : StopTarget)
  | ocxResume (x : ExecId)
  | singleStep (x : ExecId)
  | engineFreeze (core : Nat) (e : Engine)
  | engineThaw (core : Nat) (e : Engine)
  | routeLost (ep : Nat)
  | messageDropped (src : Nat)
  | breakpointArm (core : Nat) (index : Nat) (addr : Word) (filter : StopFilter) (arm : Bool)
  deriving DecidableEq, Repr

end Sys2Proof
end

