-- ==== Sys2Proof/Machine/Forms.lean ====
section
/-! DEFINITION. Which forms of each instruction word the spec accepts (R75 to R85, R89 and each entry): the static part of the
illegal-instruction rules. What depends on the executor, the window or a register's value is checked when the word issues. -/

namespace Sys2Proof.Machine

/-- Types that occupy an even/odd pair of v registers (R54). -/
def tyIs64 : Ty → Bool
  | .b64 | .i64 | .n64 | .f64 => true
  | _ => false

/-- Packed types (R54). -/
def tyPacked : Ty → Bool
  | .f16x2 | .bf16x2 | .e4m3x4 | .e5m2x4 | .i8x4 => true
  | _ => false

/-- Scalar floating-point types. -/
def tyFloat : Ty → Bool
  | .f16 | .bf16 | .f32 | .f64 | .e4m3 | .e5m2 | .x80 => true
  | _ => false

/-- Signed integer types. -/
def tySigned : Ty → Bool
  | .i8 | .i16 | .i32 | .i64 => true
  | _ => false

/-- Width in bits of one value of the type in a register (R52, R54). -/
def tyBits : Ty → Nat
  | .b64 | .i64 | .n64 | .f64 => 64
  | .i16 | .n16 | .f16 | .bf16 => 16
  | .i8 | .n8 | .e4m3 | .e5m2 => 8
  | .x80 => 80
  | _ => 32

/-- Element size in bytes of a memory access (R142); x80 takes 16 bytes (R55). -/
def tyBytes : Ty → Nat
  | .x80 => 16
  | t => tyBits t / 8

/-- The register field check of R75 and R40: below 64 for a k register, even for a 64-bit v operand. -/
def regOk (u : Bool) (ty : Ty) (r : VReg) : Bool :=
  if u then decide (r.toNat < 64) else !tyIs64 ty || r.toNat % 2 == 0

/-- Rounding and saturation fields both zero (R76). -/
def plain (rnd : Rnd) (sat : Bool) : Bool := rnd == .rne && !sat

/-- A run of n k registers from r stays within k63 (R75). -/
def kRun (r : KReg) (n : Nat) : Bool := decide (r.toNat + n ≤ 64)

def isB (t : Ty) : Bool := t == .b32 || t == .b64
def isInt4 (t : Ty) : Bool := t == .i32 || t == .n32 || t == .i64 || t == .n64
def isF4 (t : Ty) : Bool := t == .f16 || t == .bf16 || t == .f32 || t == .f64

def alu1Ok (w : Alu1) : Bool := regOk w.u w.ty w.d && regOk w.u w.ty w.a
def alu2Ok (w : Alu2) : Bool := regOk w.u w.ty w.d && regOk w.u w.ty w.a && regOk w.u w.ty w.b
def alu3Ok (w : Alu3) : Bool :=
  regOk w.u w.ty w.d && regOk w.u w.ty w.a && regOk w.u w.ty w.b && regOk w.u w.ty w.c

/-- Integer words of R98 with two sources. -/
def int2Ok (packed sat : Bool) (w : Alu2) : Bool :=
  (isInt4 w.ty || (packed && w.ty == .i8x4)) && w.rnd == .rne && (sat || !w.sat) && alu2Ok w
def int3Ok (w : Alu3) : Bool := isInt4 w.ty && w.rnd == .rne && alu3Ok w
def bit2Ok (w : Alu2) : Bool := isB w.ty && plain w.rnd w.sat && alu2Ok w
/-- Shifts: the count b is a 32-bit operand (R98). -/
def shiftOk (w : Alu2) : Bool :=
  isB w.ty && plain w.rnd w.sat && regOk w.u w.ty w.d && regOk w.u w.ty w.a && regOk w.u .b32 w.b
/-- POPC and CLZ: the result is one 32-bit register (R98). -/
def countOk (w : Alu1) : Bool := isB w.ty && plain w.rnd w.sat && regOk w.u .b32 w.d && regOk w.u w.ty w.a
/-- BFX and BFI: pos and len are 32-bit operands (R100). -/
def fieldOk (w : Alu3) : Bool :=
  plain w.rnd w.sat && regOk w.u w.ty w.d && regOk w.u w.ty w.a && regOk w.u .b32 w.b && regOk w.u .b32 w.c
def absOk (w : Alu1) : Bool := (w.ty == .i32 || w.ty == .i64 || w.ty == .i8x4) && w.rnd == .rne && alu1Ok w

/-- Types of R102; packed types have no uniform form. -/
def f102 (u : Bool) (t : Ty) : Bool := isF4 t || ((t == .f16x2 || t == .bf16x2) && !u)
def fl2Ok (w : Alu2) : Bool := f102 w.u w.ty && !w.sat && alu2Ok w
def fmm2Ok (w : Alu2) : Bool := fl2Ok w && w.rnd == .rne
/-- One-source operations of R103. -/
def fl1Ok (w : Alu1) : Bool := isF4 w.ty && !w.sat && alu1Ok w
/-- Transcendentals of R105. -/
def trOk (w : Alu1) : Bool := (w.ty == .f16 || w.ty == .bf16 || w.ty == .f32) && plain w.rnd w.sat && alu1Ok w
/-- RCPA and RSQA (R106). -/
def approxOk (w : Alu1) : Bool := w.ty == .f32 && plain w.rnd w.sat && !w.u

/-- Types of CVT (R107). -/
def cvtTy : Ty → Bool
  | .b32 | .b64 | .x80 | .f16x2 | .bf16x2 | .e4m3x4 | .e5m2x4 | .i8x4 => false
  | _ => true
def cvtOk (w : CvtW) : Bool :=
  cvtTy w.ty && cvtTy w.src && regOk w.u w.ty w.d && regOk w.u w.src w.a &&
  (if tyFloat w.src then tyFloat w.ty || !w.sat else tyFloat w.ty || w.rnd == .rne)

/-- Pairs of PACK and UNPK (R108). -/
def packPair (p s : Ty) : Bool :=
  ((p == .f16x2 || p == .bf16x2 || p == .e4m3x4 || p == .e5m2x4) && s == .f32) || (p == .i8x4 && s == .i32)
/-- PACK rounds and saturates as an opcode, so both fields are its own in every pair (R76, R108). -/
def packOk (w : PackW) : Bool := packPair w.ty w.src
def unpkOk (w : PackW) : Bool := packPair w.ty w.src && plain w.rnd w.sat

def condOrder : Cond → Bool
  | .ord | .uno => false
  | _ => true
def cmpOk (w : CmpW) : Bool :=
  regOk w.u w.ty w.a && regOk w.u w.ty w.b &&
  ((isInt4 w.ty && condOrder w.cond) || (isB w.ty && (w.cond == .eq || w.cond == .ne)))
def fcmpOk (w : CmpW) : Bool := regOk w.u w.ty w.a && regOk w.u w.ty w.b && isF4 w.ty

def shflOk (w : ShflW) : Bool :=
  isB w.ty && regOk false w.ty w.d && regOk false w.ty w.a &&
  (if w.mode == .idx then w.delta == 0 else w.b == 0)

/-- Combinations of SCAN and REDUCE (R115). -/
def scanOk (w : ScanW) : Bool :=
  regOk false w.ty w.d && regOk false w.ty w.a &&
  (match w.op with
   | .add => (isInt4 w.ty && w.rnd == .rne) || (isF4 w.ty && !w.sat)
   | .min | .max => (isInt4 w.ty || isF4 w.ty) && plain w.rnd w.sat
   | .and | .or | .xor => isB w.ty && plain w.rnd w.sat)

/-- MOVS: registers 0x00 to 0x0E, with the type of their width (R48, R97). -/
def movsOk (w : MovsW) : Bool :=
  decide (w.sr.toNat ≤ 0x0E) && regOk w.u w.ty w.d &&
  (if w.sr == 0x08 || w.sr == 0x0A || w.sr == 0x0E then w.ty == .b64 else w.ty == .b32)

/-- The index of an M-form word (R82, R143). -/
def indexOk : Index → Bool
  | .lane => true
  | .reg b iw _ _ => b != 0xFF && (iw != 3 || b.toNat % 2 == 0)

/-- Per-lane loads and stores of R142. -/
def memOk (w : MemW) : Bool := w.ty != .x80 && regOk false w.ty w.d && indexOk w.idx
def memLocalOk (w : MemW) : Bool := memOk w && w.scope == .thread && !w.nt
def memXOk (w : MemW) : Bool := w.ty == .b32 && w.d.toNat % 4 == 0 && indexOk w.idx
def memXLocalOk (w : MemW) : Bool := memXOk w && w.scope == .thread && !w.nt
def memSyncOk (w : MemW) : Bool := isB w.ty && memOk w
def umemOk (w : UmemW) : Bool :=
  w.ty != .x80 && !tyPacked w.ty && (w.sp == .gl || (w.scope == .thread && !w.nt))

/-- Pairings of operation and type (R161). -/
def atomTy (op : AtomOp) (t : Ty) : Bool :=
  match op with
  | .add => isInt4 t || t == .f32 || t == .f64 || t == .f16x2 || t == .bf16x2
  | .min | .max => isInt4 t || t == .f32 || t == .f64
  | .and | .or | .xor | .exch => isB t
  | .inc | .dec => t == .n32 || t == .n64
def tyFp (t : Ty) : Bool := tyFloat t || t == .f16x2 || t == .bf16x2
def atomOk (w : AtomW) : Bool :=
  atomTy w.op w.ty && regOk false w.ty w.d && indexOk w.idx && (!w.ra || (w.op == .add && tyFp w.ty))
def casOk (w : CasW) : Bool :=
  isB w.ty && indexOk w.idx && (if w.ty == .b64 then w.d.toNat % 4 == 0 else w.d.toNat % 2 == 0)

def scopeFrom (n : Nat) (s : Scope) : Bool :=
  match s with
  | .thread => decide (n ≤ 0)
  | .warp => decide (n ≤ 1)
  | .wg => decide (n ≤ 2)
  | .cluster => decide (n ≤ 3)
  | .field => decide (n ≤ 4)
  | .device => decide (n ≤ 5)
  | .system => decide (n ≤ 6)

def tldTy (t : Ty) : Bool := t == .i32 || t == .f16 || t == .bf16 || t == .f32 || t == .f64 || t == .x80
def tstTy (t : Ty) : Bool := tldTy t || t == .i8 || t == .n8 || t == .e4m3 || t == .e5m2

/-- Copy words: space pairs, nt, out and ty (R201, R202). -/
def copyBase (w : CopyW) : Bool := (!w.nt || w.src == .gl || w.dst == .gl)
def cpyrTy (t : Ty) : Bool := isInt4 t || t == .f32 || t == .f64 || t == .f16x2 || t == .bf16x2

/-- I-form registers are v registers in a warp and k registers in the headspring (R76, R95): either reading may accept them, and
the executor's own is checked when the word issues. -/
def immRegs (u : Bool) (w : ImmW) : Bool := regOk u w.ty w.d && regOk u w.ty w.a
def immOk (w : ImmW) : Bool := immRegs false w || immRegs true w

/-- Does the spec accept the word's static form? A device step has no encoding and every form of it is accepted. -/
def formOk : Instr → Bool
  | .mov w => isB w.ty && plain w.rnd w.sat && alu1Ok w
  | .movi w => isB w.ty && (regOk false w.ty w.d || regOk true w.ty w.d)
  | .movl w => isB w.ty && regOk w.u w.ty w.d
  | .movs w => movsOk w
  | .bck w => isB w.ty && regOk false w.ty w.d
  | .lanek w => isB w.ty && regOk false w.ty w.a
  | .add w | .sub w => int2Ok true true w
  | .mul w => int2Ok false true w
  | .mulh w | .div w | .rem w => int2Ok false false w
  | .mad w | .add3 w => int3Ok w
  | .min w | .max w => int2Ok true false w
  | .abs w | .neg w => absOk w
  | .and w | .or w | .xor w => bit2Ok w
  | .not w | .brev w => isB w.ty && plain w.rnd w.sat && alu1Ok w
  | .shl w | .shr w | .sha w | .rot w => shiftOk w
  | .popc w | .clz w => countOk w
  | .bfx w => isInt4 w.ty && fieldOk w
  | .bfi w => isB w.ty && fieldOk w
  | .lea w => (w.ty == .n32 || w.ty == .n64) && regOk w.u w.ty w.d && regOk w.u w.ty w.a && regOk w.u .b32 w.b
  | .addi w => isInt4 w.ty && immOk w
  | .andi w | .ori w => isB w.ty && immOk w
  | .shli w => isB w.ty && immOk w && decide (w.imm.toNat < tyBits w.ty)
  | .fadd w | .fsub w | .fmul w => fl2Ok w
  | .fma w => f102 w.u w.ty && !w.sat && alu3Ok w
  | .fmin w | .fmax w => fmm2Ok w
  | .fdiv w => isF4 w.ty && !w.sat && alu2Ok w
  | .fsqrt w | .frnd w | .frcp w => fl1Ok w
  | .rcpa w | .rsqa w => approxOk w
  | .fexp2 w | .flog2 w | .fsinpi w | .fcospi w => trOk w
  | .fclass w => isF4 w.ty && plain w.rnd w.sat && regOk w.u .b32 w.d && regOk w.u w.ty w.a
  | .fscale w => isF4 w.ty && !w.sat && regOk w.u w.ty w.d && regOk w.u w.ty w.a && regOk w.u .b32 w.b
  | .cvt w => cvtOk w
  | .pack w => packOk w
  | .unpk w => unpkOk w
  | .cmp w => cmpOk w
  | .fcmp w => fcmpOk w
  | .sel w => isB w.ty && regOk false w.ty w.d && regOk false w.ty w.a && regOk false w.ty w.b
  | .aop _ | .acnt _ | .afirst _ | .amovk _ => true
  | .shfl w => shflOk w
  | .bcast w => isB w.ty && regOk false w.ty w.d && regOk false w.ty w.a
  | .scan w => scanOk w
  | .reduce w => scanOk w && !w.excl
  | .shflx w => w.a.toNat % 2 == 0
  | .pdep _ | .pext _ | .poolop _ | .pcnt _ | .pfirst _ | .pclr _ | .pfill _ | .pst _ | .pld _ => true
  | .apply w => w.cn != 0 || w.cs == 0
  | .applyw _ | .yieldh _ => true
  | .release w => !w.all || w.pa == 0
  | .bra _ | .bany _ | .ball _ | .bnone _ => true
  | .bk w => condOrder w.cc
  | .call _ | .loop _ => true
  | .calli w => if w.u then decide (w.a.toNat < 64) else w.a.toNat % 2 == 0
  | .ret _ | .exit _ | .take _ | .give _ | .nop _ | .stall _ | .yield _ => true
  | .ld w | .st w => memOk w
  | .ldx w | .stx w => memXOk w
  | .lds w | .sts w | .ldv w | .stv w => memLocalOk w
  | .ldsx w | .stsx w => memXLocalOk w
  | .ldk w | .stk w => umemOk w
  | .lda w | .stl w => memSyncOk w
  | .waita w => w.sp == .gl || w.scope == .thread
  | .pref w => w.ty != .x80 && indexOk w.idx
  | .wait _ | .fence _ => true
  | .cwb w | .cinv w => !w.all || (w.a == 0 && w.b == 0)
  | .atom w | .atomn w => atomOk w
  | .atoms w | .atomv w => atomOk w && w.scope == .thread
  | .cas w => casOk w
  | .cass w | .casv w => casOk w && w.scope == .thread
  | .bar w => decide (1 ≤ w.n.toNat) && decide (w.n.toNat ≤ 41) && scopeFrom 2 w.scope
  | .gbar w => scopeFrom 3 w.scope
  | .evset w => scopeFrom 3 w.scope && kRun w.a 4
  | .evclr w => kRun w.a 4
  | .evwait w => scopeFrom 3 w.scope && kRun w.a 4
  | .evtest w => scopeFrom 3 w.scope && kRun w.a 4
  | .rput w => scopeFrom 3 w.scope && w.cons == 0
  | .rget w | .rcur w => scopeFrom 3 w.scope
  | .wlsort _ | .wlpush _ | .wlpop _ | .wlins _ | .wlcnt _ => true
  | .setshape _ => true
  | .getshape w => kRun w.a 4
  | .wload _ | .wdrop _ | .opfence _ => true
  | .mma w | .mmas w => !w.twin || w.t.toNat % 2 == 0
  | .tacq _ | .trel _ | .tzero _ => true
  | .tld w => tldTy w.ty && w.scope == .thread && !w.add
  | .tst w => tstTy w.ty && (if w.sp == .gl then scopeFrom 3 w.scope else w.scope == .thread)
  | .sighash w => decide (3 ≤ w.h.toNat) && decide (w.p.toNat ≤ w.h.toNat)
  | .sigrep w => kRun w.a 3
  | .sigscat w => tstTy w.ty
  | .sigbwd w => w.ty == .f16 || w.ty == .bf16 || w.ty == .f32
  | .qhist w => isF4 w.ty
  | .qscale w => w.p || w.c == 0
  | .qcvt w => isF4 w.ty
  | .cpy w => copyBase w && w.ty == .b32 && !w.out && kRun w.c 2
  | .cpyt w => copyBase w && w.ty == .b32 && kRun w.c 2
  | .cpyg w => copyBase w && w.ty == .b32 && !w.out && kRun w.c 3 && w.src != .sp && w.dst == .sp
  | .cpys w => copyBase w && w.ty == .b32 && !w.out && kRun w.c 3 && w.src == .sp && w.dst != .sp
  | .cpyr w => copyBase w && cpyrTy w.ty && !w.out && kRun w.c 2 && w.src == .sp
  | .cpyq _ => true
  | .xld w | .xst w | .xadd w => kRun w.b 2
  | .xcur w | .xnext w | .xrange w => kRun w.b 2
  | .xcnt _ | .xdense _ => true
  | .merge w => kRun w.a 6
  | .trap _ | .bkpt _ | .rft _ => true
  | .movp w => decide (0x80 ≤ w.sr.toNat) && decide (w.sr.toNat ≤ 0x85)
  | .icinv w | .tlbinv w =>
      scopeFrom 2 w.scope && w.scope != .system && (!w.all || (w.a == 0 && w.b == 0))
  | .stamp _ | .sleep _ => true
  | _ => true

/-- Is the row an instruction word (and not a device step)? -/
def isWord : Instr → Bool
  | .clauseFetch .. | .issueSlotAward .. | .resultLanding .. | .clauseCommit .. | .runAheadEnd .. | .workgroupSave ..
  | .handlerEntry .. | .loadComplete .. | .storePerformed .. | .waitaTimeout .. | .sleepTimeout ..
  | .atomicPerformed .. | .l1Writeback .. | .markEviction .. | .copyComplete .. | .matrixCommandPerformed ..
  | .tacqHold .. | .indexStep .. | .mergePerformed .. | .ringPublish .. | .ringReceive .. | .workListPerform ..
  | .workListSpill .. | .applyRoundStart .. | .applyRoundEnd .. | .applywBlockEnd .. | .coreFreed .. | .doorbell ..
  | .recordTake .. | .launchRelease .. | .gangPlace .. | .launchRetire .. | .targetReservation ..
  | .reservationTimerExpiry .. | .watchdogExpiry .. | .governorTick .. | .pageAnswer .. | .workgroupRestore ..
  | .shootdown .. | .shootdownAck .. | .hostMemoryWrite .. | .hostMemoryRead .. | .peerAtomic .. | .remoteResponse ..
  | .epochNotice .. | .flitReplay .. | .linkDown .. | .portRetry .. | .interrupt .. | .setQueueTable ..
  | .setContextTable .. | .setGovernorTable .. | .setTraceDescriptor .. | .setHostEndpoint .. | .permitPeer ..
  | .revokePeer .. | .startLevel .. | .stopLevel .. | .killContext .. | .bumpEpoch .. | .readErrorLog ..
  | .readCounts .. | .unknownManagementCommand .. | .coldStart | .warmStart | .warmStartPreserve | .powerDown
  | .throttle .. | .i3cRegisterWrite .. | .startStep .. | .limiterCompare .. | .limiterRise .. | .coolantStep ..
  | .syncPacket .. | .pcSample .. | .patrolRead .. | .ocxInterrupt .. | .ocxResume .. | .singleStep ..
  | .engineFreeze .. | .engineThaw .. | .routeLost .. | .messageDropped .. | .breakpointArm .. => false
  | _ => true

end Sys2Proof.Machine
end

