-- ==== Sys2Proof/WellFormed.lean ====
section
/-! DEFINITION. Well-formed instructions: the forms that the encodings of spec/05 and the entries admit. -/

namespace Sys2Proof

/-- An instruction word whose static form the spec accepts (R89 gives every other word the illegal-instruction trap). -/
abbrev WellFormed (i : Instr) : Prop := Machine.formOk i = true

end Sys2Proof
end

