-- ==== Sys2Proof/Decode.lean ====
section
/-! DEFINITION. The decoder and the encoder of instruction words (spec/05 R74 to R90 and the field tables of each entry). -/

namespace Sys2Proof

/-- Why a word is not an instruction (R89): each of these is the illegal-instruction trap when the word issues. -/
inductive DecodeErr where
  /-- The opcode stands in a "·" cell of R86. -/
  | unassigned
  /-- A type code from 0x16 to 0x1F (R77). -/
  | type
  /-- Scope code 7 (R78). -/
  | scope
  /-- A code of the entry's own fields that no row of the entry lists. -/
  | code
  /-- A non-zero bit that the layout keeps zero, or a register number beyond its range (R75, R76). -/
  | reserved
  /-- A form that the entry refuses (R40, R75, R76 and the entries). -/
  | form
  /-- An L-form word with no literal after it (R71). -/
  | literal
  /-- Fewer than eight bytes. -/
  | short
  deriving DecidableEq, Repr

/-- Bits [lo + n - 1 : lo] of a word. -/
abbrev fld (w : Word) (lo n : Nat) : BitVec n := w.extractLsb' lo n

/-- One bit of a word. -/
def bitOf (w : Word) (i : Nat) : Bool := fld w i 1 == 1#1
/-- A flag as one bit. -/
def bit (b : Bool) : BitVec 1 := if b then 1#1 else 0#1

-- codes of the enumerated fields

/-- R77. -/
def tyCode : Ty → BitVec 5
  | .b32 => 0x00 | .b64 => 0x01 | .i8 => 0x02 | .i16 => 0x03 | .i32 => 0x04 | .i64 => 0x05 | .n8 => 0x06 | .n16 => 0x07
  | .n32 => 0x08 | .n64 => 0x09 | .f16 => 0x0A | .bf16 => 0x0B | .f32 => 0x0C | .f64 => 0x0D | .e4m3 => 0x0E | .e5m2 => 0x0F
  | .x80 => 0x10 | .f16x2 => 0x11 | .bf16x2 => 0x12 | .e4m3x4 => 0x13 | .e5m2x4 => 0x14 | .i8x4 => 0x15
def tyOf (c : BitVec 5) : Except DecodeErr Ty :=
  match c.toNat with
  | 0x00 => .ok .b32 | 0x01 => .ok .b64 | 0x02 => .ok .i8 | 0x03 => .ok .i16 | 0x04 => .ok .i32 | 0x05 => .ok .i64
  | 0x06 => .ok .n8 | 0x07 => .ok .n16 | 0x08 => .ok .n32 | 0x09 => .ok .n64 | 0x0A => .ok .f16 | 0x0B => .ok .bf16
  | 0x0C => .ok .f32 | 0x0D => .ok .f64 | 0x0E => .ok .e4m3 | 0x0F => .ok .e5m2 | 0x10 => .ok .x80 | 0x11 => .ok .f16x2
  | 0x12 => .ok .bf16x2 | 0x13 => .ok .e4m3x4 | 0x14 => .ok .e5m2x4 | 0x15 => .ok .i8x4
  | _ => .error .type

/-- R57. -/
def rndCode : Rnd → BitVec 2
  | .rne => 0 | .rtz => 1 | .rup => 2 | .rdn => 3
def rndOf (c : BitVec 2) : Rnd :=
  match c.toNat with
  | 0 => .rne | 1 => .rtz | 2 => .rup | _ => .rdn

/-- R24. -/
def scopeCode : Scope → BitVec 3
  | .thread => 0 | .warp => 1 | .wg => 2 | .cluster => 3 | .field => 4 | .device => 5 | .system => 6
def scopeOf (c : BitVec 3) : Except DecodeErr Scope :=
  match c.toNat with
  | 0 => .ok .thread | 1 => .ok .warp | 2 => .ok .wg | 3 => .ok .cluster | 4 => .ok .field | 5 => .ok .device
  | 6 => .ok .system | _ => .error .scope

/-- R109. -/
def condCode : Cond → BitVec 4
  | .eq => 0 | .ne => 1 | .lt => 2 | .le => 3 | .gt => 4 | .ge => 5 | .ord => 6 | .uno => 7
def condOf (n : Nat) : Except DecodeErr Cond :=
  match n with
  | 0 => .ok .eq | 1 => .ok .ne | 2 => .ok .lt | 3 => .ok .le | 4 => .ok .gt | 5 => .ok .ge | 6 => .ok .ord
  | 7 => .ok .uno | _ => .error .code

/-- R112. -/
def shflCode : ShflMode → BitVec 2
  | .idx => 0 | .up => 1 | .down => 2 | .xor => 3
def shflOf (c : BitVec 2) : ShflMode :=
  match c.toNat with
  | 0 => .idx | 1 => .up | 2 => .down | _ => .xor

/-- R115. -/
def redCode : RedOp → BitVec 4
  | .add => 0 | .min => 1 | .max => 2 | .and => 3 | .or => 4 | .xor => 5
def redOf (c : BitVec 4) : Except DecodeErr RedOp :=
  match c.toNat with
  | 0 => .ok .add | 1 => .ok .min | 2 => .ok .max | 3 => .ok .and | 4 => .ok .or | 5 => .ok .xor | _ => .error .code

/-- R118. -/
def poolFnCode : PoolFn → BitVec 2
  | .or => 0 | .and => 1 | .andn => 2 | .xor => 3
def poolFnOf (c : BitVec 2) : PoolFn :=
  match c.toNat with
  | 0 => .or | 1 => .and | 2 => .andn | _ => .xor

/-- Space codes of the set, copy, index and tile words (R122, R191, R201). -/
def spaceCode : Space → BitVec 2
  | .sp => 0 | .gl => 1 | .vt => 2
def spaceOf (c : BitVec 2) : Except DecodeErr Space :=
  match c.toNat with
  | 0 => .ok .sp | 1 => .ok .gl | 2 => .ok .vt | _ => .error .code

/-- Space codes of LDK, STK and WAITA (R141). -/
def uspaceCode : Space → BitVec 2
  | .sp => 0 | .vt => 1 | .gl => 2
def uspaceOf (c : BitVec 2) : Except DecodeErr Space :=
  match c.toNat with
  | 0 => .ok .sp | 1 => .ok .vt | 2 => .ok .gl | _ => .error .code

/-- R153. -/
def fenceCode : FenceKind → BitVec 2
  | .acq => 0 | .rel => 1 | .acqrel => 2 | .sc => 3
def fenceOf (c : BitVec 2) : FenceKind :=
  match c.toNat with
  | 0 => .acq | 1 => .rel | 2 => .acqrel | _ => .sc

/-- R161. -/
def atomCode : AtomOp → BitVec 4
  | .add => 0 | .min => 1 | .max => 2 | .and => 3 | .or => 4 | .xor => 5 | .exch => 6 | .inc => 7 | .dec => 8
def atomOf (c : BitVec 4) : Except DecodeErr AtomOp :=
  match c.toNat with
  | 0 => .ok .add | 1 => .ok .min | 2 => .ok .max | 3 => .ok .and | 4 => .ok .or | 5 => .ok .xor | 6 => .ok .exch
  | 7 => .ok .inc | 8 => .ok .dec | _ => .error .code

/-- R196. -/
def repCode : RepRule → BitVec 2
  | .first => 0 | .mean => 1 | .maxnorm => 2
def repOf (c : BitVec 2) : Except DecodeErr RepRule :=
  match c.toNat with
  | 0 => .ok .first | 1 => .ok .mean | 2 => .ok .maxnorm | _ => .error .code

/-- R150. -/
def levelCode : PrefLevel → BitVec 8
  | .l1 => 0 | .slice => 1
def levelOf (c : BitVec 8) : Except DecodeErr PrefLevel :=
  match c.toNat with
  | 0 => .ok .l1 | 1 => .ok .slice | _ => .error .code

-- layouts

/-- Common layout (R74): m holds bits [13:3]. -/
def comWord (op : Byte) (x : Ctl) (ty : BitVec 5) (d a b c : BitVec 8) (m : BitVec 11) : Word :=
  op ++ x.g ++ bit x.n ++ ty ++ d ++ a ++ b ++ c ++ m ++ x.gap
/-- I form (R79). -/
def iWord (op : Byte) (x : Ctl) (ty : BitVec 5) (d a : BitVec 8) (imm : BitVec 27) : Word :=
  op ++ x.g ++ bit x.n ++ ty ++ d ++ a ++ imm ++ x.gap
/-- B form (R81). -/
def bWord (op : Byte) (x : Ctl) (d : BitVec 8) (cond : BitVec 4) (off : BitVec 27) : Word :=
  op ++ x.g ++ bit x.n ++ 0#5 ++ d ++ 0#4 ++ cond ++ off ++ x.gap
/-- M form (R82). -/
def mWord (op : Byte) (x : Ctl) (ty : BitVec 5) (d a b : BitVec 8) (scope : BitVec 3) (iw : BitVec 2) (sgn : BitVec 1)
    (sc : BitVec 3) (off : BitVec 9) (nt : BitVec 1) : Word :=
  op ++ x.g ++ bit x.n ++ ty ++ d ++ a ++ b ++ scope ++ iw ++ sgn ++ sc ++ off ++ nt ++ x.gap
/-- T form (R83): m holds bits [12:3]. -/
def tWord (op : Byte) (x : Ctl) (fs : SlotReg) (s : ShapeReg) (t : TileReg) (a b c : BitVec 8) (twin : BitVec 1)
    (m : BitVec 10) : Word :=
  op ++ x.g ++ bit x.n ++ fs ++ 0#2 ++ s ++ 0#2 ++ t ++ a ++ b ++ c ++ twin ++ m ++ x.gap
/-- S form (R84): m holds bits [30:3]. -/
def sWord (op : Byte) (x : Ctl) (pd pa pb ad ae : BitVec 4) (m : BitVec 28) : Word :=
  op ++ x.g ++ bit x.n ++ pd ++ pa ++ pb ++ ad ++ ae ++ m ++ x.gap

/-- A k register in an 8-bit field (R75). -/
def k8 (k : KReg) : BitVec 8 := 0#2 ++ k
/-- One aperture in an 8-bit field (R75). -/
def a8 (a : ApReg) : BitVec 8 := 0#4 ++ a

/-- Guard and gap of a word (R74). -/
def getC (w : Word) : Ctl := { g := fld w 52 4, n := bitOf w 51, gap := fld w 0 3 }
def getTy (w : Word) : Except DecodeErr Ty := tyOf (fld w 46 5)

/-- m[13:10] of an ALU word: k, rnd and sat (R76). -/
def aluM (u : Bool) (rnd : Rnd) (sat : Bool) (rest : BitVec 7) : BitVec 11 := bit u ++ rndCode rnd ++ bit sat ++ rest

def alu1Word (op : Byte) (w : Alu1) : Word := comWord op w.ctl (tyCode w.ty) w.d w.a 0 0 (aluM w.u w.rnd w.sat 0)
def getAlu1 (k : Alu1 → Instr) (w : Word) : Except DecodeErr Instr := do
  let ty ← getTy w
  return k { ctl := getC w, ty, u := bitOf w 13, rnd := rndOf (fld w 11 2), sat := bitOf w 10, d := fld w 38 8, a := fld w 30 8 }
def alu2Word (op : Byte) (w : Alu2) : Word := comWord op w.ctl (tyCode w.ty) w.d w.a w.b 0 (aluM w.u w.rnd w.sat 0)
def getAlu2 (k : Alu2 → Instr) (w : Word) : Except DecodeErr Instr := do
  let ty ← getTy w
  return k { ctl := getC w, ty, u := bitOf w 13, rnd := rndOf (fld w 11 2), sat := bitOf w 10, d := fld w 38 8, a := fld w 30 8,
             b := fld w 22 8 }
def alu3Word (op : Byte) (w : Alu3) : Word := comWord op w.ctl (tyCode w.ty) w.d w.a w.b w.c (aluM w.u w.rnd w.sat 0)
def getAlu3 (k : Alu3 → Instr) (w : Word) : Except DecodeErr Instr := do
  let ty ← getTy w
  return k { ctl := getC w, ty, u := bitOf w 13, rnd := rndOf (fld w 11 2), sat := bitOf w 10, d := fld w 38 8, a := fld w 30 8,
             b := fld w 22 8, c := fld w 14 8 }

def moviWord (op : Byte) (w : MoviW) : Word := iWord op w.ctl (tyCode w.ty) w.d 0 w.imm
def getMovi (k : MoviW → Instr) (w : Word) : Except DecodeErr Instr := do
  let ty ← getTy w
  return k { ctl := getC w, ty, d := fld w 38 8, imm := fld w 3 27 }
def immWord (op : Byte) (w : ImmW) : Word := iWord op w.ctl (tyCode w.ty) w.d w.a w.imm
def getImm (k : ImmW → Instr) (w : Word) : Except DecodeErr Instr := do
  let ty ← getTy w
  return k { ctl := getC w, ty, d := fld w 38 8, a := fld w 30 8, imm := fld w 3 27 }
def movlWord (op : Byte) (w : MovlW) : Word := comWord op w.ctl (tyCode w.ty) w.d 0 0 0 (aluM w.u .rne false 0)
def getMovl (w lit : Word) : Except DecodeErr Instr := do
  let ty ← getTy w
  return .movl { ctl := getC w, ty, u := bitOf w 13, d := fld w 38 8, lit }
def movsWord (op : Byte) (w : MovsW) : Word := comWord op w.ctl (tyCode w.ty) w.d w.sr 0 0 (aluM w.u .rne false 0)
def getMovs (k : MovsW → Instr) (w : Word) : Except DecodeErr Instr := do
  let ty ← getTy w
  return k { ctl := getC w, ty, u := bitOf w 13, d := fld w 38 8, sr := fld w 30 8 }
def bckWord (op : Byte) (w : BckW) : Word := comWord op w.ctl (tyCode w.ty) w.d (k8 w.a) 0 0 0
def getBck (k : BckW → Instr) (w : Word) : Except DecodeErr Instr := do
  let ty ← getTy w
  return k { ctl := getC w, ty, d := fld w 38 8, a := fld w 30 6 }
def lanekWord (op : Byte) (w : LanekW) : Word := comWord op w.ctl (tyCode w.ty) (k8 w.d) w.a 0 0 0
def getLanek (k : LanekW → Instr) (w : Word) : Except DecodeErr Instr := do
  let ty ← getTy w
  return k { ctl := getC w, ty, d := fld w 38 6, a := fld w 30 8 }
/-- LEA: sh in m[5:3], sx in m[6] (R98). -/
def leaWord (op : Byte) (w : LeaW) : Word :=
  comWord op w.ctl (tyCode w.ty) w.d w.a w.b 0 (bit w.u ++ 0#6 ++ bit w.sx ++ w.sh)
def getLea (k : LeaW → Instr) (w : Word) : Except DecodeErr Instr := do
  let ty ← getTy w
  return k { ctl := getC w, ty, u := bitOf w 13, sh := fld w 3 3, sx := bitOf w 6, d := fld w 38 8, a := fld w 30 8, b := fld w 22 8 }
/-- CVT: source type in m[9:5] (R107). -/
def cvtWord (op : Byte) (w : CvtW) : Word :=
  comWord op w.ctl (tyCode w.ty) w.d w.a 0 0 (aluM w.u w.rnd w.sat (tyCode w.src ++ 0#2))
def getCvt (k : CvtW → Instr) (w : Word) : Except DecodeErr Instr := do
  let ty ← getTy w
  let src ← tyOf (fld w 5 5)
  return k { ctl := getC w, ty, src, u := bitOf w 13, rnd := rndOf (fld w 11 2), sat := bitOf w 10, d := fld w 38 8, a := fld w 30 8 }
def packWord (op : Byte) (w : PackW) : Word :=
  comWord op w.ctl (tyCode w.ty) w.d w.a 0 0 (aluM false w.rnd w.sat (tyCode w.src ++ 0#2))
def getPack (k : PackW → Instr) (w : Word) : Except DecodeErr Instr := do
  let ty ← getTy w
  let src ← tyOf (fld w 5 5)
  return k { ctl := getC w, ty, src, rnd := rndOf (fld w 11 2), sat := bitOf w 10, d := fld w 38 8, a := fld w 30 8 }
/-- CMP and FCMP: condition in m[9:6], true aperture in d[3:0], false aperture in d[7:4] (R109). -/
def cmpWord (op : Byte) (w : CmpW) : Word :=
  comWord op w.ctl (tyCode w.ty) (w.f ++ w.t) w.a w.b 0 (aluM w.u .rne false (condCode w.cond ++ 0#3))
def getCmp (k : CmpW → Instr) (w : Word) : Except DecodeErr Instr := do
  let ty ← getTy w
  let cond ← condOf (fld w 6 4).toNat
  return k { ctl := getC w, ty, u := bitOf w 13, cond, t := fld w 38 4, f := fld w 42 4, a := fld w 30 8, b := fld w 22 8 }
def selWord (op : Byte) (w : SelW) : Word := comWord op w.ctl (tyCode w.ty) w.d w.a w.b (a8 w.sel) 0
def getSel (k : SelW → Instr) (w : Word) : Except DecodeErr Instr := do
  let ty ← getTy w
  return k { ctl := getC w, ty, d := fld w 38 8, a := fld w 30 8, b := fld w 22 8, sel := fld w 14 4 }
/-- AOP: truth table in m[6:3] (R111). -/
def aopWord (op : Byte) (w : AopW) : Word := comWord op w.ctl 0 (a8 w.d) (a8 w.a) (a8 w.b) 0 (0#7 ++ w.tt)
def getAop (k : AopW → Instr) (w : Word) : Except DecodeErr Instr :=
  .ok (k { ctl := getC w, tt := fld w 3 4, d := fld w 38 4, a := fld w 30 4, b := fld w 22 4 })
def akWord (op : Byte) (w : AkW) : Word := comWord op w.ctl 0 (k8 w.d) (a8 w.a) 0 0 0
def getAk (k : AkW → Instr) (w : Word) : Except DecodeErr Instr :=
  .ok (k { ctl := getC w, d := fld w 38 6, a := fld w 30 4 })
/-- AMOVK: m[3] is 1 for `.toa` (R111). -/
def amovkWord (op : Byte) (w : AmovkW) : Word :=
  if w.toA then comWord op w.ctl 0 (a8 w.ap) (k8 w.k) 0 0 (0#10 ++ 1#1)
  else comWord op w.ctl 0 (k8 w.k) (a8 w.ap) 0 0 0
def getAmovk (k : AmovkW → Instr) (w : Word) : Except DecodeErr Instr :=
  if bitOf w 3 then .ok (k { ctl := getC w, toA := true, k := fld w 30 6, ap := fld w 38 4 })
  else .ok (k { ctl := getC w, toA := false, k := fld w 38 6, ap := fld w 30 4 })
/-- SHFL: mode in m[4:3], delta in m[9:5] (R112). -/
def shflWord (op : Byte) (w : ShflW) : Word :=
  comWord op w.ctl (tyCode w.ty) w.d w.a w.b 0 (0#4 ++ w.delta ++ shflCode w.mode)
def getShfl (k : ShflW → Instr) (w : Word) : Except DecodeErr Instr := do
  let ty ← getTy w
  return k { ctl := getC w, ty, mode := shflOf (fld w 3 2), delta := fld w 5 5, d := fld w 38 8, a := fld w 30 8, b := fld w 22 8 }
def bcastWord (op : Byte) (w : BcastW) : Word := comWord op w.ctl (tyCode w.ty) w.d w.a (k8 w.k) 0 0
def getBcast (k : BcastW → Instr) (w : Word) : Except DecodeErr Instr := do
  let ty ← getTy w
  return k { ctl := getC w, ty, d := fld w 38 8, a := fld w 30 8, k := fld w 22 6 }
/-- SCAN and REDUCE: op in m[6:3], `.excl` in m[7] (R115). -/
def scanWord (op : Byte) (w : ScanW) : Word :=
  comWord op w.ctl (tyCode w.ty) w.d w.a 0 0 (aluM false w.rnd w.sat (0#2 ++ bit w.excl ++ redCode w.op))
def getScan (k : ScanW → Instr) (w : Word) : Except DecodeErr Instr := do
  let ty ← getTy w
  let op ← redOf (fld w 3 4)
  return k { ctl := getC w, ty, op, excl := bitOf w 7, rnd := rndOf (fld w 11 2), sat := bitOf w 10, d := fld w 38 8, a := fld w 30 8 }
/-- SHFLX takes b32 only (R113). -/
def shflxWord (op : Byte) (w : ShflxW) : Word := comWord op w.ctl (tyCode .b32) w.d w.a w.b 0 0
def getShflx (k : ShflxW → Instr) (w : Word) : Except DecodeErr Instr :=
  .ok (k { ctl := getC w, d := fld w 38 8, a := fld w 30 8, b := fld w 22 8 })

-- S form (R84, R118, R122, R125)
def pdepWord (op : Byte) (w : PdepW) : Word := sWord op w.ctl w.pd 0 0 0 w.ae 0
def getPdep (k : PdepW → Instr) (w : Word) : Except DecodeErr Instr :=
  .ok (k { ctl := getC w, pd := fld w 47 4, ae := fld w 31 4 })
def pextWord (op : Byte) (w : PextW) : Word := sWord op w.ctl 0 w.pa 0 w.ad 0 0
def getPext (k : PextW → Instr) (w : Word) : Except DecodeErr Instr :=
  .ok (k { ctl := getC w, ad := fld w 35 4, pa := fld w 43 4 })
/-- POOLOP: fn in [30:29] (R118). -/
def poolopWord (op : Byte) (w : PoolopW) : Word := sWord op w.ctl w.pd w.pa w.pb 0 0 (poolFnCode w.fn ++ 0#26)
def getPoolop (k : PoolopW → Instr) (w : Word) : Except DecodeErr Instr :=
  .ok (k { ctl := getC w, fn := poolFnOf (fld w 29 2), pd := fld w 47 4, pa := fld w 43 4, pb := fld w 39 4 })
/-- PCNT and PFIRST: kd in [30:25] (R118). -/
def pkWord (op : Byte) (w : PkW) : Word := sWord op w.ctl 0 w.pa 0 0 0 (w.kd ++ 0#22)
def getPk (k : PkW → Instr) (w : Word) : Except DecodeErr Instr :=
  .ok (k { ctl := getC w, kd := fld w 25 6, pa := fld w 43 4 })
def pdWord (op : Byte) (w : PdW) : Word := sWord op w.ctl w.pd 0 0 0 0 0
def getPd (k : PdW → Instr) (w : Word) : Except DecodeErr Instr := .ok (k { ctl := getC w, pd := fld w 47 4 })
/-- Bits [30:3] of PST and PLD (R122). -/
def pmemM (w : PmemW) : BitVec 28 := w.kB ++ spaceCode w.sp ++ scopeCode w.scope ++ w.off
def pstWord (op : Byte) (w : PmemW) : Word := sWord op w.ctl 0 w.p 0 0 0 (pmemM w)
def getPst (k : PmemW → Instr) (w : Word) : Except DecodeErr Instr := do
  let spc ← spaceOf (fld w 23 2)
  let scope ← scopeOf (fld w 20 3)
  return k { ctl := getC w, p := fld w 43 4, kB := fld w 25 6, sp := spc, scope, off := fld w 3 17 }
def pldWord (op : Byte) (w : PmemW) : Word := sWord op w.ctl w.p 0 0 0 0 (pmemM w)
def getPld (k : PmemW → Instr) (w : Word) : Except DecodeErr Instr := do
  let spc ← spaceOf (fld w 23 2)
  let scope ← scopeOf (fld w 20 3)
  return k { ctl := getC w, p := fld w 47 4, kB := fld w 25 6, sp := spc, scope, off := fld w 3 17 }
/-- Bits [30:3] of APPLY (R125). -/
def applyWord (op : Byte) (w : ApplyW) : Word :=
  sWord op w.ctl 0 w.pa 0 0 0 (w.kt ++ w.ev ++ w.cs ++ w.cn ++ bit w.rel)
def getApply (k : ApplyW → Instr) (w : Word) : Except DecodeErr Instr :=
  .ok (k { ctl := getC w, pa := fld w 43 4, kt := fld w 25 6, ev := fld w 17 8, cs := fld w 9 8, cn := fld w 4 5, rel := bitOf w 3 })
def applywWord (op : Byte) (w : ApplywW) : Word := sWord op w.ctl 0 w.pa 0 0 0 (w.kt ++ w.ev ++ 0#13 ++ bit w.rel)
def getApplyw (k : ApplywW → Instr) (w : Word) : Except DecodeErr Instr :=
  .ok (k { ctl := getC w, pa := fld w 43 4, kt := fld w 25 6, ev := fld w 17 8, rel := bitOf w 3 })
/-- RELEASE: `.all` in bit [3] (R124). -/
def releaseWord (op : Byte) (w : ReleaseW) : Word := sWord op w.ctl 0 w.pa 0 0 0 (0#27 ++ bit w.all)
def getRelease (k : ReleaseW → Instr) (w : Word) : Except DecodeErr Instr :=
  .ok (k { ctl := getC w, all := bitOf w 3, pa := fld w 43 4 })

-- words with no operand, and B form (R81, R133)
def ctlWord (op : Byte) (w : Ctl) : Word := comWord op w 0 0 0 0 0 0
def getCtl (k : Ctl → Instr) (w : Word) : Except DecodeErr Instr := .ok (k (getC w))
def braWord (op : Byte) (w : BraW) : Word := bWord op w.ctl 0 0 w.off
def getBra (k : BraW → Instr) (w : Word) : Except DecodeErr Instr := .ok (k { ctl := getC w, off := fld w 3 27 })
def bapWord (op : Byte) (w : BapW) : Word := bWord op w.ctl 0 w.ap w.off
def getBap (k : BapW → Instr) (w : Word) : Except DecodeErr Instr :=
  .ok (k { ctl := getC w, ap := fld w 30 4, off := fld w 3 27 })
/-- BK: the condition code in d, k0 to k15 in cond (R81, R133). -/
def bkWord (op : Byte) (w : BkW) : Word := bWord op w.ctl (0#4 ++ condCode w.cc) w.k w.off
def getBk (k : BkW → Instr) (w : Word) : Except DecodeErr Instr := do
  let cc ← condOf (fld w 38 8).toNat
  return k { ctl := getC w, cc, k := fld w 30 4, off := fld w 3 27 }
def callWord (op : Byte) (w : CallW) : Word := bWord op w.ctl (k8 w.d) 0 w.off
def getCall (k : CallW → Instr) (w : Word) : Except DecodeErr Instr :=
  .ok (k { ctl := getC w, d := fld w 38 6, off := fld w 3 27 })
def calliWord (op : Byte) (w : CalliW) : Word := comWord op w.ctl 0 (k8 w.d) w.a 0 0 (bit w.u ++ 0#10)
def getCalli (k : CalliW → Instr) (w : Word) : Except DecodeErr Instr :=
  .ok (k { ctl := getC w, u := bitOf w 13, d := fld w 38 6, a := fld w 30 8 })
def retWord (op : Byte) (w : RetW) : Word := comWord op w.ctl 0 0 (k8 w.a) 0 0 0
def getRet (k : RetW → Instr) (w : Word) : Except DecodeErr Instr := .ok (k { ctl := getC w, a := fld w 30 6 })
/-- TAKE: d the k register, c the aperture (R138: `take kd, ac`). -/
def takeWord (op : Byte) (w : TakeW) : Word := comWord op w.ctl 0 (k8 w.d) 0 0 (a8 w.ap) 0
def getTake (k : TakeW → Instr) (w : Word) : Except DecodeErr Instr :=
  .ok (k { ctl := getC w, d := fld w 38 6, ap := fld w 14 4 })
def giveWord (op : Byte) (w : GiveW) : Word := comWord op w.ctl 0 0 (k8 w.a) (k8 w.b) 0 0
def getGive (k : GiveW → Instr) (w : Word) : Except DecodeErr Instr :=
  .ok (k { ctl := getC w, a := fld w 30 6, b := fld w 22 6 })
/-- STALL and YIELD: n in m[9:3] (R139). -/
def stallWord (op : Byte) (w : StallW) : Word := comWord op w.ctl 0 0 0 0 0 (0#4 ++ w.n)
def getStall (k : StallW → Instr) (w : Word) : Except DecodeErr Instr := .ok (k { ctl := getC w, n := fld w 3 7 })

-- M form (R82, R140, R141, R160)
def idxB : Index → BitVec 8
  | .lane => 0xFF | .reg b _ _ _ => b
def idxW : Index → BitVec 2
  | .lane => 0 | .reg _ iw _ _ => iw
def idxS : Index → BitVec 1
  | .lane => 0 | .reg _ _ s _ => bit s
def idxC : Index → BitVec 3
  | .lane => 0 | .reg _ _ _ sc => sc
def getIdx (w : Word) : Index :=
  if fld w 22 8 = 0xFF#8 then .lane else .reg (fld w 22 8) (fld w 17 2) (bitOf w 16) (fld w 13 3)
def memWord (op : Byte) (w : MemW) : Word :=
  mWord op w.ctl (tyCode w.ty) w.d (k8 w.a) (idxB w.idx) (scopeCode w.scope) (idxW w.idx) (idxS w.idx) (idxC w.idx) w.off (bit w.nt)
def getMem (k : MemW → Instr) (w : Word) : Except DecodeErr Instr := do
  let ty ← getTy w
  let scope ← scopeOf (fld w 19 3)
  return k { ctl := getC w, ty, d := fld w 38 8, a := fld w 30 6, idx := getIdx w, scope, off := fld w 4 9, nt := bitOf w 3 }
def prefWord (op : Byte) (w : PrefW) : Word :=
  mWord op w.ctl (tyCode w.ty) (levelCode w.lvl) (k8 w.a) (idxB w.idx) 0 (idxW w.idx) (idxS w.idx) (idxC w.idx) w.off (bit w.nt)
def getPref (k : PrefW → Instr) (w : Word) : Except DecodeErr Instr := do
  let ty ← getTy w
  let lvl ← levelOf (fld w 38 8)
  return k { ctl := getC w, ty, lvl, a := fld w 30 6, idx := getIdx w, off := fld w 4 9, nt := bitOf w 3 }
def umemWord (op : Byte) (w : UmemW) : Word :=
  mWord op w.ctl (tyCode w.ty) (k8 w.d) (k8 w.a) 0 (scopeCode w.scope) (uspaceCode w.sp) 0 0 w.off (bit w.nt)
def getUmem (k : UmemW → Instr) (w : Word) : Except DecodeErr Instr := do
  let ty ← getTy w
  let scope ← scopeOf (fld w 19 3)
  let spc ← uspaceOf (fld w 17 2)
  return k { ctl := getC w, ty, d := fld w 38 6, a := fld w 30 6, sp := spc, scope, off := fld w 4 9, nt := bitOf w 3 }
/-- WAITA takes b32 only (R140). -/
def waitaWord (op : Byte) (w : WaitaW) : Word :=
  mWord op w.ctl (tyCode .b32) (k8 w.d) (k8 w.a) (k8 w.b) (scopeCode w.scope) (uspaceCode w.sp) 0 0 w.off 0
def getWaita (k : WaitaW → Instr) (w : Word) : Except DecodeErr Instr := do
  let scope ← scopeOf (fld w 19 3)
  let spc ← uspaceOf (fld w 17 2)
  return k { ctl := getC w, d := fld w 38 6, a := fld w 30 6, b := fld w 22 6, sp := spc, scope, off := fld w 4 9 }
/-- WAIT's thresholds (R154). -/
def waitWord (op : Byte) (w : WaitW) : Word :=
  op ++ w.ctl.g ++ bit w.ctl.n ++ 0#5 ++ 0#1 ++ w.l ++ 0#1 ++ w.s ++ 0#1 ++ w.c ++ 0#1 ++ w.t ++ 0#4 ++ w.x ++ w.ctl.gap
def getWait (k : WaitW → Instr) (w : Word) : Except DecodeErr Instr :=
  .ok (k { ctl := getC w, l := fld w 38 7, s := fld w 30 7, c := fld w 22 7, t := fld w 14 7, x := fld w 3 7 })
/-- FENCE: scope in m[7:5], kind in m[4:3] (R153). -/
def fenceWord (op : Byte) (w : FenceW) : Word :=
  comWord op w.ctl 0 0 0 0 0 (0#6 ++ scopeCode w.scope ++ fenceCode w.kind)
def getFence (k : FenceW → Instr) (w : Word) : Except DecodeErr Instr := do
  let scope ← scopeOf (fld w 5 3)
  return k { ctl := getC w, scope, kind := fenceOf (fld w 3 2) }
/-- CWB and CINV: `.all` in m[3] (R149). -/
def cacheWord (op : Byte) (w : CacheW) : Word := comWord op w.ctl 0 0 (k8 w.a) (k8 w.b) 0 (0#10 ++ bit w.all)
def getCache (k : CacheW → Instr) (w : Word) : Except DecodeErr Instr :=
  .ok (k { ctl := getC w, all := bitOf w 3, a := fld w 30 6, b := fld w 22 6 })
/-- Atomics: aop in [12:9], off5 in [8:4], `.ra` in [3] (R160). -/
def atomWord (op : Byte) (w : AtomW) : Word :=
  mWord op w.ctl (tyCode w.ty) w.d (k8 w.a) (idxB w.idx) (scopeCode w.scope) (idxW w.idx) (idxS w.idx) (idxC w.idx)
    (atomCode w.op ++ w.off) (bit w.ra)
def getAtom (k : AtomW → Instr) (w : Word) : Except DecodeErr Instr := do
  let ty ← getTy w
  let scope ← scopeOf (fld w 19 3)
  let op ← atomOf (fld w 9 4)
  return k { ctl := getC w, ty, d := fld w 38 8, a := fld w 30 6, idx := getIdx w, scope, op, off := fld w 4 5, ra := bitOf w 3 }
def casWord (op : Byte) (w : CasW) : Word :=
  mWord op w.ctl (tyCode w.ty) w.d (k8 w.a) (idxB w.idx) (scopeCode w.scope) (idxW w.idx) (idxS w.idx) (idxC w.idx)
    (0#4 ++ w.off) 0
def getCas (k : CasW → Instr) (w : Word) : Except DecodeErr Instr := do
  let ty ← getTy w
  let scope ← scopeOf (fld w 19 3)
  return k { ctl := getC w, ty, d := fld w 38 8, a := fld w 30 6, idx := getIdx w, scope, off := fld w 4 5 }

-- synchronising words (R164, R169, R172)
/-- BAR: the count in a, id in m[6:3], scope in m[9:7]. -/
def barWord (op : Byte) (w : BarW) : Word := comWord op w.ctl 0 0 w.n 0 0 (0#4 ++ scopeCode w.scope ++ w.id)
def getBar (k : BarW → Instr) (w : Word) : Except DecodeErr Instr := do
  let scope ← scopeOf (fld w 7 3)
  return k { ctl := getC w, n := fld w 30 8, id := fld w 3 4, scope }
def gbarWord (op : Byte) (w : GbarW) : Word := comWord op w.ctl 0 0 0 0 0 (0#4 ++ scopeCode w.scope ++ 0#2 ++ w.id)
def getGbar (k : GbarW → Instr) (w : Word) : Except DecodeErr Instr := do
  let scope ← scopeOf (fld w 7 3)
  return k { ctl := getC w, id := fld w 3 2, scope }
def evsetWord (op : Byte) (w : EvsetW) : Word := comWord op w.ctl 0 0 (k8 w.a) 0 0 (0#4 ++ scopeCode w.scope ++ 0#4)
def getEvset (k : EvsetW → Instr) (w : Word) : Except DecodeErr Instr := do
  let scope ← scopeOf (fld w 7 3)
  return k { ctl := getC w, a := fld w 30 6, scope }
def evclrWord (op : Byte) (w : EvclrW) : Word := comWord op w.ctl 0 0 (k8 w.a) 0 0 0
def getEvclr (k : EvclrW → Instr) (w : Word) : Except DecodeErr Instr := .ok (k { ctl := getC w, a := fld w 30 6 })
/-- EVWAIT and EVTEST: `.any` in m[3], `.clr` in m[4], scope in m[9:7]. -/
def evM (any clr : Bool) (scope : Scope) : BitVec 11 := 0#4 ++ scopeCode scope ++ 0#2 ++ bit clr ++ bit any
def evwaitWord (op : Byte) (w : EvwaitW) : Word := comWord op w.ctl 0 0 (k8 w.a) 0 0 (evM w.any w.clr w.scope)
def getEvwait (k : EvwaitW → Instr) (w : Word) : Except DecodeErr Instr := do
  let scope ← scopeOf (fld w 7 3)
  return k { ctl := getC w, a := fld w 30 6, any := bitOf w 3, clr := bitOf w 4, scope }
def evtestWord (op : Byte) (w : EvtestW) : Word := comWord op w.ctl 0 (k8 w.d) (k8 w.a) 0 0 (evM w.any w.clr w.scope)
def getEvtest (k : EvtestW → Instr) (w : Word) : Except DecodeErr Instr := do
  let scope ← scopeOf (fld w 7 3)
  return k { ctl := getC w, d := fld w 38 6, a := fld w 30 6, any := bitOf w 3, clr := bitOf w 4, scope }
/-- Rings: scope in m[9:7], cons in m[6:4], `.vt` in m[3] (R169). -/
def ringWord (op : Byte) (w : RingW) : Word :=
  comWord op w.ctl 0 (k8 w.d) (k8 w.a) (k8 w.b) 0 (0#4 ++ scopeCode w.scope ++ w.cons ++ bit w.vt)
def getRing (k : RingW → Instr) (w : Word) : Except DecodeErr Instr := do
  let scope ← scopeOf (fld w 7 3)
  return k { ctl := getC w, d := fld w 38 6, a := fld w 30 6, b := fld w 22 6, scope, cons := fld w 4 3, vt := bitOf w 3 }
def kaWord (op : Byte) (w : KaW) : Word := comWord op w.ctl 0 0 (k8 w.a) 0 0 0
def getKa (k : KaW → Instr) (w : Word) : Except DecodeErr Instr := .ok (k { ctl := getC w, a := fld w 30 6 })
def wlpushWord (op : Byte) (w : WlpushW) : Word := comWord op w.ctl 0 0 (k8 w.a) w.b 0 0
def getWlpush (k : WlpushW → Instr) (w : Word) : Except DecodeErr Instr :=
  .ok (k { ctl := getC w, a := fld w 30 6, b := fld w 22 8 })
def wlpopWord (op : Byte) (w : WlpopW) : Word := comWord op w.ctl 0 w.d (k8 w.a) 0 (a8 w.ap) 0
def getWlpop (k : WlpopW → Instr) (w : Word) : Except DecodeErr Instr :=
  .ok (k { ctl := getC w, d := fld w 38 8, ap := fld w 14 4, a := fld w 30 6 })
def kdaWord (op : Byte) (w : KdaW) : Word := comWord op w.ctl 0 (k8 w.d) (k8 w.a) 0 0 0
def getKda (k : KdaW → Instr) (w : Word) : Except DecodeErr Instr :=
  .ok (k { ctl := getC w, d := fld w 38 6, a := fld w 30 6 })

-- T form (R83, R178, R191, R208)
def setshapeWord (op : Byte) (w : SetshapeW) : Word := tWord op w.ctl w.fs w.s 0 (k8 w.a) (k8 w.b) (k8 w.c) (bit w.twin) 0
def getSetshape (k : SetshapeW → Instr) (w : Word) : Except DecodeErr Instr :=
  .ok (k { ctl := getC w, fs := fld w 48 3, s := fld w 42 4, a := fld w 30 6, b := fld w 22 6, c := fld w 14 6, twin := bitOf w 13 })
def getshapeWord (op : Byte) (w : GetshapeW) : Word := tWord op w.ctl 0 w.s 0 (k8 w.a) 0 0 0 0
def getGetshape (k : GetshapeW → Instr) (w : Word) : Except DecodeErr Instr :=
  .ok (k { ctl := getC w, s := fld w 42 4, a := fld w 30 6 })
def wloadWord (op : Byte) (w : WloadW) : Word :=
  tWord op w.ctl w.fs w.s 0 (k8 w.a) (k8 w.b) (k8 w.c) (bit w.twin) (bit w.lk ++ bit w.ln ++ 0#8)
def getWload (k : WloadW → Instr) (w : Word) : Except DecodeErr Instr :=
  .ok (k { ctl := getC w, fs := fld w 48 3, s := fld w 42 4, a := fld w 30 6, b := fld w 22 6, c := fld w 14 6,
           twin := bitOf w 13, lk := bitOf w 12, ln := bitOf w 11 })
def mmaWord (op : Byte) (w : MmaW) : Word :=
  tWord op w.ctl w.fs w.s w.t (k8 w.a) (k8 w.b) 0 (bit w.twin) (bit w.lk ++ 0#1 ++ bit w.lm ++ 0#7)
def getMma (k : MmaW → Instr) (w : Word) : Except DecodeErr Instr :=
  .ok (k { ctl := getC w, fs := fld w 48 3, s := fld w 42 4, t := fld w 38 2, a := fld w 30 6, b := fld w 22 6,
           twin := bitOf w 13, lk := bitOf w 12, lm := bitOf w 10 })
def tileWord (op : Byte) (w : TileW) : Word := tWord op w.ctl 0 0 w.t 0 0 0 0 0
def getTile (k : TileW → Instr) (w : Word) : Except DecodeErr Instr := .ok (k { ctl := getC w, t := fld w 38 2 })
/-- TLD and TST: the controls of R191 in c; `.ln` m[11], `.lm` m[10], type m[7:3]. -/
def tmemWord (op : Byte) (w : TmemW) : Word :=
  tWord op w.ctl w.fs w.s w.t (k8 w.a) (k8 w.b) (scopeCode w.scope ++ spaceCode w.sp ++ bit w.add ++ 0#2) 0
    (0#1 ++ bit w.ln ++ bit w.lm ++ 0#2 ++ tyCode w.ty)
def getTmem (k : TmemW → Instr) (w : Word) : Except DecodeErr Instr := do
  let scope ← scopeOf (fld w 19 3)
  let spc ← spaceOf (fld w 17 2)
  let ty ← tyOf (fld w 3 5)
  return k { ctl := getC w, fs := fld w 48 3, s := fld w 42 4, t := fld w 38 2, a := fld w 30 6, b := fld w 22 6, sp := spc, scope,
             add := bitOf w 16, ln := bitOf w 11, lm := bitOf w 10, ty }
/-- SIGHASH: H - 1 in m[12:9], P - 1 in m[8:5], `.lm` m[4]. -/
def sighashWord (op : Byte) (w : SighashW) : Word :=
  tWord op w.ctl w.fs w.s 0 (k8 w.a) (k8 w.b) (k8 w.c) 0 (w.h ++ w.p ++ bit w.lm ++ 0#1)
def getSighash (k : SighashW → Instr) (w : Word) : Except DecodeErr Instr :=
  .ok (k { ctl := getC w, fs := fld w 48 3, s := fld w 42 4, a := fld w 30 6, b := fld w 22 6, c := fld w 14 6,
           h := fld w 9 4, p := fld w 5 4, lm := bitOf w 4 })
/-- SIGREP: `.lm` m[5], rule m[4:3]. -/
def sigrepWord (op : Byte) (w : SigrepW) : Word :=
  tWord op w.ctl w.fs w.s 0 (k8 w.a) (k8 w.b) (k8 w.c) 0 (0#7 ++ bit w.lm ++ repCode w.rule)
def getSigrep (k : SigrepW → Instr) (w : Word) : Except DecodeErr Instr := do
  let rule ← repOf (fld w 3 2)
  return k { ctl := getC w, fs := fld w 48 3, s := fld w 42 4, a := fld w 30 6, b := fld w 22 6, c := fld w 14 6, rule,
             lm := bitOf w 5 }
def sigscatWord (op : Byte) (w : SigscatW) : Word :=
  tWord op w.ctl w.fs w.s w.t (k8 w.a) (k8 w.b) 0 0 (0#1 ++ bit w.ln ++ bit w.lm ++ 0#2 ++ tyCode w.ty)
def getSigscat (k : SigscatW → Instr) (w : Word) : Except DecodeErr Instr := do
  let ty ← tyOf (fld w 3 5)
  return k { ctl := getC w, fs := fld w 48 3, s := fld w 42 4, t := fld w 38 2, a := fld w 30 6, b := fld w 22 6,
             ln := bitOf w 11, lm := bitOf w 10, ty }
/-- SIGBWD: `.lm` m[10], direction m[8], type m[7:3]. -/
def sigbwdWord (op : Byte) (w : SigbwdW) : Word :=
  tWord op w.ctl 0 w.s 0 (k8 w.a) (k8 w.b) (k8 w.c) 0 (0#2 ++ bit w.lm ++ 0#1 ++ bit w.spread ++ tyCode w.ty)
def getSigbwd (k : SigbwdW → Instr) (w : Word) : Except DecodeErr Instr := do
  let ty ← tyOf (fld w 3 5)
  return k { ctl := getC w, s := fld w 42 4, a := fld w 30 6, b := fld w 22 6, c := fld w 14 6, spread := bitOf w 8,
             lm := bitOf w 10, ty }
/-- QHIST: `.lk` m[12], `.lm` m[10], `.acc` m[9], type m[7:3] (R208). -/
def qhistWord (op : Byte) (w : QhistW) : Word :=
  tWord op w.ctl w.fs w.s 0 (k8 w.a) (k8 w.b) 0 0 (bit w.lk ++ 0#1 ++ bit w.lm ++ bit w.acc ++ 0#1 ++ tyCode w.ty)
def getQhist (k : QhistW → Instr) (w : Word) : Except DecodeErr Instr := do
  let ty ← tyOf (fld w 3 5)
  return k { ctl := getC w, fs := fld w 48 3, s := fld w 42 4, a := fld w 30 6, b := fld w 22 6, lk := bitOf w 12,
             lm := bitOf w 10, acc := bitOf w 9, ty }
/-- QSCALE: `.p` m[9] (R208). -/
def qscaleWord (op : Byte) (w : QscaleW) : Word :=
  tWord op w.ctl w.fs w.s 0 (k8 w.a) (k8 w.b) (k8 w.c) 0 (0#3 ++ bit w.p ++ 0#6)
def getQscale (k : QscaleW → Instr) (w : Word) : Except DecodeErr Instr :=
  .ok (k { ctl := getC w, fs := fld w 48 3, s := fld w 42 4, a := fld w 30 6, b := fld w 22 6, c := fld w 14 6, p := bitOf w 9 })
def qcvtWord (op : Byte) (w : QcvtW) : Word :=
  tWord op w.ctl w.fs w.s 0 (k8 w.a) (k8 w.b) (k8 w.c) 0 (bit w.lk ++ 0#1 ++ bit w.lm ++ 0#2 ++ tyCode w.ty)
def getQcvt (k : QcvtW → Instr) (w : Word) : Except DecodeErr Instr := do
  let ty ← tyOf (fld w 3 5)
  return k { ctl := getC w, fs := fld w 48 3, s := fld w 42 4, a := fld w 30 6, b := fld w 22 6, c := fld w 14 6,
             lk := bitOf w 12, lm := bitOf w 10, ty }

-- C form (R85, R201, R214, R220) and system words (R224)
/-- Copies: src m[9:8], dst m[7:6], `.cw` m[5], `.nt` m[4], `.out` m[3] (R201). -/
def copyWord (op : Byte) (w : CopyW) : Word :=
  comWord op w.ctl (tyCode w.ty) (k8 w.d) (k8 w.a) (k8 w.b) (k8 w.c)
    (0#4 ++ spaceCode w.src ++ spaceCode w.dst ++ bit w.cw ++ bit w.nt ++ bit w.out)
def getCopy (k : CopyW → Instr) (w : Word) : Except DecodeErr Instr := do
  let ty ← getTy w
  let src ← spaceOf (fld w 8 2)
  let dst ← spaceOf (fld w 6 2)
  return k { ctl := getC w, ty, d := fld w 38 6, a := fld w 30 6, b := fld w 22 6, c := fld w 14 6, src, dst,
             cw := bitOf w 5, nt := bitOf w 4, out := bitOf w 3 }
def xlistWord (op : Byte) (w : XlistW) : Word := comWord op w.ctl 0 (k8 w.d) (k8 w.a) (k8 w.b) (k8 w.c) 0
def getXlist (k : XlistW → Instr) (w : Word) : Except DecodeErr Instr :=
  .ok (k { ctl := getC w, d := fld w 38 6, a := fld w 30 6, b := fld w 22 6, c := fld w 14 6 })
def xpairWord (op : Byte) (w : XpairW) : Word := comWord op w.ctl 0 (k8 w.d) (k8 w.a) (k8 w.b) 0 0
def getXpair (k : XpairW → Instr) (w : Word) : Except DecodeErr Instr :=
  .ok (k { ctl := getC w, d := fld w 38 6, a := fld w 30 6, b := fld w 22 6 })
/-- XDENSE: space in m[7:6] (R214). -/
def xdenseWord (op : Byte) (w : XdenseW) : Word :=
  comWord op w.ctl 0 (k8 w.d) (k8 w.a) (k8 w.b) (k8 w.c) (0#6 ++ spaceCode w.sp ++ 0#3)
def getXdense (k : XdenseW → Instr) (w : Word) : Except DecodeErr Instr := do
  let spc ← spaceOf (fld w 6 2)
  return k { ctl := getC w, d := fld w 38 6, a := fld w 30 6, b := fld w 22 6, c := fld w 14 6, sp := spc }
/-- MERGE: ty 0x0C, status in m[9:6], `.drop0` m[5], space m[4:3] (R220). -/
def mergeWord (op : Byte) (w : MergeW) : Word :=
  comWord op w.ctl 0x0C (k8 w.d) (k8 w.a) w.b w.c (0#4 ++ w.st ++ bit w.drop0 ++ spaceCode w.sp)
def getMerge (k : MergeW → Instr) (w : Word) : Except DecodeErr Instr := do
  let spc ← spaceOf (fld w 3 2)
  return k { ctl := getC w, d := fld w 38 6, a := fld w 30 6, b := fld w 22 8, c := fld w 14 8, st := fld w 6 4,
             drop0 := bitOf w 5, sp := spc }
def trapWord (op : Byte) (w : TrapW) : Word := comWord op w.ctl 0 0 0 0 0 (0#4 ++ w.n)
def getTrap (k : TrapW → Instr) (w : Word) : Except DecodeErr Instr := .ok (k { ctl := getC w, n := fld w 3 7 })
def rftWord (op : Byte) (w : RftW) : Word := comWord op w.ctl 0 0 0 0 0 (0#10 ++ bit w.pools)
def getRft (k : RftW → Instr) (w : Word) : Except DecodeErr Instr := .ok (k { ctl := getC w, pools := bitOf w 3 })
/-- MOVP takes ty 0x01 only (R224). -/
def movpWord (op : Byte) (w : MovpW) : Word := comWord op w.ctl 0x01 (k8 w.d) w.sr 0 0 0
def getMovp (k : MovpW → Instr) (w : Word) : Except DecodeErr Instr :=
  .ok (k { ctl := getC w, d := fld w 38 6, sr := fld w 30 8 })
/-- ICINV and TLBINV: scope in m[7:5], `.all` in m[3] (R224). -/
def invWord (op : Byte) (w : InvW) : Word :=
  comWord op w.ctl 0 0 (k8 w.a) (k8 w.b) 0 (0#6 ++ scopeCode w.scope ++ 0#1 ++ bit w.all)
def getInv (k : InvW → Instr) (w : Word) : Except DecodeErr Instr := do
  let scope ← scopeOf (fld w 5 3)
  return k { ctl := getC w, all := bitOf w 3, a := fld w 30 6, b := fld w 22 6, scope }

/-- Opcode and word of an instruction (R86); a device step has none. -/
def encode (i : Instr) : List Word :=
  match i with
  | .mov w => [alu1Word 0x01 w]
  | .movi w => [moviWord 0x02 w]
  | .movl w => [movlWord 0x03 w, w.lit]
  | .movs w => [movsWord 0x04 w]
  | .bck w => [bckWord 0x05 w]
  | .lanek w => [lanekWord 0x06 w]
  | .add w => [alu2Word 0x08 w]
  | .sub w => [alu2Word 0x09 w]
  | .mul w => [alu2Word 0x0A w]
  | .mulh w => [alu2Word 0x0B w]
  | .mad w => [alu3Word 0x0C w]
  | .add3 w => [alu3Word 0x0D w]
  | .div w => [alu2Word 0x0E w]
  | .rem w => [alu2Word 0x0F w]
  | .min w => [alu2Word 0x10 w]
  | .max w => [alu2Word 0x11 w]
  | .abs w => [alu1Word 0x12 w]
  | .neg w => [alu1Word 0x13 w]
  | .and w => [alu2Word 0x14 w]
  | .or w => [alu2Word 0x15 w]
  | .xor w => [alu2Word 0x16 w]
  | .not w => [alu1Word 0x17 w]
  | .shl w => [alu2Word 0x18 w]
  | .shr w => [alu2Word 0x19 w]
  | .sha w => [alu2Word 0x1A w]
  | .rot w => [alu2Word 0x1B w]
  | .popc w => [alu1Word 0x1C w]
  | .clz w => [alu1Word 0x1D w]
  | .brev w => [alu1Word 0x1E w]
  | .bfx w => [alu3Word 0x1F w]
  | .bfi w => [alu3Word 0x20 w]
  | .lea w => [leaWord 0x21 w]
  | .addi w => [immWord 0x22 w]
  | .andi w => [immWord 0x23 w]
  | .ori w => [immWord 0x24 w]
  | .shli w => [immWord 0x25 w]
  | .fadd w => [alu2Word 0x28 w]
  | .fsub w => [alu2Word 0x29 w]
  | .fmul w => [alu2Word 0x2A w]
  | .fma w => [alu3Word 0x2B w]
  | .fmin w => [alu2Word 0x2C w]
  | .fmax w => [alu2Word 0x2D w]
  | .fdiv w => [alu2Word 0x2E w]
  | .fsqrt w => [alu1Word 0x2F w]
  | .rcpa w => [alu1Word 0x30 w]
  | .rsqa w => [alu1Word 0x31 w]
  | .fexp2 w => [alu1Word 0x32 w]
  | .flog2 w => [alu1Word 0x33 w]
  | .fsinpi w => [alu1Word 0x34 w]
  | .fcospi w => [alu1Word 0x35 w]
  | .fclass w => [alu1Word 0x36 w]
  | .frnd w => [alu1Word 0x37 w]
  | .fscale w => [alu2Word 0x38 w]
  | .frcp w => [alu1Word 0x39 w]
  | .cvt w => [cvtWord 0x3A w]
  | .pack w => [packWord 0x3B w]
  | .unpk w => [packWord 0x3C w]
  | .cmp w => [cmpWord 0x40 w]
  | .fcmp w => [cmpWord 0x41 w]
  | .sel w => [selWord 0x42 w]
  | .aop w => [aopWord 0x43 w]
  | .acnt w => [akWord 0x44 w]
  | .afirst w => [akWord 0x45 w]
  | .amovk w => [amovkWord 0x46 w]
  | .shfl w => [shflWord 0x48 w]
  | .bcast w => [bcastWord 0x49 w]
  | .scan w => [scanWord 0x4A w]
  | .reduce w => [scanWord 0x4B w]
  | .shflx w => [shflxWord 0x4C w]
  | .pdep w => [pdepWord 0x50 w]
  | .pext w => [pextWord 0x51 w]
  | .poolop w => [poolopWord 0x52 w]
  | .pcnt w => [pkWord 0x53 w]
  | .pfirst w => [pkWord 0x54 w]
  | .pclr w => [pdWord 0x55 w]
  | .pfill w => [pdWord 0x56 w]
  | .pst w => [pstWord 0x57 w]
  | .pld w => [pldWord 0x58 w]
  | .apply w => [applyWord 0x59 w]
  | .applyw w => [applywWord 0x5A w]
  | .yieldh w => [ctlWord 0x5B w]
  | .release w => [releaseWord 0x5C w]
  | .bra w => [braWord 0x60 w]
  | .bany w => [bapWord 0x61 w]
  | .ball w => [bapWord 0x62 w]
  | .bnone w => [bapWord 0x63 w]
  | .bk w => [bkWord 0x64 w]
  | .call w => [callWord 0x65 w]
  | .calli w => [calliWord 0x66 w]
  | .ret w => [retWord 0x67 w]
  | .exit w => [ctlWord 0x68 w]
  | .loop w => [callWord 0x69 w]
  | .take w => [takeWord 0x6A w]
  | .give w => [giveWord 0x6B w]
  | .nop w => [ctlWord 0x6C w]
  | .stall w => [stallWord 0x6D w]
  | .yield w => [stallWord 0x6E w]
  | .ld w => [memWord 0x70 w]
  | .st w => [memWord 0x71 w]
  | .ldx w => [memWord 0x72 w]
  | .stx w => [memWord 0x73 w]
  | .lds w => [memWord 0x74 w]
  | .sts w => [memWord 0x75 w]
  | .ldsx w => [memWord 0x76 w]
  | .stsx w => [memWord 0x77 w]
  | .ldv w => [memWord 0x78 w]
  | .stv w => [memWord 0x79 w]
  | .ldk w => [umemWord 0x7A w]
  | .stk w => [umemWord 0x7B w]
  | .lda w => [memWord 0x7C w]
  | .stl w => [memWord 0x7D w]
  | .waita w => [waitaWord 0x7E w]
  | .pref w => [prefWord 0x7F w]
  | .wait w => [waitWord 0x80 w]
  | .fence w => [fenceWord 0x81 w]
  | .cwb w => [cacheWord 0x82 w]
  | .cinv w => [cacheWord 0x83 w]
  | .atom w => [atomWord 0x90 w]
  | .atomn w => [atomWord 0x91 w]
  | .cas w => [casWord 0x92 w]
  | .atoms w => [atomWord 0x93 w]
  | .cass w => [casWord 0x94 w]
  | .atomv w => [atomWord 0x95 w]
  | .casv w => [casWord 0x96 w]
  | .bar w => [barWord 0xA0 w]
  | .gbar w => [gbarWord 0xA1 w]
  | .evset w => [evsetWord 0xA2 w]
  | .evclr w => [evclrWord 0xA3 w]
  | .evwait w => [evwaitWord 0xA4 w]
  | .evtest w => [evtestWord 0xA5 w]
  | .rput w => [ringWord 0xA8 w]
  | .rget w => [ringWord 0xA9 w]
  | .rcur w => [ringWord 0xAA w]
  | .wlsort w => [kaWord 0xAB w]
  | .wlpush w => [wlpushWord 0xAC w]
  | .wlpop w => [wlpopWord 0xAD w]
  | .wlins w => [wlpushWord 0xAE w]
  | .wlcnt w => [kdaWord 0xAF w]
  | .setshape w => [setshapeWord 0xB0 w]
  | .getshape w => [getshapeWord 0xB1 w]
  | .wload w => [wloadWord 0xB4 w]
  | .wdrop w => [ctlWord 0xB5 w]
  | .opfence w => [ctlWord 0xB6 w]
  | .mma w => [mmaWord 0xB7 w]
  | .mmas w => [mmaWord 0xB8 w]
  | .tacq w => [tileWord 0xB9 w]
  | .trel w => [tileWord 0xBA w]
  | .tzero w => [tileWord 0xBB w]
  | .tld w => [tmemWord 0xBC w]
  | .tst w => [tmemWord 0xBD w]
  | .sighash w => [sighashWord 0xC0 w]
  | .sigrep w => [sigrepWord 0xC1 w]
  | .sigscat w => [sigscatWord 0xC3 w]
  | .sigbwd w => [sigbwdWord 0xC4 w]
  | .qhist w => [qhistWord 0xC6 w]
  | .qscale w => [qscaleWord 0xC7 w]
  | .qcvt w => [qcvtWord 0xC8 w]
  | .cpy w => [copyWord 0xD0 w]
  | .cpyt w => [copyWord 0xD1 w]
  | .cpyg w => [copyWord 0xD2 w]
  | .cpys w => [copyWord 0xD3 w]
  | .cpyr w => [copyWord 0xD4 w]
  | .cpyq w => [kdaWord 0xD5 w]
  | .xld w => [xlistWord 0xE0 w]
  | .xst w => [xlistWord 0xE1 w]
  | .xadd w => [xlistWord 0xE2 w]
  | .xcur w => [xpairWord 0xE3 w]
  | .xnext w => [xpairWord 0xE4 w]
  | .xcnt w => [kdaWord 0xE5 w]
  | .xdense w => [xdenseWord 0xE6 w]
  | .xrange w => [xpairWord 0xE7 w]
  | .merge w => [mergeWord 0xE8 w]
  | .trap w => [trapWord 0xF0 w]
  | .bkpt w => [trapWord 0xF1 w]
  | .rft w => [rftWord 0xF2 w]
  | .movp w => [movpWord 0xF3 w]
  | .icinv w => [invWord 0xF4 w]
  | .tlbinv w => [invWord 0xF5 w]
  | .stamp w => [kaWord 0xF6 w]
  | .sleep w => [kaWord 0xF7 w]
  | _ => []

/-- The opcodes of the moves. -/
def readMoves (op : Nat) (w lit : Word) : Except DecodeErr Instr :=
  match op with
  | 0x01 => getAlu1 .mov w
  | 0x02 => getMovi .movi w
  | 0x03 => getMovl w lit
  | 0x04 => getMovs .movs w
  | 0x05 => getBck .bck w
  | 0x06 => getLanek .lanek w
  | _ => .error .unassigned

/-- The opcodes of the integer words. -/
def readInt (op : Nat) (w : Word) : Except DecodeErr Instr :=
  match op with
  | 0x08 => getAlu2 .add w
  | 0x09 => getAlu2 .sub w
  | 0x0A => getAlu2 .mul w
  | 0x0B => getAlu2 .mulh w
  | 0x0C => getAlu3 .mad w
  | 0x0D => getAlu3 .add3 w
  | 0x0E => getAlu2 .div w
  | 0x0F => getAlu2 .rem w
  | 0x10 => getAlu2 .min w
  | 0x11 => getAlu2 .max w
  | 0x12 => getAlu1 .abs w
  | 0x13 => getAlu1 .neg w
  | 0x14 => getAlu2 .and w
  | 0x15 => getAlu2 .or w
  | 0x16 => getAlu2 .xor w
  | 0x17 => getAlu1 .not w
  | 0x18 => getAlu2 .shl w
  | 0x19 => getAlu2 .shr w
  | 0x1A => getAlu2 .sha w
  | 0x1B => getAlu2 .rot w
  | 0x1C => getAlu1 .popc w
  | 0x1D => getAlu1 .clz w
  | 0x1E => getAlu1 .brev w
  | 0x1F => getAlu3 .bfx w
  | 0x20 => getAlu3 .bfi w
  | 0x21 => getLea .lea w
  | 0x22 => getImm .addi w
  | 0x23 => getImm .andi w
  | 0x24 => getImm .ori w
  | 0x25 => getImm .shli w
  | _ => .error .unassigned

/-- The opcodes of the float words and conversions. -/
def readFloat (op : Nat) (w : Word) : Except DecodeErr Instr :=
  match op with
  | 0x28 => getAlu2 .fadd w
  | 0x29 => getAlu2 .fsub w
  | 0x2A => getAlu2 .fmul w
  | 0x2B => getAlu3 .fma w
  | 0x2C => getAlu2 .fmin w
  | 0x2D => getAlu2 .fmax w
  | 0x2E => getAlu2 .fdiv w
  | 0x2F => getAlu1 .fsqrt w
  | 0x30 => getAlu1 .rcpa w
  | 0x31 => getAlu1 .rsqa w
  | 0x32 => getAlu1 .fexp2 w
  | 0x33 => getAlu1 .flog2 w
  | 0x34 => getAlu1 .fsinpi w
  | 0x35 => getAlu1 .fcospi w
  | 0x36 => getAlu1 .fclass w
  | 0x37 => getAlu1 .frnd w
  | 0x38 => getAlu2 .fscale w
  | 0x39 => getAlu1 .frcp w
  | 0x3A => getCvt .cvt w
  | 0x3B => getPack .pack w
  | 0x3C => getPack .unpk w
  | _ => .error .unassigned

/-- The opcodes of the compares, apertures and cross-lane words. -/
def readCmp (op : Nat) (w : Word) : Except DecodeErr Instr :=
  match op with
  | 0x40 => getCmp .cmp w
  | 0x41 => getCmp .fcmp w
  | 0x42 => getSel .sel w
  | 0x43 => getAop .aop w
  | 0x44 => getAk .acnt w
  | 0x45 => getAk .afirst w
  | 0x46 => getAmovk .amovk w
  | 0x48 => getShfl .shfl w
  | 0x49 => getBcast .bcast w
  | 0x4A => getScan .scan w
  | 0x4B => getScan .reduce w
  | 0x4C => getShflx .shflx w
  | _ => .error .unassigned

/-- The opcodes of the sets. -/
def readSet (op : Nat) (w : Word) : Except DecodeErr Instr :=
  match op with
  | 0x50 => getPdep .pdep w
  | 0x51 => getPext .pext w
  | 0x52 => getPoolop .poolop w
  | 0x53 => getPk .pcnt w
  | 0x54 => getPk .pfirst w
  | 0x55 => getPd .pclr w
  | 0x56 => getPd .pfill w
  | 0x57 => getPst .pst w
  | 0x58 => getPld .pld w
  | 0x59 => getApply .apply w
  | 0x5A => getApplyw .applyw w
  | 0x5B => getCtl .yieldh w
  | 0x5C => getRelease .release w
  | _ => .error .unassigned

/-- The opcodes of the control. -/
def readCtl (op : Nat) (w : Word) : Except DecodeErr Instr :=
  match op with
  | 0x60 => getBra .bra w
  | 0x61 => getBap .bany w
  | 0x62 => getBap .ball w
  | 0x63 => getBap .bnone w
  | 0x64 => getBk .bk w
  | 0x65 => getCall .call w
  | 0x66 => getCalli .calli w
  | 0x67 => getRet .ret w
  | 0x68 => getCtl .exit w
  | 0x69 => getCall .loop w
  | 0x6A => getTake .take w
  | 0x6B => getGive .give w
  | 0x6C => getCtl .nop w
  | 0x6D => getStall .stall w
  | 0x6E => getStall .yield w
  | _ => .error .unassigned

/-- The opcodes of the loads, stores, waits and fences. -/
def readMem (op : Nat) (w : Word) : Except DecodeErr Instr :=
  match op with
  | 0x70 => getMem .ld w
  | 0x71 => getMem .st w
  | 0x72 => getMem .ldx w
  | 0x73 => getMem .stx w
  | 0x74 => getMem .lds w
  | 0x75 => getMem .sts w
  | 0x76 => getMem .ldsx w
  | 0x77 => getMem .stsx w
  | 0x78 => getMem .ldv w
  | 0x79 => getMem .stv w
  | 0x7A => getUmem .ldk w
  | 0x7B => getUmem .stk w
  | 0x7C => getMem .lda w
  | 0x7D => getMem .stl w
  | 0x7E => getWaita .waita w
  | 0x7F => getPref .pref w
  | 0x80 => getWait .wait w
  | 0x81 => getFence .fence w
  | 0x82 => getCache .cwb w
  | 0x83 => getCache .cinv w
  | _ => .error .unassigned

/-- The opcodes of the atomics and synchronisation. -/
def readSync (op : Nat) (w : Word) : Except DecodeErr Instr :=
  match op with
  | 0x90 => getAtom .atom w
  | 0x91 => getAtom .atomn w
  | 0x92 => getCas .cas w
  | 0x93 => getAtom .atoms w
  | 0x94 => getCas .cass w
  | 0x95 => getAtom .atomv w
  | 0x96 => getCas .casv w
  | 0xA0 => getBar .bar w
  | 0xA1 => getGbar .gbar w
  | 0xA2 => getEvset .evset w
  | 0xA3 => getEvclr .evclr w
  | 0xA4 => getEvwait .evwait w
  | 0xA5 => getEvtest .evtest w
  | 0xA8 => getRing .rput w
  | 0xA9 => getRing .rget w
  | 0xAA => getRing .rcur w
  | 0xAB => getKa .wlsort w
  | 0xAC => getWlpush .wlpush w
  | 0xAD => getWlpop .wlpop w
  | 0xAE => getWlpush .wlins w
  | 0xAF => getKda .wlcnt w
  | _ => .error .unassigned

/-- The opcodes of the shapes, matrix, Lens and quantising. -/
def readMat (op : Nat) (w : Word) : Except DecodeErr Instr :=
  match op with
  | 0xB0 => getSetshape .setshape w
  | 0xB1 => getGetshape .getshape w
  | 0xB4 => getWload .wload w
  | 0xB5 => getCtl .wdrop w
  | 0xB6 => getCtl .opfence w
  | 0xB7 => getMma .mma w
  | 0xB8 => getMma .mmas w
  | 0xB9 => getTile .tacq w
  | 0xBA => getTile .trel w
  | 0xBB => getTile .tzero w
  | 0xBC => getTmem .tld w
  | 0xBD => getTmem .tst w
  | 0xC0 => getSighash .sighash w
  | 0xC1 => getSigrep .sigrep w
  | 0xC3 => getSigscat .sigscat w
  | 0xC4 => getSigbwd .sigbwd w
  | 0xC6 => getQhist .qhist w
  | 0xC7 => getQscale .qscale w
  | 0xC8 => getQcvt .qcvt w
  | _ => .error .unassigned

/-- The opcodes of the copies, index engine and merge. -/
def readCopy (op : Nat) (w : Word) : Except DecodeErr Instr :=
  match op with
  | 0xD0 => getCopy .cpy w
  | 0xD1 => getCopy .cpyt w
  | 0xD2 => getCopy .cpyg w
  | 0xD3 => getCopy .cpys w
  | 0xD4 => getCopy .cpyr w
  | 0xD5 => getKda .cpyq w
  | 0xE0 => getXlist .xld w
  | 0xE1 => getXlist .xst w
  | 0xE2 => getXlist .xadd w
  | 0xE3 => getXpair .xcur w
  | 0xE4 => getXpair .xnext w
  | 0xE5 => getKda .xcnt w
  | 0xE6 => getXdense .xdense w
  | 0xE7 => getXpair .xrange w
  | 0xE8 => getMerge .merge w
  | _ => .error .unassigned

/-- The opcodes of the system words. -/
def readSys (op : Nat) (w : Word) : Except DecodeErr Instr :=
  match op with
  | 0xF0 => getTrap .trap w
  | 0xF1 => getTrap .bkpt w
  | 0xF2 => getRft .rft w
  | 0xF3 => getMovp .movp w
  | 0xF4 => getInv .icinv w
  | 0xF5 => getInv .tlbinv w
  | 0xF6 => getKa .stamp w
  | 0xF7 => getKa .sleep w
  | _ => .error .unassigned

/-- The instruction that the fields of a word spell, by opcode (R86). Its reserved bits are not yet looked at. -/
def readWord (w lit : Word) : Except DecodeErr Instr :=
  let op := (w.extractLsb' 56 8).toNat
  if op < 0x08 then readMoves op w lit
  else if op < 0x26 then readInt op w
  else if op < 0x3D then readFloat op w
  else if op < 0x4D then readCmp op w
  else if op < 0x5D then readSet op w
  else if op < 0x6F then readCtl op w
  else if op < 0x84 then readMem op w
  else if op < 0xB0 then readSync op w
  else if op < 0xC9 then readMat op w
  else if op < 0xE9 then readCopy op w
  else if op < 0xF8 then readSys op w
  else .error .unassigned

/-- The opcode byte of a word (R74). -/
def opByte (w : Word) : Nat := (fld w 56 8).toNat

/-- Is it an L-form word, which a literal follows (R80)? -/
def isLForm (w : Word) : Bool := opByte w == 0x03

/-- Decode a word and, for an L-form word, the literal after it. A word is an instruction when its fields spell an
instruction, when encoding that instruction gives the word back, so that no reserved bit is ignored (R89), and when the
entry accepts the form. -/
def decode (w : Word) (lit : Option Word) : Except DecodeErr Instr :=
  if isLForm w && lit.isNone then .error .literal
  else
    match readWord w (lit.getD 0) with
    | .error e => .error e
    | .ok i =>
      if (encode i).head? = some w then if Machine.formOk i then .ok i else .error .form
      else .error .reserved

/-- Little-endian value of bytes (R7). -/
def leNat : List Byte → Nat
  | [] => 0
  | b :: bs => b.toNat + 256 * leNat bs

/-- The n low bytes of a number, lowest first (R7). -/
def leBytes : Nat → Nat → List Byte
  | 0, _ => []
  | n + 1, v => BitVec.ofNat 8 v :: leBytes n (v / 256)

/-- Take one little-endian word from the front of a list of bytes. -/
def takeWord64 (bs : List Byte) : Option (Word × List Byte) :=
  if bs.length < 8 then none else some (BitVec.ofNat 64 (leNat (bs.take 8)), bs.drop 8)

/-- Decode the instruction at the front of a list of bytes. -/
def decodeBytes (bs : List Byte) : Except DecodeErr (Instr × List Byte) :=
  match takeWord64 bs with
  | none => .error .short
  | some (w, rest) =>
    if isLForm w then
      match takeWord64 rest with
      | none => .error .literal
      | some (l, rest') => (decode w (some l)).map (·, rest')
    else (decode w none).map (·, rest)

/-- The instruction in the bits w of an instruction whose first word is bits [63:0]; the bits above nbits are zero. -/
def decodeTableWord (nbits w : Nat) : Option Instr :=
  match decodeBytes (leBytes 16 (w % 2 ^ nbits)) with
  | .ok (i, _) => some i
  | .error _ => none

end Sys2Proof
end

