-- ==== Sys2Proof/Config.lean ====
section
/-! DEFINITION. What the TQ9-A fixes (spec/00_scope.md, spec/01_device_outline.md) and the values that the spec leaves open. -/

namespace Sys2Proof.Config

/-- A byte of an unspecified value (R10, R186, R207, R212, R215, R221, R296, R336, R337). The argument is the count of such
values taken before it (State.free), so that nothing relates one to another. Log 2. -/
opaque freeByte : Nat → Byte

/-- A choice among n things that the spec leaves open (the serial order of R162, the walk of R282, the wake order of R156):
the argument is State.free. Its use takes it modulo the number of choices. Log 2. -/
opaque freeNat : Nat → Nat

/-- FEXP2, FLOG2, FSINPI and FCOSPI of f32: is the upper of the two bracketing values the result? A fixed function of the
operation and of the operand's bits (R105). Log 4. -/
opaque upperOf : BitVec 2 → BitVec 32 → Bool

/-- The island current limits of a field in mA, class F and class E (R2, R48). -/
def limitF : Nat := 720000
def limitE : Nat := 400000

/-- First DRAM address beyond memory (R248). -/
def dramEnd : Nat := 0x12000000000

/-- Part number, stepping, architecture generation and numeric behaviour version (R1). -/
def partNumber : String := "TQ9-A"
def stepping : String := "B1"
def generation : Nat := 9
def numericVersion : Nat := 3

/-- The I3C static address of the configuration record (R323, R341): the record gives it, the spec no number. Log 8. -/
opaque i3cAddress : Nat

/-- The coolant outlet limit of the configuration record, in 0.1 °C (R341, R349): the record gives it, the spec no number.
Log 8. -/
opaque outletLimit : Nat

/-- The device's own endpoint id and the first host endpoint id of the configuration record (R312, R341): the record gives them, the
spec no number. Log 8. -/
def recordOwn : Nat := 0
def recordHost : Nat := 1

end Sys2Proof.Config
end

