-- ==== Sys2Proof/Machine/State.lean ====
section
/-! DEFINITION. The state of the TQ9-A as plain data, and the state right after a cold start (spec/03 R39 to R51,
spec/27 R346 to R348 and the rules each field names). INVENTORY.md lists every piece with its reset value. -/

namespace Sys2Proof.Machine

/-- A map by number, in one canonical form: keys strictly rising, and no entry equal to the default that an absent key
reads as. -/
abbrev SMap (α : Type) := List (Nat × α)

/-- Memory: bytes by home address; an unlisted byte reads 0 (R348). Home addresses: DRAM at its physical address (R248),
vault v from 2^52 + v * 2^26 (R144), scratchpad of core c from 2^53 + c * 2^20 (R144). -/
abbrev Memory := List Host.Cell

/-- One register cell with a value: v register of a lane, k register or aperture (R39). -/
inductive RegVal where
  | v (reg lane : Nat) (x : Lane)
  | k (reg : Nat) (x : Word)
  | a (reg : Nat) (x : LaneSet)
  deriving DecidableEq, Repr

/-- Name of a register cell: what a write goes to and what shadow poison marks (R286). -/
inductive RegKey where
  | v (reg lane : Nat)
  | k (reg : Nat)
  | a (reg : Nat)
  deriving DecidableEq, Repr

/-- A fixed-latency result on its way: it lands at field cycle `land` (R49); among those of one cycle the later-issued, which
stands later in the list, wins. -/
structure Pend where
  /-- In shadow: its landing poisons the cell (R286). -/
  bad : Bool := false
  land : Nat
  /-- Number of the clause that issued it, and the word's index in it. -/
  seq : Nat
  idx : Nat
  val : RegVal
  deriving DecidableEq, Repr

/-- A cause of R225: code, info, the lanes for sr.tmask, faddr, and the index of the raising word (31: none). -/
structure Cause where
  code : Nat
  info : Nat
  tmask : LaneSet
  faddr : Nat
  word : Nat
  deriving DecidableEq, Repr

/-- A missing page as a page request lists it (R289). -/
structure MissPage where
  page : Nat
  malformed : Bool
  fetch : Bool
  write : Bool
  read : Bool
  deriving DecidableEq, Repr

/-- A translated 4 KiB page: physical page, permissions, and for a remote window its endpoint and link epoch (R282, R295). -/
structure Xlate where
  pfn : Nat
  rd : Bool
  wr : Bool
  ex : Bool
  remote : Option (Nat × Nat)
  deriving DecidableEq, Repr

/-- What an issued word does at its clause's commit: the instruction, its index in the clause, its guard set, the k operands
it read, the lane operands it read (one list of 32 lanes for each v register), sr.clock at issue, and the pages its
accesses translated to (R50, R94). -/
structure Item where
  instr : Instr
  idx : Nat
  g : LaneSet
  on : Bool
  kv : List Word
  lv : List (List Lane)
  clock : Nat
  xl : List (Nat × Xlate)
  deriving DecidableEq, Repr

/-- A clause fetched whole: header address, header and words, literals among them (R69). -/
structure Fetched where
  addr : Nat
  header : Word
  words : List Word
  deriving DecidableEq, Repr

/-- A partition that a vector CALLI has still to run: its target and lanes (R136). -/
structure Part where
  target : Nat
  lanes : LaneSet
  deriving DecidableEq, Repr

/-- A partition entry of a vector CALLI: saved a0, remaining partitions, return address (R136). -/
structure PartEntry where
  a0 : LaneSet
  rest : List Part
  ret : Nat
  deriving DecidableEq, Repr

/-- a0 and the partition stack as they stood at a clause start. -/
structure PartSave where
  a0 : LaneSet
  stack : List PartEntry
  deriving DecidableEq, Repr

/-- A clause that has begun issue and not committed (R50, R51, R73). -/
structure Clause where
  /-- Fresh number, rising in issue order. -/
  seq : Nat
  code : Fetched
  /-- Index of the next word; equal to the number of words once all have issued. -/
  next : Nat
  /-- Field cycle in which the next word issues. -/
  due : Nat
  /-- Fixed-latency results of the clause land by this cycle. -/
  settled : Nat
  undo : List RegVal
  items : List Item
  /-- Cause found at issue, with the index of its word (R90). -/
  cause : Option Cause
  /-- Where a taken transfer goes. -/
  target : Option Nat
  /-- Entries of the decision queue that TAKE words of this clause removed (R138). -/
  takes : Nat
  /-- Home warps whose queues hold a reservation by a GIVE of this clause (R138). -/
  gives : List Nat
  /-- Undo of a partition change: a0 and stack at clause start (R136). -/
  parts : Option PartSave
  deriving DecidableEq, Repr

/-- Counter classes of R47. -/
inductive Cls where
  | l | s | c | t | x | none
  deriving DecidableEq, Repr

/-- Bytes that a remote read has brought: virtual address and bytes; and the domain of an error that the endpoint reported, or 0 (R295, R336). -/
structure Got where
  addr : Nat
  bytes : List Byte
  bad : Nat := 0
  deriving DecidableEq, Repr

/-- A committed operation, in commit order (R47, R50, R147). -/
structure Op where
  id : Nat
  cls : Cls
  item : Item
  /-- Header address of the clause that issued it, and that clause's number. -/
  clause : Nat
  seq : Nat
  /-- Its values or bytes are performed (R151). -/
  performed : Bool
  /-- Lanes still to be performed. -/
  lanes : LaneSet
  /-- Of a 16-byte access, the lanes whose lower and whose upper 8 bytes are performed (R146). -/
  low : LaneSet
  high : LaneSet
  /-- Register cells of a load that have not landed yet (R147). -/
  due : List RegKey
  /-- Values that ended the read and wait to land. -/
  vals : List RegVal
  /-- A ring word's ticket or cursor, a copy's tag, a work-list order. -/
  tag : Nat
  /-- Set when it met poison, with the check domain (R336). -/
  poison : Option Nat
  /-- Set when an access of it to a remote window has failed, or is bound to (R296). -/
  failed : Bool
  /-- Its messages to remote windows are sent. -/
  sent : Bool
  got : List Got
  deriving DecidableEq, Repr

/-- What an executor waits for beyond counters (R245). -/
inductive Wait where
  | parked
  | barrier (id : Nat)
  /-- GBAR, with the key of its hold. -/
  | gbar (id : Nat) (scope : Scope) (key : Nat)
  /-- An EVWAIT, with the number that its commit had: waiters of a core are served in that order (R167). -/
  | event (mask : BitVec 256) (any clr : Bool) (scope : Scope) (order : Nat)
  /-- WAITA: home address of the word, its space, whether it names the near vault, the destination k register, scope, the field cycle of
  the timeout, and the key of its hold. -/
  | waita (home : Nat) (space : Space) (near : Bool) (kd : Nat) (scope : Scope) (deadline : Option Nat) (key : Nat)
  /-- A WAITA that has been woken with a cause and has its wake read still to make (R155). -/
  | woken (home : Nat) (space : Space) (kd : Nat) (scope : Scope) (cause key : Nat)
  | sleep (deadline : Option Nat)
  /-- TACQ of a tile: reserved yet or not, and the id below which commands on the tile must be performed (R190). -/
  | tacq (tile : Nat) (reserved : Bool) (below : Nat)
  /-- OPFENCE: the operations that it waits for, and the number from which its executor's operations follow it (R186). -/
  | opfence (ids : List Nat) (start : Nat)
  /-- Operations whose end is the wait's: WAITA's first read (R155). -/
  | ops (ids : List Nat)
  /-- Its own page request on the in-place path (R285). -/
  | page (reqid : Nat)
  deriving DecidableEq, Repr

/-- A release: the executor and the number of its operation that stands for it. The operation leaves once every access that the
release covers is performed (R251, R252). -/
structure Rel where
  x : ExecId
  op : Nat
  deriving DecidableEq, Repr

/-- An acquire: the executor's operations from a number on are not performed while its wait lasts (its key, until the wait ends), nor
before the releases that it pairs with are done (R251, R252). -/
structure Hold where
  start : Nat
  key : Option Nat
  on : List Rel
  scope : Scope
  /-- A save has let what it held go: the wait ends no more before the restore (R51, R288; log 84). -/
  gone : Bool := false
  deriving DecidableEq, Repr

/-- An entry of a decision queue: its value and the release of its GIVE (R138). -/
structure Decision where
  value : Word
  mark : Rel
  /-- Its 32-bit units that hold an error which their code detects only: 0 none, 1 the lower, 2 the upper, 3 both (R333, R337). -/
  bad : Nat
  deriving DecidableEq, Repr

/-- A register cell written in a field cycle, with the place in issue order of the word that wrote it (R49, R94). -/
structure Written where
  key : RegKey
  cycle : Nat
  order : Nat
  /-- A word of the run-ahead wrote the shadow copy (R286). -/
  shadow : Bool := false
  deriving DecidableEq, Repr

/-- A pending entry cause (R225). -/
structure Entry where
  code : Nat
  info : Nat
  tmask : LaneSet
  faddr : Nat
  /-- Of the software trap: its clause ran in handler state (R226). -/
  here : Bool := false
  /-- Of index exhaustion: home address of the region, whose commands are withdrawn until it is taken (R219). -/
  region : Option Nat := none
  deriving DecidableEq, Repr

/-- Run-ahead shadow of an executor (R286, R287): registers as checkpointed, poison, pages recorded, words issued. -/
structure Shadow where
  /-- The clause start that the checkpoint stands at. -/
  pc : Nat
  v : SMap Lane
  k : SMap Word
  a : SMap LaneSet
  a0 : LaneSet
  parts : List PartEntry
  poison : List RegKey
  pages : List MissPage
  words : Nat
  /-- Words of clauses that have not come to their commit: clause number, index, and the pages recorded before. -/
  trail : List (Nat × Nat × List MissPage)
  /-- An end of R287 has been met. -/
  ended : Bool
  deriving DecidableEq, Repr

/-- Stop record of a breakpoint, ocx stop or single step (R158, R262, R331). -/
structure Stop where
  stopped : Bool
  /-- Stop at the next clause start (ocx stop). -/
  pending : Bool
  /-- Stop after one clause (R223). -/
  step : Bool
  /-- The clause start that may run once past its breakpoint on resume. -/
  pass : Option Nat
  /-- Breakpoint number reported, 4 for BKPT. -/
  rptBy : Option Nat
  counters : List Nat
  deriving DecidableEq, Repr

/-- What an APPLYW block sets aside: k0 to k7, a1 to a15, the clause that the warp resumes at, and the waits that it stood in
(R132). -/
structure Aside where
  regs : List RegVal
  pc : Nat
  waits : List Wait
  deriving DecidableEq, Repr

/-- One executor of a workgroup (R39, R235). -/
structure Exec where
  v : SMap Lane
  k : SMap Word
  a : SMap LaneSet
  a0 : LaneSet
  /-- Lanes launched in the warp, or packed into the slot (R42). -/
  base : LaneSet
  /-- Origins of packed lanes by slot lane: home warp * 32 + home lane (R48). -/
  origin : SMap Nat
  cL : Nat
  cS : Nat
  cC : Nat
  cT : Nat
  cX : Nat
  queue : List Decision
  queueClosed : Bool
  queueHeld : Nat
  /-- Header address of the clause that runs next (R51, R69). -/
  pc : Nat
  fetched : Option Fetched
  /-- Bytes of remote windows that its next clause or commit needs and that have come (R295). -/
  far : List Got
  clauses : List Clause
  pend : List Pend
  ops : List Op
  parts : List PartEntry
  /-- Earliest field cycle in which the next clause may issue (R73, R96, R139). -/
  readyAt : Nat
  lastAward : Option Nat
  slot : Option Nat
  /-- The waits that the words of its last clause began; its next clause issues once none is left (log 21). -/
  waits : List Wait
  /-- Its acquires whose releases are not done (R251). -/
  holds : List Hold
  /-- Register cells written in the field's cycle (R49). -/
  written : List Written
  /-- Register cells, in units of 32 bits, that hold an error which their code detects only, until they are written: k register r is units
  r and, its upper half, r + 64; aperture 0 is a0 (R333, R337). -/
  badCells : List RegKey
  handler : Bool
  tmask : LaneSet
  entries : List Entry
  /-- The cause of an undone clause, to be taken at its start (R225). -/
  cause : Option Cause
  shadow : Option Shadow
  stop : Stop
  /-- Repeat misses: clause, pages of the answered request, times in a row (R290). -/
  repeats : Option (Nat × List Nat × Nat)
  /-- Last-page register of each lane: virtual page and translation (R284). -/
  lastPage : SMap (Option (Nat × Xlate))
  /-- What an APPLYW block sets aside (R132). -/
  aside : Option Aside
  exiting : Bool
  retired : Bool
  /-- Scope of the warp's most recent FENCE release, for narrow releases (R256). -/
  relScope : Option Scope
  /-- Scratchpad writes with a smaller stamp are covered by the executor's last OPFENCE (R186). -/
  cover : Nat
  deriving DecidableEq, Repr

/-- A barrier instance (R165): its count and its arrivals. -/
structure Barrier where
  count : Nat
  /-- Arrivals: context, its scope, and the number of the operation that stands for its release. -/
  arrived : List (Nat × Scope × Nat)
  deriving DecidableEq, Repr

/-- An apply in progress (R126 to R132). -/
structure Apply where
  word : Instr
  members : List Nat
  ks : List Word
  target : Nat
  round : Nat
  /-- 0 waiting for settled members, 1 a round or the block runs. -/
  phase : Nat
  /-- Slots used by the round, or home warps that run the block. -/
  active : List Nat
  clause : Nat
  /-- Members that a RELEASE named while the apply was in progress, with its release (R124). -/
  released : List (Nat × Rel)
  deriving DecidableEq, Repr

/-- The bound work-list of a workgroup (R171, R172). -/
structure WorkList where
  header : Nat
  spill : Nat
  spillcap : Nat
  bitmap : Option Nat
  /-- Entries in the core's store, oldest first. -/
  store : List Lane
  /-- Entries in the spill area, oldest first, after those of `store`. -/
  spilled : List Lane
  deriving DecidableEq, Repr

/-- The launch record's fields that a running workgroup keeps (R267). -/
structure Launch where
  gen : Nat
  queue : Nat
  seq : Nat
  ctx : Nat
  ctxGen : Nat
  /-- Root of the context's page tables as read at placement or restore (R280). -/
  root : Nat
  headoff : Nat
  warpoff : Nat
  codeobj : Nat
  argptr : Nat
  handler : Nat
  ctxbase : Nat
  rowcnt : Nat
  nwg : Nat
  gsize : Nat
  nwarps : Nat
  slots : Nat
  window : Nat
  spsize : Nat
  prio : Nat
  cls : Nat
  twin : Bool
  clrw : Bool
  wdkill : Bool
  migrate : Bool
  notify : Bool
  menu : List (Nat × Nat × Nat × Nat)
  menuSlot : Nat
  menuTwin : Bool
  lanes : Nat
  est : Nat
  affinity : Nat
  wdog : Nat
  slotsF : List Word
  wait : BitVec 256
  set : BitVec 256
  /-- Allowed classes after the checks of R268: class F, class E. -/
  allowF : Bool
  allowE : Bool
  deriving DecidableEq, Repr

/-- Phases of a stamp record (R327), as field counts. -/
structure Stamps where
  place : Nat
  cin0 : Option Nat
  cin1 : Option Nat
  owait : Option Nat
  cmp0 : Option Nat
  cmp1 : Option Nat
  cout0 : Option Nat
  cout1 : Option Nat
  restores : Nat
  deriving DecidableEq, Repr

/-- Where a workgroup stands in R291, and on its way off a core. -/
inductive WgPhase where
  | running
  /-- Running ahead: the context that runs ahead (R286). -/
  | ahead (ctx : Nat)
  /-- Stopping and draining for a save; `evac` for an evacuation (R276, R288). -/
  | saving (evac : Bool)
  /-- Its context is killed: clauses that had begun run to their end, and then the core is free (R294). -/
  | killed
  deriving DecidableEq, Repr

/-- A workgroup on a core (R39). -/
structure Workgroup where
  launch : Launch
  wgid : Nat
  /-- Base of the native section of its code object on this class of core (R300). -/
  code : Nat
  pools : SMap (BitVec 1024)
  /-- Origin tags by pool: 64-bit wgid part and generation; none: own (R119). -/
  tags : SMap (Option (Nat × Nat))
  shapes : SMap (BitVec 256)
  /-- 32-bit units of pools and of shape registers that hold an error which their code detects only: pool * 32 + unit, shape * 8 + unit
  (R333, R337). -/
  badPools : List Nat
  badShapes : List Nat
  /-- Token of each tile: 0 free, n + 1 held or reserved by context n (R45, R190). -/
  tokens : SMap Nat
  /-- Contexts that wait for a tile's token in commit order (R190). -/
  tacqs : List (Nat × Nat)
  barriers : SMap (Option Barrier)
  apply : Option Apply
  /-- Applies of the same clause that follow it (log 78). -/
  applies : List Apply
  worklist : Option WorkList
  copies : Nat
  /-- Tags of copies that have completed (R205). -/
  copiesDone : List Nat
  /-- Ticks of 0.25 ns left of the watchdog bound (R275). -/
  wdogLeft : Nat
  phase : WgPhase
  /-- The batch of missing pages (R288). -/
  batch : List MissPage
  stamps : Stamps
  execs : SMap (Option Exec)
  deriving DecidableEq, Repr

/-- A line of an L1: context, virtual line number, physical line number and its bytes, each with its dirty mark (R148, R149).
A byte that is not listed is not held. -/
structure Line where
  ctx : Nat
  va : Nat
  pa : Nat
  bytes : SMap (Option (Byte × Bool))
  /-- Sectors that hold a narrow release write: sector 0 to 3, its scope and its operation (R256, R257). -/
  rel : List (Nat × Scope × Nat)
  /-- Poisoned 8-byte units, 0 to 15 (R336). -/
  poison : List Nat
  deriving DecidableEq, Repr

/-- The record of loaded macros (R185): grK, grN, tails, slot, twin, `.ln`, and the format slot's value. -/
structure MacroRec where
  grK : Nat
  grN : Nat
  tailK : Nat
  tailN : Nat
  slot : Nat
  twin : Bool
  ln : Bool
  lk : Bool
  fmt : Word
  /-- The shape register that WLOAD named, as it stood (R199). -/
  shape : BitVec 256
  deriving DecidableEq, Repr

/-- An address breakpoint; `whole`: it stops the workgroup (R308, R331). -/
structure Breakpoint where
  addr : Nat
  ctx : Option Nat
  whole : Bool
  deriving DecidableEq, Repr

/-- A cached translation: context, virtual page and translation (R284). -/
structure TlbEntry where
  ctx : Nat
  page : Nat
  xl : Xlate
  deriving DecidableEq, Repr

/-- A cached table pointer of the walk cache: context, level of the table, the index bits above it, its address (R284). -/
structure WalkEntry where
  ctx : Nat
  level : Nat
  key : Nat
  table : Nat
  deriving DecidableEq, Repr

/-- A scratchpad write by anything but the matrix unit: its bytes and the number of the next operation then (R186). -/
structure Fill where
  off : Nat
  len : Nat
  stamp : Nat
  deriving DecidableEq, Repr

/-- A core (R20). -/
structure Core where
  wg : Option Workgroup
  /-- Accumulator tiles: X80 by (tile * 64 + row) * 256 + column (R45, R55). -/
  tiles : SMap (BitVec 80)
  /-- Tile elements that hold an error which their code detects only, until they are written (R337). -/
  badTiles : List Nat
  l1 : List Line
  /-- Zero flags by 4 KiB scratchpad block (R189). -/
  zflags : List Nat
  fills : List Fill
  macroRec : Option MacroRec
  /-- Weights held by the macros: bits in the slot's efmt by k * 512 + column, before alignment (R184). -/
  weights : SMap Word
  /-- B scales held with the weights, f32 by cell (R184). -/
  bscales : SMap Lane
  /-- A leader whose twin span slaves this follower (R185). -/
  slavedBy : Option Nat
  tlb : List TlbEntry
  walk : List WalkEntry
  /-- Copies of clauses in the fetch buffers, header and words, by context * 2^54 + header address / 8 (R304). -/
  code : SMap (Option (List Word))
  /-- Slots that must give their next clause to another executor: slot and context (R73). -/
  away : SMap (Option Nat)
  /-- First cycle in which a slot that a clause held is free again (R73). -/
  slotFree : SMap Nat
  corrected : Nat
  parityTraps : Nat
  failedRows : List Nat
  breaks : SMap (Option Breakpoint)
  frozen : List Engine
  sampled : Nat
  /-- Cycle of the last PC sample (R330). -/
  sampledAt : Option Nat
  deriving DecidableEq, Repr

/-- A field (R13, R326, R349). -/
structure Field where
  count : Nat
  /-- Sixteenths of a cycle gathered since the last one: the tick is a cycle of 4.00 GHz. -/
  phase : Nat
  /-- Clock in steps of 250 MHz: 4 to 16. -/
  step : Nat
  committed : Nat
  /-- Measured current in mA at the last comparison. -/
  current : Nat
  /-- The clock has changed in this cycle, and no sync packet has told of it (R329). -/
  changed : Bool
  /-- Count of the last sync packet, or 0 (R329). -/
  synced : Nat
  /-- Tick since when the measured current has been below 90 % of the acting limit (R349). -/
  below : Option Nat
  /-- Cycle of the last comparison of the limiter (R349). -/
  compared : Option Nat
  deriving DecidableEq, Repr

/-- A node of a region's tree: its number, and the entries or children that it holds (R212, R216). -/
structure TreeNode where
  n : Nat
  size : Nat
  deriving DecidableEq, Repr

/-- A sparse-tensor region's contents (R212 to R219): entries by key, and the nodes of its tree in key order by level, leaves
first. The layout of nodes in memory is the engine's. -/
structure Region where
  entries : SMap Word
  levels : List (List TreeNode)
  unused : Nat
  /-- Free list, its head first. -/
  free : List Nat
  /-- Home ranges of its pool: address and length. -/
  pool : List (Nat × Nat)
  /-- Later results are unspecified (R212, R336). -/
  bad : Bool
  deriving DecidableEq, Repr

/-- A level ring as the device holds it (R264, R317). -/
structure Level where
  base : Nat
  lgsize : Nat
  ctx : Nat
  tail : Nat
  head : Nat
  doneN : Nat
  running : Bool
  /-- Records were taken since the queue table was named (R317). -/
  took : Bool
  /-- Sequence numbers finished out of order. -/
  finished : List Nat
  deriving DecidableEq, Repr

/-- A stage governor (R278, R279): descriptor values and the stage of each twin of the cluster. -/
structure Governor where
  ringA : Nat
  ringB : Nat
  hiA : Nat
  loA : Nat
  hiB : Nat
  loB : Nat
  qload : Nat
  qcomp : Nat
  qstore : Nat
  ctx : Nat
  /-- Stage of twins 0 to 3: 0 load, 1 compute, 2 store, 3 none. -/
  stages : List Nat
  /-- A twin on its way, and its new stage. -/
  moving : Option (Nat × Nat)
  /-- Cycle of the last evaluation (R279). -/
  ticked : Option Nat
  /-- Waits for a page request (R285); once it is answered, the read is retried at once (R290). -/
  request : Option Nat
  again : Bool
  deriving DecidableEq, Repr

/-- A taken record (R266): its launch, release latch, and its gangs and workgroups. -/
structure Taken where
  launch : Launch
  order : Nat
  level : Nat
  released : Bool
  /-- The first gang whose placement has not been tried, evacuated gangs that wait to be placed again, and gangs whose row count missed: of
  these, the page request or none once it is answered (R270, R273, R276). -/
  next : Nat
  returned : SMap (Option Nat)
  asked : SMap (Option (Option Nat))
  retired : Nat
  /-- Count, on the field of its lowest allowed cluster, since when its gangs have waited; of a returned gang, in `returned` (R274). -/
  since : Nat
  /-- Allowed clusters: of the affinity, on an allowed class, not all fenced (R268). -/
  clusters : List Nat
  /-- Releases of the EVSET words that its release met, which its placements acquire (R272). -/
  on : List Rel := []
  /-- Place among the launches whose workgroups have all retired, from 1 (R167). -/
  ended : Nat := 0
  deriving DecidableEq, Repr

/-- A reservation for a gang (R274), or for a restorable workgroup by its wgid (R292). -/
structure Reservation where
  gen : Nat
  gang : Nat
  wgid : Option Nat
  cluster : Nat
  cores : List Nat
  budget : Nat
  field : Nat
  /-- Victim gangs: launch generation and gang number. -/
  victims : List (Nat × Nat)
  deriving DecidableEq, Repr

/-- A saved workgroup (R288, R291): waiting for a page answer, or restorable. -/
structure Saved where
  wg : Workgroup
  core : Nat
  /-- Number of the last page request of its own, and whether an answer is awaited. -/
  reqid : Nat
  waiting : Bool
  /-- Count, on the field of its old core, since when it has been restorable (R274, R292). -/
  since : Nat
  /-- Macro record, weights and scales saved with it (R199). -/
  macros : Option (MacroRec × SMap Word × SMap Lane)
  tiles : SMap (BitVec 80)
  badTiles : List Nat
  /-- Scratchpad bytes that are not zero, and poisoned units, by offset (R310, R336). -/
  sp : List (Nat × Byte)
  spBad : List Nat
  /-- Bytes of the save area as the save left them, by offset from the first page (R288, R294). -/
  area : List (Nat × Byte)
  /-- Saved by an evacuation: it returns with its whole gang (R276). -/
  evac : Bool
  deriving DecidableEq, Repr

/-- Who waits for a page request (R285, R289). -/
inductive Asker where
  | replay (gen wgid : Nat)
  | exec (x : ExecId)
  /-- An engine, by its number, for an operation of an executor. -/
  | op (x : ExecId) (engine id : Nat)
  | core (core : Nat)
  | launch (gen gang : Nat)
  | governor (cluster : Nat)
  deriving DecidableEq, Repr

structure PageReq where
  reqid : Nat
  ctx : Nat
  gen : Nat
  pages : List MissPage
  path : Nat
  wgid : Nat
  who : Asker
  deriving DecidableEq, Repr

/-- A shootdown whose sweep has ended and whose earlier accesses are awaited (R284). -/
structure Shoot where
  ctx : Nat
  number : Nat
  src : Nat
  tag : Nat
  /-- Operations translated before the sweep: executor and op id. -/
  ops : List (ExecId × Nat)
  deriving DecidableEq, Repr

/-- A message that the device sent: destination, source, kind, tag and payload bytes without padding (R313 to R315). -/
structure Message where
  dst : Nat
  src : Nat
  kind : Nat
  tag : Nat
  payload : List Byte
  deriving DecidableEq, Repr

/-- A remote access awaiting its response (R295, R315). -/
structure Remote where
  tag : Nat
  ep : Nat
  x : ExecId
  op : Nat
  /-- 0 write, 1 read, 10 atomic. -/
  kind : Nat
  lane : Nat
  /-- Virtual address of its first byte, and the bytes of a read or write. -/
  addr : Nat
  len : Nat
  /-- Physical address at the endpoint (R340). -/
  pa : Nat := 0
  deriving DecidableEq, Repr

/-- A fabric port (R318, R346). -/
structure Port where
  down : Bool
  replays : Nat
  /-- Failed replays of the present flit, one after another (R318). -/
  failed : Nat
  /-- Tick in which a port that is down went down or was last retried; 0 while it is up (R346). -/
  since : Nat
  deriving DecidableEq, Repr

/-- An interrupt vector: events since the last message and the tick it was sent in (R321). -/
structure IntVec where
  pending : Nat
  total : Nat
  last : Option Nat
  deriving DecidableEq, Repr

/-- An error-log entry (R340). -/
structure LogEntry where
  kind : Nat
  domain : Nat
  fromDom : Nat
  field : Nat
  engine : Nat
  count : Nat
  unit : Nat
  lgen : Nat
  deriving DecidableEq, Repr

/-- A named failing unit of the repair record (R341): a core, a macro row, or a row or column of a store. -/
inductive Repair where
  | core (n : Nat)
  | macroRow (core row : Nat)
  | line (store unit index : Nat) (column : Bool)
  deriving DecidableEq, Repr

/-- The trace descriptor as the device holds it (R325). -/
structure Trace where
  desc : Nat
  ctx : Nat
  base : Nat
  lgsize : Nat
  tail : Nat
  drops : Nat
  qmask : Nat
  period : Nat
  deriving DecidableEq, Repr

/-- A mark of a narrow release (R257): home sector, writing core, scope, and its age. -/
structure Mark where
  sector : Nat
  core : Nat
  scope : Scope
  /-- Operations of the core with a smaller number precede the release write. -/
  below : Nat
  deriving DecidableEq, Repr

/-- An arrival of a headspring at a gang barrier (R166): launch generation, gang, barrier, wgid, core, scope, and the number of the
operation that stands for its release. -/
structure GangArrival where
  gen : Nat
  gang : Nat
  id : Nat
  wgid : Nat
  core : Nat
  scope : Scope
  op : Nat
  deriving DecidableEq, Repr

/-- An EVSET whose release is not done: the bits that it set and that no EVCLR has cleared since (R167, R252). -/
structure EventRel where
  cluster : Nat
  bits : BitVec 256
  rel : Rel
  deriving DecidableEq, Repr

/-- A range of source bytes of a copy in flight, by home address, and the writes that met it since the copy's commit (R207). -/
structure Watch where
  x : ExecId
  op : Nat
  /-- Not a copy's source: a copy's write meets it too (R170, R215). -/
  cursor : Bool
  lo : Nat
  len : Nat
  hits : List (Nat × Nat)
  /-- Writes of the executor's earlier operations meet it too: the cursor of an XNEXT, the destination of an RGET (R170, R215). -/
  own : Bool := false
  deriving DecidableEq, Repr

/-- A code object that the loader has loaded, with the native section kept for each class (R300): base and length. -/
structure CodeObj where
  id : Nat
  f : Option (Nat × Nat)
  e : Option (Nat × Nat)
  deriving DecidableEq, Repr

/-- A soft error in data on its way: the next data that crosses between the domains for the core fails its check there (R338). -/
structure Crossing where
  core : Nat
  fromD : Nat
  toD : Nat
  deriving DecidableEq, Repr

/-- A soft error in a store of domain 1 or 2 (R333): in a 32-bit unit of the registers, of a pool, of a shape register or of an entry of a
decision queue, in a tile element, or one that the code of these domains corrects. -/
inductive Flip where
  | cell (x : ExecId) (key : RegKey)
  | pool (core unit : Nat)
  | shape (core unit : Nat)
  | entry (x : ExecId) (index half : Nat)
  | tile (core element : Nat)
  /-- In a store of domain 3, 5 or 6, at a home address: its next check finds it (R336). -/
  | stored (home : Nat)
  | corrected (core : Nat)
  | crossing (c : Crossing)
  deriving DecidableEq, Repr

/-- What happens next: an executor issues its next word, a device step, or a tick of 0.25 ns. The others are inputs: the loader's table of
code objects, a measured register of the board management (R323), and a soft error (R337). -/
inductive Move where
  | word (x : ExecId)
  | event (i : Instr)
  | tick
  | load (o : CodeObj)
  | measure (reg index value : Nat)
  | flip (f : Flip)
  deriving DecidableEq, Repr

/-- The machine. -/
structure State where
  /-- The moves to come: which agent acts next, and every input from outside (log 1). -/
  agenda : List Move
  /-- The executor whose word is issuing (log 1). -/
  cur : Option ExecId
  /-- Unspecified values taken so far (log 2). -/
  free : Nat
  /-- Next fresh number of an operation, a request or a remote tag (log 3). -/
  fresh : Nat
  /-- Ticks of 0.25 ns since the start; fabric time (R326, R329). -/
  time : Nat
  fields : SMap Field
  mem : Memory
  /-- Poisoned check units by the home address of their 8-byte unit: the domain, 3 or 5 to 7; 0 where good. A DRAM block of domain 7 is
  eight units (R333, R336). -/
  poison : SMap Nat
  /-- Soft errors in data on its way that no crossing has met yet (R338). -/
  crossings : List Crossing
  marks : List Mark
  watches : List Watch
  cores : SMap Core
  /-- Event bits by cluster (R167), and as the last cycle of the cluster's field ended (R243). -/
  events : SMap (BitVec 256)
  endEvents : SMap (BitVec 256)
  eventRels : List EventRel
  /-- By cluster: the field cycle of its last commit or event update, and that one's place among those of the cycle (R167, R172,
  R243). -/
  turns : SMap (Option (Nat × Nat))
  /-- By shared unit and core, the next fresh number when the unit last served the core (R247). -/
  served : SMap Nat
  regions : SMap (Option Region)
  queueTable : Option Nat
  levels : SMap (Option Level)
  contextTable : Option Nat
  governorTable : Option Nat
  governors : SMap (Option Governor)
  trace : Option Trace
  taken : List Taken
  reservations : List Reservation
  saved : List Saved
  requests : List PageReq
  shoots : List Shoot
  /-- Arrivals at gang barriers (R166). -/
  gangBars : List GangArrival
  /-- Workgroups of gangs whose headsprings have retired: generation and wgid (R166). -/
  headsDone : List (Nat × Nat)
  codeObjs : List CodeObj
  ownId : Nat
  hostId : Nat
  peers : List Nat
  epochs : SMap Nat
  unreachable : List Nat
  ports : SMap Port
  /-- The port that carries an endpoint's traffic, where it is not the first choice (R319). -/
  routes : SMap (Option Nat)
  lateAnswers : Nat
  dropped : Nat
  doorbellsDropped : Nat
  traceDrops : Nat
  ints : SMap IntVec
  outbox : List Message
  remotes : List Remote
  log : List LogEntry
  corrected : Nat
  uncorrectable : Nat
  /-- R344: 0 off, 1 starting, 2 running, 3 halted, 4 powering down. -/
  startState : Nat
  /-- Kind of the start under way: 0 cold, 1 warm, 2 warm with preserve. -/
  startKind : Nat
  /-- Next bring-up step, 1 to 10 (R346). -/
  startNext : Nat
  failCode : Nat
  failUnit : Nat
  /-- Sixteenths of the R2 limit at which the limiter acts; none: the limit (R344). -/
  throttle : Option Nat
  /-- Tick of the last step down for the coolant (R349). -/
  coolant : Option Nat
  /-- Measured board-management registers: 0x02 and 0x03 (R323). -/
  measured : SMap Nat
  factory : List Repair
  inService : List Repair
  pendingRepairs : List Repair
  fenced : List Nat
  /-- By cluster, the core number that its spare core holds (R17, R342). -/
  spares : SMap (Option Nat)
  /-- Field islands that are up and locked: the lowest ones (R343, R346). -/
  fieldsUp : Nat
  deriving DecidableEq, Repr

/-- Reasons to stop with a fault. -/
inductive Fault where
  /-- Raised by a meaning of an instruction word when no executor is issuing (State.cur is none), which no step brings
  about. Safe: no word issues without an executor (R235). -/
  | noIssuingExecutor
  deriving DecidableEq, Repr

/-- Reasons to refuse. -/
inductive Refusal where
  /-- Raised by an arm of `exec` for an instruction that has no meaning yet. Safe: nothing is claimed of it. -/
  | notModelled (mnemonic : String)
  deriving DecidableEq, Repr

/-- An executor context with the registers of R39 at placement: a0 as given, every other register zero. -/
def Exec.fresh (a0 : LaneSet) (pc now : Nat) : Exec :=
  { v := [], k := [], a := [], a0, base := a0, origin := [], cL := 0, cS := 0, cC := 0, cT := 0, cX := 0
    queue := [], queueClosed := false, queueHeld := 0, pc, fetched := none, far := [], clauses := [], pend := [], ops := []
    parts := [], readyAt := now, lastAward := none, slot := none, waits := [], holds := [], written := [], badCells := [], handler := false, tmask := 0
    entries := [], cause := none, shadow := none
    stop := { stopped := false, pending := false, step := false, pass := none, rptBy := none, counters := [] }
    repeats := none, lastPage := [], aside := none, exiting := false, retired := false, relScope := none, cover := 0 }

/-- A core with no workgroup, everything zero or empty (R348). -/
def Core.idle : Core :=
  { wg := none, tiles := [], badTiles := [], l1 := [], zflags := [], fills := [], macroRec := none, weights := [], bscales := [], slavedBy := none
    tlb := [], walk := [], code := [], away := [], slotFree := [], corrected := 0, parityTraps := 0, failedRows := [], breaks := []
    frozen := [], sampled := 0, sampledAt := none }

/-- A field as its island locks: count 0, 4.00 GHz, nothing committed (R326, R349). -/
def Field.locked : Field := { count := 0, phase := 0, step := 16, committed := 0, current := 0, changed := false, synced := 0, below := none
                              compared := none }

def Port.up : Port := { down := false, replays := 0, failed := 0, since := 0 }

def IntVec.idle : IntVec := { pending := 0, total := 0, last := none }

/-- The machine right after a cold start (R346, R348): state 2, nothing placed, every memory zero. -/
def State.reset : State :=
  { agenda := [], cur := none, free := 0, fresh := 0, time := 0, fields := [], mem := [], poison := [], crossings := [], marks := []
    watches := [], cores := [], events := [], endEvents := [], eventRels := [], turns := [], served := [], regions := [], queueTable := none, levels := [], contextTable := none
    governorTable := none, governors := [], trace := none, taken := [], reservations := [], saved := []
    requests := [], shoots := [], gangBars := [], headsDone := [], codeObjs := [], ownId := Config.recordOwn, hostId := Config.recordHost
    peers := [], epochs := [], unreachable := [], ports := [], routes := [], lateAnswers := 0, dropped := 0, doorbellsDropped := 0
    traceDrops := 0, ints := [], outbox := [], remotes := [], log := [], corrected := 0, uncorrectable := 0
    startState := 2, startKind := 0, startNext := 0, failCode := 0, failUnit := 0, throttle := none, coolant := none, measured := []
    factory := [], inService := [], pendingRepairs := [], fenced := [], spares := [], fieldsUp := 6 }

end Sys2Proof.Machine
end

