-- ==== Sys2Proof/Machine/Base.lean ====
section
/-! DEFINITION. Maps, the numbering of units (spec/01 R13 to R20), and the access paths to cores, workgroups, executors and
their registers (spec/03 R39 to R42). -/

namespace Sys2Proof.Machine

-- maps

/-- The value of key i, or the default d. -/
def mapGet {α : Type} (d : α) : SMap α → Nat → α
  | [], _ => d
  | (k, x) :: m, i => if k = i then x else mapGet d m i

/-- Set key i to x, keeping the canonical form: keys rise and no entry equals the default. -/
def mapPut {α : Type} [DecidableEq α] (d : α) (i : Nat) (x : α) : SMap α → SMap α
  | [] => if x = d then [] else [(i, x)]
  | (k, y) :: m =>
    if i < k then (if x = d then (k, y) :: m else (i, x) :: (k, y) :: m)
    else if i = k then (if x = d then m else (i, x) :: m)
    else (k, y) :: mapPut d i x m

/-- Keys above b rise strictly and no entry equals the default. -/
def mapWfFrom {α : Type} [DecidableEq α] (d : α) : Option Nat → SMap α → Bool
  | _, [] => true
  | b, (k, x) :: m => (match b with | none => true | some j => decide (j < k)) && decide (x ≠ d) && mapWfFrom d (some k) m

/-- The canonical form of a map with default d. -/
def mapWf {α : Type} [DecidableEq α] (d : α) (m : SMap α) : Bool := mapWfFrom d none m

/-- Replace the first element that meets p by its image. -/
def updFirst {α : Type} (p : α → Bool) (f : α → α) : List α → List α
  | [] => []
  | x :: xs => if p x then f x :: xs else x :: updFirst p f xs

/-- The numbers below n, rising. -/
def upto (n : Nat) : List Nat := List.range n

/-- The n numbers from a, rising. -/
def span (a n : Nat) : List Nat := (List.range n).map (a + ·)

/-- The lanes of a set, rising. -/
def lanesOf (g : LaneSet) : List Nat := (List.range 32).filter fun i => g.getLsbD i

/-- The set of the lanes in a list. -/
def laneSet (ls : List Nat) : LaneSet := ls.foldl (fun g i => g ||| ((1 : LaneSet) <<< i)) 0

/-- Number of lanes of a set. -/
def laneCount (g : LaneSet) : Nat := (lanesOf g).length

/-- Signed value of the low n bits of a number (sext of R11). -/
def sext (n : Nat) (x : Nat) : Int := if x % 2 ^ n < 2 ^ (n - 1) then (x % 2 ^ n : Nat) else (x % 2 ^ n : Nat) - (2 ^ n : Nat)

/-- An integer taken modulo 2^n. -/
def wrap (n : Nat) (x : Int) : Nat := (x % (2 ^ n : Nat)).toNat

/-- Round x up to a multiple of g. -/
def roundUp (x g : Nat) : Nat := (x + g - 1) / g * g

-- numbering (R13, R15)

def clusterOf (core : Nat) : Nat := core / 8

/-- Field of a cluster (R15). -/
def fieldOfCluster (c : Nat) : Nat :=
  if c < 3 then 0 else if c < 8 then 1 else if c < 13 then 2 else if c < 18 then 3 else if c < 23 then 4 else 5

def fieldOf (core : Nat) : Nat := fieldOfCluster (clusterOf core)

/-- First cluster of a field and how many it has (R13, R15). -/
def fieldFirst (f : Nat) : Nat := if f = 0 then 0 else 5 * f - 2
def fieldSize (f : Nat) : Nat := if f = 0 || f = 5 then 3 else 5

/-- Fields 0 and 5 are class E (R13). -/
def fieldE (f : Nat) : Bool := f = 0 || f = 5
def coreE (core : Nat) : Bool := fieldE (fieldOf core)

/-- Current limit of a field in mA (R2, R48). -/
def fieldLimit (f : Nat) : Nat := if fieldE f then Config.limitE else Config.limitF

/-- Macro depth (R20, R180). -/
def macroDepth (core : Nat) : Nat := if coreE core then 128 else 384

/-- Home stack, field and slice of a DRAM address (R248). -/
def homeStack (pa : Nat) : Nat := pa / 4096 % 12
def homeField (pa : Nat) : Nat := homeStack pa / 2
def homeSlice (pa : Nat) : Nat := fieldFirst (homeField pa) + pa / 4096 / 12 % fieldSize (homeField pa)

def allCores : List Nat := upto 208

/-- Cores that a scope covers from one core (R24, R233). -/
def coversCore (scope : Scope) (core other : Nat) : Bool :=
  match scope with
  | .thread | .warp | .wg => core = other
  | .cluster => clusterOf core = clusterOf other
  | .field => fieldOf core = fieldOf other
  | .device | .system => true

def scopeNum (s : Scope) : Nat := (scopeCode s).toNat

-- access paths

def State.core (s : State) (c : Nat) : Core := mapGet Core.idle s.cores c
def State.setCore (s : State) (c : Nat) (x : Core) : State := { s with cores := mapPut Core.idle c x s.cores }
def State.field (s : State) (f : Nat) : Field := mapGet Field.locked s.fields f
def State.setField (s : State) (f : Nat) (x : Field) : State := { s with fields := mapPut Field.locked f x s.fields }
/-- Cycle count of the field of a core: sr.clock (R48, R326). -/
def State.now (s : State) (core : Nat) : Nat := (s.field (fieldOf core)).count
def State.wg (s : State) (c : Nat) : Option Workgroup := (s.core c).wg
def State.setWg (s : State) (c : Nat) (w : Workgroup) : State := s.setCore c { s.core c with wg := some w }
def Workgroup.exec (w : Workgroup) (n : Nat) : Option Exec := mapGet none w.execs n
def Workgroup.setExec (w : Workgroup) (n : Nat) (e : Exec) : Workgroup := { w with execs := mapPut none n (some e) w.execs }
def State.exec (s : State) (x : ExecId) : Option Exec := (s.wg x.core).bind (·.exec x.ctx)
def State.setExec (s : State) (x : ExecId) (e : Exec) : State :=
  match s.wg x.core with
  | none => s
  | some w => s.setWg x.core (w.setExec x.ctx e)
/-- Change an executor that exists. -/
def State.updExec (s : State) (x : ExecId) (f : Exec → Exec) : State :=
  match s.exec x with
  | none => s
  | some e => s.setExec x (f e)
def State.updWg (s : State) (c : Nat) (f : Workgroup → Workgroup) : State :=
  match s.wg c with
  | none => s
  | some w => s.setWg c (f w)
def State.updCore (s : State) (c : Nat) (f : Core → Core) : State := s.setCore c (f (s.core c))

/-- Executors of a workgroup with their contexts, rising. -/
def Workgroup.all (w : Workgroup) : List (Nat × Exec) := w.execs.filterMap fun p => p.2.map (p.1, ·)

/-- Cores that hold a workgroup, rising. -/
def State.busy (s : State) : List (Nat × Workgroup) := s.cores.filterMap fun p => p.2.wg.map (p.1, ·)

def isHead (ctx : Nat) : Bool := ctx = 40
def isSlot (ctx : Nat) : Bool := 32 ≤ ctx && ctx < 40
def isHome (ctx : Nat) : Bool := ctx < 32

/-- Order of executors whose commits fall in one cycle (R172). -/
def execRank (ctx : Nat) : Nat := ctx

-- registers

/-- Read a v register of one lane, an k register, an aperture; in shadow the shadow copies (R286). -/
def Exec.rv (e : Exec) (r l : Nat) : Lane :=
  match e.shadow with
  | none => mapGet 0 e.v (r * 32 + l)
  | some h => mapGet 0 h.v (r * 32 + l)
def Exec.rk (e : Exec) (r : Nat) : Word :=
  match e.shadow with
  | none => mapGet 0 e.k r
  | some h => mapGet 0 h.k r
def Exec.ra0 (e : Exec) : LaneSet :=
  match e.shadow with
  | none => e.a0
  | some h => h.a0
def Exec.ra (e : Exec) (r : Nat) : LaneSet :=
  if r = 0 then e.ra0
  else match e.shadow with
    | none => mapGet 0 e.a r
    | some h => mapGet 0 h.a r

def RegVal.key : RegVal → RegKey
  | .v r l _ => .v r l
  | .k r _ => .k r
  | .a r _ => .a r

/-- The cell's value in the executor's registers. -/
def Exec.cell (e : Exec) : RegKey → RegVal
  | .v r l => .v r l (e.rv r l)
  | .k r => .k r (e.rk r)
  | .a r => .a r (e.ra r)

/-- The 32-bit units of a register cell: a k register has two (R333). -/
def cellUnits : RegKey → List RegKey
  | .k r => [.k r, .k (r + 64)]
  | k => [k]
/-- The bad units that are left when a cell is written whole (R337). -/
def cellsBut (l : List RegKey) (k : RegKey) : List RegKey := l.filter fun q => !(cellUnits k).contains q

/-- Write one register cell; a0 is no destination (R42). In shadow the shadow copies are written (R286). -/
def Exec.put (e : Exec) (w : RegVal) : Exec :=
  match e.shadow with
  | none =>
    match w with
    | .v r l x => { e with v := mapPut 0 (r * 32 + l) x e.v, badCells := cellsBut e.badCells (.v r l) }
    | .k r x => { e with k := mapPut 0 r x e.k, badCells := cellsBut e.badCells (.k r) }
    | .a r x => if r = 0 then e else { e with a := mapPut 0 r x e.a, badCells := cellsBut e.badCells (.a r) }
  | some h =>
    match w with
    | .v r l x => { e with shadow := some { h with v := mapPut 0 (r * 32 + l) x h.v } }
    | .k r x => { e with shadow := some { h with k := mapPut 0 r x h.k } }
    | .a r x => if r = 0 then e else { e with shadow := some { h with a := mapPut 0 r x h.a } }

/-- Write one register cell of the executor itself, and of a shadow of it as well: what a committed operation returns (R51, R286). -/
def Exec.putReal (e : Exec) (w : RegVal) : Exec :=
  match e.shadow with
  | none => e.put w
  | some h => { ({ e with shadow := none } : Exec).put w with shadow := ((e.put w).shadow.or (some h)) }

def Exec.puts (e : Exec) (ws : List RegVal) : Exec := ws.foldl Exec.put e

/-- The waits that keep an executor from issuing: in an APPLYW block, those that began in the block (R132). -/
def Exec.waiting (e : Exec) : List Wait := match e.aside with | none => e.waits | some a => a.waits.foldl List.erase e.waits

/-- Place of a word in issue order: its clause's number and its index in the clause. -/
def issueOrder (seq idx : Nat) : Nat := 32 * seq + idx

/-- Has a later-issued word written the cell in this cycle, of those that p names (R49, R94)? -/
def Exec.late (e : Exec) (now order : Nat) (key : RegKey) (p : Written → Bool) : Bool :=
  e.written.any fun w => w.cycle = now && p w && w.key = key && decide (order < w.order)

/-- A result reaches its register in a field cycle: of two that land in one cycle the later-issued wins (R49, R94). In a run-ahead it goes
to the shadow copy, and `real`, of a committed operation, to the register itself as well, which words of the shadow do not write (R286). -/
def Exec.write (e : Exec) (now order : Nat) (r : RegVal) (real : Bool := false) : Exec :=
  let mine := e.written.filter (·.cycle = now)
  let noted (shadow : Bool) : List Written :=
    mine.filter (fun w => !(w.key = r.key && w.shadow = shadow)) ++ [{ key := r.key, cycle := now, order, shadow }]
  let late := e.late now order r.key fun _ => true
  match e.shadow with
  | none => if late then { e with written := mine } else { e.put r with written := noted false }
  | some _ =>
    let e1 := if late then e else e.put r
    if real && !e.late now order r.key (!·.shadow) then
      { ({ e1 with shadow := none } : Exec).put r with shadow := e1.shadow, written := noted false }
    else { e1 with written := if late || real then mine else noted true }

/-- Value of a k register and of a run of k registers. -/
def Exec.krun (e : Exec) (r n : Nat) : List Word := (span r n).map e.rk

/-- A v register over the 32 lanes. -/
def Exec.vrow (e : Exec) (r : Nat) : List Lane := (upto 32).map (e.rv r)

def counterOf (e : Exec) : Cls → Nat
  | .l => e.cL | .s => e.cS | .c => e.cC | .t => e.cT | .x => e.cX | .none => 0
def addCounter (e : Exec) (cls : Cls) (n : Nat) : Exec :=
  match cls with
  | .l => { e with cL := e.cL + n } | .s => { e with cS := e.cS + n } | .c => { e with cC := e.cC + n }
  | .t => { e with cT := e.cT + n } | .x => { e with cX := e.cX + n } | .none => e
def subCounter (e : Exec) (cls : Cls) : Exec :=
  match cls with
  | .l => { e with cL := e.cL - 1 } | .s => { e with cS := e.cS - 1 } | .c => { e with cC := e.cC - 1 }
  | .t => { e with cT := e.cT - 1 } | .x => { e with cX := e.cX - 1 } | .none => e

end Sys2Proof.Machine
end

