-- ==== Sys2Proof/Machine/Float.lean ====
section
/-! DEFINITION. Number formats and exact arithmetic, rounded once (spec/04 R52 to R60, spec/06 R102 to R106). -/

namespace Sys2Proof.Machine

/-- A floating-point format: exponent and fraction bits; e4m3 has no infinity (R52). -/
structure Fmt where
  eb : Nat
  fb : Nat
  e4m3 : Bool
  deriving DecidableEq, Repr

def fmtF16 : Fmt := ⟨5, 10, false⟩
def fmtBf16 : Fmt := ⟨8, 7, false⟩
def fmtF32 : Fmt := ⟨8, 23, false⟩
def fmtF64 : Fmt := ⟨11, 52, false⟩
def fmtE4m3 : Fmt := ⟨4, 3, true⟩
def fmtE5m2 : Fmt := ⟨5, 2, false⟩
def fmtX80 : Fmt := ⟨15, 64, false⟩

/-- Format of a scalar floating-point type. -/
def fmtOf : Ty → Fmt
  | .f16 | .f16x2 => fmtF16
  | .bf16 | .bf16x2 => fmtBf16
  | .f64 => fmtF64
  | .e4m3 | .e4m3x4 => fmtE4m3
  | .e5m2 | .e5m2x4 => fmtE5m2
  | .x80 => fmtX80
  | _ => fmtF32

def Fmt.bias (f : Fmt) : Nat := 2 ^ (f.eb - 1) - 1
/-- Exponent of the smallest normal. -/
def Fmt.emin (f : Fmt) : Int := 1 - f.bias
/-- Largest finite magnitude as (significand, exponent of its unit) (R53). -/
def Fmt.maxFin (f : Fmt) : Nat × Int :=
  if f.e4m3 then (14, 5) else (2 ^ (f.fb + 1) - 1, (f.bias : Int) - f.fb)
/-- Encoding of the largest finite magnitude, without sign. -/
def Fmt.maxBits (f : Fmt) : Nat := if f.e4m3 then 0x7E else (2 ^ f.eb - 2) * 2 ^ f.fb + (2 ^ f.fb - 1)
def Fmt.infBits (f : Fmt) : Nat := (2 ^ f.eb - 1) * 2 ^ f.fb
/-- The one NaN that the device produces (R53). -/
def Fmt.nanBits (f : Fmt) : Nat := if f.e4m3 then 0x7F else f.infBits + 2 ^ (f.fb - 1)
def Fmt.signBit (f : Fmt) : Nat := 2 ^ (f.eb + f.fb)
def Fmt.withSign (f : Fmt) (neg : Bool) (x : Nat) : Nat := if neg then f.signBit + x else x

/-- A datum: NaN, an infinity, or (-1)^neg * m * 2^e, a signed zero with m = 0. -/
inductive FVal where
  | nan
  | inf (neg : Bool)
  | fin (neg : Bool) (m : Nat) (e : Int)
  deriving DecidableEq, Repr

/-- The datum of a bit pattern (R52). -/
def unpackF (f : Fmt) (bits : Nat) : FVal :=
  let neg := bits / f.signBit % 2 = 1
  let e := bits / 2 ^ f.fb % 2 ^ f.eb
  let m := bits % 2 ^ f.fb
  if f.e4m3 && e = 15 && m = 7 then .nan
  else if !f.e4m3 && e = 2 ^ f.eb - 1 then (if m = 0 then .inf neg else .nan)
  else if e = 0 then .fin neg m (f.emin - f.fb)
  else .fin neg (2 ^ f.fb + m) ((e : Int) - f.bias - f.fb)

/-- A real to be rounded: (-1)^neg * num / den * 2^e, an infinity or NaN. -/
inductive XReal where
  | nan
  | inf (neg : Bool)
  | rat (neg : Bool) (num den : Nat) (e : Int)
  deriving DecidableEq, Repr

def XReal.ofF : FVal → XReal
  | .nan => .nan
  | .inf n => .inf n
  | .fin n m e => .rat n m 1 e

/-- floor(log2(num / den * 2^e)) for num and den above 0. -/
def log2Rat (num den : Nat) (e : Int) : Int :=
  let g : Int := (Nat.log2 num : Int) - Nat.log2 den
  -- num / den lies in [2^(g - 1), 2^(g + 1))
  let atLeast := if 0 ≤ g then decide (den * 2 ^ g.toNat ≤ num) else decide (den ≤ num * 2 ^ (-g).toNat)
  (if atLeast then g else g - 1) + e

/-- num / den * 2^e over 2^q: integer part, and numerator and denominator of the rest. -/
def scaleRat (num den : Nat) (e q : Int) : Nat × Nat × Nat :=
  let n := if 0 ≤ e - q then num * 2 ^ (e - q).toNat else num
  let d := if 0 ≤ e - q then den else den * 2 ^ (q - e).toNat
  (n / d, n % d, d)

/-- Does a magnitude n + r / d round away from zero (R57)? -/
def roundsUp (rm : Rnd) (neg : Bool) (n r d : Nat) : Bool :=
  match rm with
  | .rne => decide (d < 2 * r) || (decide (2 * r = d) && n % 2 = 1)
  | .rtz => false
  | .rup => decide (r ≠ 0) && !neg
  | .rdn => decide (r ≠ 0) && neg

/-- Round to an integer (R57). -/
def roundInt (rm : Rnd) (neg : Bool) (num den : Nat) (e : Int) : Nat :=
  let (n, r, d) := scaleRat num den e 0
  if roundsUp rm neg n r d then n + 1 else n

/-- Encode a magnitude n * 2^q that is a number of the format (R52). -/
def encodeMag (f : Fmt) (n : Nat) (q : Int) : Nat :=
  if n = 0 then 0
  else
    let e := (Nat.log2 n : Int) + q
    if e < f.emin then n * 2 ^ (q - (f.emin - f.fb)).toNat
    else
      let m := if Nat.log2 n ≤ f.fb then n * 2 ^ (f.fb - Nat.log2 n) else n / 2 ^ (Nat.log2 n - f.fb)
      (e + f.bias).toNat * 2 ^ f.fb + (m - 2 ^ f.fb)

/-- Result of an overflow as IEEE 754 gives it. -/
def overflowBits (f : Fmt) (rm : Rnd) (neg : Bool) : Nat :=
  match rm with
  | .rne => f.infBits
  | .rtz => f.maxBits
  | .rup => if neg then f.maxBits else f.infBits
  | .rdn => if neg then f.infBits else f.maxBits

/-- cvt_float (R58). -/
def packF (f : Fmt) (rm : Rnd) (sat : Bool) : XReal → Nat
  | .nan => f.nanBits
  | .inf neg => if f.e4m3 then (if sat then f.withSign neg f.maxBits else f.nanBits) else f.withSign neg f.infBits
  | .rat neg num den e =>
    if num = 0 then f.withSign neg 0
    else
      let q := max (log2Rat num den e) f.emin - f.fb
      let (n, r, d) := scaleRat num den e q
      let y := if roundsUp rm neg n r d then n + 1 else n
      let (mm, me) := f.maxFin
      -- y * 2^q beyond the largest finite magnitude?
      let tooBig := if q ≤ me then decide (mm * 2 ^ (me - q).toNat < y) else decide (mm < y * 2 ^ (q - me).toNat)
      if tooBig then
        if sat then f.withSign neg f.maxBits
        else if f.e4m3 then f.nanBits
        else f.withSign neg (overflowBits f rm neg)
      else f.withSign neg (encodeMag f y q)

/-- cvt_int into n bits (R59). -/
def packI (signed : Bool) (n : Nat) (rm : Rnd) : XReal → Nat
  | .nan => 0
  | .inf neg => if neg then (if signed then 2 ^ (n - 1) else 0) else (if signed then 2 ^ (n - 1) - 1 else 2 ^ n - 1)
  | .rat neg num den e =>
    let m := roundInt rm neg num den e
    if neg then (if signed then (2 ^ n - min m (2 ^ (n - 1))) % 2 ^ n else 0)
    else min m (if signed then 2 ^ (n - 1) - 1 else 2 ^ n - 1)

-- arithmetic on data

def XReal.ofInt (z : Int) (e : Int) (zeroNeg : Bool) : XReal :=
  if z = 0 then .rat zeroNeg 0 1 0 else .rat (decide (z < 0)) z.natAbs 1 e

def signedMag (neg : Bool) (m : Nat) : Int := if neg then -(m : Int) else m

/-- Exact sum; an exact zero of opposite signs is +0, and -0 in RDN (R56). -/
def addX (rm : Rnd) : FVal → FVal → XReal
  | .nan, _ => .nan
  | _, .nan => .nan
  | .inf a, .inf b => if a = b then .inf a else .nan
  | .inf a, _ => .inf a
  | _, .inf b => .inf b
  | .fin na ma ea, .fin nb mb eb =>
    let e := min ea eb
    let z := signedMag na (ma * 2 ^ (ea - e).toNat) + signedMag nb (mb * 2 ^ (eb - e).toNat)
    XReal.ofInt z e (if na = nb then na else rm == .rdn)

def negF : FVal → FVal
  | .nan => .nan
  | .inf n => .inf !n
  | .fin n m e => .fin (!n) m e

/-- Exact product as a datum. -/
def mulF : FVal → FVal → FVal
  | .nan, _ => .nan
  | _, .nan => .nan
  | .inf a, .inf b => .inf (a != b)
  | .inf a, .fin n m _ => if m = 0 then .nan else .inf (a != n)
  | .fin n m _, .inf b => if m = 0 then .nan else .inf (n != b)
  | .fin na ma ea, .fin nb mb eb => .fin (na != nb) (ma * mb) (ea + eb)

/-- a * b + c, rounded once (R56). -/
def fmaX (rm : Rnd) (a b c : FVal) : XReal := addX rm (mulF a b) c

/-- Exact quotient (R103). -/
def divX : FVal → FVal → XReal
  | .nan, _ => .nan
  | _, .nan => .nan
  | .inf _, .inf _ => .nan
  | .inf a, .fin n _ _ => .inf (a != n)
  | .fin n _ _, .inf b => .rat (n != b) 0 1 0
  | .fin na ma ea, .fin nb mb eb =>
    if mb = 0 then (if ma = 0 then .nan else .inf (na != nb))
    else .rat (na != nb) ma mb (ea - eb)

/-- Integer square root by Newton's steps from above, at most k of them. -/
def isqrtFrom (n : Nat) : Nat → Nat → Nat
  | 0, x => x
  | k + 1, x =>
    let y := (x + n / x) / 2
    if y < x then isqrtFrom n k y else x
def isqrt (n : Nat) : Nat := if n = 0 then 0 else isqrtFrom n (Nat.log2 n + 4) (2 ^ (Nat.log2 n / 2 + 1))

/-- Square root, its lower bits folded into one sticky bit far below every format's last bit (R103). -/
def sqrtX : FVal → XReal
  | .nan => .nan
  | .inf neg => if neg then .nan else .inf false
  | .fin neg m e =>
    if m = 0 then .rat neg 0 1 0
    else if neg then .nan
    else
      let e1 := if e % 2 = 0 then e else e - 1
      let n := (if e % 2 = 0 then m else 2 * m) * 2 ^ 160
      let r := isqrt n
      .rat false (2 * r + if r * r = n then 0 else 1) 1 (e1 / 2 - 81)

/-- a * 2^n (R103). -/
def scaleX (n : Int) : FVal → XReal
  | .nan => .nan
  | .inf s => .inf s
  | .fin s m e => .rat s m 1 (e + n)

/-- Round to an integral value in the same format; the sign of zero is kept (R103). -/
def frndX (rm : Rnd) : FVal → XReal
  | .nan => .nan
  | .inf s => .inf s
  | .fin s m e => if 0 ≤ e then .rat s m 1 e else .rat s (roundInt rm s m 1 e) 1 0

/-- a < b for two data that are numbers; zeros are equal. -/
def ltF : FVal → FVal → Bool
  | .nan, _ => false
  | _, .nan => false
  | .inf a, .inf b => a && !b
  | .inf a, _ => a
  | _, .inf b => !b
  | .fin na ma ea, .fin nb mb eb =>
    let e := min ea eb
    decide (signedMag na (ma * 2 ^ (ea - e).toNat) < signedMag nb (mb * 2 ^ (eb - e).toNat))
def isNan : FVal → Bool
  | .nan => true
  | _ => false
def isInf : FVal → Bool
  | .inf _ => true
  | _ => false
def isZeroF : FVal → Bool
  | .fin _ m _ => m = 0
  | _ => false
def negOf : FVal → Bool
  | .nan => false
  | .inf n => n
  | .fin n _ _ => n
def eqF (a b : FVal) : Bool := !isNan a && !isNan b && !ltF a b && !ltF b a

/-- minimumNumber, with -0 below +0 (R56). -/
def minF (a b : FVal) : FVal :=
  if isNan a then b else if isNan b then a
  else if ltF a b then a else if ltF b a then b else if negOf a then a else b
def maxF (a b : FVal) : FVal :=
  if isNan a then b else if isNan b then a
  else if ltF a b then b else if ltF b a then a else if negOf a then b else a

/-- FCLASS: exactly one bit (R104). -/
def fclass (f : Fmt) (bits : Nat) : Nat :=
  let neg := bits / f.signBit % 2 = 1
  let e := bits / 2 ^ f.fb % 2 ^ f.eb
  let m := bits % 2 ^ f.fb
  if e = 2 ^ f.eb - 1 then
    if m = 0 then (if neg then 2 ^ 0 else 2 ^ 7) else if m / 2 ^ (f.fb - 1) = 1 then 2 ^ 9 else 2 ^ 8
  else if e = 0 then
    if m = 0 then (if neg then 2 ^ 3 else 2 ^ 4) else (if neg then 2 ^ 2 else 2 ^ 5)
  else (if neg then 2 ^ 1 else 2 ^ 6)

/-- Truncation to 12 significant bits, or to f32 spacing where the result is subnormal; overflow gives 0x7F7F_F000 (R106). -/
def approx12 : XReal → Nat
  | .nan => fmtF32.nanBits
  | .inf neg => fmtF32.withSign neg fmtF32.infBits
  | .rat neg num den e =>
    if num = 0 then fmtF32.withSign neg 0
    else
      let lg := log2Rat num den e
      if 127 < lg then fmtF32.withSign neg 0x7F7FF000
      else
        let q := if lg < -126 then -149 else lg - 11
        fmtF32.withSign neg (encodeMag fmtF32 (scaleRat num den e q).1 q)

/-- RCPA of a datum (R106). -/
def rcpaBits (a : FVal) : Nat := approx12 (divX (.fin false 1 0) a)

/-- RSQA of a datum: 1 / sqrt a truncated; -0 gives -∞ (R106). The root is taken of 1 / a to 100 bits below the leading bit. -/
def rsqaBits : FVal → Nat
  | .nan => fmtF32.nanBits
  | .inf neg => if neg then fmtF32.nanBits else 0
  | .fin neg m e =>
    if m = 0 then fmtF32.withSign neg fmtF32.infBits
    else if neg then fmtF32.nanBits
    else
      -- 1 / (m * 2^e) = (2^k / m) * 2^(-k - e) with k + e even
      let k : Nat := 400
      let k1 := if ((k : Int) + e) % 2 = 0 then k else k + 1
      approx12 (.rat false (isqrt (2 ^ k1 / m)) 1 (-((k1 : Int) + e) / 2))

-- integers

/-- Value of n bits as an integer of a signedness. -/
def toInt (signed : Bool) (n : Nat) (x : Nat) : Int := if signed then sext n x else (x % 2 ^ n : Nat)
/-- Clamp an exact result to the range of a type (R99). -/
def clampI (signed : Bool) (n : Nat) (z : Int) : Int :=
  if signed then max (-(2 ^ (n - 1) : Nat)) (min z ((2 ^ (n - 1) - 1 : Nat))) else max 0 (min z ((2 ^ n - 1 : Nat)))
/-- Wrap or saturate an exact result (R60, R99). -/
def fitI (sat signed : Bool) (n : Nat) (z : Int) : Nat := wrap n (if sat then clampI signed n z else z)

end Sys2Proof.Machine
end

