-- ==== Sys2Proof/Machine/Bytes.lean ====
section
/-! DEFINITION. Bytes of memory at their homes, the L1 caches over them, and the sleepers that a write wakes (spec/08 R144 to
R156, spec/17 R248 to R257, spec/26 R336). -/

namespace Sys2Proof.Machine

/-- The canonical form of memory: addresses rise strictly and no entry is the zero that an unlisted byte reads as. -/
def Memory.wf (m : Memory) : Bool := mapWf (0 : Byte) m

-- homes

def vaultBase : Nat := 2 ^ 52
def spadBase : Nat := 2 ^ 53
def vaultHome (v off : Nat) : Nat := vaultBase + v * 2 ^ 26 + off
def spadHome (core off : Nat) : Nat := spadBase + core * 2 ^ 20 + off
def isSpadHome (h : Nat) : Bool := spadBase ≤ h
def isDramHome (h : Nat) : Bool := h < vaultBase
def spadCore (h : Nat) : Nat := (h - spadBase) / 2 ^ 20
def spadOff (h : Nat) : Nat := (h - spadBase) % 2 ^ 20

/-- A home as the error log names it: a physical address, an address of R144 in a vault, or a scratchpad unit (R340). -/
def whereOf (h : Nat) : Nat := if isSpadHome h then spadOff h / 8 else if isDramHome h then h else h - vaultBase

/-- Monitor unit of a home sector: each core's scratchpad, each vault, each cache slice (R156). -/
def monitorOf (h : Nat) : Nat :=
  if isSpadHome h then 1000 + spadCore h else if isDramHome h then homeSlice h else 100 + (h - vaultBase) / 2 ^ 26
def monitorSize (h : Nat) : Nat := if isDramHome h then 256 else 64

/-- One byte of memory. -/
def readByte (m : Memory) (h : Nat) : Byte := mapGet 0 m h
def readBytes (m : Memory) (h n : Nat) : List Byte := (span h n).map (readByte m)
/-- Little-endian number of n bytes (R7). -/
def readNat (m : Memory) (h n : Nat) : Nat := leNat (readBytes m h n)
def writeByte (m : Memory) (h : Nat) (b : Byte) : Memory := mapPut 0 h b m
def writeBytes (m : Memory) (h : Nat) : List Byte → Memory
  | [] => m
  | b :: bs => writeBytes (writeByte m h b) (h + 1) bs

-- unspecified values

/-- n bytes of an unspecified value (R10), and the state that has taken them. -/
def State.takeFree (s : State) (n : Nat) : List Byte × State :=
  ((span s.free n).map Config.freeByte, { s with free := s.free + n })

/-- A choice below n that the spec leaves open; n at least 1. -/
def State.choose (s : State) (n : Nat) : Nat × State := (Config.freeNat s.free % n, { s with free := s.free + 1 })

-- poison (R336)

/-- The 8-byte units that n bytes from h touch, and those that they cover. -/
def unitsOf (h n : Nat) : List Nat := if n = 0 then [] else (span (h / 8) ((h + n - 1) / 8 - h / 8 + 1)).map (8 * ·)
/-- Domain of the first poisoned unit that n bytes from h touch; 0 when all are good. -/
def poisonDomain (s : State) (h n : Nat) : Nat := (((unitsOf h n).map (mapGet 0 s.poison)).find? (· ≠ 0)).getD 0
def poisoned (s : State) (h n : Nat) : Bool := poisonDomain s h n ≠ 0
/-- Mark the units that n bytes from h touch. -/
def markPoison (s : State) (domain h n : Nat) : State :=
  { s with poison := (unitsOf h n).foldl (fun p u => mapPut 0 u domain p) s.poison }
/-- A good write of n bytes at h clears the units that it covers whole, of a DRAM block all 64 bytes (R336). -/
def clearPoison (s : State) (h n : Nat) : State :=
  { s with poison := s.poison.filter fun p =>
      if p.2 = 7 then !(h ≤ p.1 / 64 * 64 && p.1 / 64 * 64 + 64 ≤ h + n) else !(h ≤ p.1 && p.1 + 8 ≤ h + n) }

/-- Check domain of a home address (R333): scratchpad 3, vault 5, DRAM through its slice 6. -/
def domainOf (h : Nat) : Nat := if isSpadHome h then 3 else if isDramHome h then 6 else 5
/-- Mark units as poisoned in the store that holds them. -/
def addPoison (s : State) (h n : Nat) : State := markPoison s (domainOf h) h n
/-- An event of an interrupt vector: counted until its message goes out (R321). -/
def State.raise (s : State) (vector : Nat) : State :=
  let v := mapGet IntVec.idle s.ints vector
  { s with ints := mapPut IntVec.idle vector { v with pending := v.pending + 1, total := v.total + 1 } s.ints }

/-- Add an entry to the error log, which keeps the last 256 (R340). -/
def logError (s : State) (kind domain fromD core at' lgen : Nat) : State :=
  let f := if core < 208 then fieldOf core else 0
  let e : LogEntry := { kind, domain, fromDom := fromD, field := f, engine := if core < 208 then core else 0xFFFFFFFF
                        count := (s.field f).count, unit := at', lgen }
  { (s.raise 5) with log := (e :: s.log).take 256, uncorrectable := s.uncorrectable + 1 }

/-- Launch generation of a core's workgroup, for the error log. -/
def lgenOf (s : State) (core : Nat) : Nat := ((s.wg core).map fun w => w.launch.gen).getD 0
/-- A check of a crossing fails: the error belongs to the span from the sending domain (R338). -/
def logSpan (s : State) (core domain fromD at' : Nat) : State := logError s 4 domain fromD core at' (lgenOf s core)

/-- Does the next data that crosses between two domains for a core fail its check (R338)? -/
def crossingBad (s : State) (core fromD toD : Nat) : Bool := s.crossings.contains ⟨core, fromD, toD⟩
/-- The failure of a crossing, at a place in the log. -/
def State.crossed (s : State) (core fromD toD at' : Nat) : State :=
  logSpan { s with crossings := s.crossings.erase ⟨core, fromD, toD⟩ } core toD fromD at'
/-- Data of a core that has crossed into the store of a home: if the check failed, the unit there is poisoned (R338). -/
def State.cross (s : State) (core fromD h : Nat) : State :=
  if crossingBad s core fromD (domainOf h) then addPoison (s.crossed core fromD (domainOf h) (whereOf h)) h 1 else s
/-- The same for an engine's data, whichever domain it came from. -/
def State.crossInto (s : State) (core h : Nat) : State :=
  match s.crossings.find? fun c => c.core = core && c.toD = domainOf h with
  | some c => s.cross core c.fromD h
  | none => s
/-- A DRAM block's data crosses into its slice as it is read (R338). -/
def State.crossBlock (s : State) (core h : Nat) : State := if isDramHome h then s.cross core 7 h else s

/-- Good writes that together cover a unit whole, of a DRAM block all 64 bytes, clear its poison (R336). -/
def clearCovered (s : State) (rs : List (Nat × Nat)) : State :=
  { s with poison := s.poison.filter fun p =>
      let u := if p.2 = 7 then (p.1 / 64 * 64, 64) else (p.1, 8)
      !((span u.1 u.2).all fun b => rs.any fun r => decide (r.1 ≤ b) && decide (b < r.1 + r.2)) }

/-- The 64-byte DRAM block of a home fails its check (R333). -/
def addBlock (s : State) (h : Nat) : State := if isDramHome h then markPoison s 7 (h / 64 * 64) 64 else addPoison s h 1

-- entry causes (R225)

/-- Make an entry cause pending. Cause 0x15 folds into one that is pending (R337), and 0x13 is taken once (R296). -/
def addEntry (e : Exec) (n : Entry) : Exec :=
  if (n.code = 0x15 || n.code = 0x13) && e.entries.any (·.code = n.code) then e else { e with entries := e.entries ++ [n] }
def State.entry (s : State) (x : ExecId) (code info : Nat) (faddr : Nat := 0) : State :=
  s.updExec x fun e => addEntry e { code, info, tmask := e.a0, faddr }
/-- Uncorrectable data met by an executor (R336). -/
def State.poisonEntry (s : State) (x : ExecId) (domain : Nat) : State := s.entry x 0x15 domain

-- writes at the home

def sectorsOf (h n : Nat) : List Nat := if n = 0 then [] else (span (h / 32) ((h + n - 1) / 32 - h / 32 + 1)).map (32 * ·)

/-- Clear the zero flags of the scratchpad blocks that a write touches (R189). -/
def clearZeroFlags (s : State) (h n : Nat) : State :=
  if isSpadHome h then
    s.updCore (spadCore h) fun c =>
      { c with zflags := c.zflags.filter fun b => !(spadOff h / 4096 ≤ b && b ≤ (spadOff h + n - 1) / 4096) }
  else s

/-- Bytes reach their home: memory, poison of whole units, zero flags, and marks of other cores' narrow releases (R189, R257,
R336). `by core` is the core that writes, none for an agent outside; an atomic removes no mark. -/
def homeStore (s : State) (writer : Option Nat) (atomic : Bool) (h : Nat) (bs : List Byte) : State :=
  let s1 := clearZeroFlags (clearPoison { s with mem := writeBytes s.mem h bs } h bs.length) h bs.length
  if atomic then s1
  else { s1 with marks := s1.marks.filter fun m => !((sectorsOf h bs.length).contains m.sector) || writer = some m.core }

/-- Is it a mark of the same sector, core and scope: a later release of that core covers what the earlier one did? -/
def sameMark (m n : Mark) : Bool := n.sector = m.sector && n.core = m.core && n.scope == m.scope
/-- Record the mark of a narrow release write at its single copy (R257). Marks of other cores and scopes on the sector stay; of two of one core
and scope what the later release covers stands. -/
def addMark (s : State) (m : Mark) : State :=
  let below := ((s.marks.filter (sameMark m)).map (·.below)).foldl max m.below
  { s with marks := s.marks.filter (fun n => !sameMark m n) ++ [{ m with below }] }

-- L1 (R148, R149)

def lineOf (va : Nat) : Nat := va / 128
def findLine (ls : List Line) (ctx va : Nat) : Option Line := ls.find? fun l => l.ctx = ctx && l.va = lineOf va
def putLine (ls : List Line) (l : Line) : List Line :=
  if l.bytes.isEmpty then ls.filter fun m => !(m.ctx = l.ctx && m.va = l.va)
  else if (ls.find? fun m => m.ctx = l.ctx && m.va = l.va).isSome then updFirst (fun m => m.ctx = l.ctx && m.va = l.va) (fun _ => l) ls
  else ls ++ [l]

/-- Dirty bytes of a line within [lo, hi): offset and byte. -/
def dirtyBytes (l : Line) (lo hi : Nat) : List (Nat × Byte) :=
  l.bytes.filterMap fun p => match p.2 with
    | some (b, true) => if lo ≤ p.1 && p.1 < hi then some (p.1, b) else none
    | _ => none

/-- Adjacent bytes as runs: the offset of the first, and the bytes. -/
def byteRuns : List (Nat × Byte) → List (Nat × List Byte)
  | [] => []
  | (o, b) :: ds =>
    match byteRuns ds with
    | (p, bs) :: rs => if p = o + 1 then (o, b :: bs) :: rs else (o, [b]) :: (p, bs) :: rs
    | [] => [(o, [b])]

/-- A run of a line's bytes reaches its home; poisoned units of the line are carried (R149, R336). -/
def wbRun (s : State) (core : Nat) (l : Line) (r : Nat × List Byte) : State :=
  (l.poison.filter fun u => r.1 < 8 * u + 8 && 8 * u < r.1 + r.2.length).foldl (fun s u => addPoison s (l.pa * 128 + 8 * u) 8)
    ((homeStore s (some core) false (l.pa * 128 + r.1) r.2).cross core 4 (l.pa * 128 + r.1))

/-- Write the dirty bytes of a line at offsets [lo, hi) back to their home and clear their marks; a narrow release among the
sectors written leaves its mark there (R149, R257). -/
def wbLine (s : State) (core : Nat) (l : Line) (lo hi : Nat) : State :=
  let s1 := (byteRuns (dirtyBytes l lo hi)).foldl (fun s r => wbRun s core l r) s
  let gone := l.rel.filter fun r => lo ≤ r.1 * 32 && r.1 * 32 + 32 ≤ hi
  let s2 := gone.foldl (fun s r => addMark s { sector := l.pa * 128 + r.1 * 32, core, scope := r.2.1, below := r.2.2 }) s1
  let clean := l.bytes.map fun p => match p.2 with
    | some (b, true) => if lo ≤ p.1 && p.1 < hi then (p.1, some (b, false)) else p
    | _ => p
  s2.updCore core fun c => { c with l1 := putLine c.l1 { l with bytes := clean, rel := l.rel.filter fun r => !gone.contains r } }

/-- Drop the bytes of a line at offsets [lo, hi) that are not dirty; a unit of which none is left is no longer poisoned. -/
def dropLine (s : State) (core : Nat) (l : Line) (lo hi : Nat) : State :=
  let bytes := l.bytes.filter fun p => match p.2 with
    | some (_, d) => d || !(lo ≤ p.1 && p.1 < hi)
    | none => false
  s.updCore core fun c =>
    { c with l1 := putLine c.l1 { l with bytes, poison := l.poison.filter fun u => bytes.any fun p => p.1 / 8 = u } }

/-- Has a save let go what the acquire of a wait held (log 84)? -/
def goneKey (e : Exec) (key : Nat) : Bool := e.holds.any fun h => h.gone && h.key = some key

/-- Wake the WAITAs of an executor that a test of their homes and deadlines names; their wake reads come next (R155, R156). -/
def wakeWaita (s : State) (x : ExecId) (test : Nat → Option Nat → Bool) (cause : Nat) : State :=
  s.updExec x fun e => { e with waits := e.waits.map fun w => match w with
    | .waita home space _ kd scope deadline key =>
      if test home deadline && !goneKey e key then .woken home space kd scope cause key else w
    | _ => w }

/-- Executors that sleep in a WAITA, with the home address of the word. -/
def sleepers (s : State) : List (ExecId × Nat) :=
  s.busy.flatMap fun p => p.2.all.flatMap fun q => q.2.waits.filterMap fun w => match w with
    | .waita home _ _ _ _ _ _ => some (⟨p.1, q.1⟩, home)
    | _ => none

/-- A write of n bytes at home h wakes every sleeper on its sectors (R156). -/
def wakeSectors (s : State) (h n : Nat) : State :=
  let hit (home : Nat) : Bool := (sectorsOf h n).contains (home / 32 * 32)
  ((sleepers s).filter fun p => hit p.2).foldl (fun s p => wakeWaita s p.1 (fun home _ => hit home) 1) s

/-- Note a scratchpad write for the matrix unit's reads (R186); writes that it covers whole are forgotten. -/
def noteFill (s : State) (h n : Nat) : State :=
  if isSpadHome h && n ≠ 0 then
    s.updCore (spadCore h) fun c =>
      { c with fills := (c.fills.filter fun f => !(spadOff h ≤ f.off && f.off + f.len ≤ spadOff h + n)) ++
          [{ off := spadOff h, len := n, stamp := s.fresh }] }
  else s

/-- Do n bytes at a and m bytes at b meet? -/
def rangesMeet (a n b m : Nat) : Bool := decide (a < b + m) && decide (b < a + n)

/-- A write to n bytes at h meets the sources of copies in flight (R207), the payloads of ring words (R170) and the cursors of XNEXTs (R215);
an operation that the start awaits does not (R206). `by'` is the operation that writes. -/
def meetCopies (s : State) (by' : Option (ExecId × Nat)) (h n : Nat) : State :=
  { s with watches := s.watches.map fun w =>
    let earlier := match by' with | some (x, op) => decide (x = w.x) && decide (op < w.op) | none => false
    if rangesMeet w.lo w.len h n && (w.own || !earlier) then { w with hits := w.hits ++ [(h, n)] } else w }

/-- A copy's write meets the payloads of ring words and the cursors of XNEXTs in flight (R170, R215). -/
def meetCursors (s : State) (h n : Nat) : State :=
  { s with watches := s.watches.map fun w => if w.cursor && rangesMeet w.lo w.len h n then { w with hits := w.hits ++ [(h, n)] } else w }

/-- Writes that lie in some range give the bytes there unspecified values: does a home lie in one? -/
def isHit (hits : List (Nat × Nat)) (h : Nat) : Bool := hits.any fun r => decide (r.1 ≤ h) && decide (h < r.1 + r.2)
/-- Bytes at a home, those in the ranges having unspecified values. -/
def hitBytes (hits : List (Nat × Nat)) : Nat → List Byte → State → List Byte × State
  | _, [], s => ([], s)
  | h, b :: bs, s =>
    let (v, s1) := if isHit hits h then ((s.takeFree 1).1.headD 0, (s.takeFree 1).2) else (b, s)
    let r := hitBytes hits (h + 1) bs s1
    (v :: r.1, r.2)

/-- Home ranges of the pools of all regions: a program's read there returns unspecified values (R212). They stay pools when the program
has given the region up: the rule names no end (DESIGN CHOICE, log 54). -/
def poolHomes (s : State) : List (Nat × Nat) := s.regions.flatMap fun p => p.2.elim [] (·.pool)
def readOpen (s : State) (h : Nat) (bs : List Byte) : List Byte × State :=
  if s.regions.isEmpty then (bs, s) else hitBytes (poolHomes s) h bs s

/-- A write to a region's engine fields or to its pool makes its later results unspecified (R212). -/
def meetRegions (s : State) (h n : Nat) : State :=
  { s with regions := s.regions.map fun p => (p.1, p.2.map fun r =>
    if rangesMeet (p.1 + 32) 28 h n || r.pool.any (fun g => rangesMeet g.1 g.2 h n) then { r with bad := true } else r) }

def meetSources (s : State) (by' : Option (ExecId × Nat)) (h n : Nat) : State := meetRegions (meetCopies s by' h n) h n

/-- Bytes reach their home and wake sleepers. -/
def placeBytes (s : State) (writer : Option Nat) (atomic : Bool) (h : Nat) (bs : List Byte) : State :=
  wakeSectors (noteFill (homeStore s writer atomic h bs) h bs.length) h bs.length

/-- Bytes reach their home and wake sleepers; copies in flight and regions are met. -/
def writeHome (s : State) (writer : Option Nat) (atomic : Bool) (h : Nat) (bs : List Byte) : State :=
  meetSources (placeBytes s writer atomic h bs) none h bs.length

/-- What is left of a fill once a range has been written by the unit. -/
def Fill.less (off len : Nat) (f : Fill) : List Fill :=
  (if f.off < off then [{ f with len := min f.len (off - f.off) }] else []) ++
  (if off + len < f.off + f.len then [{ f with off := max f.off (off + len), len := f.off + f.len - max f.off (off + len) }] else [])

/-- A write of the matrix unit, which its own order covers: later commands of the unit read its values (R188). -/
def unitWrite (s : State) (core : Nat) (atomic : Bool) (h : Nat) (bs : List Byte) : State :=
  let s1 := if isSpadHome h then
      s.updCore (spadCore h) fun c => { c with fills := c.fills.flatMap (Fill.less (spadOff h) bs.length) }
    else s
  meetSources (wakeSectors (homeStore s1 (some core) atomic h bs) h bs.length) none h bs.length

/-- Write back dirty bytes [lo, hi) of a line, waking sleepers on what reaches its home. -/
def wbLineWake (s : State) (core : Nat) (l : Line) (lo hi : Nat) : State :=
  (byteRuns (dirtyBytes l lo hi)).foldl (fun s r => wakeSectors s (l.pa * 128 + r.1) r.2.length) (wbLine s core l lo hi)

/-- Write back every dirty byte of a core's L1. -/
def wbAll (s : State) (core : Nat) : State := (s.core core).l1.foldl (fun s l => wbLineWake s core l 0 128) s
/-- Drop every byte of a core's L1 that is not dirty: an acquire at scope 3 or above (R152). -/
def dropClean (s : State) (core : Nat) : State := (s.core core).l1.foldl (fun s l => dropLine s core l 0 128) s

/-- Write back the core's dirty bytes of the sectors of n bytes at a DRAM home; with `drop`, drop their clean bytes too (R163,
R192, R206). -/
def l1Clean (s : State) (core h n : Nat) (drop : Bool) : State :=
  if isDramHome h then
    (sectorsOf h n).foldl (fun s sec =>
      let at? (l : Line) := l.pa = sec / 128
      let s1 := ((s.core core).l1.filter at?).foldl (fun s l => wbLineWake s core l (sec % 128) (sec % 128 + 32)) s
      if drop then ((s1.core core).l1.filter at?).foldl (fun s l => dropLine s core l (sec % 128) (sec % 128 + 32)) s1 else s1) s
  else s

/-- Bytes [va, va + n) of a line held in L1, if all are held. -/
def l1Bytes (l : Line) (va n : Nat) : Option (List Byte) :=
  (span (va % 128) n).mapM fun o => (mapGet none l.bytes o).map (·.1)

/-- Lines that an L1 of 128 KiB holds (R20). -/
def l1Lines : Nat := 1024

/-- Write back and drop the lines of a core's L1 that meet a test. -/
def evictLines (s : State) (core : Nat) (p : Line → Bool) : State :=
  let s1 := ((s.core core).l1.filter p).foldl (fun s l => wbLineWake s core l 0 128) s
  s1.updCore core fun c => { c with l1 := c.l1.filter fun l => !p l }

/-- Room in a full L1 for a line that it does not hold: which line leaves is open (R20, R149). -/
def l1Room (s : State) (core ctx va : Nat) : State :=
  if (s.core core).l1.length < l1Lines || (findLine (s.core core).l1 ctx va).isSome then s
  else
    let (i, s1) := s.choose (s.core core).l1.length
    match (s1.core core).l1[i]? with
    | some l => evictLines s1 core fun m => m.ctx = l.ctx && m.va = l.va
    | none => s1

/-- Fill the sectors of n bytes at va from their home, keeping dirty bytes; clean ones, which may be older, are read anew, so that one
access does not mix them (R148, R250). The spec does not say whether a miss fills the whole line: the model fills the sectors that the access
touches (DESIGN CHOICE, log 79). -/
def l1Fill (s0 : State) (core ctx va pa n : Nat) : State :=
  let s := l1Room s0 core ctx va
  let l := (findLine (s.core core).l1 ctx va).getD { ctx, va := lineOf va, pa := pa / 128, bytes := [], rel := [], poison := [] }
  let lo := va % 128 / 32 * 32
  let hi := (va % 128 + n - 1) / 32 * 32 + 32
  let bytes := (span lo (hi - lo)).foldl (fun bs o =>
    match mapGet none bs o with
    | some (_, true) => bs
    | _ => mapPut none o (some (readByte s.mem (l.pa * 128 + o), false)) bs) l.bytes
  let bad := (span (lo / 8) ((hi - lo) / 8)).filter fun u =>
    poisoned s (l.pa * 128 + 8 * u) 8 && (span (8 * u) 8).any fun o => !((mapGet none l.bytes o).elim false (·.2))
  s.updCore core fun c => { c with l1 := putLine c.l1 { l with bytes, poison := (l.poison ++ bad).eraseDups } }

/-- Is a unit of n bytes at va poisoned in the L1? -/
def l1Poisoned (s : State) (core ctx va n : Nat) : Bool :=
  match findLine (s.core core).l1 ctx va with
  | none => false
  | some l => (unitsOf (va % 128) n).any fun u => l.poison.contains (u / 8)
/-- Does the L1 hold n bytes at va? -/
def l1Holds (s : State) (core ctx va n : Nat) : Bool :=
  match findLine (s.core core).l1 ctx va with
  | none => false
  | some l => (l1Bytes l va n).isSome
/-- A unit of the L1 fails its check (domain 4). -/
def l1Fail (s : State) (core ctx va n : Nat) : State :=
  match findLine (s.core core).l1 ctx va with
  | none => s
  | some l => s.updCore core fun c =>
      { c with l1 := putLine c.l1 { l with poison := (l.poison ++ (unitsOf (va % 128) n).map (· / 8)).eraseDups } }

/-- A load of n bytes at va through the L1 (scope 0 to 2, R148); an access stays within one line. -/
def l1Load (s : State) (core ctx va pa n : Nat) (nt : Bool) : List Byte × State :=
  match findLine (s.core core).l1 ctx va with
  | some l =>
    match l1Bytes l va n with
    | some bs => (bs, s)
    | none =>
      let s1 := l1Fill s core ctx va pa n
      (((findLine (s1.core core).l1 ctx va).bind (l1Bytes · va n)).getD [], s1)
  | none =>
    if nt then (readBytes s.mem pa n, s)
    else
      let s1 := l1Fill s core ctx va pa n
      (((findLine (s1.core core).l1 ctx va).bind (l1Bytes · va n)).getD [], s1)

/-- Poisoned units of a line after a good write of n bytes at va (R336). -/
def goodUnits (l : Line) (va n : Nat) : List Nat := l.poison.filter fun u => !(va % 128 ≤ 8 * u && 8 * u + 8 ≤ va % 128 + n)

/-- A store into the L1: the bytes become dirty in their line (scope 0 to 2, R148). -/
def l1Store (s0 : State) (core ctx va pa : Nat) (bs : List Byte) (rel : Option (Scope × Nat)) : State :=
  let s := l1Room s0 core ctx va
  let l := (findLine (s.core core).l1 ctx va).getD { ctx, va := lineOf va, pa := pa / 128, bytes := [], rel := [], poison := [] }
  let bytes := ((upto bs.length).zip bs).foldl (fun m p => mapPut none (va % 128 + p.1) (some (p.2, true)) m) l.bytes
  let rel := match rel with
    | some (sc, op) => (l.rel.filter fun r => !(r.1 = va % 128 / 32 && r.2.1 == sc)) ++ [(va % 128 / 32, sc, op)]
    | none => l.rel
  s.updCore core fun c => { c with l1 := putLine c.l1 { l with bytes, rel, poison := goodUnits l va bs.length } }

/-- Store data that has crossed into the L1: if the check failed, the unit there is poisoned (R338). -/
def crossL1 (s : State) (core ctx va pa : Nat) : State :=
  if crossingBad s core 1 4 then l1Fail (s.crossed core 1 4 (whereOf pa)) core ctx va 1 else s

/-- Units of the L1 that a store's ranges of a context together cover whole are good (R336). -/
def l1Covered (s : State) (core ctx : Nat) (rs : List (Nat × Nat)) : State :=
  if (s.core core).l1.all (·.poison.isEmpty) then s
  else s.updCore core fun c => { c with l1 := c.l1.map fun l =>
    if l.ctx ≠ ctx then l
    else { l with poison := l.poison.filter fun u =>
      !((span (128 * l.va + 8 * u) 8).all fun b => rs.any fun r => decide (r.1 ≤ b) && decide (b < r.1 + r.2)) } }

/-- A write-through of a wide store into a line that is present: the bytes are clean there (R148). -/
def l1Update (s : State) (core ctx va : Nat) (bs : List Byte) : State :=
  match findLine (s.core core).l1 ctx va with
  | none => s
  | some l =>
    let bytes := ((upto bs.length).zip bs).foldl (fun m p => mapPut none (va % 128 + p.1) (some (p.2, false)) m) l.bytes
    s.updCore core fun c => { c with l1 := putLine c.l1 { l with bytes, poison := goodUnits l va bs.length } }

/-- The marks that an acquire at `scope` by `core` promotes, if the sector of h carries any: those whose release's scope leaves the acquirer
out, of its own core those of another warp or thread (R256, R257). A mark names no warp: one of the acquirer's own is promoted too, which
changes no value (R257). -/
def promotes (s : State) (core : Nat) (scope : Scope) (h : Nat) : List Mark :=
  if 3 ≤ scopeNum scope then
    s.marks.filter fun m => m.sector = h / 32 * 32 && coversCore scope core m.core &&
      (if m.core = core then decide (scopeNum m.scope < 2) else !coversCore m.scope core m.core)
  else []

/-- Is an operation a store or an atomic whose performing a promotion awaits (R257)? -/
def storeLike : Instr → Bool
  | .st _ | .stx _ | .stl _ | .sts _ | .stsx _ | .stv _ | .stk _ | .pst _ | .atom _ | .atomn _ | .cas _ | .atoms _
  | .cass _ | .atomv _ | .casv _ => true
  | _ => false

/-- Have the marked core's earlier stores and atomics been performed (R257)? Where an operation asks for the promotion, that one and what its
executor has released after it do not count: they wait for it. -/
def promotionReady (s : State) (m : Mark) (by' : Option (ExecId × Nat) := none) : Bool :=
  match s.wg m.core with
  | none => true
  | some w => w.all.all fun p => p.2.ops.all fun o => o.performed || m.below ≤ o.id || !storeLike o.item.instr ||
      by'.elim false (fun b => decide (b.1 = ⟨m.core, p.1⟩) && decide (b.2 ≤ o.id))

/-- Carry out a promotion: the marked core writes back its dirty L1 bytes (R257). -/
def promote (s : State) (m : Mark) : State := { wbAll s m.core with marks := (wbAll s m.core).marks.filter (· ≠ m) }

/-- Before an acquire reads ranges at their homes: its core's dirty bytes there are written back, then every mark there is promoted. The answer
says whether none is left: a promotion whose stores are not performed, or one that these write-backs have brought, is still to come (R155,
R256, R257). -/
def promoteAll (s : State) (x : ExecId) (id : Nat) (scope : Scope) (hs : List (Nat × Nat)) : State × Bool :=
  let marksOf (s : State) : List Mark := (hs.flatMap fun r => promotes s x.core scope r.1).eraseDups
  if scopeNum scope < 3 then (s, true)
  else
    let s1 := hs.foldl (fun s r => l1Clean s x.core r.1 r.2 true) s
    if !(marksOf s1).all (promotionReady s1 · (some (x, id))) then (s1, false)
    else
      let s2 := (marksOf s1).foldl promote s1
      (s2, (marksOf s2).isEmpty)

end Sys2Proof.Machine
end

