-- ==== Sys2Proof/Machine/Translate.lean ====
section
/-! DEFINITION. Contexts, page-table walks, cached translations, and the checks that every access passes before its clause
commits (spec/20 R280 to R285 and R295, spec/08 R144 and R145). -/

namespace Sys2Proof.Machine

/-- A context descriptor (R280). -/
structure CtxDesc where
  root : Nat
  gen : Nat
  live : Bool
  killed : Bool
  frec : Nat
  deriving DecidableEq, Repr

/-- The descriptor of a context, read at its home; none with no table or an id that names no context (R280). -/
def ctxDesc (s : State) (c : Nat) : Option CtxDesc :=
  match s.contextTable with
  | none => none
  | some t =>
    if 4096 ≤ c then none
    else
      let a := t + 32 * c
      let st := readNat s.mem (a + 16) 1
      some { root := readNat s.mem a 8, gen := readNat s.mem (a + 8) 8
             live := st = 1 && readNat s.mem (a + 17) 7 = 0, killed := st = 2, frec := readNat s.mem (a + 24) 8 }

/-- A page-table entry (R282). -/
structure Pte where
  rdev : Nat
  pa : Nat
  run : Bool
  rmt : Bool
  ex : Bool
  wr : Bool
  rd : Bool
  leaf : Bool
  valid : Bool
  zero : Bool
  deriving DecidableEq, Repr

def pteOf (w : Word) : Pte :=
  { rdev := (fld w 52 12).toNat, pa := (fld w 12 40).toNat * 4096, run := bitOf w 8, rmt := bitOf w 7, ex := bitOf w 6
    wr := bitOf w 5, rd := bitOf w 4, leaf := bitOf w 1, valid := bitOf w 0, zero := fld w 9 3 == 0 && fld w 2 2 == 0 }

/-- Bytes that a leaf of a level maps (R281). -/
def pageSize (lvl : Nat) : Nat := 4096 * 512 ^ lvl

/-- A valid entry that is malformed at its level (R282). -/
def pteMalformed (own lvl : Nat) (p : Pte) : Bool :=
  let size := if p.run then 16 * pageSize lvl else pageSize lvl
  !p.zero || (p.rdev ≠ 0 && !p.rmt) || (p.leaf && 3 ≤ lvl) || (!p.leaf && lvl = 0) ||
  (!p.leaf && (p.rd || p.wr || p.ex || p.run || p.rmt)) || (p.leaf && p.pa % size ≠ 0) ||
  (!p.rmt && Config.dramEnd < p.pa + (if p.leaf then size else 4096)) || (p.rmt && p.rdev = own)

/-- Outcome of a translation: a 4 KiB page, or none, malformed or not. -/
inductive Tr where
  | ok (x : Xlate)
  | miss (malformed : Bool)
  deriving DecidableEq, Repr

/-- The entry of a table that translates an index. Of a run whose sixteen entries differ, one of them, which one is open
(R282). A poisoned entry translates nothing (R336). -/
def pteAt (s : State) (table idx : Nat) : Option Word :=
  let at' (i : Nat) := BitVec.ofNat 64 (readNat s.mem (table + 8 * i) 8)
  if poisoned s (table + 8 * idx) 8 then none
  else
    let w := at' idx
    if bitOf w 0 && bitOf w 8 && bitOf w 1 then
      let base := idx / 16 * 16
      if (upto 16).all fun j => at' (base + j) = w then some w
      else some (at' (base + Config.freeNat s.free % 16))
    else some w

/-- Walk from a table of a level down to the leaf, with the table pointers met on the way (R281). -/
def walkFrom (s : State) (ctx va : Nat) : Nat → Nat → Tr × List WalkEntry
  | 0, table =>
    match pteAt s table (va / 4096 % 512) with
    | none => (.miss true, [])
    | some w =>
      let p := pteOf w
      if !p.valid then (.miss false, [])
      else if pteMalformed s.ownId 0 p then (.miss true, [])
      else
        let off := va % (if p.run then 65536 else 4096)
        (.ok { pfn := (p.pa + off) / 4096, rd := p.rd, wr := p.wr, ex := p.ex
               remote := if p.rmt then some (p.rdev, mapGet 0 s.epochs p.rdev) else none }, [])
  | lvl + 1, table =>
    match pteAt s table (va / pageSize (lvl + 1) % 512) with
    | none => (.miss true, [])
    | some w =>
      let p := pteOf w
      if !p.valid then (.miss false, [])
      else if pteMalformed s.ownId (lvl + 1) p then (.miss true, [])
      else if p.leaf then
        let off := va % (if p.run then 16 * pageSize (lvl + 1) else pageSize (lvl + 1))
        (.ok { pfn := (p.pa + off) / 4096, rd := p.rd, wr := p.wr, ex := p.ex
               remote := if p.rmt then some (p.rdev, mapGet 0 s.epochs p.rdev) else none }, [])
      else
        let r := walkFrom s ctx va lvl p.pa
        (r.1, { ctx, level := lvl, key := va / pageSize (lvl + 1), table := p.pa } :: r.2)

/-- Walk of the tables alone, as the scheduler makes it. -/
def walk (s : State) (ctx root va : Nat) : Tr := (walkFrom s ctx va 4 root).1

/-- A remote translation holds while the link epoch of its endpoint does (R295). -/
def xlCurrent (s : State) (x : Xlate) : Bool :=
  match x.remote with
  | none => true
  | some (ep, epoch) => mapGet 0 s.epochs ep = epoch

/-- Translate through a core's TLB and walk cache, caching what is found (R284). Which older entry makes room is open. -/
def coreLookup (s : State) (core ctx root va : Nat) : Tr × State :=
  let c := s.core core
  match c.tlb.find? fun t => t.ctx = ctx && t.page = va / 4096 && xlCurrent s t.xl with
  | some t => (.ok t.xl, s)
  | none =>
    let start := c.walk.foldl (fun (acc : Nat × Nat) w =>
      if w.ctx = ctx && w.level < acc.1 && w.key = va / pageSize (w.level + 1) then (w.level, w.table) else acc) (4, root)
    let r := walkFrom s ctx va start.1 start.2
    match r.1 with
    | .miss m => (.miss m, s)
    | .ok xl =>
      let old := c.tlb.filter fun t => !(t.ctx = ctx && t.page = va / 4096)
      let (out, s1) := s.choose (old.length + 1)
      let tlb := old.eraseIdx out ++ [{ ctx, page := va / 4096, xl }]
      let walkc := c.walk.filter (fun w => !(r.2.any fun n => n.ctx = w.ctx && n.level = w.level && n.key = w.key)) ++ r.2
      (.ok xl, s1.updCore core fun c => { c with tlb, walk := walkc })

/-- Has an access a last-page register: that of its lane, or the headspring's one (R284)? Lane 32 is a uniform access. -/
def keepsPage (x : ExecId) (lane : Nat) : Bool := lane < 32 || isHead x.ctx

/-- Translate for a lane through its last-page register first (R284). -/
def laneLookup (s : State) (x : ExecId) (lane ctx root va : Nat) : Tr × State :=
  let hit := (s.exec x).bind fun e => (mapGet none e.lastPage lane).bind fun p =>
    if keepsPage x lane && p.1 = va / 4096 && xlCurrent s p.2 then some p.2 else none
  match hit with
  | some xl => (.ok xl, s)
  | none =>
    match coreLookup s x.core ctx root va with
    | (.ok xl, s1) =>
      (.ok xl, if keepsPage x lane then s1.updExec x fun e => { e with lastPage := mapPut none lane (some (va / 4096, xl)) e.lastPage }
               else s1)
    | r => r

-- accesses

/-- One byte range that a word touches (R144): lane 32 for a uniform word or a command. -/
structure Acc where
  lane : Nat
  space : Space
  addr : Nat
  len : Nat
  align : Nat
  rd : Bool
  wr : Bool
  /-- A remote window is allowed (R163, R192). -/
  remote : Bool
  /-- What faddr names when the range fails (R229). -/
  named : Nat
  deriving DecidableEq, Repr

/-- What keeps a clause from committing: a cause, missing pages, or a wait for something that has to come first. -/
inductive Bad where
  | cause (c : Cause)
  | miss (pages : List MissPage)
  | wait
  /-- Bytes of another endpoint have to come: endpoint, physical address, virtual address, length (R295). -/
  | far (ep pa addr len : Nat)
  /-- Bytes have to reach another endpoint: endpoint, physical address, virtual address, bytes (R295). -/
  | put (ep pa addr : Nat) (bytes : List Byte)
  /-- An engine's step before the commit asks for a page: the engine and the page (R171, R285). -/
  | page (unit : Nat) (page : MissPage)
  deriving DecidableEq, Repr

/-- Vault number of an address (R144). -/
def vaultOf (addr : Nat) : Nat := addr / 2 ^ 26 % 64

/-- Address fault of a range (R144): every byte is checked against its space. -/
def addrBad (spsize : Nat) (a : Acc) : Bool :=
  if a.len = 0 then false
  else match a.space with
    | .gl => decide (2 ^ 57 < a.addr + a.len)
    | .sp => decide (spsize < a.addr + a.len)
    | .vt => decide (2 ^ 32 ≤ a.addr) || (26 ≤ vaultOf a.addr && vaultOf a.addr ≠ 63) ||
        decide (0x3000000 < a.addr % 2 ^ 26 + a.len)

def alignBad (a : Acc) : Bool := a.len ≠ 0 && a.addr % a.align ≠ 0

def pagesOf (addr n : Nat) : List Nat := if n = 0 then [] else span (addr / 4096) ((addr + n - 1) / 4096 - addr / 4096 + 1)

/-- A page joins a batch once; a page listed again widens its access bits (R289). -/
def addPage (ps : List MissPage) (p : MissPage) : List MissPage :=
  if ps.any (·.page = p.page) then
    ps.map fun q => if q.page = p.page then
      { q with malformed := q.malformed || p.malformed, fetch := q.fetch || p.fetch, write := q.write || p.write
               read := q.read || p.read } else q
  else ps ++ [p]

/-- The cause of a set of failing ranges (R145, R225, R229): the lanes of a per-lane word, all of G for another, none in the
headspring; faddr from the first. -/
def accCause (code : Nat) (ctx : Nat) (g : LaneSet) (idx : Nat) (bad : List Acc) : Cause :=
  let perLane := bad.any (·.lane < 32)
  { code, info := 0, word := idx, faddr := (bad.head?.map (·.named)).getD 0
    tmask := if isHead ctx then 0 else if perLane then laneSet (bad.map (·.lane)) else g }

/-- Is an endpoint permitted (R312)? -/
def permitted (s : State) (ep : Nat) : Bool := ep = s.hostId || s.peers.contains ep

/-- May a range use a page? (R283, R295) -/
def permBad (s : State) (a : Acc) (x : Xlate) : Bool :=
  (a.rd && !x.rd) || (a.wr && !x.wr) ||
  (match x.remote with
   | none => false
   | some (ep, _) => !a.remote || !permitted s ep)

/-- Translate the pages of a range: the translations found, the pages missed, and whether a page lacks a permission. -/
def rangePages (s : State) (x : ExecId) (l : Launch) (a : Acc) : State × List (Nat × Xlate) × List MissPage × Bool :=
  (pagesOf a.addr a.len).foldl (fun (st : State × List (Nat × Xlate) × List MissPage × Bool) p =>
    match laneLookup st.1 x a.lane l.ctx l.root (p * 4096) with
    | (.ok xl, s1) => (s1, st.2.1 ++ [(p, xl)], st.2.2.1, st.2.2.2 || permBad s1 a xl)
    | (.miss m, s1) =>
      (s1, st.2.1, addPage st.2.2.1 { page := p, malformed := m, fetch := false, write := a.wr, read := a.rd }, st.2.2.2))
    (s, [], [], false)

/-- The checks of R144 and R145 on the ranges of one word, in their order: address, alignment, translation, permission. The
answer is the pages translated. -/
def checkAccs (s : State) (x : ExecId) (w : Workgroup) (g : LaneSet) (idx : Nat) (accs : List Acc) :
    Except Bad (List (Nat × Xlate) × State) :=
  let bad1 := accs.filter (addrBad w.launch.spsize)
  if !bad1.isEmpty then .error (.cause (accCause 0x05 x.ctx g idx bad1))
  else
    let bad2 := accs.filter alignBad
    if !bad2.isEmpty then .error (.cause (accCause 0x06 x.ctx g idx bad2))
    else
      let r := (accs.filter (·.space = .gl)).foldl
        (fun (st : State × List (Nat × Xlate) × List MissPage × List Acc) a =>
          let q := rangePages st.1 x w.launch a
          (q.1, q.2.1.foldl (fun m p => if m.any (·.1 = p.1) then m else m ++ [p]) st.2.1,
           q.2.2.1.foldl addPage st.2.2.1, if q.2.2.2 then st.2.2.2 ++ [a] else st.2.2.2)) (s, [], [], [])
      if !r.2.2.1.isEmpty then .error (.miss r.2.2.1)
      else if !r.2.2.2.isEmpty then .error (.cause (accCause 0x07 x.ctx g idx r.2.2.2))
      else .ok (r.2.1, r.1)

/-- Where a byte lives: at a home of this device, or at an address of another endpoint. -/
inductive Loc where
  | home (h : Nat)
  | remote (ep pa : Nat)
  deriving DecidableEq, Repr

/-- The place of an address that has passed its checks (R144, R295). -/
def locOf (core : Nat) (xl : List (Nat × Xlate)) (space : Space) (addr : Nat) : Loc :=
  match space with
  | .sp => .home (spadHome core addr)
  | .vt => .home (vaultHome (if vaultOf addr = 63 then clusterOf core else vaultOf addr) (addr % 2 ^ 26))
  | .gl =>
    match xl.find? (·.1 = addr / 4096) with
    | none => .home (addr % 4096)
    | some (_, t) =>
      match t.remote with
      | none => .home (t.pfn * 4096 + addr % 4096)
      | some (ep, _) => .remote ep (t.pfn * 4096 + addr % 4096)

/-- A place as the error log names it (R340). -/
def whereAt (core : Nat) (xl : List (Nat × Xlate)) (space : Space) (addr : Nat) : Nat :=
  match locOf core xl space addr with
  | .home h => whereOf h
  | .remote _ pa => pa

/-- Split a range at sector boundaries: pieces of one 32-byte sector each. -/
def pieces (addr n : Nat) : List (Nat × Nat) :=
  if n = 0 then []
  else (span (addr / 32) ((addr + n - 1) / 32 - addr / 32 + 1)).map fun sec =>
    let lo := max addr (sec * 32)
    (lo, min (addr + n) (sec * 32 + 32) - lo)

-- sweeps (R233, R284)

/-- Write back and drop a core's L1 lines that meet p. -/
def l1Drop (s : State) (core : Nat) (p : Line → Bool) : State :=
  let s1 := ((s.core core).l1.filter p).foldl (fun s l => wbLineWake s core l 0 128) s
  s1.updCore core fun c => { c with l1 := c.l1.filter fun l => !p l }

/-- The sweep of one core for a context and a range, or every address: TLB and walk-cache entries, every last-page register there,
and the context's L1 lines. -/
def sweepCore (s : State) (core ctx : Nat) (all : Bool) (addr len : Nat) : State :=
  let meets (a n : Nat) : Bool := all || (len ≠ 0 && rangesMeet a n addr len)
  let s1 := l1Drop s core fun l => l.ctx = ctx && meets (l.va * 128) 128
  let s2 := s1.updCore core fun c =>
    { c with tlb := c.tlb.filter fun t => !(t.ctx = ctx && meets (t.page * 4096) 4096)
             walk := c.walk.filter fun w => !(w.ctx = ctx && meets (w.key * pageSize (w.level + 1)) (pageSize (w.level + 1))) }
  s2.updWg core fun w => { w with execs := w.execs.map fun p => (p.1, p.2.map fun e => { e with lastPage := [] }) }

/-- Cores with any state that a test covers. -/
def State.coresIn (s : State) (p : Nat → Bool) : List Nat := (s.cores.map (·.1)).filter p

def sweepCores (s : State) (p : Nat → Bool) (ctx : Nat) (all : Bool) (addr len : Nat) : State :=
  (s.coresIn p).foldl (fun s c => sweepCore s c ctx all addr len) s

end Sys2Proof.Machine
end

