-- ==== Sys2Proof/Machine/Operands.lean ====
section
/-! DEFINITION. Operand forms: guard sets, typed register reads and writes in both forms, register footprints, effective
addresses, and which executor accepts which word (spec/05 R74 to R76, spec/06 R94 and R95, spec/07 R116, spec/08 R140 to R143). -/

namespace Sys2Proof.Machine

/-- Guard set of a word: (n = 0 ? a[g] : complement of a[g]) ∩ a0 (R74). -/
def guardSet (e : Exec) (c : Ctl) : LaneSet := (if c.n then ~~~ e.ra c.g.toNat else e.ra c.g.toNat) &&& e.ra0

/-- Low n bits of a word. -/
def lowBits (n : Nat) (x : Word) : Word := BitVec.ofNat 64 (x.toNat % 2 ^ n)

/-- Raw bits of an operand of a type in one lane, or in a k register for the uniform form (R40, R95). -/
def Exec.src (e : Exec) (u : Bool) (ty : Ty) (r : VReg) (l : Nat) : Word :=
  if u then lowBits (tyBits ty) (e.rk r.toNat)
  else if tyIs64 ty then (e.rv (r.toNat + 1) l ++ e.rv r.toNat l : BitVec 64)
  else lowBits (tyBits ty) ((e.rv r.toNat l).setWidth 64)

/-- A result extended to n bits: sign for i8, i16 and i32, zero for every other type of 32 bits or fewer (R95, R107, R142). -/
def extendTo (n : Nat) (ty : Ty) (x : Word) : Nat :=
  if tySigned ty then wrap n (sext (tyBits ty) x.toNat) else x.toNat % 2 ^ tyBits ty

/-- Cells that a result of a type writes in one lane, or in the uniform form (R40, R95). -/
def dst (u : Bool) (ty : Ty) (r : VReg) (l : Nat) (x : Word) : List RegVal :=
  if u then [.k r.toNat (BitVec.ofNat 64 (extendTo 64 ty x))]
  else if tyIs64 ty then [.v r.toNat l (x.extractLsb' 0 32), .v (r.toNat + 1) l (x.extractLsb' 32 32)]
  else [.v r.toNat l (BitVec.ofNat 32 (extendTo 32 ty x))]

-- footprints

/-- Registers that a word reads and writes. -/
structure Foot where
  vr : List Nat
  vw : List Nat
  kr : List Nat
  kw : List Nat
  ar : List Nat
  aw : List Nat
  deriving DecidableEq, Repr

def vs (u : Bool) (ty : Ty) (r : VReg) : List Nat := if u then [] else if tyIs64 ty then [r.toNat, r.toNat + 1] else [r.toNat]
def ks (u : Bool) (r : VReg) : List Nat := if u then [r.toNat] else []
def kOnly (kr kw : List Nat) : Foot := { vr := [], vw := [], kr, kw, ar := [], aw := [] }
def idxRegs : Index → List Nat
  | .lane => []
  | .reg b iw _ _ => if iw = 3 then [b.toNat, b.toNat + 1] else [b.toNat]
def noFoot : Foot := kOnly [] []
def alu1Foot (w : Alu1) (td : Ty) : Foot :=
  { vr := vs w.u w.ty w.a, vw := vs w.u td w.d, kr := ks w.u w.a, kw := ks w.u w.d, ar := [], aw := [] }
def alu2Foot (w : Alu2) (tb : Ty) : Foot :=
  { vr := vs w.u w.ty w.a ++ vs w.u tb w.b, vw := vs w.u w.ty w.d, kr := ks w.u w.a ++ ks w.u w.b, kw := ks w.u w.d
    ar := [], aw := [] }
def alu3Foot (w : Alu3) (tb : Ty) (d : Bool) : Foot :=
  { vr := vs w.u w.ty w.a ++ vs w.u tb w.b ++ vs w.u tb w.c ++ (if d then vs w.u w.ty w.d else [])
    vw := vs w.u w.ty w.d
    kr := ks w.u w.a ++ ks w.u w.b ++ ks w.u w.c ++ (if d then ks w.u w.d else []), kw := ks w.u w.d, ar := [], aw := [] }
def memRegs (wide : Bool) (ty : Ty) (d : VReg) : List Nat := if wide then span d.toNat 4 else vs false ty d
def loadFoot (wide : Bool) (w : MemW) : Foot :=
  { vr := idxRegs w.idx, vw := memRegs wide w.ty w.d, kr := [w.a.toNat], kw := [], ar := [], aw := [] }
def storeFoot (wide : Bool) (w : MemW) : Foot :=
  { vr := idxRegs w.idx ++ memRegs wide w.ty w.d, vw := [], kr := [w.a.toNat], kw := [], ar := [], aw := [] }
def atomFoot (ret : Bool) (w : AtomW) : Foot :=
  { vr := idxRegs w.idx ++ vs false w.ty w.d, vw := if ret then vs false w.ty w.d else [], kr := [w.a.toNat], kw := []
    ar := [], aw := [] }
def casRegs (w : CasW) : List Nat := if tyIs64 w.ty then span w.d.toNat 4 else span w.d.toNat 2
def casFoot (w : CasW) : Foot :=
  { vr := idxRegs w.idx ++ casRegs w, vw := vs false w.ty w.d, kr := [w.a.toNat], kw := [], ar := [], aw := [] }
/-- Number of elements of a packed type (R108). -/
def packCount (ty : Ty) : Nat := if ty == .f16x2 || ty == .bf16x2 then 2 else 4
def copyRun : Instr → Nat
  | .cpyg _ | .cpys _ => 3
  | _ => 2
def copyFoot (w : CopyW) (n : Nat) : Foot := kOnly (w.a.toNat :: w.b.toNat :: span w.c.toNat n) [w.d.toNat]

/-- The registers of a word, without its guard aperture (R75 and the entries); u: in the headspring, where I-form words name k
registers (R95). -/
def foot (u : Bool) : Instr → Foot
  | .mov w | .abs w | .neg w | .not w | .brev w | .fsqrt w | .rcpa w | .rsqa w | .fexp2 w | .flog2 w | .fsinpi w
  | .fcospi w | .frnd w | .frcp w => alu1Foot w w.ty
  | .popc w | .clz w | .fclass w => alu1Foot w .b32
  | .movi w => { noFoot with vw := vs u w.ty w.d, kw := ks u w.d }
  | .movl w => { noFoot with vw := vs w.u w.ty w.d, kw := ks w.u w.d }
  | .movs w => { noFoot with vw := vs w.u w.ty w.d, kw := ks w.u w.d }
  | .bck w => { noFoot with vw := vs false w.ty w.d, kr := [w.a.toNat] }
  | .lanek w => { noFoot with vr := vs false w.ty w.a, kw := [w.d.toNat] }
  | .add w | .sub w | .mul w | .mulh w | .div w | .rem w | .min w | .max w | .and w | .or w | .xor w | .fadd w | .fsub w
  | .fmul w | .fmin w | .fmax w | .fdiv w => alu2Foot w w.ty
  | .shl w | .shr w | .sha w | .rot w | .fscale w => alu2Foot w .b32
  | .mad w | .add3 w | .fma w => alu3Foot w w.ty false
  | .bfx w => alu3Foot w .b32 false
  | .bfi w => alu3Foot w .b32 true
  | .lea w =>
    { vr := vs w.u w.ty w.a ++ vs w.u .b32 w.b, vw := vs w.u w.ty w.d, kr := ks w.u w.a ++ ks w.u w.b, kw := ks w.u w.d
      ar := [], aw := [] }
  | .addi w | .andi w | .ori w | .shli w =>
    { noFoot with vr := vs u w.ty w.a, vw := vs u w.ty w.d, kr := ks u w.a, kw := ks u w.d }
  | .cvt w => { noFoot with vr := vs w.u w.src w.a, vw := vs w.u w.ty w.d, kr := ks w.u w.a, kw := ks w.u w.d }
  | .pack w => { noFoot with vr := span w.a.toNat (packCount w.ty), vw := [w.d.toNat] }
  | .unpk w => { noFoot with vr := [w.a.toNat], vw := span w.d.toNat (packCount w.ty) }
  | .cmp w | .fcmp w =>
    { vr := vs w.u w.ty w.a ++ vs w.u w.ty w.b, vw := [], kr := ks w.u w.a ++ ks w.u w.b, kw := [], ar := []
      aw := [w.t.toNat, w.f.toNat] }
  | .sel w => { noFoot with vr := vs false w.ty w.a ++ vs false w.ty w.b, vw := vs false w.ty w.d, ar := [w.sel.toNat] }
  | .aop w => { noFoot with ar := [w.a.toNat, w.b.toNat], aw := [w.d.toNat] }
  | .acnt w | .afirst w => { noFoot with ar := [w.a.toNat], kw := [w.d.toNat] }
  | .amovk w => if w.toA then { noFoot with kr := [w.k.toNat], aw := [w.ap.toNat] }
      else { noFoot with ar := [w.ap.toNat], kw := [w.k.toNat] }
  | .shfl w => { noFoot with vr := vs false w.ty w.a ++ (if w.mode == .idx then [w.b.toNat] else [])
                             vw := vs false w.ty w.d }
  | .bcast w => { noFoot with vr := vs false w.ty w.a, kr := [w.k.toNat], vw := vs false w.ty w.d }
  | .scan w | .reduce w => { noFoot with vr := vs false w.ty w.a, vw := vs false w.ty w.d }
  | .shflx w => { noFoot with vr := [w.a.toNat, w.a.toNat + 1, w.b.toNat], vw := [w.d.toNat] }
  | .pdep w => { noFoot with ar := [w.ae.toNat] }
  | .pext w => { noFoot with aw := [w.ad.toNat] }
  | .pcnt w | .pfirst w => kOnly [] [w.kd.toNat]
  | .pst w | .pld w => kOnly [w.kB.toNat] []
  | .apply w => kOnly [w.kt.toNat] []
  | .applyw w => kOnly [w.kt.toNat] []
  | .bany w | .ball w | .bnone w => { noFoot with ar := [w.ap.toNat] }
  | .bk w => kOnly [w.k.toNat] []
  | .call w => kOnly [] [w.d.toNat]
  | .calli w => { noFoot with vr := if w.u then [] else [w.a.toNat, w.a.toNat + 1], kr := ks w.u w.a, kw := [w.d.toNat] }
  | .ret w => kOnly [w.a.toNat] []
  | .loop w => kOnly [w.d.toNat] [w.d.toNat]
  | .take w => { noFoot with kw := [w.d.toNat], aw := [w.ap.toNat] }
  | .give w => kOnly [w.a.toNat, w.b.toNat] []
  | .ld w | .lds w | .ldv w | .lda w => loadFoot false w
  | .ldx w | .ldsx w => loadFoot true w
  | .st w | .sts w | .stv w | .stl w => storeFoot false w
  | .stx w | .stsx w => storeFoot true w
  | .ldk w => kOnly [w.a.toNat] [w.d.toNat]
  | .stk w => kOnly [w.a.toNat, w.d.toNat] []
  | .waita w => kOnly [w.a.toNat, w.b.toNat] [w.d.toNat]
  | .pref w => { noFoot with vr := idxRegs w.idx, kr := [w.a.toNat] }
  | .cwb w | .cinv w => if w.all then noFoot else kOnly [w.a.toNat, w.b.toNat] []
  | .atom w | .atoms w | .atomv w => atomFoot true w
  | .atomn w => atomFoot false w
  | .cas w | .cass w | .casv w => casFoot w
  | .evset w => kOnly (span w.a.toNat 4) []
  | .evclr w => kOnly (span w.a.toNat 4) []
  | .evwait w => kOnly (span w.a.toNat 4) []
  | .evtest w => kOnly (span w.a.toNat 4) [w.d.toNat]
  | .rput w | .rget w | .rcur w => kOnly [w.a.toNat, w.b.toNat] [w.d.toNat]
  | .wlsort w | .stamp w | .sleep w => kOnly [w.a.toNat] []
  | .wlpush w | .wlins w => { noFoot with kr := [w.a.toNat], vr := [w.b.toNat] }
  | .wlpop w => { noFoot with kr := [w.a.toNat], vw := [w.d.toNat], aw := [w.ap.toNat] }
  | .wlcnt w | .cpyq w | .xcnt w => kOnly [w.a.toNat] [w.d.toNat]
  | .setshape w => kOnly [w.a.toNat, w.b.toNat, w.c.toNat] []
  | .getshape w => kOnly [] (span w.a.toNat 4)
  | .wload w => kOnly [w.a.toNat, w.b.toNat, w.c.toNat] []
  | .mma w | .mmas w => kOnly [w.a.toNat, w.b.toNat] []
  | .tld w | .tst w => kOnly [w.a.toNat, w.b.toNat] []
  | .sighash w => kOnly [w.a.toNat, w.b.toNat, w.c.toNat] []
  | .sigrep w => kOnly (span w.a.toNat 3 ++ [w.b.toNat]) [w.c.toNat]
  | .sigscat w => kOnly [w.a.toNat, w.b.toNat] []
  | .sigbwd w => kOnly [w.a.toNat, w.b.toNat, w.c.toNat] []
  | .qhist w => kOnly [w.a.toNat, w.b.toNat] []
  | .qscale w => kOnly ([w.a.toNat, w.b.toNat] ++ if w.p then [w.c.toNat] else []) []
  | .qcvt w => kOnly [w.a.toNat, w.b.toNat, w.c.toNat] []
  | .cpy w | .cpyt w | .cpyr w => copyFoot w 2
  | .cpyg w | .cpys w => copyFoot w 3
  | .xld w | .xst w | .xadd w => kOnly ([w.a.toNat] ++ span w.b.toNat 2 ++ [w.c.toNat]) [w.d.toNat]
  | .xcur w | .xnext w | .xrange w => kOnly (w.a.toNat :: span w.b.toNat 2) [w.d.toNat]
  | .xdense w => kOnly [w.a.toNat, w.b.toNat, w.c.toNat] [w.d.toNat]
  | .merge w =>
    { vr := span w.b.toNat 2 ++ span w.c.toNat 3, vw := [w.c.toNat + 2], kr := span w.a.toNat 6, kw := [w.d.toNat]
      ar := [], aw := [w.st.toNat] }
  | .movp w => kOnly [] [w.d.toNat]
  | .icinv w | .tlbinv w => if w.all then noFoot else kOnly [w.a.toNat, w.b.toNat] []
  | _ => noFoot

/-- The first register at or above the window among those the word needs (R40, R225). -/
def windowBad (window : Nat) (i : Instr) : Option Nat :=
  (((foot false i).vr ++ (foot false i).vw).filter fun r => window ≤ r).foldl
    (fun m r => match m with | none => some r | some a => some (min a r)) none

-- acceptance

/-- Does the headspring accept the word (R76, R95, R116, R140, R159, R164, R172, R220)? -/
def headAccepts : Instr → Bool
  | .mov w | .abs w | .neg w | .not w | .popc w | .clz w | .brev w | .fsqrt w | .rcpa w | .rsqa w | .fexp2 w | .flog2 w
  | .fsinpi w | .fcospi w | .fclass w | .frnd w | .frcp w => w.u
  | .add w | .sub w | .mul w | .mulh w | .div w | .rem w | .min w | .max w | .and w | .or w | .xor w | .shl w | .shr w
  | .sha w | .rot w | .fadd w | .fsub w | .fmul w | .fmin w | .fmax w | .fdiv w | .fscale w => w.u
  | .mad w | .add3 w | .bfx w | .bfi w | .fma w => w.u
  | .movl w => w.u
  | .movs w => w.u
  | .lea w => w.u
  | .cvt w => w.u
  | .calli w => w.u
  | .bck _ | .lanek _ | .pack _ | .unpk _ | .cmp _ | .fcmp _ | .sel _ | .aop _ | .acnt _ | .afirst _ | .amovk _
  | .shfl _ | .bcast _ | .scan _ | .reduce _ | .shflx _ => false
  | .pdep _ | .pext _ | .yieldh _ | .take _ | .bany _ | .ball _ | .bnone _ => false
  | .ld _ | .st _ | .ldx _ | .stx _ | .lds _ | .sts _ | .ldsx _ | .stsx _ | .ldv _ | .stv _ | .lda _ | .stl _
  | .pref _ => false
  | .atom _ | .atomn _ | .cas _ | .atoms _ | .cass _ | .atomv _ | .casv _ => false
  | .wlpush _ | .wlpop _ | .wlins _ | .merge _ => false
  | _ => true

/-- The register fields of an I-form word as its executor reads them (R75, R95). -/
def iFormOk (u : Bool) : Instr → Bool
  | .movi w => regOk u w.ty w.d
  | .addi w | .andi w | .ori w | .shli w => immRegs u w
  | _ => true

/-- Does the executor of a context accept the word (R116, R164)? -/
def accepts (ctx : Nat) (i : Instr) : Bool :=
  if isHead ctx then headAccepts i
  else match i with
    | .apply _ | .applyw _ | .release _ | .give _ | .gbar _ => false
    | .yieldh _ | .take _ | .bar _ => isHome ctx
    | _ => true

-- addresses

/-- Index term of an M-form address in one lane (R143). -/
def idxTerm (e : Exec) (esize : Nat) (idx : Index) (l : Nat) : Int :=
  match idx with
  | .lane => (l * esize : Nat)
  | .reg b iw sgn sc =>
    if iw = 3 then (((e.rv (b.toNat + 1) l).toNat * 2 ^ 32 + (e.rv b.toNat l).toNat) * 2 ^ sc.toNat : Nat)
    else
      let w := 8 * 2 ^ iw.toNat
      let v := (e.rv b.toNat l).toNat
      (if sgn then sext w v else (v % 2 ^ w : Nat)) * (2 ^ sc.toNat : Nat)

/-- Effective address of a lane: (k[a] + idx + sext(off) * esize) mod 2^64 (R143). -/
def effAddr (e : Exec) (a : KReg) (esize : Nat) (idx : Index) (off : Int) (l : Nat) : Nat :=
  wrap 64 ((e.rk a.toNat).toNat + idxTerm e esize idx l + off * esize)

/-- Address of a uniform access: the index is 0 (R143). -/
def uniAddr (k : Word) (esize : Nat) (off : Int) : Nat := wrap 64 (k.toNat + off * esize)

end Sys2Proof.Machine
end

