-- ==== Sys2Proof/Machine/Ops.lean ====
section
/-! DEFINITION. The shared operations: the issue of a word, clause undo, taking an exception and returning from one, messages,
interrupts and the kill of a context (spec/03 R49 to R51, spec/05 R73 and R90, spec/15 R225 to R231, spec/20 R286 and R294). -/

namespace Sys2Proof.Machine

-- messages (R313 to R315, R321)

def State.send (s : State) (dst kind tag : Nat) (payload : List Byte) : State :=
  { s with outbox := s.outbox ++ [{ dst, src := s.ownId, kind, tag, payload }] }

/-- The port that is tried first for an endpoint's traffic (log 9). -/
def homePort (ep : Nat) : Nat := ep % 24
/-- The first port that is up from an endpoint's first choice. -/
def upPort (s : State) (ep : Nat) : Option Nat :=
  ((upto 24).map fun i => (homePort ep + i) % 24).find? fun p => !(mapGet Port.up s.ports p).down
/-- The port that carries an endpoint's traffic: the one that it has, while that is up (R319). -/
def portOf (s : State) (ep : Nat) : Option Nat :=
  let p := (mapGet none s.routes ep).getD (homePort ep)
  if (mapGet Port.up s.ports p).down then upPort s ep else some p
def reachable (s : State) (ep : Nat) : Bool := !s.unreachable.contains ep && (portOf s ep).isSome

/-- Send a message of an operation. -/
def sendRemote (s : State) (x : ExecId) (op lane kind ep addr : Nat) (payload : List Byte) : State :=
  let r : Remote := { tag := s.fresh % 2 ^ 22, ep, x, op, kind, lane, addr, len := leNat ((payload.drop 8).take 4), pa := leNat (payload.take 8) }
  { s with fresh := s.fresh + 1, remotes := s.remotes ++ [r] }.send ep kind r.tag payload

/-- Bytes of a remote window that have come for an executor (R295). -/
def farBytes (e : Exec) (addr len : Nat) : Option (List Byte) :=
  (e.far.find? fun g => g.addr ≤ addr && addr + len ≤ g.addr + g.bytes.length).map fun g => (g.bytes.drop (addr - g.addr)).take len
/-- Bytes asked for and come are of no more use. -/
def State.forgetFar (s : State) (x : ExecId) : State :=
  { s with remotes := s.remotes.filter fun r => !(r.x = x && r.lane = 65) }.updExec x fun e => { e with far := [] }

/-- A completion message (R315): event, code, launch generation, context, fault record. -/
def completion (s : State) (event code gen ctx : Nat) (record : List Byte) : State :=
  (s.send s.hostId 8 0 (leBytes 1 event ++ leBytes 1 code ++ leBytes 6 0 ++ leBytes 8 gen ++ leBytes 4 ctx ++ leBytes 4 0 ++
    (if record.isEmpty then leBytes 64 0 else record))).raise 0

/-- An executor meets poison: the log keeps every case, cause 0x15 becomes pending (R336, R337, R340). -/
def meetPoison (s : State) (x : ExecId) (domain at' : Nat) : State :=
  (logError s 1 domain 0 x.core at' (lgenOf s x.core)).poisonEntry x domain

-- the issue of a word

/-- What a word sees at its issue. -/
structure View where
  s : State
  x : ExecId
  w : Workgroup
  e : Exec
  c : Clause
  g : LaneSet
  /-- The word executes: G is not empty, or the executor is the headspring (R95, R117). -/
  on : Bool

/-- One lane's access of a load as the shadow performs it: the range, its scope and hint, and the cells of its value. -/
structure ShadowLoad where
  acc : Acc
  scope : Scope
  nt : Bool
  cells : Nat → List RegVal

/-- What a word does at its issue. -/
structure Eff where
  /-- Latency of `writes` (R49). -/
  lat : Nat := 4
  writes : List RegVal := []
  /-- Operands captured for the clause's commit: k values and lane values. -/
  item : Option (List Word × List (List Lane)) := none
  cause : Option Cause := none
  /-- The word waits and holds its slot (R138, R154). -/
  hold : Bool := false
  /-- Cycles beyond R73 before the next word issues (R96, R139). -/
  extra : Nat := 0
  /-- Switch away after the clause (R139). -/
  away : Bool := false
  /-- Header address of a taken transfer. -/
  target : Option Nat := none
  /-- New a0 and partition stack (R136). -/
  part : Option PartSave := none
  takes : Nat := 0
  /-- Home warp whose queue a GIVE reserves (R138). -/
  gives : Option Nat := none
  /-- Accesses of a load, for the run-ahead (R286). -/
  loads : List ShadowLoad := []

/-- A cause of the word itself; in the headspring sr.tmask is 0 (R225). -/
def View.fault (v : View) (code : Nat) (info : Nat := 0) (faddr : Nat := 0) : Cause :=
  { code, info, tmask := if isHead v.x.ctx then 0 else v.g, faddr, word := v.c.next }

/-- Header address of the fall-through clause (R69). -/
def Fetched.after (f : Fetched) : Nat := wrap 64 (f.addr + 8 * (f.words.length + 1))

/-- Vector words with an f64 operand or result hold the slot one cycle longer (R96). -/
def f64Vector : Instr → Bool
  | .fadd w | .fsub w | .fmul w | .fmin w | .fmax w | .fdiv w | .fscale w => w.ty == .f64 && !w.u
  | .fma w => w.ty == .f64 && !w.u
  | .fsqrt w | .frnd w | .frcp w | .fclass w => w.ty == .f64 && !w.u
  | .cvt w => (w.ty == .f64 || w.src == .f64) && !w.u
  | .fcmp w => w.ty == .f64 && !w.u
  | .scan w | .reduce w => w.ty == .f64
  | _ => false

def headerEndgap (h : Word) : Nat := (fld h 27 3).toNat
def headerAway (h : Word) : Bool := bitOf h 26

/-- Replace the newest clause of an executor. -/
def setLast (cs : List Clause) (c : Clause) : List Clause := cs.dropLast ++ [c]

/-- Does a clause hold a YIELD that executes (R139)? -/
def yields (c : Clause) : Bool := c.items.any fun it => match it.instr with | .yield _ => it.on | _ => false

/-- The clause after a word at index c.next has issued: next word, its cycle, and what the executor keeps of the last word
(R73, R96, R139). `words` is the words it takes, 2 with a literal. -/
def advance (e : Exec) (c : Clause) (now words gap extra : Nat) (away : Bool) : Exec × Clause × Bool :=
  let next := c.next + words
  let t := now + 1 + gap + extra
  if next < c.code.words.length then (e, { c with next, due := t }, false)
  else
    let ready := t + headerEndgap c.code.header
    ({ e with slot := none, readyAt := max e.readyAt ready, clauses := e.clauses }, { c with next, due := t },
     away || yields c || headerAway c.code.header)

/-- Record the clause's switch-away on the slot it held (R73). -/
def markAway (s : State) (core : Nat) (slot : Option Nat) (ctx : Nat) : State :=
  match slot with
  | none => s
  | some i => s.updCore core fun c => { c with away := mapPut none i (some ctx) c.away }

/-- A slot given up in this cycle is free from the next, or `held` cycles later: a STALL and an f64 vector word hold it (R73, R96,
R139). -/
def freeSlot (s : State) (core : Nat) (slot : Option Nat) (held : Nat := 0) : State :=
  match slot with
  | none => s
  | some i => s.updCore core fun c => { c with slotFree := mapPut 0 i (s.now core + 1 + held) c.slotFree }

/-- A cause found at a word's issue: the clause issues no more words; the cause is taken when the clause comes to commit (R51,
R90). -/
def stopClause (s : State) (x : ExecId) (e : Exec) (c : Clause) (cause : Cause) : State :=
  (freeSlot s x.core e.slot).setExec x
    { e with slot := none, clauses := setLast e.clauses { c with next := c.code.words.length, cause := some cause } }

/-- Queue entries of a home warp reserved or released (R138). -/
def holdQueue (s : State) (core warp : Nat) (f : Nat → Nat) : State :=
  s.updExec ⟨core, warp⟩ fun e => { e with queueHeld := f e.queueHeld }

/-- The stamp phase owait: the first cycle in which an executor waits on C (R327). -/
def noteOwait (i : Instr) (cC now : Nat) (w : Workgroup) : Workgroup :=
  match i with
  | .wait q => if q.c.toNat < cC && w.stamps.owait.isNone then { w with stamps := { w.stamps with owait := some now } } else w
  | _ => w

/-- The effect of a word that issues, outside the run-ahead (R49, R50, R73). -/
def applyEff (v : View) (i : Instr) (gap words : Nat) (f : Eff) : State :=
  if f.hold then
    (v.s.setExec v.x { v.e with clauses := setLast v.e.clauses { v.c with due := v.s.now v.x.core + 1 } }).updWg v.x.core
      (noteOwait i v.e.cC (v.s.now v.x.core))
  else match f.cause with
    | some cause => stopClause v.s v.x v.e v.c cause
    | none =>
      let now := v.s.now v.x.core
      let keys := (f.writes.map RegVal.key).filter fun k => !(v.c.undo.any fun u => u.key = k)
      let c1 : Clause :=
        { v.c with
          undo := v.c.undo ++ (keys.eraseDups.map v.e.cell)
          settled := if f.writes.isEmpty then v.c.settled else max v.c.settled (now + f.lat)
          items := match f.item with
            | none => v.c.items
            | some (kv, lv) => v.c.items ++ [{ instr := i, idx := v.c.next, g := v.g, on := v.on, kv, lv, clock := now, xl := [] }]
          target := match f.target with | none => v.c.target | some t => some t
          takes := v.c.takes + f.takes
          gives := match f.gives with | none => v.c.gives | some q => v.c.gives ++ [q]
          parts := match f.part, v.c.parts with
            | some _, none => some { a0 := v.e.a0, stack := v.e.parts }
            | _, p => p }
      let e1 : Exec :=
        { v.e with
          pend := v.e.pend ++ f.writes.map fun w => { land := now + f.lat, seq := v.c.seq, idx := v.c.next, val := w }
          pc := match f.target with | none => v.e.pc | some t => t
          a0 := match f.part with | none => v.e.a0 | some p => p.a0
          badCells := match f.part with | none => v.e.badCells | some _ => cellsBut v.e.badCells (.a 0)
          parts := match f.part with | none => v.e.parts | some p => p.stack }
      let held := f.extra + if f64Vector i then 1 else 0
      let (e2, c2, away) := advance e1 c1 now words gap held f.away
      let s0 := if e2.slot.isNone then freeSlot v.s v.x.core v.e.slot held else v.s
      let s1 := s0.setExec v.x { e2 with clauses := setLast e2.clauses c2 }
      let s2 := if away then markAway s1 v.x.core v.e.slot v.x.ctx else s1
      match f.gives with
      | none => s2
      | some q => holdQueue s2 v.x.core q (· + 1)

-- the run-ahead (R286, R287)

/-- Words that end a run-ahead (R287 items 5 and 6). -/
def endsShadow : Instr → Bool
  | .exit _ | .bar _ | .gbar _ | .evwait _ | .waita _ | .take _ | .give _ | .yieldh _ | .tacq _ | .sleep _ | .apply _
  | .applyw _ | .release _ => true
  | .atom _ | .atomn _ | .cas _ | .atoms _ | .cass _ | .atomv _ | .casv _ => true
  | .lda w => decide (3 ≤ scopeNum w.scope)
  | .trap _ | .bkpt _ | .rft _ | .movp _ | .icinv _ | .tlbinv _ | .stamp _ => true
  | _ => false

def isTransfer : Instr → Bool
  | .bra _ | .bany _ | .ball _ | .bnone _ | .bk _ | .call _ | .calli _ | .ret _ | .loop _ => true
  | _ => false

/-- Cells of a v register over lanes. -/
def vCells (r : Nat) (ls : List Nat) : List RegKey := ls.map (.v r)

/-- Source lane of SHFL (R112). -/
def shflLane (mode : ShflMode) (delta idx l : Nat) : Int :=
  match mode with
  | .idx => idx
  | .up => (l : Int) - delta
  | .down => (l : Int) + delta
  | .xor => ((l ^^^ delta : Nat) : Int)
/-- The lane whose value SHFL gives a lane: its own where the source lies outside G (R112). -/
def shflFrom (e : Exec) (g : LaneSet) (w : ShflW) (l : Nat) : Nat :=
  let src := shflLane w.mode w.delta.toNat (e.rv w.b.toNat l).toNat l
  if 0 ≤ src && decide (src ≤ 31) && g.getLsbD src.toNat then src.toNat else l

/-- The v cells that a word's result in a lane comes from: those of the lane, or those that a cross-lane word reads for it (R112 to R115). -/
def sourceCells (head : Bool) (e : Exec) (g : LaneSet) (i : Instr) (l : Nat) : List RegKey :=
  let rs := (foot head i).vr
  match i with
  | .shfl w => (if w.mode == .idx then [.v w.b.toNat l] else []) ++ (vs false w.ty w.a).map fun r => .v r (shflFrom e g w l)
  | .shflx w =>
    let n := (e.rv w.b.toNat l).toNat % 64
    .v w.b.toNat l :: if e.ra0.getLsbD (n % 32) then [.v (w.a.toNat + n / 32) (n % 32)] else []
  | .bcast w =>
    let n := (e.rk w.k.toNat).toNat
    if n < 32 && e.ra0.getLsbD n then (vs false w.ty w.a).map fun r => .v r n else []
  | .scan w => rs.flatMap (vCells · ((lanesOf g).filter fun j => if w.excl then j < l else j ≤ l))
  | .reduce _ => rs.flatMap (vCells · (lanesOf g))
  | .lanek _ => rs.map fun r => .v r ((lanesOf g).headD 32)
  | _ => rs.map fun r => .v r l

/-- Does a word read a poisoned k register or aperture? -/
def uniformPoison (head : Bool) (h : Shadow) (i : Instr) : Bool :=
  (foot head i).kr.any (fun r => h.poison.contains (.k r)) || (foot head i).ar.any fun r => r ≠ 0 && h.poison.contains (.a r)
/-- Lanes among ls in which a source of the word is poisoned: all of them when a k register or aperture source is. -/
def poisonLanes (v : View) (h : Shadow) (i : Instr) (ls : List Nat) : List Nat :=
  if uniformPoison (isHead v.x.ctx) h i then ls else ls.filter fun l => (sourceCells (isHead v.x.ctx) v.e v.g i l).any h.poison.contains

/-- Destination cells of a word over lanes. -/
def destCells (u : Bool) (i : Instr) (ls : List Nat) : List RegKey :=
  let f := foot u i
  f.vw.flatMap (vCells · ls) ++ f.kw.map .k ++ f.aw.map .a

def setPoison (h : Shadow) (ks : List RegKey) : Shadow := { h with poison := h.poison ++ ks.filter fun k => !h.poison.contains k }
def unPoison (h : Shadow) (ks : List RegKey) : Shadow := { h with poison := h.poison.filter fun k => !ks.contains k }

def endShadow (v : View) (h : Shadow) : State := v.s.setExec v.x { v.e with shadow := some { h with ended := true } }

/-- A load of at most 16 bytes as the run-ahead performs it: a plain load on its path, with no ordering (R148, R286). The bytes of a remote
window have come. -/
def plainLoad (s : State) (x : ExecId) (ctx : Nat) (xl : List (Nat × Xlate)) (q : ShadowLoad) : Nat × State :=
  match locOf x.core xl q.acc.space q.acc.addr with
  | .remote _ _ => (leNat (((s.exec x).bind (farBytes · q.acc.addr q.acc.len)).getD []), s)
  | .home h =>
    if q.acc.space = .gl && scopeNum q.scope < 3 then
      let r := l1Load s x.core ctx q.acc.addr h q.acc.len q.nt
      (leNat r.1, r.2)
    else
      let s1 := l1Clean s x.core h q.acc.len false
      (readNat s1.mem h q.acc.len, s1)

/-- The first of the loads whose bytes lie in a remote window and have not come: endpoint, its physical address, and the range. -/
def farNeed (v : View) (qs : List ShadowLoad) : Option (Nat × Nat × Acc) :=
  qs.findSome? fun q => match checkAccs v.s v.x v.w 0 0 [q.acc] with
    | .ok (xl, _) => match locOf v.x.core xl q.acc.space q.acc.addr with
      | .remote ep pa => if (farBytes v.e q.acc.addr q.acc.len).isSome then none else some (ep, pa, q.acc)
      | .home _ => none
    | .error _ => none

/-- The word waits for bytes of an endpoint; one that cannot be reached would be a cause, which ends the run-ahead (R287, R296). -/
def awaitFar (v : View) (h : Shadow) (ep pa : Nat) (a : Acc) : State :=
  let s1 := v.s.setExec v.x { v.e with clauses := setLast v.e.clauses { v.c with due := v.s.now v.x.core + 1 } }
  if v.s.remotes.any fun r => r.x = v.x && r.lane = 65 then s1
  else if reachable v.s ep then sendRemote s1 v.x 0 65 1 ep a.addr (leBytes 8 pa ++ leBytes 4 a.len ++ leBytes 4 0)
  else endShadow v h

/-- One lane of a load in shadow: its value's cells, or poison and a recorded page, or a cause, which ends the run-ahead. -/
def shadowLoad1 (x : ExecId) (w : Workgroup) (st : State × Shadow × List RegVal × Bool) (q : ShadowLoad) :
    State × Shadow × List RegVal × Bool :=
  let (s, h, ws, stop) := st
  match checkAccs s x w 0 0 [q.acc] with
  | .error (.miss ps) =>
    (s, { setPoison h ((q.cells 0).map RegVal.key) with
          pages := ps.foldl (fun a p => if a.length < 16 || a.any (·.page = p.page) then addPage a p else a) h.pages }, ws, stop)
  | .error _ => (s, h, ws, true)
  | .ok (xl, s1) =>
    let (val, s2) := plainLoad s1 x w.launch.ctx xl q
    (s2, unPoison h ((q.cells 0).map RegVal.key), ws ++ q.cells val, stop)

/-- What the commit of a word of the run-ahead would look at: its operands over the lanes that no poison reaches; none where a k register, an
aperture or the guard is poisoned (R287). -/
def shadowItem (v : View) (i : Instr) (pl : List Nat) (kPoison : Bool) (f : Eff) : List Item :=
  match f.item with
  | some (kv, lv) =>
    if kPoison then []
    else [{ instr := i, idx := v.c.next, g := v.g &&& ~~~ laneSet pl, on := v.on, kv, lv, clock := v.s.now v.x.core, xl := [] }]
  | none => []

/-- A word of the run-ahead: registers go to the shadow, poison spreads as results land, stores and commands are dropped (R286). -/
def shadowEff (v : View) (h : Shadow) (i : Instr) (gPoison : Bool) (gap words : Nat) (f : Eff) : State :=
  let head := isHead v.x.ctx
  let ls := if head then [] else lanesOf (if gPoison then v.e.ra0 else v.g)
  let pl := if gPoison then ls else poisonLanes v h i ls
  let uPoison := gPoison || uniformPoison head h i
  let kPoison := uPoison || !pl.isEmpty
  let loads := if uPoison then [] else f.loads.filter fun q => !(pl.contains q.acc.lane)
  if endsShadow i || (isTransfer i && kPoison) || (f.cause.isSome && !kPoison) then endShadow v h
  else match farNeed v loads with
  | some (ep, pa, a) => awaitFar v h ep pa a
  | none =>
    let now := v.s.now v.x.core
    let (s1, h1, loaded, stop) := loads.foldl (shadowLoad1 v.x v.w) (v.s, h, [], false)
    if stop then endShadow v h
    else
      let bad := (foot head i).vw.flatMap (vCells · pl) ++ (if kPoison then (foot head i).kw.map .k ++ (foot head i).aw.map .a else [])
      -- what lands later is poisoned or clean as it lands (R49)
      let later := f.writes.map RegVal.key
      let words' := h1.words + 1
      let h2 : Shadow := setPoison h1 (bad.filter fun k => !later.contains k)
      let h3 := { h2 with words := words', ended := 256 ≤ words' || 16 ≤ h2.pages.length
                          trail := h2.trail ++ [(v.c.seq, v.c.next, h.pages)]
                          a0 := match f.part with | none => h2.a0 | some p => p.a0
                          parts := match f.part with | none => h2.parts | some p => p.stack }
      let e1 : Exec := { v.e with
        shadow := some h3, far := []
        pend := v.e.pend ++ f.writes.map fun w => { land := now + f.lat, seq := v.c.seq, idx := v.c.next, val := w, bad := bad.contains w.key }
        pc := match f.target with | none => v.e.pc | some t => t }
      let c1 : Clause := { v.c with settled := if f.writes.isEmpty then v.c.settled else max v.c.settled (now + f.lat)
                                    items := v.c.items ++ shadowItem v i pl uPoison f }
      let held := f.extra + if f64Vector i then 1 else 0
      let (e2, c2, away) := advance (e1.puts loaded) c1 now words gap held f.away
      let e3 := { e2 with lastPage := ((s1.exec v.x).map Exec.lastPage).getD e2.lastPage }
      let s0 := if e3.slot.isNone then freeSlot s1 v.x.core v.e.slot held else s1
      let s2 := s0.setExec v.x { e3 with clauses := setLast e3.clauses c2 }
      if away then markAway s2 v.x.core v.e.slot v.x.ctx else s2

-- pools (R43, R119)

/-- Tag words of a pool (R119): own is sr.wgid with the upper word zero, and sr.gen. -/
def tagOf (w : Workgroup) (p : Nat) : Nat × Nat := (mapGet none w.tags p).getD (w.wgid, w.launch.gen)
def setTag (w : Workgroup) (p : Nat) (t : Nat × Nat) : Workgroup :=
  { w with tags := mapPut none p (if t = (w.wgid, w.launch.gen) then none else some t) w.tags }
def poolOf (w : Workgroup) (p : Nat) : BitVec 1024 := mapGet 0 w.pools p
/-- A pool written whole (R337). -/
def setPool (w : Workgroup) (p : Nat) (b : BitVec 1024) : Workgroup :=
  { w with pools := mapPut 0 p b w.pools, badPools := w.badPools.filter (· / 32 ≠ p) }
/-- Bits of launched warps (R43). -/
def launchedBits (w : Workgroup) : BitVec 1024 := BitVec.ofNat 1024 (2 ^ (32 * w.launch.nwarps) - 1)

-- errors that a word meets in the registers that it reads (R337)

/-- Pools and shape registers that a word reads. -/
def poolsRead : Instr → List Nat
  | .pext i => [i.pa.toNat]
  | .poolop i => [i.pa.toNat, i.pb.toNat]
  | .pcnt i | .pfirst i => [i.pa.toNat]
  | .pst i => [i.p.toNat]
  | .apply i => [i.pa.toNat]
  | .applyw i => [i.pa.toNat]
  | .release i => if i.all then [] else [i.pa.toNat]
  | _ => []
def shapesRead : Instr → List Nat
  | .getshape i => [i.s.toNat]
  | .wload i => [i.s.toNat]
  | .mma i | .mmas i => [i.s.toNat]
  | .tld i | .tst i => [i.s.toNat]
  | .sighash i => [i.s.toNat]
  | .sigrep i => [i.s.toNat]
  | .sigscat i => [i.s.toNat]
  | .sigbwd i => [i.s.toNat]
  | .qhist i => [i.s.toNat]
  | .qscale i => [i.s.toNat]
  | .qcvt i => [i.s.toNat]
  | _ => []

/-- Register cells that a word reads: its sources over the lanes of G, its guard, and APPLY's snapshot (R126). -/
def cellsRead (head : Bool) (e : Exec) (i : Instr) (ctl : Ctl) (g : LaneSet) : List RegKey :=
  let f := foot head i
  let snapshot : List Nat := match i with | .apply _ | .applyw _ => upto 8 | _ => []
  (lanesOf g).flatMap (sourceCells head e g i) ++ (f.kr ++ snapshot).map .k ++ f.ar.map .a ++ (if head then [] else [.a ctl.g.toNat])

/-- A cell with an unspecified value in one of its 32-bit units (R10). -/
def freeUnit (s : State) (e : Exec) (k : RegKey) : RegVal × State :=
  let (bs, s1) := s.takeFree 4
  let x : BitVec 32 := BitVec.ofNat 32 (leNat bs)
  (match k with
    | .v r l => .v r l x
    | .k r => if r < 64 then .k r ((e.rk r).extractLsb' 32 32 ++ x) else .k (r - 64) (x ++ (e.rk (r - 64)).extractLsb' 0 32)
    | .a r => .a r x, s1)

/-- Number of a register in the error log. -/
def cellNumber : RegKey → Nat
  | .v r _ => r
  | .k r => r % 64
  | .a r => r

/-- The word reads a unit that holds an error: it uses an unspecified value, of a0 one of launched lanes, and cause 0x15 becomes pending; the
error stays until the cell is written (R337). -/
def spoilCell (x : ExecId) (s : State) (k : RegKey) : State :=
  match s.exec x with
  | none => s
  | some e =>
    let (r, s1) := freeUnit s e k
    meetPoison (s1.updExec x fun e => match r with
      | .a 0 lanes => { e with a0 := lanes &&& e.base }
      | _ => { e.put r with badCells := e.badCells }) x 1 (cellNumber k)
/-- A word of n 32-bit units with one of them replaced. -/
def setUnit (n : Nat) (b : BitVec n) (u : Nat) (x : BitVec 32) : BitVec n :=
  BitVec.ofNat n (leNat ((span 0 (n / 32)).flatMap fun j => leBytes 4 (if j = u then x.toNat else b.toNat / 2 ^ (32 * j))))
def spoilPool (x : ExecId) (s : State) (u : Nat) : State :=
  let bits : BitVec 32 := BitVec.ofNat 32 (leNat (s.takeFree 4).1)
  meetPoison ((s.takeFree 4).2.updWg x.core fun w =>
    { setPool w (u / 32) (setUnit 1024 (poolOf w (u / 32)) (u % 32) bits &&& launchedBits w) with badPools := w.badPools }) x 1 (u / 32)
def spoilShape (x : ExecId) (s : State) (u : Nat) : State :=
  let bits : BitVec 32 := BitVec.ofNat 32 (leNat (s.takeFree 4).1)
  meetPoison ((s.takeFree 4).2.updWg x.core fun w =>
    { w with shapes := mapPut 0 (u / 8) (setUnit 256 (mapGet 0 w.shapes (u / 8)) (u % 8) bits) w.shapes }) x 1 (u / 8)

/-- Those of an executor's cells that hold an error are met by a read (R337). -/
def spoilCells (s : State) (x : ExecId) (ks : List RegKey) : State :=
  match s.exec x with
  | none => s
  | some e => ((ks.flatMap cellUnits).eraseDups.filter e.badCells.contains).foldl (spoilCell x) s
def spoilPools (s : State) (x : ExecId) (ps : List Nat) : State :=
  match s.wg x.core with
  | none => s
  | some w => (w.badPools.filter fun u => ps.contains (u / 32)).foldl (spoilPool x) s
def spoilShapes (s : State) (x : ExecId) (ns : List Nat) : State :=
  match s.wg x.core with
  | none => s
  | some w => (w.badShapes.filter fun u => ns.contains (u / 8)).foldl (spoilShape x) s

/-- Entries that TAKE words of uncommitted clauses have claimed (R138). -/
def takenSoFar (e : Exec) : Nat := (e.clauses.map (·.takes)).foldl (· + ·) 0

/-- The entry that a TAKE takes next holds an error in one half or in both. -/
def spoilEntry (s : State) (x : ExecId) (e : Exec) : State :=
  match e.queue[takenSoFar e]? with
  | some d =>
    if d.bad = 0 then s
    else
      let n := leNat (s.takeFree 8).1
      let half (i : Nat) : Nat := (if d.bad / 2 ^ i % 2 = 1 then n else d.value.toNat) / 2 ^ (32 * i) % 2 ^ 32
      let v := BitVec.ofNat 64 (half 0 + 2 ^ 32 * half 1)
      meetPoison ((s.takeFree 8).2.updExec x fun e => { e with queue := e.queue.set (takenSoFar e) { d with value := v } }) x 1 (takenSoFar e)
  | none => s

/-- What the word of an executor finds in the registers that it reads. -/
def spoil (s : State) (x : ExecId) (w : Workgroup) (e : Exec) (i : Instr) (ctl : Ctl) : State :=
  if e.badCells.isEmpty && w.badPools.isEmpty && w.badShapes.isEmpty && !(e.queue.any (·.bad ≠ 0)) || e.shadow.isSome then s
  else
    let s := match i with | .take _ => spoilEntry s x e | _ => s
    spoilShapes (spoilPools (spoilCells s x (cellsRead (isHead x.ctx) e i ctl (guardSet e ctl))) x (poolsRead i)) x (shapesRead i)

/-- The issue of one word by the executor `cur`: the illegal-instruction checks come first, then the window, then what the
entry gives (R90). -/
def issueGood (i : Instr) (ctl : Ctl) (f : View → Eff) (s : State) : Host.Outcome State Fault Refusal :=
  match s.cur with
  | none => .fault .noIssuingExecutor
  | some x =>
    match s.wg x.core, s.exec x with
    | some w, some e =>
      match e.clauses.getLast? with
      | none => .fault .noIssuingExecutor
      | some c =>
        let g := if isHead x.ctx then 0 else guardSet e ctl
        let v : View := { s, x, w, e, c, g, on := isHead x.ctx || g ≠ 0 }
        let words := match i with | .movl _ => 2 | _ => 1
        let headGuard := !isHead x.ctx || (ctl.g = 0 && !ctl.n)
        let illegal := !(formOk i && iFormOk (isHead x.ctx) i && accepts x.ctx i && headGuard)
        let window := if isHead x.ctx then none else windowBad w.launch.window i
        match e.shadow with
        | none =>
          if illegal then .next (stopClause s x e c (v.fault 0x02))
          else match window with
            | some r => .next (stopClause s x e c (v.fault 0x03 r))
            | none => .next (applyEff v i ctl.gap.toNat words (f v))
        | some h =>
          if h.ended then .next s
          else if illegal || window.isSome then .next (endShadow v h)
          else .next (shadowEff v h i (ctl.g ≠ 0 && h.poison.contains (.a ctl.g.toNat)) ctl.gap.toNat words (f v))
    | _, _ => .fault .noIssuingExecutor

/-- The issue of one word: errors in what it reads are met first (R337). -/
def issueWord (i : Instr) (ctl : Ctl) (f : View → Eff) (s : State) : Host.Outcome State Fault Refusal :=
  issueGood i ctl f (match s.cur with
    | none => s
    | some x => match s.wg x.core, s.exec x with
      | some w, some e => spoil s x w e i ctl
      | _, _ => s)

/-- A word that is no instruction: the illegal-instruction trap (R89), or the end of a run-ahead (R287). -/
def illegalWord (s : State) (x : ExecId) : State :=
  match s.exec x with
  | none => s
  | some e =>
    match e.clauses.getLast? with
    | none => s
    | some c =>
      match e.shadow with
      | some h => s.setExec x { e with shadow := some { h with ended := true } }
      | none =>
        let w := c.code.words.getD c.next 0
        let g := guardSet e (getC w)
        stopClause s x e c { code := 0x02, info := 0, faddr := 0, word := c.next
                             tmask := if isHead x.ctx then 0 else g }

-- undo (R51)

/-- Drop results of clauses from seq on, and give back the values they found: nothing of them was written (R51, R94). -/
def undoClauses (e : Exec) (cs : List Clause) (seq : Nat) : Exec :=
  let e1 := cs.reverse.foldl (fun e c => e.puts c.undo) e
  let first := cs.head?.bind (·.parts)
  let part := cs.foldr (fun c acc => match c.parts with | some p => some p | none => acc) first
  let e2 := { e1 with pend := e1.pend.filter (·.seq < seq), written := e1.written.filter fun w => decide (w.order < issueOrder seq 0) }
  match part with
  | none => e2
  | some p => { e2 with a0 := p.a0, parts := p.stack }

/-- Undo every clause of an executor that has begun issue and not committed: it stands at the header of the oldest (R50, R51). -/
def undoAll (s : State) (x : ExecId) : State :=
  match s.exec x with
  | none => s
  | some e =>
    match e.clauses with
    | [] => s
    | c :: cs =>
      let e1 := undoClauses e (c :: cs) c.seq
      let s1 := (freeSlot s x.core e.slot).setExec x { e1 with clauses := [], pc := c.code.addr, slot := none, fetched := none }
      ((c :: cs).flatMap (·.gives)).foldl (fun s q => holdQueue s x.core q (· - 1)) s1

-- taking an exception (R228) and returning from one (R231)

/-- The launched lanes of a warp, or none for the headspring. -/
def lowLanes (n : Nat) : LaneSet := BitVec.ofNat 32 (2 ^ n - 1)

/-- Frame address of an executor (R229). -/
def frameAddr (w : Workgroup) (ctx : Nat) : Nat := w.launch.ctxbase + 4 * 2 ^ 20 * w.wgid + 4096 * ctx

/-- The record of an exception: bytes 0 to 2,559 of the frame (R229). -/
def frameBytes (w : Workgroup) (e : Exec) (cause : Cause) : List Byte :=
  leBytes 8 (cause.code + cause.word * 2 ^ 16) ++ leBytes 8 e.pc ++ leBytes 8 e.pc ++ leBytes 8 cause.faddr ++
  leBytes 8 cause.info ++ leBytes 4 cause.tmask.toNat ++ leBytes 4 e.a0.toNat ++
  ((span 1 15).flatMap fun r => leBytes 4 (mapGet (0 : LaneSet) e.a r).toNat) ++ leBytes 4 0 ++
  leBytes 8 (mapGet (0 : Word) e.k 63).toNat ++ leBytes 136 0 ++
  ((upto 16).flatMap fun p => leBytes 128 (poolOf w p).toNat) ++
  ((upto 16).flatMap fun p => leBytes 8 (tagOf w p).1 ++ leBytes 8 (tagOf w p).2)

/-- An aperture's cell? -/
def isApKey : RegKey → Bool
  | .a _ => true
  | _ => false

/-- Registers after the entry: a1 to a15 empty, a0 the launched or packed lanes, sr.tmask, k63 the frame, the pc the handler
(R228). -/
def enterRegs (e : Exec) (frame handler : Nat) (cause : Cause) : Exec :=
  { e with a := [], a0 := e.base, tmask := cause.tmask, k := mapPut 0 63 (BitVec.ofNat 64 frame) e.k, pc := handler
           handler := true, cause := none, fetched := none, far := []
           badCells := cellsBut (e.badCells.filter fun k => !isApKey k) (.k 63) }

/-- A range written at its home by an engine: the L1 gives up its bytes of the sectors first. -/
def engineWrite (s : State) (core h : Nat) (bs : List Byte) : State :=
  (writeHome (l1Clean s core h bs.length true) (some core) false h bs).crossInto core h

/-- Write bytes at virtual addresses of a context through one page translation for each page; none if a page has none. -/
def writeVirtual (s : State) (core : Nat) (pages : List (Nat × Xlate)) (va : Nat) (bs : List Byte) : State :=
  (pieces va bs.length).foldl (fun s p =>
    match locOf core pages .gl p.1 with
    | .home h => engineWrite s core h ((bs.drop (p.1 - va)).take p.2)
    | .remote _ _ => s) s

/-- What the frame's record reads of an executor's registers and pools: errors there are met (R229, R337). -/
def spoilFrame (s : State) (x : ExecId) : State :=
  spoilPools (spoilCells s x (.k 63 :: if isHead x.ctx then [] else (upto 16).map .a)) x (upto 16)

/-- TAKING AN EXCEPTION: the one entry of R228. The answer is the state after entry; `miss` when the frame's page has no
translation yet; `bad` when the record cannot be written (no wr, or a remote window). -/
inductive TakeResult where
  | entered (s : State)
  | miss (page : MissPage)
  | bad
  deriving DecidableEq, Repr

def takeException (s : State) (x : ExecId) (w : Workgroup) (e : Exec) (cause : Cause) : TakeResult :=
  let frame := frameAddr w x.ctx
  match coreLookup s x.core w.launch.ctx w.launch.root frame with
  | (.miss m, _) => .miss { page := frame / 4096, malformed := m, fetch := false, write := true, read := false }
  | (.ok xl, s1) =>
    if !xl.wr || xl.remote.isSome then .bad
    else
      let s1 := spoilFrame s1 x
      let s2 := writeVirtual s1 x.core [(frame / 4096, xl)] frame (frameBytes ((s1.wg x.core).getD w) ((s1.exec x).getD e) cause)
      .entered (s2.updExec x fun e => enterRegs e frame w.launch.handler cause)

/-- RETURN FROM AN EXCEPTION: the registers, and with `.pools` the pools and tags, from the frame's bytes 16 to 2,559 (R231); bits of warps
that were not launched stay clear (R43). The headspring sets k63, pools, sr.tmask and the next clause only. -/
def returnFrom (w : Workgroup) (ctx : Nat) (e : Exec) (bs : List Byte) (pools : Bool) : Workgroup :=
  let at' (o n : Nat) : Nat := leNat ((bs.drop (o - 16)).take n)
  let e1 := { e with k := mapPut 0 63 (BitVec.ofNat 64 (at' 112 8)) e.k, tmask := 0, handler := false, pc := at' 16 8
                     badCells := cellsBut (e.badCells.filter fun k => !isApKey k) (.k 63) }
  let e2 := if isHead ctx then e1 else
    { e1 with a0 := BitVec.ofNat 32 (at' 44 4) &&& e.base
              a := (span 1 15).foldl (fun m r => mapPut 0 r (BitVec.ofNat 32 (at' (44 + 4 * r) 4)) m) [] }
  let w1 := w.setExec ctx e2
  if pools then
    (upto 16).foldl (fun w p => setTag (setPool w p (BitVec.ofNat 1024 (at' (256 + 128 * p) 128) &&& launchedBits w)) p
      (at' (2304 + 16 * p) 8, at' (2312 + 16 * p) 8)) w1
  else w1

-- the kill of a context (R294)

/-- The fault record's bytes (R294). -/
def faultRecord (reason code gen lgen wgid core clause faddr reqid : Nat) : List Byte :=
  leBytes 1 reason ++ leBytes 1 code ++ leBytes 6 0 ++ leBytes 8 gen ++ leBytes 8 lgen ++ leBytes 4 wgid ++ leBytes 4 core ++
  leBytes 8 clause ++ leBytes 8 faddr ++ leBytes 8 reqid ++ leBytes 8 0

/-- What a kill's fault record names beside the reason. -/
structure KillInfo where
  code : Nat := 0
  lgen : Nat := 0
  wgid : Nat := 0xFFFFFFFF
  core : Nat := 0xFFFFFFFF
  clause : Nat := 0
  faddr : Nat := 0
  reqid : Nat := 0

/-- Advance done over the records finished in order, and write head, done and err back (R264, R272). -/
def finishRecord (s : State) (q : Nat) (seq : Nat) : State :=
  match mapGet none s.levels q with
  | none => s
  | some l =>
    let fin := seq :: l.finished
    let upTo := (List.range (fin.length + 1)).foldl (fun d _ => if fin.contains d then d + 1 else d) l.doneN
    let l1 := { l with doneN := upTo, finished := fin.filter (upTo ≤ ·) }
    let s1 := { s with levels := mapPut none q (some l1) s.levels }
    match s.queueTable with
    | none => s1
    | some t => writeHome s1 none false (t + 64 * q + 32) (leBytes 8 l1.doneN)

/-- A record rejected: its code and sequence number go to err, done passes it, and the host is told (R268). -/
def rejectRecord (s : State) (q seq gen ctx code : Nat) : State :=
  let s1 := match s.queueTable with
    | none => s
    | some t => writeHome s none false (t + 64 * q + 40) (leBytes 1 code ++ leBytes 7 seq)
  completion (finishRecord s1 q seq) 2 code gen ctx []

/-- Return a workgroup's estimate to its field (R271). -/
def returnBudget (s : State) (core est : Nat) : State :=
  let f := s.field (fieldOf core)
  s.setField (fieldOf core) { f with committed := f.committed - est }

/-- End the slaving of a follower by the leader's workgroup (R185). -/
def freeFollower (s : State) (core : Nat) : State :=
  if (s.core (core + 1)).slavedBy = some core then s.updCore (core + 1) fun c => { c with slavedBy := none, macroRec := none }
  else s

/-- A moving twin joins its new stage once both of its cores are free (R279). -/
def joinStage (s : State) (cluster : Nat) : State :=
  match mapGet none s.governors cluster with
  | none => s
  | some g =>
    match g.moving with
    | none => s
    | some (twin, stage) =>
      let c := 8 * cluster + 2 * twin
      if (s.wg c).isNone && (s.wg (c + 1)).isNone then
        { s with governors := mapPut none cluster (some { g with stages := g.stages.set twin stage, moving := none }) s.governors }
      else s

/-- Free a core whose workgroup is dropped: stores still dirty in its L1 may be lost, which is open (R294). -/
def dropWorkgroup (s : State) (core : Nat) : State :=
  match s.wg core with
  | none => s
  | some w =>
    let (lost, s1) := s.choose 2
    let s2 := if lost = 0 then wbAll s1 core else s1
    let s3 := { s2 with watches := s2.watches.filter (·.x.core ≠ core), remotes := s2.remotes.filter (·.x.core ≠ core) }.updCore core fun c =>
      { c with wg := none, l1 := [], macroRec := none, weights := [], bscales := [], away := [] }
    joinStage (freeFollower (returnBudget s3 core w.launch.est) core) (clusterOf core)

def noteKill (s : State) (reason : Nat) (i : KillInfo) (ctx : Nat) : State :=
  match ctxDesc s ctx with
  | none => s
  | some d =>
    let rec' := faultRecord reason i.code d.gen i.lgen i.wgid i.core i.clause i.faddr i.reqid
    let s1 := if d.killed then s else
      match s.contextTable with
      | none => s
      | some t => writeHome (writeHome s none false d.frec rec') none false (t + 32 * ctx + 16) [2]
    (completion s1 3 reason i.lgen ctx rec').raise 2

/-- Is every gang of a taken record placed? -/
def Taken.allPlaced (t : Taken) : Bool := t.returned.isEmpty && t.asked.isEmpty && t.next * t.launch.gsize = t.launch.nwg

/-- Has an executor of a killed workgroup no clause to end: it stands at a clause start, from which a run-ahead has changed nothing (R51,
R287, R294)? -/
def atRest (e : Exec) : Bool := e.clauses.isEmpty || e.shadow.isSome

/-- A killed workgroup leaves its core once every executor stands at a clause start (R294). -/
def reap (s : State) (core : Nat) : State :=
  match s.wg core with
  | none => s
  | some w => if w.phase = .killed && w.all.all fun p => atRest p.2 then dropWorkgroup s core else s

/-- Kill a context: its fault record, its executors, which stop at their next clause start, its saved workgroups, its records, and the
requests of its governors (R279, R294). -/
def killCtx (s : State) (ctx reason : Nat) (i : KillInfo) : State :=
  let s1 := noteKill s reason i ctx
  let cores := s1.busy.filterMap fun p => if p.2.launch.ctx = ctx then some p.1 else none
  let s2 := sweepCores (cores.foldl (fun s c => reap (s.updWg c fun w => { w with phase := .killed }) c) s1) (fun _ => true) ctx true 0 0
  let mine := s2.taken.filter (·.launch.ctx = ctx)
  let s3 := { s2 with
    saved := s2.saved.filter (·.wg.launch.ctx ≠ ctx), requests := s2.requests.filter (·.ctx ≠ ctx)
    taken := s2.taken.filter (·.launch.ctx ≠ ctx)
    governors := s2.governors.map fun p => (p.1, p.2.map fun g => if g.ctx = ctx then { g with request := none } else g)
    reservations := s2.reservations.filter fun r => !(mine.any (·.launch.gen = r.gen)) }
  mine.foldl (fun s t => if t.allPlaced then finishRecord s t.level t.launch.seq
    else rejectRecord s t.level t.launch.seq t.launch.gen ctx 11) s3

/-- Kill the context of an executor for a cause (R228, R294). -/
def killFor (s : State) (x : ExecId) (w : Workgroup) (e : Exec) (reason : Nat) (cause : Cause) : State :=
  killCtx s w.launch.ctx reason
    { code := cause.code, lgen := w.launch.gen, wgid := w.wgid, core := x.core, clause := e.pc, faddr := cause.faddr }

end Sys2Proof.Machine
end

