-- ==== Sys2Proof/Machine/Transcend.lean ====
section
/-! DEFINITION. 2^a, log2 a, sin(πa) and cos(πa) (spec/06 R105), by square roots and products in fixed point: no result at an
operand outside the exact cases is a number of the format or a tie, so the bits kept decide every rounding. -/

namespace Sys2Proof.Machine

/-- Fraction bits of the fixed point used here. -/
def fxBits : Nat := 640
def fxOne : Nat := 2 ^ fxBits
def fxMul (a b : Nat) : Nat := a * b / fxOne
def fxSqrt (a : Nat) : Nat := isqrt (a * fxOne)

/-- The fraction of m * 2^e below 1, as bits after the point from the first on, n of them. -/
def fracBits (m : Nat) (e : Int) (n : Nat) : List Bool :=
  (List.range n).map fun (i : Nat) =>
    let p : Int := -((i : Int) + 1) - e   -- position within m
    if p < 0 then false else m.testBit p.toNat

/-- 2^f for a fraction given by its bits: the product of the roots 2^(1/2), 2^(1/4), … at its ones. -/
def exp2Frac : List Bool → Nat → Nat → Nat
  | [], _, acc => acc
  | b :: bs, root, acc => exp2Frac bs (fxSqrt root) (if b then fxMul acc root else acc)

/-- Integer part of m * 2^e, and the same with the fraction turned round for a negative number. -/
def intPart (m : Nat) (e : Int) : Nat := if 0 ≤ e then m * 2 ^ e.toNat else m / 2 ^ (-e).toNat

/-- 2^a of a finite number, as a real to be rounded: for a negative number 2^(n + f) with f the rest above the floor. A
magnitude of 2^20 and more lies beyond every format. -/
def exp2Real (neg : Bool) (m : Nat) (e : Int) : XReal :=
  if m = 0 then .rat false 1 1 0
  else if decide (20 ≤ (Nat.log2 m : Int) + e) then (if neg then .rat false 1 1 (-5000) else .rat false 1 1 5000)
  else
    let ip := intPart m e
    let k := (-e).toNat
    let fr := if 0 ≤ e then 0 else m % 2 ^ k
    if fr = 0 then .rat false 1 1 (if neg then -(ip : Int) else ip)
    else
      let fr' := if neg then 2 ^ k - fr else fr
      let n : Int := if neg then -(ip : Int) - 1 else ip
      let v := exp2Frac (fracBits fr' (-(k : Int)) k) (fxSqrt (2 * fxOne)) fxOne
      .rat false (2 * v + 1) 1 (n - fxBits - 1)

/-- The first n bits of log2 of y in [1, 2): squares, halved when they reach 2. -/
def log2Bits : Nat → Nat → Nat → Nat
  | 0, _, acc => acc
  | n + 1, y, acc =>
    let z := fxMul y y
    if 2 * fxOne ≤ z then log2Bits n (z / 2) (2 * acc + 1) else log2Bits n z (2 * acc)

/-- log2 of a positive finite number. -/
def log2Real (m : Nat) (e : Int) : XReal :=
  let lg := Nat.log2 m
  let n : Int := (lg : Int) + e
  if m = 2 ^ lg then .rat (decide (n < 0)) n.natAbs 1 0
  else
    let y := if lg ≤ fxBits then m * 2 ^ (fxBits - lg) else m / 2 ^ (lg - fxBits)
    -- n + (acc + 1/2) / 2^256, with half of the last place as sticky
    let z : Int := n * (2 ^ 257 : Nat) + (2 * log2Bits 256 y 0 + 1 : Nat)
    XReal.ofInt z (-257) false

/-- cos and sin of π times a fraction below 1, by its bits: (c, s) of the angle at hand are halved each time, and multiplied
in where a bit is one. Signed numbers, since cos falls below 0 beyond a half. -/
def cosSin : List Bool → Int × Int → Int × Int → Int × Int
  | [], _, acc => acc
  | b :: bs, (c, s), (ac, as) =>
    let acc' : Int × Int := if b then ((ac * c - as * s) / (fxOne : Int), (as * c + ac * s) / (fxOne : Int)) else (ac, as)
    let half : Int × Int :=
      (((fxSqrt (((fxOne : Int) + c).toNat / 2) : Nat) : Int), ((fxSqrt (((fxOne : Int) - c).toNat / 2) : Nat) : Int))
    cosSin bs half acc'

/-- sin(πx) or cos(πx) for x = ip + fr / 2^k: the first bit's angle is π/2. -/
def piReal (cosine neg : Bool) (m : Nat) (e : Int) : XReal :=
  let ip := intPart m e
  let k := (-e).toNat
  let fr := if 0 ≤ e then 0 else m % 2 ^ k
  let odd := ip % 2 = 1
  if fr = 0 then
    if cosine then .rat odd 1 1 0 else .rat neg 0 1 0
  else if 2 * fr = 2 ^ k then
    if cosine then .rat false 0 1 0 else .rat (neg != odd) 1 1 0
  else
    let (c, s) := cosSin (fracBits fr (-(k : Int)) k) (0, fxOne) (fxOne, 0)
    if cosine then
      let z := if odd then -c else c
      XReal.ofInt (2 * z + (if 0 ≤ z then 1 else -1)) (-(fxBits : Int) - 1) false
    else
      let z := if odd then -s else s
      XReal.ofInt (2 * (if neg then -z else z) + (if (if neg then -z else z) < 0 then -1 else 1)) (-(fxBits : Int) - 1) false

/-- Exact or infinite result of one of the four functions, before rounding (R105): 0 FEXP2, 1 FLOG2, 2 FSINPI, 3 FCOSPI. -/
def transReal (fn : Nat) : FVal → XReal
  | .nan => .nan
  | .inf neg => if fn = 0 then (if neg then .rat false 0 1 0 else .inf false) else if fn = 1 then (if neg then .nan else .inf false) else .nan
  | .fin neg m e =>
    if fn = 0 then exp2Real neg m e
    else if fn = 1 then (if m = 0 then .inf true else if neg then .nan else log2Real m e)
    else piReal (fn = 3) neg m e

/-- The result in a format: rounded RNE in f16 and bf16; in f32 the exact value, or one of the two that bracket it by the fixed
choice of Config.upperOf (R105). Overflow gives +∞; a result of FEXP2 below the least normal number is rounded RNE, as R56 has
it (log 90). -/
def transBits (fn : Nat) (f : Fmt) (bits : Nat) : Nat :=
  let r := transReal fn (unpackF f bits)
  if f = fmtF32 then
    let lo := packF f .rdn false r
    let hi := packF f .rup false r
    if lo = hi then lo
    else if hi = f.infBits then hi
    else if fn = 0 && decide (lo < 2 ^ 23) then packF f .rne false r
    else if Config.upperOf (BitVec.ofNat 2 fn) (BitVec.ofNat 32 bits) then hi else lo
  else packF f .rne false r

end Sys2Proof.Machine
end

