-- ==== Sys2Proof/Machine/Flags.lean ====
section
/-! DEFINITION. Conditions and the aperture pair of a split (spec/06 R109, R111; spec/07 R133), elements of packed values (R54), and
the effect of an ALU word over its lanes (R94, R95). The TQ9-A has no status flags (R56): apertures hold every condition. -/

namespace Sys2Proof.Machine

/-- Integer condition; the two of codes 6 and 7 are no integer conditions (R109). -/
def condInt (c : Cond) (a b : Int) : Bool :=
  match c with
  | .eq => decide (a = b)
  | .ne => decide (a ≠ b)
  | .lt => decide (a < b)
  | .le => decide (a ≤ b)
  | .gt => decide (b < a)
  | .ge => decide (b ≤ a)
  | .ord | .uno => false

/-- Floating-point condition (R109). -/
def condFloat (c : Cond) (a b : FVal) : Bool :=
  let nan := isNan a || isNan b
  match c with
  | .eq => eqF a b
  | .ne => !eqF a b
  | .lt => ltF a b
  | .le => ltF a b || eqF a b
  | .gt => ltF b a
  | .ge => ltF b a || eqF a b
  | .ord => !nan
  | .uno => nan

/-- The split of G: the true part, all 32 bits written, then the false part, which lands last (R109). -/
def splitWrites (t f : ApReg) (g : LaneSet) (yes : LaneSet) : List RegVal := [.a t.toNat yes, .a f.toNat (g &&& ~~~ yes)]

-- elements of packed values (R54)

def elemBits : Ty → Nat
  | .f16x2 | .bf16x2 => 16
  | .e4m3x4 | .e5m2x4 | .i8x4 => 8
  | t => tyBits t
def elemCount (t : Ty) : Nat := if tyPacked t then 32 / elemBits t else 1
/-- Signedness of a type's elements. -/
def elemSigned (t : Ty) : Bool := tySigned t || t == .i8x4

/-- Element j of a value, by width. -/
def elemAt (bits : Nat) (x : Word) (j : Nat) : Nat := x.toNat / 2 ^ (bits * j) % 2 ^ bits
/-- A value of elements of a width, the first in the low bits. -/
def elemJoin (bits : Nat) : List Nat → Nat
  | [] => 0
  | x :: xs => x % 2 ^ bits + 2 ^ bits * elemJoin bits xs

/-- Apply a function to each element, or to the one element of a scalar type. -/
def elem1 (t : Ty) (f : Nat → Nat) (a : Word) : Word :=
  BitVec.ofNat 64 (elemJoin (elemBits t) ((upto (elemCount t)).map fun j => f (elemAt (elemBits t) a j)))
def elem2 (t : Ty) (f : Nat → Nat → Nat) (a b : Word) : Word :=
  BitVec.ofNat 64 (elemJoin (elemBits t) ((upto (elemCount t)).map fun j => f (elemAt (elemBits t) a j) (elemAt (elemBits t) b j)))
def elem3 (t : Ty) (f : Nat → Nat → Nat → Nat) (a b c : Word) : Word :=
  BitVec.ofNat 64 (elemJoin (elemBits t) ((upto (elemCount t)).map fun j =>
    f (elemAt (elemBits t) a j) (elemAt (elemBits t) b j) (elemAt (elemBits t) c j)))

/-- Integer operation on exact values, wrapped or saturated (R60, R99). -/
def int2 (t : Ty) (sat : Bool) (f : Int → Int → Int) : Word → Word → Word :=
  elem2 t fun x y => fitI sat (elemSigned t) (elemBits t)
    (f (toInt (elemSigned t) (elemBits t) x) (toInt (elemSigned t) (elemBits t) y))
def int1 (t : Ty) (sat : Bool) (f : Int → Int) : Word → Word :=
  elem1 t fun x => fitI sat (elemSigned t) (elemBits t) (f (toInt (elemSigned t) (elemBits t) x))
def int3 (t : Ty) (sat : Bool) (f : Int → Int → Int → Int) : Word → Word → Word → Word :=
  elem3 t fun x y z => fitI sat (elemSigned t) (elemBits t)
    (f (toInt (elemSigned t) (elemBits t) x) (toInt (elemSigned t) (elemBits t) y) (toInt (elemSigned t) (elemBits t) z))

/-- Floating-point operation rounded once in its mode (R56). -/
def float2 (t : Ty) (rm : Rnd) (f : FVal → FVal → XReal) : Word → Word → Word :=
  elem2 t fun x y => packF (fmtOf t) rm false (f (unpackF (fmtOf t) x) (unpackF (fmtOf t) y))
def float1 (t : Ty) (rm : Rnd) (f : FVal → XReal) : Word → Word :=
  elem1 t fun x => packF (fmtOf t) rm false (f (unpackF (fmtOf t) x))
def float3 (t : Ty) (rm : Rnd) (f : FVal → FVal → FVal → XReal) : Word → Word → Word → Word :=
  elem3 t fun x y z => packF (fmtOf t) rm false (f (unpackF (fmtOf t) x) (unpackF (fmtOf t) y) (unpackF (fmtOf t) z))

/-- The quotient and the remainder of R60: toward zero, all bits set and the dividend for a zero divisor. -/
def quotI (a b : Int) : Int := if b = 0 then -1 else a.tdiv b
def remI (a b : Int) : Int := if b = 0 then a else a.tmod b

-- the effect of an ALU word

/-- One result of type td for each lane of G, or one for the uniform form when the word executes (R94, R95). -/
def laneWrites (v : View) (u : Bool) (td : Ty) (d : VReg) (f : Nat → Word) : List RegVal :=
  if u then (if v.on then dst true td d 0 (f 0) else []) else (lanesOf v.g).flatMap fun l => dst false td d l (f l)

def alu1 (w : Alu1) (td : Ty) (lat : Nat) (op : Word → Word) (v : View) : Eff :=
  { lat, writes := laneWrites v w.u td w.d fun l => op (v.e.src w.u w.ty w.a l) }
/-- Two sources, the second of type tb. -/
def alu2 (w : Alu2) (tb : Ty) (lat : Nat) (op : Word → Word → Word) (v : View) : Eff :=
  { lat, writes := laneWrites v w.u w.ty w.d fun l => op (v.e.src w.u w.ty w.a l) (v.e.src w.u tb w.b l) }
def alu3 (w : Alu3) (tb : Ty) (op : Word → Word → Word → Word) (v : View) : Eff :=
  { writes := laneWrites v w.u w.ty w.d fun l =>
      op (v.e.src w.u w.ty w.a l) (v.e.src w.u tb w.b l) (v.e.src w.u tb w.c l) }

/-- An I-form word: v registers in a warp, k registers in the headspring (R95, R101). -/
def immWord (w : ImmW) (op : Word → Word) (v : View) : Eff :=
  { writes := laneWrites v (isHead v.x.ctx) w.ty w.d fun l => op (v.e.src (isHead v.x.ctx) w.ty w.a l) }

/-- The sign-extended immediate of the I form (R79). -/
def immInt (imm : BitVec 27) : Int := sext 27 imm.toNat
def immBits (imm : BitVec 27) : Word := BitVec.ofNat 64 (wrap 64 (immInt imm))

/-- Lowest lane of a set, or 32. -/
def lowestLane (g : LaneSet) : Nat := (lanesOf g).headD 32

end Sys2Proof.Machine
end

