-- ==== Sys2Proof/Machine/Fetch.lean ====
section
/-! DEFINITION. Clause headers and the frame of a clause (spec/05 R69 to R72), and the instruction that an executor issues next. -/

namespace Sys2Proof.Machine

def headerMark (h : Word) : Bool := fld h 58 6 == 0b101101
def headerClass (h : Word) : Nat := (fld h 55 3).toNat
def headerCount (h : Word) : Nat := (fld h 50 5).toNat
/-- A header that passes R70. -/
def headerOk (h : Word) : Bool := headerMark h && 1 ≤ headerCount h && headerCount h ≤ 24 && fld h 0 26 == 0

/-- Wait fields L, S, C, T, X of a header; 15 imposes nothing (R70). -/
def headerWaits (h : Word) : List (Cls × Nat) :=
  [(.l, (fld h 46 4).toNat), (.s, (fld h 42 4).toNat), (.c, (fld h 38 4).toNat), (.t, (fld h 34 4).toNat),
   (.x, (fld h 30 4).toNat)]

def isTransferOp (op : Nat) : Bool := 0x60 ≤ op && op ≤ 0x69

/-- Opcode ranges of the engine classes (R72). -/
def classRange (cls op : Nat) : Bool :=
  match cls with
  | 0 => 0x01 ≤ op && op ≤ 0x4C
  | 1 => 0x70 ≤ op && op ≤ 0x83
  | 2 => 0xB0 ≤ op && op ≤ 0xC8
  | 3 => 0xD0 ≤ op && op ≤ 0xE8
  | 4 => 0x50 ≤ op && op ≤ 0x6E
  | 5 => 0x90 ≤ op && op ≤ 0xAF
  | 6 => 0xF0 ≤ op && op ≤ 0xF7
  | _ => true

/-- Check that a clause fails, by its info code: 2 branch position, 3 literal, 4 class (R71, R225). DESIGN CHOICE (log 81): of several
failures that of the first word is named, and of one word's the position, then the literal, then the class. -/
def frameCheck (cls : Nat) : List Word → Option Nat
  | [] => none
  | w :: ws =>
    let op := opByte w
    if isTransferOp op && !ws.isEmpty then some 2
    else if op = 0x03 && ws.isEmpty then some 3
    else if !(classRange cls op || op = 0x6C || (isTransferOp op && ws.isEmpty)) then some 4
    else
      match ws with
      | [] => none
      | l :: ws' => if op = 0x03 then frameCheck cls ws' else frameCheck cls (l :: ws')

/-- Instructions of a clause in word order with their indices; a literal is not one (R80). -/
def instrsFrom : Nat → List Word → List (Nat × Except DecodeErr Instr)
  | _, [] => []
  | n, w :: ws =>
    match ws with
    | [] => [(n, decode w none)]
    | l :: ws' =>
      if isLForm w then (n, decode w (some l)) :: instrsFrom (n + 2) ws'
      else (n, decode w none) :: instrsFrom (n + 1) (l :: ws')

def clauseInstrs (c : Fetched) : List Instr :=
  (instrsFrom 0 c.words).filterMap fun p => match p.2 with | .ok i => some i | .error _ => none

/-- The newest clause of an executor, when its next word is due (R73). -/
def dueClause (s : State) (x : ExecId) : Option Clause :=
  match (s.exec x).bind (·.clauses.getLast?) with
  | none => none
  | some c => if c.next < c.code.words.length && c.due ≤ s.now x.core then some c else none

/-- What the executor's next word decodes to, when it is due. -/
def nextInstr (s : State) (x : ExecId) : Option (Except DecodeErr Instr) :=
  (dueClause s x).map fun c => decode (c.code.words.getD c.next 0) c.code.words[c.next + 1]?

/-- A launch for one warp of 32 lanes on a class E core: what withFetchWord places. -/
def probeLaunch : Launch :=
  { gen := 0, queue := 0, seq := 0, ctx := 0, ctxGen := 0, root := 0, headoff := 0, warpoff := 0, codeobj := 0, argptr := 0
    handler := 0, ctxbase := 0, rowcnt := 0, nwg := 1, gsize := 1, nwarps := 1, slots := 1, window := 256
    spsize := 0x80000, prio := 0, cls := 2, twin := false, clrw := false, wdkill := false, migrate := false, notify := false
    menu := [], menuSlot := 0, menuTwin := false, lanes := 32, est := 1, affinity := 1, wdog := 1, slotsF := List.replicate 8 0
    wait := 0, set := 0, allowF := false, allowE := true }

def noStamps (place : Nat) : Stamps :=
  { place, cin0 := none, cin1 := none, owait := none, cmp0 := none, cmp1 := none, cout0 := none, cout1 := none, restores := 0 }

/-- A workgroup with no executor yet (R39). -/
def Workgroup.fresh (l : Launch) (wgid code now : Nat) : Workgroup :=
  { launch := l, wgid, code, pools := [], tags := [], shapes := [], tokens := [], badPools := [], badShapes := [], tacqs := [], barriers := [], apply := none, applies := []
    worklist := none, copies := 0, copiesDone := [], wdogLeft := l.wdog * 4000, phase := .running, batch := []
    stamps := noStamps now, execs := [] }

/-- The context that runs placed words: home warp 0, or the headspring for words that only it accepts. -/
def probeCtx (ws : List Word) : Nat :=
  match decode (ws.getD 0 0) ws[1]? with
  | .ok i => if accepts 0 i then 0 else 40
  | .error _ => 0

/-- A state whose executor on core 0 has a fetched clause that begins with these words and issues its first one now. -/
def placeWords (s : State) (ws : List Word) : State :=
  let first := probeCtx ws
  let now := s.now 0
  let code : Fetched := { addr := 0, header := 0xB780_0000_0000_0000, words := ws }
  let c : Clause := { seq := s.fresh, code, next := 0, due := now, settled := now, undo := [], items := [], cause := none
                      target := none, takes := 0, gives := [], parts := none }
  let lanes : LaneSet := if first = 40 then 0 else lowLanes 32
  let e : Exec := { Exec.fresh lanes code.after now with clauses := [c], slot := some 0 }
  let w := (Workgroup.fresh probeLaunch 0 0 now).setExec first e
  { s.setWg 0 w with agenda := [.word ⟨0, first⟩], fresh := s.fresh + 1 }

end Sys2Proof.Machine
end

