-- ==== Sys2Proof/Machine/Release.lean ====
section
/-! DEFINITION. What the commit of a word can use: permanent registers, the release of an operation, tile tokens, event bits and
code reads (spec/03 R45 to R51, spec/05 R70 and R71, spec/10 R167, spec/12 R190, spec/20 R283, spec/21 R304). -/

namespace Sys2Proof.Machine

/-- The executor's registers as clauses up to seq left them: what later clauses wrote is taken back (R50). -/
def permanent (e : Exec) (seq : Nat) : Exec :=
  (e.clauses.filter fun c => decide (seq < c.seq)).reverse.foldl (fun e c => e.puts c.undo) e

/-- What an undo of any clause gives back in a cell that a committed operation has written (R51). -/
def noteUndo (cs : List Clause) (r : RegVal) : List Clause :=
  cs.map fun c => { c with undo := c.undo.map fun u => if u.key = r.key then r else u }
/-- A write to a register cell by a word that commits. -/
def putCommitted (e : Exec) (r : RegVal) : Exec := { e.putReal r with clauses := noteUndo e.clauses r }
/-- The data of a committed operation lands in a register cell in a field cycle (R49, R94, R147). -/
def landCell (now : Nat) (o : Op) (e : Exec) (r : RegVal) : Exec :=
  { e.write now (issueOrder o.seq o.item.idx) r true with clauses := noteUndo e.clauses r }

/-- Release an operation to its engine: it counts in its class (R47, R50). With no lanes it is a null operation. -/
def release (s : State) (x : ExecId) (c : Clause) (cls : Cls) (it : Item) (lanes : LaneSet) (due : List RegKey)
    (tag : Nat := 0) : State :=
  let o : Op := { id := s.fresh, cls, item := it, clause := c.code.addr, seq := c.seq, performed := decide (lanes = 0), lanes, low := 0, high := 0, due
                  vals := [], tag, poison := none, failed := false, sent := false, got := [] }
  { s with fresh := s.fresh + 1 }.updExec x fun e => addCounter { e with ops := e.ops ++ [o] } cls 1

/-- A cause of a word that its commit raises. -/
def itemCause (x : ExecId) (it : Item) (code : Nat) (info : Nat := 0) (faddr : Nat := 0) : Bad :=
  .cause { code, info, faddr, tmask := if isHead x.ctx then 0 else it.g, word := it.idx }

-- tile tokens (R45, R190)

def tokenOf (w : Workgroup) (t : Nat) : Nat := mapGet 0 w.tokens t
/-- Give the token of a tile to the oldest waiting TACQ, or leave it free. DESIGN CHOICE (log 81): that TACQ awaits the commands on the tile
that were committed before its own commit, not those that the old holder committed after it. -/
def passToken (w : Workgroup) (t : Nat) : Workgroup :=
  match w.tacqs.find? (·.2 = t) with
  | none => { w with tokens := mapPut 0 t 0 w.tokens }
  | some q =>
    let w1 := { w with tokens := mapPut 0 t (q.1 + 1) w.tokens, tacqs := w.tacqs.erase q }
    match w1.exec q.1 with
    | none => w1
    | some e =>
      w1.setExec q.1 { e with waits := e.waits.map fun wt => match wt with
        | .tacq tile _ below => if tile = t then .tacq tile true below else wt
        | _ => wt }
/-- Tokens of an executor return at its EXIT. -/
def dropTokens (w : Workgroup) (ctx : Nat) : Workgroup :=
  (upto 4).foldl (fun w t => if tokenOf w t = ctx + 1 then passToken w t else w) w

-- event bits (R167, R243)

def eventsOf (s : State) (cluster : Nat) : BitVec 256 := mapGet 0 s.events cluster
def setEvents (s : State) (cluster : Nat) (b : BitVec 256) : State := { s with events := mapPut 0 cluster b s.events }

/-- Does an update of a cluster's bits satisfy a wait? -/
def eventMet (bits mask : BitVec 256) (any : Bool) : Bool := if any then bits &&& mask ≠ 0 else bits &&& mask = mask

/-- An executor that waits in EVWAIT. -/
structure Waiter where
  x : ExecId
  mask : BitVec 256
  any : Bool
  clr : Bool
  order : Nat
  wait : Wait
  deriving DecidableEq, Repr

/-- Put a waiter among others of its core, in the order of the commits. -/
def insertWaiter (w : Waiter) : List Waiter → List Waiter
  | [] => [w]
  | v :: vs => if w.order < v.order then w :: v :: vs else v :: insertWaiter w vs

/-- The waiters of a cluster in serial order: by core, and of one core in the order of their commits (R167). -/
def eventWaiters (s : State) (cluster : Nat) : List Waiter :=
  (s.busy.filter fun p => clusterOf p.1 = cluster).flatMap fun p =>
    (p.2.all.flatMap fun q => q.2.waits.filterMap fun w => match w with
      | .event mask any clr _ order => if goneKey q.2 order then none else some { x := ⟨p.1, q.1⟩, mask, any, clr, order, wait := w }
      | _ => none).foldr insertWaiter []

/-- Releases of the EVSETs that set bits of a mask, no clear of the bit between (R252). -/
def eventRelsOf (s : State) (cluster : Nat) (mask : BitVec 256) : List Rel :=
  (s.eventRels.filter fun r => r.cluster = cluster && r.bits &&& mask ≠ 0).map (·.rel)
/-- Bits of a cluster are cleared. -/
def clearEvents (s : State) (cluster : Nat) (mask : BitVec 256) : State :=
  { setEvents s cluster (eventsOf s cluster &&& ~~~ mask) with
    eventRels := (s.eventRels.map fun r => if r.cluster = cluster then { r with bits := r.bits &&& ~~~ mask } else r).filter (·.bits ≠ 0) }

/-- A word that has committed makes its executor wait; the words of one clause may begin several waits (log 21). -/
def Exec.await (e : Exec) (w : Wait) : Exec := { e with waits := e.waits ++ [w] }
/-- End a wait: the executor's next clause may issue in the cycle after, once no other wait is left. -/
def endWait (s : State) (x : ExecId) (w : Wait) : State :=
  s.updExec x fun e => { e with waits := e.waits.erase w, readyAt := max e.readyAt (s.now x.core + 1) }
/-- An acquire that pairs with releases: the executor's later accesses wait for them (R251, R252). -/
def acquireFrom (s : State) (x : ExecId) (scope : Scope) (on : List Rel) : State :=
  s.updExec x fun e => { e with holds := e.holds ++ [{ start := s.fresh, key := none, on, scope }] }
/-- A word whose acquire comes when its wait ends: the accesses that follow the word are held until then. -/
def holdOn (s : State) (x : ExecId) (scope : Scope) (key : Nat) : State :=
  s.updExec x fun e => { e with holds := e.holds ++ [{ start := s.fresh, key := some key, on := [], scope }] }
/-- The wait of a hold has ended, and pairs with releases. -/
def endHold (s : State) (x : ExecId) (key : Nat) (on : List Rel) : State :=
  s.updExec x fun e => { e with holds := e.holds.map fun h => if h.key = some key then { h with key := none, on } else h }
/-- The wait of a hold has ended without an acquire. -/
def dropHold (s : State) (x : ExecId) (key : Nat) : State := s.updExec x fun e => { e with holds := e.holds.filter (·.key ≠ some key) }

/-- The first wait equal to one becomes another. -/
def replaceFirst (w w' : Wait) : List Wait → List Wait
  | [] => []
  | v :: vs => if v = w then w' :: vs else v :: replaceFirst w w' vs

/-- Serve the waiters that an update satisfies, in serial order: each that clears does so before the next is looked at (R167). A wait that
ends is an acquire. -/
def serveWaiters : List Waiter → State → Nat → State
  | [], s, _ => s
  | w :: ws, s, cluster =>
    if eventMet (eventsOf s cluster) w.mask w.any then
      let s1 := endHold (endWait s w.x w.wait) w.x w.order (eventRelsOf s cluster w.mask)
      serveWaiters ws (if w.clr then clearEvents s1 cluster w.mask else s1) cluster
    else serveWaiters ws s cluster

/-- Sleepers that a rise of an event bit of their cluster wakes: SLEEP, and WAITA with cause 3 (R155, R234). -/
def wakeRise (s : State) (cluster : Nat) : State :=
  let ws := (s.busy.filter fun p => clusterOf p.1 = cluster).flatMap fun p => p.2.all.flatMap fun q =>
    q.2.waits.map fun w => (ExecId.mk p.1 q.1, w)
  ws.foldl (fun s p => match p.2 with
    | .sleep _ => endWait s p.1 p.2
    | .waita _ _ _ _ _ _ _ => wakeWaita s p.1 (fun _ _ => true) 3
    | _ => s) s

/-- One update of a cluster's event bits: set, then clear, in serial order with every other (R167). -/
def updateEvents (s : State) (cluster : Nat) (set clr : BitVec 256) (rel : Option Rel := none) : State :=
  let old := eventsOf s cluster
  let new := (old ||| set) &&& ~~~ clr
  let s0 := match rel with
    | some rel => { s with eventRels := s.eventRels ++ [{ cluster, bits := set, rel }] }
    | none => s
  let s1 := clearEvents (setEvents s0 cluster (old ||| set)) cluster clr
  let s2 := if new &&& ~~~ old ≠ 0 then wakeRise s1 cluster else s1
  serveWaiters (eventWaiters s2 cluster) s2 cluster

-- turns of a cycle (R167, R172, R243)

/-- Place of an executor's commits in a cycle: ascending core, home warps, apply slots, the headspring. -/
def turnOf (core ctx : Nat) : Nat := core * 64 + ctx
/-- Updates that no core issues come last. -/
def lastTurn : Nat := 2 ^ 20
/-- May a commit or an event update of a place still fall in this cycle of its cluster? -/
def turnFree (s : State) (cluster turn : Nat) : Bool :=
  match mapGet none s.turns cluster with
  | some (cycle, last) => cycle ≠ (s.field (fieldOfCluster cluster)).count || last ≤ turn
  | none => true
def takeTurn (s : State) (cluster turn : Nat) : State :=
  { s with turns := mapPut none cluster (some ((s.field (fieldOfCluster cluster)).count, turn)) s.turns }
/-- Has a clause of the cluster committed in this cycle? -/
def turnTaken (s : State) (cluster : Nat) : Bool :=
  match mapGet none s.turns cluster with
  | some (cycle, _) => cycle = (s.field (fieldOfCluster cluster)).count
  | none => false

/-- Executors on the cores. -/
def executors (s : State) : List (ExecId × Exec) := s.busy.flatMap fun p => p.2.all.map fun q => (⟨p.1, q.1⟩, q.2)

-- code (R69, R71, R283, R295, R304)

def codeKey (ctx addr : Nat) : Nat := ctx * 2 ^ 54 + addr / 8

/-- Check that code at an address can be fetched: a translated page that is executable, of this device or of a permitted endpoint (R283,
R295). A transfer's check of its target leaves ex to the target's own fetch (R69, R71). An address beyond the address space holds no
header (R71). -/
def codePage (s : State) (x : ExecId) (l : Launch) (addr : Nat) (ex : Bool := true) : Except Bad (Xlate × State) :=
  if 2 ^ 57 < addr + 8 then .error (.cause { code := 0x04, info := 1, tmask := 0, faddr := 0, word := 31 })
  else
    match coreLookup s x.core l.ctx l.root addr with
    | (.miss m, _) => .error (.miss [{ page := addr / 4096, malformed := m, fetch := true, write := false, read := false }])
    | (.ok xl, s1) =>
      if (ex && !xl.ex) || xl.remote.elim false (fun r => !permitted s r.1) then
        .error (.cause { code := 0x07, info := 0, tmask := 0, faddr := addr, word := 31 })
      else .ok (xl, s1)

/-- A clause's words as the fetch buffers hold them. -/
def buffered (s : State) (core ctx addr : Nat) : Option (List Word) := mapGet none (s.core core).code (codeKey ctx addr)

/-- A code word at its home, of this device or of another endpoint (R295). Of an endpoint a clause's bytes come in one message, as far as one
page holds them. -/
def readCode (s : State) (x : ExecId) (l : Launch) (addr : Nat) (ex : Bool := true) : Except Bad (Word × State) := do
  let (xl, s1) ← codePage s x l addr ex
  let pa := xl.pfn * 4096 + addr % 4096
  match xl.remote with
  | none => .ok (BitVec.ofNat 64 (readNat s1.mem pa 8), s1)
  | some (ep, _) => match (s1.exec x).bind (farBytes · addr 8) with
    | some bs =>
      -- an error that the endpoint reported keeps the clause from running (R336)
      if ((s1.exec x).map Exec.far).elim false (·.any fun g => g.bad ≠ 0) then .error .wait else .ok (BitVec.ofNat 64 (leNat bs), s1)
    | none => .error (.far ep pa addr (min 200 (4096 - addr % 4096)))

/-- The header that a transfer's target holds: of a buffered copy, or at its home (R71, R233, R304). -/
def readHeader (s : State) (x : ExecId) (l : Launch) (addr : Nat) : Except Bad (Word × State) :=
  match buffered s x.core l.ctx addr with
  | some (h :: _) => do
    let (_, s1) ← codePage s x l addr false
    .ok (h, s1)
  | _ => readCode s x l addr false

/-- Does an address lie at an endpoint that is not permitted? What a fetch there finds is the fetched clause's fault (R69, R283). -/
def farForbidden (s : State) (x : ExecId) (l : Launch) (addr : Nat) : Bool :=
  match (coreLookup s x.core l.ctx l.root addr).1 with
  | .ok xl => xl.remote.elim false fun r => !permitted s r.1
  | .miss _ => false

/-- A transfer's target: 8-byte aligned, a valid header (R71); info 5. That the target may not be executed, or lies where nothing may be
fetched, is its own clause's fault (R69, R283; log 38). -/
def checkTarget (s : State) (x : ExecId) (l : Launch) (it : Nat → Bad) (target : Nat) : Except Bad State :=
  if target % 8 ≠ 0 || 2 ^ 57 < target + 8 then .error (it 5)
  else if farForbidden s x l target then .ok s
  else do
    let (h, s1) ← readHeader s x l target
    if headerOk h then .ok s1 else .error (it 5)

/-- The entry tag before a function's first header (R135): its budget; info 6. -/
def entryBudget (s : State) (x : ExecId) (l : Launch) (it : Nat → Bad) (target : Nat) : Except Bad (Nat × State) := do
  let (t, s1) ← readCode s x l (target - 8) false
  let budget := (fld t 0 9).toNat
  if fld t 58 6 == 0b110011 && fld t 9 49 == 0 && 16 ≤ budget && budget ≤ 256 && budget % 16 = 0 then .ok (budget, s1)
  else .error (it 6)

end Sys2Proof.Machine
end

