-- ==== Sys2Proof/Machine/Memory.lean ====
section
/-! DEFINITION. Loads, stores, waits, fences and cache words as they issue (spec/08 R140 to R155), and the ranges that a memory or
atomic word touches. -/

namespace Sys2Proof.Machine

/-- Is the word one of the 16-byte forms (R140)? -/
def isWide : Instr → Bool
  | .ldx _ | .stx _ | .ldsx _ | .stsx _ => true
  | _ => false

/-- The M-form fields of a per-lane load or store, with its space. -/
def memFields : Instr → Option (MemW × Space)
  | .ld w | .st w | .ldx w | .stx w | .lda w | .stl w => some (w, .gl)
  | .lds w | .sts w | .ldsx w | .stsx w => some (w, .sp)
  | .ldv w | .stv w => some (w, .vt)
  | _ => none
def atomFields : Instr → Option (AtomW × Space)
  | .atom w | .atomn w => some (w, .gl)
  | .atoms w => some (w, .sp)
  | .atomv w => some (w, .vt)
  | _ => none
def casFields : Instr → Option (CasW × Space)
  | .cas w => some (w, .gl)
  | .cass w => some (w, .sp)
  | .casv w => some (w, .vt)
  | _ => none

/-- Element size of a load or store in bytes (R142). -/
def memSize (i : Instr) (w : MemW) : Nat := if isWide i then 16 else tyBytes w.ty

/-- Effective addresses of the lanes of G; 0 elsewhere (R143). -/
def laneAddrs (v : View) (a : KReg) (esize : Nat) (idx : Index) (off : Int) : List Word :=
  (upto 32).map fun l => if v.g.getLsbD l then BitVec.ofNat 64 (effAddr v.e a esize idx off l) else 0

/-- Cells that the value of a load in one lane fills (R142). -/
def loadCells (wide : Bool) (ty : Ty) (d : VReg) (l : Nat) (n : Nat) : List RegVal :=
  if wide then (upto 4).map fun j => .v (d.toNat + j) l (BitVec.ofNat 32 (n / 2 ^ (32 * j)))
  else dst false ty d l (BitVec.ofNat 64 n)

/-- The data registers of a store over the lanes, read at issue (R142). -/
def dataRows (v : View) (wide : Bool) (ty : Ty) (d : VReg) : List (List Lane) := (memRegs wide ty d).map v.e.vrow

/-- One lane's stored value, from the rows of its data registers. -/
def rowValue (rows : List (List Lane)) (l : Nat) : Nat :=
  rows.foldr (fun r acc => (r.getD l 0).toNat + 2 ^ 32 * acc) 0

def memOff (w : MemW) : Int := sext 9 w.off.toNat

def loadEff (i : Instr) (w : MemW) (space : Space) (v : View) : Eff :=
  let size := memSize i w
  let addrs := laneAddrs v w.a size w.idx (memOff w)
  { item := some (addrs, [])
    loads := (lanesOf v.g).map fun l =>
      { acc := { lane := l, space, addr := (addrs.getD l 0).toNat, len := size, align := size, rd := true, wr := false, remote := true
                 named := (addrs.getD l 0).toNat }
        scope := w.scope, nt := w.nt, cells := loadCells (isWide i) w.ty w.d l } }
def storeEff (i : Instr) (w : MemW) (v : View) : Eff :=
  { item := some (laneAddrs v w.a (memSize i w) w.idx (memOff w), dataRows v (isWide i) w.ty w.d) }

def execLd (w : MemW) (s : State) : Host.Outcome State Fault Refusal := issueWord (.ld w) w.ctl (loadEff (.ld w) w .gl) s
def execLdx (w : MemW) (s : State) : Host.Outcome State Fault Refusal := issueWord (.ldx w) w.ctl (loadEff (.ldx w) w .gl) s
def execLds (w : MemW) (s : State) : Host.Outcome State Fault Refusal := issueWord (.lds w) w.ctl (loadEff (.lds w) w .sp) s
def execLdsx (w : MemW) (s : State) : Host.Outcome State Fault Refusal := issueWord (.ldsx w) w.ctl (loadEff (.ldsx w) w .sp) s
def execLdv (w : MemW) (s : State) : Host.Outcome State Fault Refusal := issueWord (.ldv w) w.ctl (loadEff (.ldv w) w .vt) s
def execLda (w : MemW) (s : State) : Host.Outcome State Fault Refusal := issueWord (.lda w) w.ctl (loadEff (.lda w) w .gl) s
def execSt (w : MemW) (s : State) : Host.Outcome State Fault Refusal := issueWord (.st w) w.ctl (storeEff (.st w) w) s
def execStx (w : MemW) (s : State) : Host.Outcome State Fault Refusal := issueWord (.stx w) w.ctl (storeEff (.stx w) w) s
def execSts (w : MemW) (s : State) : Host.Outcome State Fault Refusal := issueWord (.sts w) w.ctl (storeEff (.sts w) w) s
def execStsx (w : MemW) (s : State) : Host.Outcome State Fault Refusal := issueWord (.stsx w) w.ctl (storeEff (.stsx w) w) s
def execStv (w : MemW) (s : State) : Host.Outcome State Fault Refusal := issueWord (.stv w) w.ctl (storeEff (.stv w) w) s
def execStl (w : MemW) (s : State) : Host.Outcome State Fault Refusal := issueWord (.stl w) w.ctl (storeEff (.stl w) w) s

/-- Address of LDK, STK and WAITA (R143). -/
def uAddr (k : Word) (esize : Nat) (off : BitVec 9) : Word := BitVec.ofNat 64 (uniAddr k esize (sext 9 off.toNat))

/-- The cell that LDK fills (R95, R142). -/
def ldkCells (ty : Ty) (d : KReg) (n : Nat) : List RegVal := [.k d.toNat (BitVec.ofNat 64 (extendTo 64 ty (BitVec.ofNat 64 n)))]
def execLdk (w : UmemW) (s : State) : Host.Outcome State Fault Refusal :=
  issueWord (.ldk w) w.ctl (fun v =>
    let addr := uAddr (v.e.rk w.a.toNat) (tyBytes w.ty) w.off
    { item := some ([addr], [])
      loads := if v.on then
          [{ acc := { lane := 32, space := w.sp, addr := addr.toNat, len := tyBytes w.ty, align := tyBytes w.ty, rd := true
                      wr := false, remote := true, named := addr.toNat }
             scope := w.scope, nt := w.nt, cells := ldkCells w.ty w.d }]
        else [] }) s
def execStk (w : UmemW) (s : State) : Host.Outcome State Fault Refusal :=
  issueWord (.stk w) w.ctl (fun v =>
    { item := some ([uAddr (v.e.rk w.a.toNat) (tyBytes w.ty) w.off, v.e.rk w.d.toNat], []) }) s

/-- WAITA: the address and k[b]; with G empty nothing (R155). -/
def execWaita (w : WaitaW) (s : State) : Host.Outcome State Fault Refusal :=
  issueWord (.waita w) w.ctl (fun v =>
    if v.on then { item := some ([uAddr (v.e.rk w.a.toNat) 4 w.off, v.e.rk w.b.toNat], []) } else {}) s

def execPref (w : PrefW) (s : State) : Host.Outcome State Fault Refusal :=
  issueWord (.pref w) w.ctl (fun v => { item := some (laneAddrs v w.a (tyBytes w.ty) w.idx (sext 9 w.off.toNat), []) }) s

/-- Are WAIT's thresholds met (R154)? -/
def waitMet (w : WaitW) (e : Exec) : Bool :=
  e.cL ≤ w.l.toNat && e.cS ≤ w.s.toNat && e.cC ≤ w.c.toNat && e.cT ≤ w.t.toNat && e.cX ≤ w.x.toNat

/-- In the run-ahead a WAIT is met once the shadow's own loads have returned, which they have at their issue (R286). -/
def execWait (w : WaitW) (s : State) : Host.Outcome State Fault Refusal :=
  issueWord (.wait w) w.ctl (fun v => { hold := v.on && v.e.shadow.isNone && !waitMet w v.e }) s

def execFence (w : FenceW) (s : State) : Host.Outcome State Fault Refusal :=
  issueWord (.fence w) w.ctl (fun v => if v.on then { item := some ([], []) } else {}) s

def rangeItem (v : View) (a b : KReg) : Eff := { item := some ([v.e.rk a.toNat, v.e.rk b.toNat], []) }
def execCwb (w : CacheW) (s : State) : Host.Outcome State Fault Refusal := issueWord (.cwb w) w.ctl (rangeItem · w.a w.b) s
def execCinv (w : CacheW) (s : State) : Host.Outcome State Fault Refusal := issueWord (.cinv w) w.ctl (rangeItem · w.a w.b) s

-- atomics (R159 to R162)

def atomOff (off : BitVec 5) : Int := sext 5 off.toNat
def atomEff (w : AtomW) (v : View) : Eff :=
  { item := some (laneAddrs v w.a (tyBytes w.ty) w.idx (atomOff w.off), dataRows v false w.ty w.d) }
def casEff (w : CasW) (v : View) : Eff :=
  { item := some (laneAddrs v w.a (tyBytes w.ty) w.idx (atomOff w.off), (casRegs w).map v.e.vrow) }

def execAtom (w : AtomW) (s : State) : Host.Outcome State Fault Refusal := issueWord (.atom w) w.ctl (atomEff w) s
def execAtomn (w : AtomW) (s : State) : Host.Outcome State Fault Refusal := issueWord (.atomn w) w.ctl (atomEff w) s
def execAtoms (w : AtomW) (s : State) : Host.Outcome State Fault Refusal := issueWord (.atoms w) w.ctl (atomEff w) s
def execAtomv (w : AtomW) (s : State) : Host.Outcome State Fault Refusal := issueWord (.atomv w) w.ctl (atomEff w) s
def execCas (w : CasW) (s : State) : Host.Outcome State Fault Refusal := issueWord (.cas w) w.ctl (casEff w) s
def execCass (w : CasW) (s : State) : Host.Outcome State Fault Refusal := issueWord (.cass w) w.ctl (casEff w) s
def execCasv (w : CasW) (s : State) : Host.Outcome State Fault Refusal := issueWord (.casv w) w.ctl (casEff w) s

-- the ranges of a word

def laneAcc (it : Item) (space : Space) (size : Nat) (rd wr remote : Bool) : List Acc :=
  (lanesOf it.g).map fun l =>
    { lane := l, space, addr := (it.kv.getD l 0).toNat, len := size, align := size, rd, wr, remote, named := (it.kv.getD l 0).toNat }
def uniAcc (it : Item) (space : Space) (size align : Nat) (rd wr remote : Bool) : List Acc :=
  [{ lane := 32, space, addr := (it.kv.getD 0 0).toNat, len := size, align, rd, wr, remote, named := (it.kv.getD 0 0).toNat }]

/-- A pool record's parts, one for each page that it lies in (R122): lanes 32 and 33. -/
def recordAcc (it : Item) (space : Space) (rd wr : Bool) : List Acc :=
  let addr := (it.kv.getD 0 0).toNat
  let first := min 144 (4096 - addr % 4096)
  let part (lane o n : Nat) : Acc := { lane, space, addr := addr + o, len := n, align := 16, rd, wr, remote := true, named := addr }
  part 32 0 first :: (if first < 144 then [part 33 first (144 - first)] else [])

/-- The ranges that a load, store or atomic touches, by lane (R140 to R144, R159 to R163). A global atomic reaches a remote
window with scope 6 alone. -/
def accsOf (it : Item) : List Acc :=
  match it.instr with
  | .ld w | .ldx w | .lda w => laneAcc it .gl (memSize it.instr w) true false true
  | .lds w | .ldsx w => laneAcc it .sp (memSize it.instr w) true false true
  | .ldv w => laneAcc it .vt (memSize it.instr w) true false true
  | .st w | .stx w | .stl w => laneAcc it .gl (memSize it.instr w) false true true
  | .sts w | .stsx w => laneAcc it .sp (memSize it.instr w) false true true
  | .stv w => laneAcc it .vt (memSize it.instr w) false true true
  | .ldk w => if it.on then uniAcc it w.sp (tyBytes w.ty) (tyBytes w.ty) true false true else []
  | .stk w => if it.on then uniAcc it w.sp (tyBytes w.ty) (tyBytes w.ty) false true true else []
  | .waita w => uniAcc it w.sp 4 4 true false true
  | .pld w => if it.on then recordAcc it w.sp true false else []
  | .pst w => if it.on then recordAcc it w.sp false true else []
  | .atom w | .atomn w => laneAcc it .gl (tyBytes w.ty) true true (w.scope == .system)
  | .atoms w => laneAcc it .sp (tyBytes w.ty) true true true
  | .atomv w => laneAcc it .vt (tyBytes w.ty) true true true
  | .cas w => laneAcc it .gl (tyBytes w.ty) true true (w.scope == .system)
  | .cass w => laneAcc it .sp (tyBytes w.ty) true true true
  | .casv w => laneAcc it .vt (tyBytes w.ty) true true true
  | _ => []

/-- The register cells that a load or atomic fills when its data lands. -/
def dueCells (it : Item) : List RegKey :=
  match it.instr with
  | .ld w | .ldx w | .lds w | .ldsx w | .ldv w | .lda w =>
    (lanesOf it.g).flatMap fun l => (loadCells (isWide it.instr) w.ty w.d l 0).map RegVal.key
  | .ldk w => if it.on then [.k w.d.toNat] else []
  | .atom w | .atoms w | .atomv w => (lanesOf it.g).flatMap fun l => (dst false w.ty w.d l 0).map RegVal.key
  | .cas w | .cass w | .casv w => (lanesOf it.g).flatMap fun l => (dst false w.ty w.d l 0).map RegVal.key
  | _ => []

/-- Number of a range's lane in an operation's lane set: the uniform access is lane 0 of it. -/
def accLane (a : Acc) : Nat := if 32 ≤ a.lane then a.lane - 32 else a.lane

/-- Commit of a load, store or atomic: its checks, then its release (R50, R145). A store or atomic carries the scope of the
release before it, if that was a FENCE, and an STL its own, for narrow releases (R256). -/
def commitAccess (s : State) (x : ExecId) (c : Clause) (it : Item) (cls : Cls) : Except Bad State :=
  match s.wg x.core with
  | none => .ok s
  | some w => do
    let (xl, s1) ← checkAccs s x w it.g it.idx (accsOf it)
    let narrow := match it.instr with
      | .stl w => some w.scope
      | _ => (s1.exec x).bind (·.relScope)
    .ok (release s1 x c cls { it with xl } (if it.on then laneSet ((accsOf it).map accLane) else 0) (dueCells it)
      (match narrow with | none => 0 | some sc => scopeNum sc + 1))

end Sys2Proof.Machine
end

