-- ==== Sys2Proof/Machine/Sets.lean ====
section
/-! DEFINITION. Pools, parking and applies as words issue and commit (spec/07 R116 to R128). -/

namespace Sys2Proof.Machine

-- slices (R118)

def sliceOf (b : BitVec 1024) (w : Nat) : LaneSet := b.extractLsb' (32 * w) 32
/-- Bits of the numbers in a list. -/
def bitsOf (ns : List Nat) : BitVec 1024 := ns.foldl (fun b i => b ||| ((1 : BitVec 1024) <<< i)) 0
def bitNumbers (b : BitVec 1024) : List Nat := (upto 1024).filter b.getLsbD

/-- Home bits of the lanes of an executor: its slice, or the origins of the lanes packed into a slot. -/
def homeBit (ctx : Nat) (e : Exec) (l : Nat) : Nat := if isSlot ctx then mapGet 0 e.origin l else 32 * ctx + l
/-- Lanes that own a home bit: all 32 of a home warp's slice, the packed ones of a slot. -/
def bitLanes (ctx : Nat) (e : Exec) : List Nat := if isSlot ctx then lanesOf e.base else upto 32

/-- PDEP: the home bits of the executor's lanes become the set; other bits stay (R118). -/
def pdepBits (ctx : Nat) (e : Exec) (p : BitVec 1024) (set : LaneSet) : BitVec 1024 :=
  (p &&& ~~~ bitsOf ((bitLanes ctx e).map (homeBit ctx e))) |||
    bitsOf (((bitLanes ctx e).filter set.getLsbD).map (homeBit ctx e))
/-- PEXT: the lanes whose home bit is set (R118). -/
def pextBits (ctx : Nat) (e : Exec) (p : BitVec 1024) : LaneSet :=
  laneSet ((bitLanes ctx e).filter fun l => p.getLsbD (homeBit ctx e l))

def poolBits (fn : PoolFn) (a b : BitVec 1024) : BitVec 1024 :=
  match fn with | .or => a ||| b | .and => a &&& b | .andn => a &&& ~~~ b | .xor => a ^^^ b

/-- a0 as committed clauses left it: a transfer of a clause that has not committed does not count (R50). -/
def permanentA0 (e : Exec) : LaneSet := ((e.clauses.findSome? (·.parts)).map (·.a0)).getD e.a0
/-- The pool of every launched warp's a0 (R43, R118). -/
def fillBits (w : Workgroup) : BitVec 1024 :=
  bitsOf ((w.all.filter fun p => isHome p.1).flatMap fun p => (lanesOf (permanentA0 p.2)).map (32 * p.1 + ·))
/-- An item with what a word captures, when the word executes. -/
def captured (v : View) (kv : List Word) : Eff := if v.on then { item := some (kv, []) } else {}

def execPdep (w : PdepW) (s : State) : Host.Outcome State Fault Refusal :=
  issueWord (.pdep w) w.ctl (fun v => captured v [(v.e.ra w.ae.toNat &&& v.e.ra0).setWidth 64]) s
def execPext (w : PextW) (s : State) : Host.Outcome State Fault Refusal :=
  issueWord (.pext w) w.ctl (fun v =>
    { writes := if v.on then [.a w.ad.toNat (pextBits v.x.ctx v.e (poolOf v.w w.pa.toNat))] else [] }) s
def execPoolop (w : PoolopW) (s : State) : Host.Outcome State Fault Refusal :=
  issueWord (.poolop w) w.ctl (captured · []) s
/-- PCNT and PFIRST read the pool whole at their issue (R118). -/
def execPcnt (w : PkW) (s : State) : Host.Outcome State Fault Refusal :=
  issueWord (.pcnt w) w.ctl (fun v =>
    { writes := if v.on then [.k w.kd.toNat (BitVec.ofNat 64 (bitNumbers (poolOf v.w w.pa.toNat)).length)] else [] }) s
def execPfirst (w : PkW) (s : State) : Host.Outcome State Fault Refusal :=
  issueWord (.pfirst w) w.ctl (fun v =>
    { writes := if v.on then [.k w.kd.toNat (BitVec.ofNat 64 ((bitNumbers (poolOf v.w w.pa.toNat)).headD 1024))] else [] }) s
def execPclr (w : PdW) (s : State) : Host.Outcome State Fault Refusal := issueWord (.pclr w) w.ctl (captured · []) s
def execPfill (w : PdW) (s : State) : Host.Outcome State Fault Refusal := issueWord (.pfill w) w.ctl (captured · []) s

/-- Address of a pool record (R122). -/
def recordAddr (v : View) (w : PmemW) : Word := BitVec.ofNat 64 (wrap 64 ((v.e.rk w.kB.toNat).toNat + 16 * sext 17 w.off.toNat))
def execPst (w : PmemW) (s : State) : Host.Outcome State Fault Refusal :=
  issueWord (.pst w) w.ctl (fun v => { item := some ([recordAddr v w], []) }) s
/-- The accesses of PLD in the run-ahead, which drops its pool effect (R286). -/
def recordLoads (v : View) (w : PmemW) : List ShadowLoad :=
  if v.on then (upto 9).map fun j =>
    { acc := { lane := 32, space := w.sp, addr := (recordAddr v w).toNat + 16 * j, len := 16, align := 16, rd := true, wr := false, remote := true
               named := (recordAddr v w).toNat }
      scope := w.scope, nt := false, cells := fun _ => [] }
  else []
def execPld (w : PmemW) (s : State) : Host.Outcome State Fault Refusal :=
  issueWord (.pld w) w.ctl (fun v => { item := some ([recordAddr v w], []), loads := recordLoads v w }) s

def execApply (w : ApplyW) (s : State) : Host.Outcome State Fault Refusal :=
  issueWord (.apply w) w.ctl (fun v => captured v [v.e.rk w.kt.toNat]) s
def execApplyw (w : ApplywW) (s : State) : Host.Outcome State Fault Refusal :=
  issueWord (.applyw w) w.ctl (fun v => captured v [v.e.rk w.kt.toNat]) s
def execYieldh (w : Ctl) (s : State) : Host.Outcome State Fault Refusal := issueWord (.yieldh w) w (captured · []) s
def execRelease (w : ReleaseW) (s : State) : Host.Outcome State Fault Refusal := issueWord (.release w) w.ctl (captured · []) s

-- commits

/-- Pool effects, each one indivisible step (R43, R118, R119); PDEP writes the units whole whose bits it all names (R337). -/
def commitPool (w : Workgroup) (x : ExecId) (it : Item) : Workgroup :=
  match w.exec x.ctx, it.instr with
  | some e, .pdep i =>
    let mine := (bitLanes x.ctx e).map (homeBit x.ctx e)
    let whole (u : Nat) : Bool := u / 32 = i.pd.toNat && (span (32 * (u % 32)) 32).all mine.contains
    { setPool w i.pd.toNat (pdepBits x.ctx e (poolOf w i.pd.toNat) ((it.kv.getD 0 0).setWidth 32)) with
      badPools := w.badPools.filter fun u => !whole u }
  | _, .poolop i =>
    let own := (w.wgid, w.launch.gen)
    let ta := tagOf w i.pa.toNat
    let tb := tagOf w i.pb.toNat
    setTag (setPool w i.pd.toNat (poolBits i.fn (poolOf w i.pa.toNat) (poolOf w i.pb.toNat))) i.pd.toNat
      (if ta = own then tb else ta)
  | _, .pclr i => setTag (setPool w i.pd.toNat 0) i.pd.toNat (w.wgid, w.launch.gen)
  | _, .pfill i => setTag (setPool w i.pd.toNat (fillBits w)) i.pd.toNat (w.wgid, w.launch.gen)
  | _, _ => w

/-- The 144 bytes of a pool record (R121). -/
def recordBytes (w : Workgroup) (p : Nat) : List Byte :=
  leBytes 128 (poolOf w p).toNat ++ leBytes 8 ((tagOf w p).1 % 2 ^ 32) ++ leBytes 8 (tagOf w p).2
/-- Bytes as 64-bit words, and back. -/
def wordsOf : Nat → List Byte → List Word
  | 0, _ => []
  | n + 1, bs => BitVec.ofNat 64 (leNat (bs.take 8)) :: wordsOf n (bs.drop 8)
def bytesOf (ws : List Word) : List Byte := ws.flatMap fun w => leBytes 8 w.toNat

/-- PST writes the pool as it stands at its commit (R122). -/
def commitPst (s : State) (x : ExecId) (c : Clause) (it : Item) (i : PmemW) : Except Bad State :=
  match s.wg x.core with
  | none => .ok s
  | some w => commitAccess s x c { it with kv := it.kv ++ wordsOf 18 (recordBytes w i.p.toNat) } .s

/-- A record that PLD has read whole: the pool and its tag in one step, bits of unlaunched warps cleared (R122). -/
def takeRecord (w : Workgroup) (p : Nat) (bs : List Byte) : Workgroup :=
  setTag (setPool w p (BitVec.ofNat 1024 (leNat (bs.take 128)) &&& launchedBits w)) p
    (leNat ((bs.drop 128).take 8), leNat ((bs.drop 136).take 8))

-- parking (R123, R124)

/-- A home warp is settled: parked or retired, no load in flight, every fixed-latency result landed (R123). -/
def settled (w : Workgroup) (ctx : Nat) : Bool :=
  match w.exec ctx with
  | none => true
  | some e => e.retired || (e.waits.contains .parked && e.cL = 0 && e.pend.isEmpty && e.clauses.isEmpty)

/-- Home warps with a member in a set. -/
def memberWarps (ms : List Nat) : List Nat := (upto 32).filter fun w => ms.any fun m => m / 32 = w

/-- Release parked warps of a list: each resumes, an acquire at workgroup scope that pairs with releases (R124, R130). -/
def releaseWarps (s : State) (core : Nat) (on : List Rel) (ws : List Nat) : State :=
  ws.foldl (fun s c =>
    match s.exec ⟨core, c⟩ with
    | some e => if e.waits.contains .parked then acquireFrom (endWait s ⟨core, c⟩ .parked) ⟨core, c⟩ .wg on else s
    | none => s) s

/-- RELEASE takes effect (R124): members of an apply in progress are released when it ends. -/
def applyRelease (s : State) (x : ExecId) (i : ReleaseW) (rel : Rel) : State :=
  match s.wg x.core with
  | none => s
  | some w =>
    let named := if i.all then upto 32 else memberWarps (bitNumbers (poolOf w i.pa.toNat))
    let held := (w.apply.map fun a => memberWarps a.members).getD []
    let s1 := releaseWarps s x.core [rel] (named.filter fun c => !held.contains c)
    match w.apply with
    | none => s1
    | some a =>
      let late := (named.filter fun c => held.contains c).filter fun c =>
        match w.exec c with | some e => e.waits.contains .parked || a.active.contains c | none => false
      s1.updWg x.core fun w => { w with apply := some { a with released := a.released ++ late.map (·, rel) } }

-- applies (R126 to R128)

/-- The window that a carry window needs (R125, R225): the first register at or above w. -/
def carryBad (window cs cn : Nat) : Option Nat := if cs + cn ≤ window then none else some (max cs window)

/-- Commit of APPLY or APPLYW: the checks in their order, then the snapshot (R126). An empty pool ends the apply at once (R128). An
apply that a clause commits after another of its own follows that one (log 78). -/
def commitApply (s : State) (x : ExecId) (c : Clause) (it : Item) (pa ev cs cn : Nat) (packs : Bool) : Except Bad State :=
  match s.wg x.core, s.exec x with
  | some w, some e =>
    let pool := poolOf w pa
    let target := (it.kv.getD 0 0).toNat
    if packs && w.launch.slots = 0 then .error (itemCause x it 0x02)
    else match if packs then carryBad w.launch.window cs cn else none with
      | some r => .error (itemCause x it 0x03 r)
      | none =>
        let tag := tagOf w pa
        if tag ≠ (w.wgid, w.launch.gen) then .error (itemCause x it 0x08 (tag.1 % 2 ^ 32))
        else if pool = 0 then
          .ok (updateEvents s (clusterOf x.core) ((1 : BitVec 256) <<< ev) 0)
        else do
          let s1 ← checkTarget s x w.launch (fun info => itemCause x it 0x04 info) target
          let a : Apply := { word := it.instr, members := bitNumbers pool, ks := (upto 8).map (permanent e c.seq).rk, target
                             round := 0, phase := 0, active := [], clause := c.code.addr, released := [] }
          .ok (s1.updWg x.core fun w => if w.apply.isSome then { w with applies := w.applies ++ [a] } else { w with apply := some a })
  | _, _ => .ok s

end Sys2Proof.Machine
end

