-- ==== Sys2Proof/Machine/Order.lean ====
section
/-! DEFINITION. What orders the accesses of one executor (spec/08 R146, R152, R153; spec/10 R165 to R170; spec/17 R250 to R260):
when an operation may be performed, and the fences, event words, decisions and releases that wait for earlier accesses. -/

namespace Sys2Proof.Machine

def isLoadI : Instr → Bool
  | .ld _ | .ldx _ | .lds _ | .ldsx _ | .ldv _ | .lda _ | .ldk _ | .pld _ => true
  | _ => false
def isStoreI : Instr → Bool
  | .st _ | .stx _ | .stl _ | .sts _ | .stsx _ | .stv _ | .stk _ | .pst _ => true
  | _ => false
def isAtomI : Instr → Bool
  | .atom _ | .atomn _ | .cas _ | .atoms _ | .cass _ | .atomv _ | .casv _ => true
  | _ => false
/-- The loads, stores and atomics that releases and fences order (R152, R153). -/
def isAccess (i : Instr) : Bool := isLoadI i || isStoreI i || isAtomI i
/-- Accesses that keep the order of one location: WAITA's first read as well (R146, R155). -/
def keepsOrder (i : Instr) : Bool := isAccess i || (match i with | .waita _ => true | _ => false)

/-- Scope field of a plain global access; other accesses reach a single copy (R148). -/
def pathScope : Instr → Option Scope
  | .ld w | .ldx w | .lda w | .st w | .stx w | .stl w => some w.scope
  | .ldk w | .stk w => if w.sp == .gl then some w.scope else none
  | .pld w | .pst w => if w.sp == .gl then some w.scope else none
  | _ => none
/-- Does the access go through the L1 (R148)? -/
def throughL1 (i : Instr) : Bool := match pathScope i with | some sc => decide (scopeNum sc < 3) | none => false

/-- The two halves of a 16-byte access that are not performed; another access whole (R146). -/
def accParts (o : Op) (a : Acc) : List Acc :=
  if isWide o.item.instr then
    (if o.low.getLsbD a.lane then [] else [{ a with len := 8 }]) ++ (if o.high.getLsbD a.lane then [] else [{ a with addr := a.addr + 8, len := 8 }])
  else [a]
/-- The accesses of an operation's lanes ls that are still to be performed. -/
def accsIn (o : Op) (ls : LaneSet) : List Acc := ((accsOf o.item).filter fun a => ls.getLsbD (accLane a)).flatMap (accParts o)

/-- Does a range lie in a remote window (R295)? -/
def accRemote (it : Item) (a : Acc) : Bool := a.space == .gl && it.xl.any fun p => p.1 = a.addr / 4096 && p.2.remote.isSome

/-- A number for a byte of another endpoint's memory. -/
def remoteKey (ep pa : Nat) : Nat := 2 ^ 60 + ep * 2 ^ 52 + pa
/-- A place as the error log names it (R340). -/
def whereKey (k : Nat) : Nat := if 2 ^ 60 ≤ k then k % 2 ^ 52 else whereOf k
def placeKey : Loc → Nat
  | .home h => h
  | .remote ep pa => remoteKey ep pa
/-- The places of an access, as numbers: homes, and bytes of other endpoints. -/
def placeRanges (core : Nat) (it : Item) (a : Acc) : List (Nat × Nat) :=
  (pieces a.addr a.len).map fun p => (placeKey (locOf core it.xl a.space p.1), p.2)

/-- Home ranges, by sectors, of ranges of a space. -/
def homesOf (core : Nat) (it : Item) (space : Space) (rs : List (Nat × Nat)) : List (Nat × Nat) :=
  rs.flatMap fun r => (pieces r.1 r.2).filterMap fun p => match locOf core it.xl space p.1 with
    | .home h => some (h, p.2)
    | .remote _ _ => none
/-- Home ranges of an access. -/
def homeRanges (core : Nat) (it : Item) (a : Acc) : List (Nat × Nat) := homesOf core it a.space [(a.addr, a.len)]

/-- Shared units of home ranges: cache slices and vaults (R247). -/
def unitsAt (rs : List (Nat × Nat)) : List Nat := (rs.filterMap fun r => if isSpadHome r.1 then none else some (monitorOf r.1)).eraseDups
/-- Shared units serve a core now (R247). -/
def State.serve (s : State) (core : Nat) (units : List Nat) : State :=
  { s with served := units.foldl (fun m u => mapPut 0 (u * 256 + core) s.fresh m) s.served }

/-- Do two accesses of one executor touch a common location: by one address of its space, in a vault by any name of it, or of global memory by
their places where both pass the L1 (R144, R146, R149)? -/
def accMeet (core : Nat) (p q : Item) (a b : Acc) : Bool :=
  a.space == b.space && (rangesMeet a.addr a.len b.addr b.len ||
    ((a.space == .vt || (a.space == .gl && !throughL1 p.instr && !throughL1 q.instr)) &&
      (placeRanges core p a).any fun r => (placeRanges core q b).any fun t => rangesMeet r.1 r.2 t.1 t.2))

/-- Accesses of an executor with a number below `below` that are performed as a release at a scope needs: those to a remote
window are awaited by scope 6 alone (R260). -/
def doneFor (scope : Scope) (o : Op) : Bool :=
  o.performed || (decide (scopeNum scope < 6) && (accsIn o o.lanes).all (accRemote o.item) && !(accsIn o o.lanes).isEmpty)
def releaseReady (e : Exec) (below : Nat) (scope : Scope) : Bool :=
  e.ops.all fun o => below ≤ o.id || !isAccess o.item.instr || doneFor scope o

/-- Does an acquire of a scope order an operation's lanes ls, or, of a command, its part in remote windows (`far`) or here? Below scope 6 it
orders nothing against remote windows (R260). -/
def ordersOn (scope : Scope) (o : Op) (ls : LaneSet) (far : Bool := false) : Bool :=
  scope == .system || (if (accsIn o ls).isEmpty then !far else !(accsIn o ls).all (accRemote o.item))

/-- Loads, and WAITA's first read, which a release fence does not hold back (R153). -/
def isReadI (i : Instr) : Bool := isLoadI i || (match i with | .waita _ => true | _ => false)

/-- Does an earlier word of the executor hold back lanes ls of an operation until it is performed? An acquire holds back everything, a
release fence stores, atomics and commands (R152, R153, R170). -/
def fencedOff (i : Instr) (o : Op) (ls : LaneSet) (far : Bool := false) : Bool :=
  match i with
  | .lda w => ordersOn w.scope o ls far
  | .rget w => ordersOn w.scope o ls far
  | .fence f =>
    match f.kind with
    | .acq => ordersOn f.scope o ls far
    | .rel => !isReadI o.item.instr
    | _ => !isReadI o.item.instr || ordersOn f.scope o ls far
  | _ => false

/-- Does a WAITA of the executor that has not ended read bytes again that lanes ls of a later operation touch (R146, R155)? -/
def waitaMeets (core : Nat) (e : Exec) (o : Op) (ls : LaneSet) : Bool :=
  let meets (home key : Nat) : Bool := decide (key < o.id) && keepsOrder o.item.instr &&
    (accsIn o ls).any fun a => (homeRanges core o.item a).any fun r => rangesMeet r.1 r.2 home 4
  e.waits.any fun w => match w with
    | .waita home _ _ _ _ _ key => meets home key
    | .woken home _ _ _ _ key => meets home key
    | _ => false

/-- Is an operation with lanes ls held back: by an acquire of its executor that is not done, by an earlier word, or because one location
keeps its order; WAITA's first read follows its clause's stores (R146, R152, R153, R155, R170, R251)? -/
def heldBack (core : Nat) (e : Exec) (o : Op) (ls : LaneSet) (far : Bool := false) : Bool :=
  (e.holds.any fun h => decide (h.start ≤ o.id) && ordersOn h.scope o ls far) || waitaMeets core e o ls ||
  e.ops.any fun p => decide (p.id < o.id) && !p.performed && (
    fencedOff p.item.instr o ls far ||
    (p.seq = o.seq && (isStoreI p.item.instr || isAtomI p.item.instr) && (match o.item.instr with | .waita _ => true | _ => false)) ||
    (keepsOrder p.item.instr && keepsOrder o.item.instr &&
      (accsIn p p.lanes).any fun a => (accsIn o ls).any fun b => accMeet core p.item o.item a b))

/-- May an operation perform lanes ls now? A release store waits for every earlier access (R152). -/
def mayPerform (core : Nat) (e : Exec) (o : Op) (ls : LaneSet) : Bool :=
  !o.performed && !heldBack core e o ls &&
  (match o.item.instr with
   | .stl w => releaseReady e o.id w.scope
   | _ => true)

def opOf (e : Exec) (id : Nat) : Option Op := e.ops.find? (·.id = id)
def updOp (e : Exec) (id : Nat) (f : Op → Op) : Exec := { e with ops := updFirst (·.id = id) f e.ops }
def dropOp (e : Exec) (id : Nat) : Exec := { e with ops := e.ops.filter (·.id ≠ id) }
def State.updOp (s : State) (x : ExecId) (id : Nat) (f : Op → Op) : State := s.updExec x fun e => Machine.updOp e id f

/-- L1 actions of a release and of an acquire at a scope (R251). -/
def releaseL1 (s : State) (core : Nat) (scope : Scope) : State := if 3 ≤ scopeNum scope then wbAll s core else s
def acquireL1 (s : State) (core : Nat) (scope : Scope) : State := if 3 ≤ scopeNum scope then dropClean s core else s

-- words that wait for earlier accesses: fences, releases, WAITA's first read, ICINV and TLBINV

/-- The scope at which a word is a release whose operation stands until the accesses before it are performed (R251). -/
def releaseScope : Instr → Option Scope
  | .evset i => some i.scope
  | .give _ | .release _ => some .wg
  | .bar i => some i.scope
  | .gbar i => some i.scope
  | _ => none

def isSyncI (i : Instr) : Bool :=
  (releaseScope i).isSome || (match i with | .fence _ | .waita _ | .icinv _ | .tlbinv _ => true | _ => false)

/-- Four mask registers as 256 bits (R167). -/
def maskOf (kv : List Word) : BitVec 256 := BitVec.ofNat 256 (kv.foldr (fun k acc => k.toNat + 2 ^ 64 * acc) 0)

/-- Has what the word releases or fences been performed, and what it follows? ICINV and TLBINV follow the fences before them (R304,
R284). -/
def syncReady (core : Nat) (e : Exec) (o : Op) : Bool :=
  match o.item.instr with
  | .fence f =>
    match f.kind with
    | .acq => e.ops.all fun p => o.id ≤ p.id || !(isLoadI p.item.instr || isAtomI p.item.instr) || doneFor f.scope p
    | _ => releaseReady e o.id f.scope && !heldBack core e o 1
  | i => !heldBack core e o 1 && (match releaseScope i with | some scope => releaseReady e o.id scope | none => true)

/-- Sleepers' distinct sectors at one monitor unit (R156). -/
def monitored (s : State) (unit : Nat) : List Nat :=
  ((sleepers s).filter fun p => monitorOf p.2 = unit).map (fun p => p.2 / 32) |>.eraseDups

/-- Write back the core's own dirty bytes of a global word's sector before WAITA reads it, and drop the clean ones, which may be older than
what it reads (R155, R250). -/
def waitaClean (s : State) (core h : Nat) : State := l1Clean s core h 4 true

/-- Read a 32-bit word at its home; poison gives an unspecified value and a pending cause (R336). -/
def readWord32 (s : State) (x : ExecId) (h : Nat) : Nat × State :=
  if poisoned s h 4 then (leNat (s.takeFree 4).1, meetPoison (s.takeFree 4).2 x (poisonDomain s h 4) (whereOf h)) else (readNat s.mem h 4, s)

/-- A WAITA's first read has found another value than it expects: it ends with cause 0, and is no acquire (R155). -/
def endWaita (s : State) (x : ExecId) (id kd v : Nat) : State :=
  dropHold (endWait (s.updExec x fun e => putCommitted e (.k kd (BitVec.ofNat 64 v))) x (.ops [id])) x id

/-- Scope of a wake read as an acquire (R155). -/
def wakeScope (w : WaitaW) : Scope := match w.sp with | .gl => w.scope | .vt => .cluster | .sp => .wg
/-- Is the wake read of a WAITA an acquire (R155)? -/
def waitaAcquires (w : WaitaW) : Bool := w.sp != .gl || decide (3 ≤ scopeNum w.scope)

/-- An access through a remote leaf fails when its endpoint cannot be reached or the link epoch has moved (R295, R296). -/
def remoteOk (s : State) (it : Item) (addr : Nat) : Bool :=
  match it.xl.find? (·.1 = addr / 4096) with
  | some (_, t) => (match t.remote with | some (ep, epoch) => reachable s ep && mapGet 0 s.epochs ep = epoch | none => true)
  | none => true

/-- Words whose accesses to an endpoint may be lost: stores, atomics, and drains of tiles (R296). -/
def mayBeLost : Instr → Bool
  | .tst _ | .sigscat _ => true
  | i => isStoreI i || isAtomI i
/-- Remote ranges of an operation that are not performed, by their addresses: of a drain, the first byte of each page that it translates to
the endpoint. -/
def farAddrs (o : Op) (ep : Nat) : List Nat :=
  let pages := o.item.xl.filter fun p => p.2.remote.map (·.1) = some ep
  match o.item.instr with
  | .tst _ | .sigscat _ => if pages.isEmpty then [] else [(o.item.kv.getD 0 0).toNat]
  | _ => ((accsIn o o.lanes).filter fun a => pages.any fun p => p.1 = a.addr / 4096).map (·.addr)
/-- Stores and atomics of an executor to an endpoint that are not performed, in commit order, by their addresses (R296). -/
def lostStores (e : Exec) (ep : Nat) : List Nat := e.ops.flatMap fun o => if o.performed || !mayBeLost o.item.instr then [] else farAddrs o ep

/-- The remote-unreachable trap of an executor. It is raised once for all its committed accesses that the endpoint or the link epoch has failed:
their operations are marked, and raise none when their turn comes (R296). -/
def failEntry (s : State) (x : ExecId) (ep : Nat) : State :=
  match s.exec x with
  | none => s
  | some e =>
    let fails (o : Op) : Bool :=
      !o.performed && o.item.xl.any fun p => p.2.remote.map (·.1) = some ep && !remoteOk s o.item (p.1 * 4096)
    (s.entry x 0x13 (lostStores e ep).length ((lostStores e ep).headD 0)).updExec x fun e =>
      { e with ops := e.ops.map fun o => if fails o then { o with failed := true } else o }

/-- An access of an operation fails: the trap, unless it has been raised for that operation already (R296). -/
def failAccess (s : State) (x : ExecId) (id ep : Nat) : State :=
  if ((s.exec x).bind (opOf · id)).any (·.failed) then s else failEntry s x ep

/-- WAITA's first read at an endpoint ends it: cause 0 when the word differs. A word of another endpoint is not monitored here: when it
is equal, the executor wakes at once with cause 1, as with a full monitor (R155, R156; log 11). An error that the endpoint has reported is its
reader's (R336). -/
def waitaReturns (s : State) (x : ExecId) (o : Op) (w : WaitaW) (v : Nat) : State :=
  let o := ((s.exec x).bind (opOf · o.id)).getD o
  let s0 := s.updExec x (dropOp · o.id)
  let s1 := match o.poison with | some d => s0.poisonEntry x d | none => s0
  if v ≠ (o.item.kv.getD 1 0).toNat % 2 ^ 32 then endWaita s1 x o.id w.d.toNat v
  else endHold (endWait (s1.updExec x fun e => putCommitted e (.k w.d.toNat (BitVec.ofNat 64 (2 ^ 32 + v)))) x (.ops [o.id])) x o.id []

/-- WAITA's first read: it ends with cause 0, or the executor sleeps, unless the monitor is full (R155, R156). A word of a remote
window is read at its endpoint. -/
def firstRead (s : State) (x : ExecId) (o : Op) (w : WaitaW) : State :=
  let addr := (o.item.kv.getD 0 0).toNat
  let kb := (o.item.kv.getD 1 0).toNat
  match locOf x.core o.item.xl w.sp addr with
  | .remote ep pa =>
    if remoteOk s o.item addr then
      let tag := s.fresh % 2 ^ 22
      let r : Remote := { tag, ep, x, op := o.id, kind := 1, lane := 0, addr, len := 4, pa }
      let s1 : State := { s with fresh := s.fresh + 1, remotes := s.remotes ++ [r] }
      (s1.send ep 1 tag (leBytes 8 pa ++ leBytes 4 4 ++ leBytes 4 0)).updExec x fun e =>
        { e with ops := e.ops ++ [{ o with tag := 1 }] }
    else
      -- it completes failed: its word is unspecified (R296)
      waitaReturns (failAccess (s.takeFree 4).2 x o.id ep) x o w (leNat (s.takeFree 4).1)
  | .home h =>
    let s1 := waitaClean s x.core h
    let (v, s2) := readWord32 s1 x h
    if v ≠ kb % 2 ^ 32 then
      endWaita s2 x o.id w.d.toNat v
    else
      let unit := monitorOf h
      let full := !(monitored s2 unit).contains (h / 32) && monitorSize h ≤ (monitored s2 unit).length
      let deadline := if kb / 2 ^ 32 = 2 ^ 32 - 1 then none else some (s2.now x.core + kb / 2 ^ 32)
      let scope := wakeScope w
      let next : Wait :=
        if full then .woken h w.sp w.d.toNat scope 1 o.id else .waita h w.sp (vaultOf addr = 63) w.d.toNat scope deadline o.id
      s2.updExec x fun e => { e with waits := replaceFirst (.ops [o.id]) next e.waits }

/-- Executors whose wake read is still to be made. -/
def woken (s : State) : List ExecId :=
  s.busy.flatMap fun p => p.2.all.flatMap fun q => q.2.waits.filterMap fun w => match w with
    | .woken _ _ _ _ _ _ => some ⟨p.1, q.1⟩
    | _ => none

/-- The first of an executor's waits whose wake read is still to be made. -/
def wokenOf (e : Exec) : Option Wait := e.waits.find? fun w => match w with | .woken _ _ _ _ _ _ => true | _ => false

/-- The wake read: an acquire, which may have to promote narrow releases first (R155, R256). The next clause issues no earlier than 4
cycles after the wake; an event's wake counts from the cycle after its update (R243). -/
def wakeRead (s : State) (x : ExecId) : State :=
  match (s.exec x).bind wokenOf with
  | some (.woken h space kd scope cause key) =>
    let s0 := if space == .gl then waitaClean s x.core h else s
    let (s1, free) := if space == .gl then promoteAll s0 x key scope [(h, 4)] else (s0, true)
    if !free then s1
    else
      let (v, s2) := readWord32 s1 x h
      endHold (s2.updExec x fun e =>
        { putCommitted e (.k kd (BitVec.ofNat 64 (cause * 2 ^ 32 + v))) with
          waits := e.waits.erase (.woken h space kd scope cause key)
          readyAt := max e.readyAt (s2.now x.core + if cause = 3 then 5 else 4) }) x key []
  | _ => s

/-- Make wake reads, and those of sleepers that their write-backs wake, n rounds. -/
def settleWoken : Nat → State → State
  | 0, s => s
  | n + 1, s => if (woken s).isEmpty then s else settleWoken n ((woken s).foldl wakeRead s)

-- what ICINV and TLBINV do (R233)

/-- Drop the copies of code bytes of a range on a core: buffered clauses, clauses fetched but not begun, and what has come of another endpoint
or is under way. -/
def dropCode (s : State) (core : Nat) (all : Bool) (addr len : Nat) : State :=
  let meets (a n : Nat) : Bool := n ≠ 0 && (all || (len ≠ 0 && rangesMeet a n addr len))
  let s1 := s.updCore core fun c =>
    { c with code := c.code.filter fun p => !meets (p.1 % 2 ^ 54 * 8) (8 * (p.2.elim 0 List.length)) }
  let s2 := s1.updWg core fun w => { w with execs := w.execs.map fun p => (p.1, p.2.map fun e =>
    { e with fetched := e.fetched.filter fun f => !meets f.addr (8 * (f.words.length + 1))
             far := e.far.filter fun g => !meets g.addr g.bytes.length }) }
  { s2 with remotes := s2.remotes.filter fun r => !(r.x.core = core && r.lane = 65 && r.kind = 1 && meets r.addr r.len) }

/-- The effect of ICINV or TLBINV on the cores of its scope. -/
def invEffect (s : State) (x : ExecId) (it : Item) (i : InvW) (tlb : Bool) : State :=
  let addr := (it.kv.getD 0 0).toNat
  let len := (it.kv.getD 1 0).toNat
  if tlb then match s.wg x.core with
    | none => s
    | some w => if i.all || len ≠ 0 then sweepCores s (coversCore i.scope x.core) w.launch.ctx i.all addr len else s
  else (s.coresIn (coversCore i.scope x.core)).foldl (fun s c => dropCode s c i.all addr len) s

/-- The effect of a word that has waited for its accesses; its operation has left. -/
def syncEffect (s : State) (x : ExecId) (o : Op) : State :=
  match o.item.instr with
  | .fence f =>
    let s1 := if f.kind == .acq then s else releaseL1 s x.core f.scope
    if f.kind == .rel then s1 else acquireL1 s1 x.core f.scope
  | .waita w => firstRead s x o w
  | .icinv i => endWait (invEffect s x o.item i false) x (.ops [o.id])
  | .tlbinv i => endWait (invEffect s x o.item i true) x (.ops [o.id])
  | i => match releaseScope i with
    | some scope => releaseL1 { s with eventRels := s.eventRels.filter (·.rel ≠ ⟨x, o.id⟩) } x.core scope
    | none => s

/-- One waiting word of an executor takes effect, if it may. -/
def settleOp (x : ExecId) (s : State) (id : Nat) : State :=
  match (s.exec x).bind fun e => (opOf e id).map (e, ·) with
  | some (e, o) => if syncReady x.core e o then syncEffect (s.updExec x (dropOp · id)) x o else s
  | none => s

/-- Waiting words of an executor, in their order. -/
def syncOps (e : Exec) : List Nat := (e.ops.filter fun o => isSyncI o.item.instr && o.tag = 0).map (·.id)

/-- Is a release done? -/
def relGone (s : State) (r : Rel) : Bool := ((s.exec r.x).bind (opOf · r.op)).isNone

/-- Acquires whose releases are done: the L1 gives up its clean bytes, and the accesses that follow go on (R251). -/
def settleHolds (s : State) (x : ExecId) : State :=
  match s.exec x with
  | none => s
  | some e =>
    let met (h : Hold) : Bool := h.key.isNone && h.on.all (relGone s)
    (e.holds.filter met).foldl (fun s h => acquireL1 s x.core h.scope) (s.setExec x { e with holds := e.holds.filter fun h => !met h })

/-- Executors with waiting words or acquires. -/
def unsettled (s : State) : List ExecId :=
  s.busy.flatMap fun p => (p.2.all.filter fun q => !q.2.holds.isEmpty || !(syncOps q.2).isEmpty).map fun q => ⟨p.1, q.1⟩
/-- How many waiting words and acquires there are. -/
def unsettledCount (s : State) : Nat :=
  (s.busy.flatMap fun p => p.2.all.map fun q => q.2.holds.length + (syncOps q.2).length).foldl (· + ·) 0

def settleRound (s : State) : State :=
  (unsettled s).foldl (fun s x => settleHolds ((((s.exec x).map syncOps).getD []).foldl (settleOp x) s) x) s
/-- Let every executor's waiting words and acquires take effect, as far as they may. -/
def settleSync : Nat → State → State
  | 0, s => s
  | n + 1, s =>
    let t := settleRound s
    if unsettledCount t = unsettledCount s then t else settleSync n t

-- counting down (R47, R147)

/-- Complete: performed, and every register cell landed. -/
def opComplete (o : Op) : Bool := o.performed && o.due.isEmpty && o.vals.isEmpty

/-- Operations of a class counted down in commit order: those complete before the first that is not (R147). -/
def countClass (cls : Cls) : List Op → List Op × Nat
  | [] => ([], 0)
  | o :: os =>
    if o.cls ≠ cls then
      let r := countClass cls os
      (o :: r.1, r.2)
    else if opComplete o then
      let r := countClass cls os
      (r.1, r.2 + 1)
    else (o :: os, 0)

def countDown (e : Exec) : Exec :=
  [Cls.l, .s, .c, .t, .x].foldl (fun e cls =>
    let r := countClass cls e.ops
    (upto r.2).foldl (fun e _ => subCounter e cls) { e with ops := r.1 }) e

/-- A load or atomic that has met poison and is complete makes cause 0x15 pending (R336). -/
def raisePoison (s : State) (x : ExecId) : State :=
  match s.exec x with
  | none => s
  | some e =>
    (e.ops.filter fun o => opComplete o && o.poison.isSome).foldl (fun s o =>
      (s.poisonEntry x (o.poison.getD 0)).updOp x o.id fun o => { o with poison := none }) s

/-- OPFENCE completes: every scratchpad write so far is covered, for the commands that follow it in its clause too (R186). -/
def endOpfence (s : State) (x : ExecId) (ids : List Nat) (start : Nat) : State :=
  endWait ({ s with fresh := s.fresh + 1 }.updExec x fun e =>
    { e with cover := s.fresh + 1, ops := e.ops.map fun (o : Op) => if start ≤ o.id && o.cls == Cls.t then { o with tag := s.fresh + 1 } else o }) x
    (.opfence ids start)

/-- Does an executor's wait end because operations have been performed (R186, R233)? -/
def endOpWaits (s : State) (x : ExecId) : State :=
  match s.exec x with
  | none => s
  | some e =>
    e.waits.foldl (fun s w => match w with
      | .ops ids => if e.ops.all fun o => !ids.contains o.id || opComplete o then endWait s x w else s
      | .opfence ids start => if e.ops.all fun o => !ids.contains o.id || o.performed then endOpfence s x ids start else s
      | _ => s) s

/-- What follows an event at once: waiting words, acquires and wake reads, n rounds. -/
def quiesceN : Nat → State → State
  | 0, s => s
  | n + 1, s =>
    let t := settleWoken ((sleepers s).length + (woken s).length) (settleSync (unsettledCount s) s)
    if unsettledCount t = unsettledCount s && woken t = woken s then t else quiesceN n t
def quiesce (s : State) : State := quiesceN (unsettledCount s + (sleepers s).length + (woken s).length + 1) s

/-- After operations of an executor have moved on: waiting words, waits, counters. -/
def settle (s : State) (x : ExecId) : State := quiesce ((endOpWaits (raisePoison (quiesce s) x) x).updExec x countDown)

end Sys2Proof.Machine
end

