-- ==== Sys2Proof/Machine/Perform.lean ====
section
/-! DEFINITION. Loads, stores and atomics as they are performed (spec/08 R146 to R156, spec/10 R162 and R163, spec/17 R256 and R257,
spec/26 R334 to R336), and accesses to remote windows (spec/20 R295 and R296). -/

namespace Sys2Proof.Machine

-- remote windows

/-- Is a read of an operation under way that brings a range? One request serves the lanes of a sector (R146). -/
def readUnderWay (s : State) (x : ExecId) (op : Nat) (a : Acc) : Bool :=
  s.remotes.any fun r => r.x = x && r.op = op && r.kind = 1 && decide (r.addr ≤ a.addr) && decide (a.addr + a.len ≤ r.addr + r.len)

/-- Is a message of a lane of an operation under way, for bytes of a range? -/
def underWay (s : State) (x : ExecId) (op : Nat) (a : Acc) : Bool :=
  s.remotes.any fun r => r.x = x && r.op = op && r.lane = accLane a && a.addr ≤ r.addr && decide (r.addr < a.addr + max a.len 1)

-- check codes

/-- The outcome of the check of a unit as it is read at its home for a core: counts, or poison from now on (R334, R336). -/
def checkUnit (s : State) (core : Nat) (h : Nat) (ecc : Ecc) : State :=
  match ecc with
  | .good | .span => s.crossBlock core h
  | .corrected =>
    { s.updCore core (fun c => { c with corrected := c.corrected + 1 }) with corrected := s.corrected + 1 }
  | .uncorrectable => addPoison s h 1
  | .block => addBlock s h

/-- An operation meets poison: the log has it at once, its executor takes the cause when the access completes (R336). -/
def opPoison (s : State) (x : ExecId) (id domain at' : Nat) : State :=
  (logError s 1 domain 0 x.core at' (lgenOf s x.core)).updOp x id fun o => { o with poison := o.poison.or (some domain) }

-- one lane

/-- Read n bytes of a local range by the path of the access (R148), with the outcome of its check. A unit that fails in the L1 is of domain
4; poison that a fill brings was met at its home. A crossing into the L1 that fails poisons the L1's copy; one into the registers leaves the
lanes' values unspecified (R333, R336, R338; log 80). -/
def loadBytes (s : State) (x : ExecId) (ctx : Nat) (o : Op) (space : Space) (addr h n : Nat) (nt : Bool) (ecc : Ecc) : List Byte × State :=
  let spoiled (s : State) (domain at' : Nat) : List Byte × State := ((s.takeFree n).1, opPoison (s.takeFree n).2 x o.id domain at')
  let crossedIn (s : State) : List Byte × State :=
    ((s.takeFree n).1, (s.takeFree n).2.updOp x o.id fun o => { o with poison := o.poison.or (some 1) })
  if space == .gl && throughL1 o.item.instr then
    let held := l1Holds s x.core ctx addr n
    let s1 := match ecc, held with
      | .uncorrectable, true => l1Fail s x.core ctx addr n
      | .block, true => s
      | e, _ => checkUnit s x.core h e
    let home := poisonDomain s1 h n
    let (bs, s2) := l1Load s1 x.core ctx addr h n nt
    let s3 := match ecc, held with
      | .span, false => logSpan (l1Fail s2 x.core ctx addr n) x.core 4 6 (whereOf h)
      | _, _ => s2
    if (findLine (s3.core x.core).l1 ctx addr).isSome then
      if l1Poisoned s3 x.core ctx addr n then spoiled s3 (if held || home = 0 then 4 else home) (whereOf h)
      else if crossingBad s3 x.core 4 1 then crossedIn (s3.crossed x.core 4 1 (whereOf h))
      else readOpen s3 h bs
    else if home ≠ 0 then spoiled s3 home (whereOf h) else readOpen s3 h bs
  else
    let s1 := checkUnit (if space == .gl then l1Clean s x.core h n true else s) x.core h ecc
    if poisoned s1 h n then spoiled s1 (poisonDomain s1 h n) (whereOf h)
    else if ecc = .span then crossedIn (logSpan s1 x.core 1 (domainOf h) (whereOf h))
    else if crossingBad s1 x.core (domainOf h) 1 then crossedIn (s1.crossed x.core (domainOf h) 1 (whereOf h))
    else readOpen s1 h (readBytes s1.mem h n)

/-- Bytes of a local range, sector by sector. -/
def loadRange (s : State) (x : ExecId) (ctx : Nat) (o : Op) (a : Acc) (nt : Bool) (ecc : Ecc) : List Byte × State :=
  (pieces a.addr a.len).foldl (fun (acc : List Byte × State) p =>
    match locOf x.core o.item.xl a.space p.1 with
    | .home h =>
      let r := loadBytes acc.2 x ctx o a.space p.1 h p.2 nt ecc
      (acc.1 ++ r.1, r.2)
    | .remote _ _ => (acc.1 ++ (acc.2.takeFree p.2).1, (acc.2.takeFree p.2).2)) ([], s)

/-- A narrow release's mark that a store or atomic leaves (R256): its scope, when cores of other clusters lie outside it. -/
def narrowOf (o : Op) : Option Scope :=
  if o.tag = 0 then none else [Scope.thread, .warp, .wg, .cluster, .field][o.tag - 1]?

/-- Does a mark need no further place: another of its sector, core and scope is there? -/
def markKept (s : State) (m : Mark) : Bool := s.marks.any (sameMark m)
/-- Marks held at one monitor unit: of a vault, the places that R257 counts. -/
def marksAt (s : State) (unit : Nat) : List Mark := s.marks.filter fun m => monitorOf m.sector = unit
/-- Leave a mark at a home; a vault's 65th carries out the oldest promotion first (R257). -/
def leaveMark (s : State) (m : Mark) : State :=
  if isSpadHome m.sector then s
  else if !isDramHome m.sector && 64 ≤ (marksAt s (monitorOf m.sector)).length && !markKept s m then
    match marksAt s (monitorOf m.sector) with
    | old :: _ => addMark (promote s old) m
    | [] => addMark s m
  else addMark s m
/-- Can an operation leave its marks at homes, or do the oldest promotions of a full vault have to wait for stores first (R257)? -/
def markRoom (s : State) (x : ExecId) (id : Nat) (scope : Scope) (hs : List Nat) : Bool :=
  let vaults := hs.filter fun h => !isDramHome h && !isSpadHome h
  (vaults.map monitorOf).eraseDups.all fun unit =>
    let sectors := ((vaults.filter fun h => monitorOf h = unit).map (· / 32 * 32)).eraseDups
    let new := sectors.filter fun sector => !markKept s { sector, core := x.core, scope, below := id }
    ((marksAt s unit).take ((marksAt s unit).length + new.length - 64)).all (promotionReady s · (some (x, id)))
/-- Is there room for the marks of an operation's accesses? -/
def marksFit (s : State) (x : ExecId) (o : Op) (accs : List Acc) : Bool :=
  match narrowOf o with
  | none => true
  | some scope => markRoom s x o.id scope (accs.flatMap fun a => (homeRanges x.core o.item a).map (·.1))

/-- Write bytes of a local range by the path of the store (R148): into L1, or through to the home. -/
def storeBytes (s : State) (x : ExecId) (ctx : Nat) (o : Op) (space : Space) (addr h : Nat) (bs : List Byte) (nt : Bool) : State :=
  let narrow := narrowOf o
  let line := (findLine (s.core x.core).l1 ctx addr).isSome
  if space == .gl && throughL1 o.item.instr && (line || !nt) then
    crossL1 (meetSources (l1Store s x.core ctx addr h bs (narrow.map fun sc => (sc, o.id))) (some (x, o.id)) h bs.length) x.core ctx addr h
  else
    let s1 := (meetSources (placeBytes s (some x.core) false h bs) (some (x, o.id)) h bs.length).cross x.core 1 h
    let s2 := if space == .gl then l1Update s1 x.core ctx addr bs else s1
    match narrow with
    | none => s2
    | some scope => leaveMark s2 { sector := h / 32 * 32, core := x.core, scope, below := o.id }

/-- Offsets of an access's bytes that no higher lane of the word writes: only the highest lane's value enters (R146). -/
def keptBytes (it : Item) (a : Acc) : List Nat :=
  (upto a.len).filter fun j => !((accsOf it).any fun b => decide (a.lane < b.lane) && b.addr ≤ a.addr + j && decide (a.addr + j < b.addr + b.len))

def ntOf : Instr → Bool
  | .ld w | .ldx w | .st w | .stx w | .lda w | .stl w => w.nt
  | .ldk w | .stk w => w.nt
  | _ => false

/-- Bytes that a store's lane writes. -/
def storeData (it : Item) (a : Acc) : List Byte :=
  match it.instr with
  | .stk _ => leBytes a.len (it.kv.getD 1 0).toNat
  | .pst _ => ((bytesOf (it.kv.drop 1)).drop (a.addr - (it.kv.getD 0 0).toNat)).take a.len
  | _ => ((leBytes (a.addr - a.named + a.len) (rowValue it.lv a.lane)).drop (a.addr - a.named)).take a.len

/-- A store's lane reaches its place. -/
def storeLane (s : State) (x : ExecId) (ctx : Nat) (o : Op) (a : Acc) : State :=
  let data := storeData o.item a
  let kept := keptBytes o.item a
  -- a lane that is written whole stays one access; what a higher lane overlaps goes byte by byte
  let parts : List (Nat × Nat) := if kept.length = a.len then pieces a.addr a.len else kept.map fun j => (a.addr + j, 1)
  parts.foldl (fun s p =>
    match locOf x.core o.item.xl a.space p.1 with
    | .home h => storeBytes s x ctx o a.space p.1 h ((data.drop (p.1 - a.addr)).take p.2) (ntOf o.item.instr)
    | .remote _ _ => s) s

/-- Lanes of an operation, among those left, that share a sector with a lane asked for (R146). -/
def withSharers (o : Op) (ls : LaneSet) : LaneSet :=
  let asked := (accsIn o (ls &&& o.lanes)).map fun a => (a.addr / 32)
  laneSet (((accsIn o o.lanes).filter fun a => asked.contains (a.addr / 32)).map accLane)

/-- Register index of a cell above the first destination register. -/
def cellIndex (i : Instr) (k : RegKey) : Nat :=
  match k, memFields i, atomFields i, casFields i with
  | .v r _, some (w, _), _, _ => r - w.d.toNat
  | .v r _, _, some (w, _), _ => r - w.d.toNat
  | .v r _, _, _, some (w, _) => r - w.d.toNat
  | _, _, _, _ => 0
def cellLane : RegKey → Nat
  | .v _ l => l
  | _ => 0

/-- Land fetched values of the lanes and registers chosen (R147, R161). -/
def landVals (s : State) (x : ExecId) (id : Nat) (ls : LaneSet) (regs : BitVec 4) : State :=
  let at' := s.now x.core
  s.updExec x fun e =>
    match opOf e id with
    | none => e
    | some o =>
      let now := o.vals.filter fun v =>
        (match o.item.instr, v.key with
         | .ldk _, _ => ls.getLsbD 0 && regs != 0
         | .wlpop _, .a _ => regs != 0
         | i, k => ls.getLsbD (cellLane k) && regs.getLsbD (cellIndex i k))
      updOp (now.foldl (landCell at' o) e) id fun o =>
        { o with vals := o.vals.filter fun v => !now.contains v, due := o.due.filter fun k => !(now.map RegVal.key).contains k }

/-- Mark lanes performed; the operation is when none is left. -/
def lanesDone (s : State) (x : ExecId) (id : Nat) (ls : LaneSet) : State :=
  s.updOp x id fun o => { o with lanes := o.lanes &&& ~~~ ls, performed := decide (o.lanes &&& ~~~ ls = 0) }

/-- An access of an operation is performed: of a 16-byte one the half, and the lane with its second half (R146). -/
def accDone (s : State) (x : ExecId) (id : Nat) (a : Acc) : State :=
  let bit : LaneSet := (1 : LaneSet) <<< accLane a
  match (s.exec x).bind (opOf · id) with
  | none => s
  | some o =>
    if isWide o.item.instr then
      let s1 := s.updOp x id fun o => if a.addr = a.named then { o with low := o.low ||| bit } else { o with high := o.high ||| bit }
      if (if a.addr = a.named then o.high else o.low) &&& bit ≠ 0 then lanesDone s1 x id bit else s1
    else lanesDone s x id bit

/-- Cells of a load's value, or of its half, in one lane. -/
def valueCells (it : Item) (a : Acc) (n : Nat) : List RegVal :=
  match it.instr with
  | .ldk w => ldkCells w.ty w.d n
  | i => match memFields i with
    | some (w, _) =>
      if isWide i then (upto 2).map fun j => .v (w.d.toNat + (a.addr - a.named) / 4 + j) a.lane (BitVec.ofNat 32 (n / 2 ^ (32 * j)))
      else loadCells false w.ty w.d a.lane n
    | none => []

/-- A value has been read for a lane: its cells wait to land, or a pool takes its record when its last byte is there (R122). -/
def takeValue (s : State) (x : ExecId) (o : Op) (a : Acc) (bs : List Byte) : State :=
  match o.item.instr with
  | .pld w =>
    let got := (((s.exec x).bind (opOf · o.id)).map Op.got).getD [] ++ [{ addr := a.addr, bytes := bs }]
    let record := (accsOf o.item).flatMap fun p => ((got.find? (·.addr = p.addr)).map Got.bytes).getD []
    let s1 := s.updOp x o.id fun q => { q with got }
    if record.length = 144 then s1.updWg x.core fun g => takeRecord g w.p.toNat record else s1
  | _ => s.updOp x o.id fun q => { q with vals := q.vals ++ valueCells q.item a (leNat bs) }

/-- The bytes of a sector that accesses read: the first, and how many to the last. -/
def sectorSpan (accs : List Acc) (sec : Nat) : Nat × Nat :=
  let mine := accs.filter fun a => a.addr / 32 = sec
  let lo := (mine.map (·.addr)).foldl min (sec * 32 + 32)
  (lo, (mine.map fun a => a.addr + a.len).foldl max 0 - lo)

/-- One lane of a load: read here, or asked of its endpoint with the lanes that share its sector, or failed (R146, R295, R296). -/
def loadLane (x : ExecId) (ctx : Nat) (o : Op) (accs : List Acc) (ecc : Ecc) (s : State) (a : Acc) : State :=
  if accRemote o.item a then
    if readUnderWay s x o.id a then s
    else match locOf x.core o.item.xl a.space a.addr with
      | .remote ep pa =>
        if remoteOk s o.item a.addr then
          let (lo, n) := sectorSpan accs (a.addr / 32)
          sendRemote s x o.id (accLane a) 1 ep lo (leBytes 8 (pa - (a.addr - lo)) ++ leBytes 4 n ++ leBytes 4 0)
        else
          let s1 := takeValue (s.takeFree a.len).2 x o a (s.takeFree a.len).1
          accDone (failAccess s1 x o.id ep) x o.id a
      | .home _ => s
  else
    let r := loadRange s x ctx o a (ntOf o.item.instr) ecc
    accDone (takeValue r.2 x o a r.1) x o.id a

/-- Accesses that an event performs: those of the lanes asked for and of the lanes that share a sector with them, of a 16-byte access the
halves asked for (R146). -/
def asked (o : Op) (lanes : LaneSet) (halves : BitVec 2) : List Acc :=
  (accsIn o (withSharers o lanes)).filter fun a => !isWide o.item.instr || halves.getLsbD (if a.addr = a.named then 0 else 1)

/-- Shared units that accesses of an operation go to: those past the L1, and of a load through it those that the L1 does not hold (R247). -/
def unitsOfAccs (s : State) (core : Nat) (o : Op) (accs : List Acc) : List Nat :=
  let ctx := (s.wg core).elim 0 (·.launch.ctx)
  unitsAt ((accs.filter fun a => !(a.space == .gl && throughL1 o.item.instr) || (a.rd && !l1Holds s core ctx a.addr a.len)).flatMap
    (homeRanges core o.item))
/-- The index engine that serves a region, that of its descriptor's home field, as a shared unit (R22, R212). -/
def indexEngine (home : Nat) : Nat := 2000 + homeField home

/-- Perform accesses, the outcome of the check being that of the first. -/
def inTurn (f : Ecc → State → Acc → State) (ecc : Ecc) : List Acc → State → State
  | [], s => s
  | a :: as, s => as.foldl (f .good) (f ecc s a)

/-- PREF brings whole lines that it may read, and drops every other lane (R150). -/
def prefetch (s : State) (x : ExecId) (w : Workgroup) (o : Op) (i : PrefW) : State :=
  match i.lvl with
  | .slice => s
  | .l1 =>
    if i.nt then s else
    (lanesOf o.lanes).foldl (fun s l =>
      let addr := (o.item.kv.getD l 0).toNat
      if addr % tyBytes i.ty ≠ 0 || 2 ^ 57 ≤ addr then s
      else match laneLookup s x l w.launch.ctx w.launch.root addr with
        | (.ok xl, s1) =>
          let line := addr / 128 * 128
          if xl.rd && xl.remote.isNone then l1Fill s1 x.core w.launch.ctx line (xl.pfn * 4096 + line % 4096) 128 else s1
        | (.miss _, s1) => s1) s

/-- LOAD_COMPLETE: values are fixed for lanes, values land, and loads count down in order (R147). -/
def loadStep (s : State) (x : ExecId) (id : Nat) (lanes : LaneSet) (halves : BitVec 2) (regs : BitVec 4) (ecc : Ecc) : State :=
  match s.wg x.core, (s.exec x).bind fun e => (opOf e id).map (e, ·) with
  | some w, some (e, o) =>
    match o.item.instr with
    | .pref i =>
      if o.performed || heldBack x.core e o o.lanes then s
      else settle ((prefetch s x w o i).updOp x id fun o => { o with performed := true, lanes := 0 }) x
    | .wlpop _ | .merge _ => if o.performed then settle (landVals s x id lanes regs) x else s
    | i =>
      if isAtomI i then settle (landVals s x id lanes regs) x
      else if !isLoadI i then s
      else
        let ls := withSharers o lanes
        let accs := asked o lanes halves
        let scope := match i with | .lda w => w.scope | _ => .thread
        let s1 :=
          if accs.isEmpty || !mayPerform x.core e o ls then s
          else
            let (s0, free) := promoteAll s x id scope (accs.flatMap (homeRanges x.core o.item))
            if !free then s0
            else
              let s1 := inTurn (loadLane x w.launch.ctx o accs) ecc accs (s0.serve x.core (unitsOfAccs s x.core o accs))
              let done := ((s1.exec x).bind (opOf · id)).any (·.performed)
              match i with
              | .lda _ => if done then acquireL1 s1 x.core scope else s1
              | _ => s1
        settle (landVals s1 x id lanes regs) x
  | _, _ => s

def execLoadComplete (x : ExecId) (op : Nat) (part : LanePart) (regs : BitVec 4) (ecc : Ecc) (s : State) :
    Host.Outcome State Fault Refusal := .next (loadStep s x op part.lanes part.halves regs ecc)

/-- Numbers that follow one another, as runs: the first and how many. -/
def runsOf : List Nat → List (Nat × Nat)
  | [] => []
  | j :: js =>
    match runsOf js with
    | (k, n) :: rs => if k = j + 1 then (j, n + 1) :: rs else (j, 1) :: (k, n) :: rs
    | [] => [(j, 1)]

/-- One lane of a store: it reaches its place, or its bytes that no higher lane writes go to the endpoint, or may be lost (R146, R296). -/
def storeStep1 (x : ExecId) (ctx : Nat) (o : Op) (s : State) (a : Acc) : State :=
  if accRemote o.item a then
    if underWay s x o.id a then s
    else match locOf x.core o.item.xl a.space a.addr with
      | .remote ep pa =>
        let runs := runsOf (keptBytes o.item a)
        if runs.isEmpty then accDone s x o.id a
        else if remoteOk s o.item a.addr then
          runs.foldl (fun s r => sendRemote s x o.id (accLane a) 0 ep (a.addr + r.1)
            (leBytes 8 (pa + r.1) ++ leBytes 4 r.2 ++ leBytes 4 0 ++ ((storeData o.item a).drop r.1).take r.2)) s
        else accDone (failAccess s x o.id ep) x o.id a
      | .home _ => s
  else accDone (storeLane s x ctx o a) x o.id a

/-- CWB and CINV over their range, or over the whole L1 (R149). -/
def cacheRange (s : State) (core ctx : Nat) (all : Bool) (addr len : Nat) (drop : Bool) : State :=
  (s.core core).l1.foldl (fun s l =>
    if all || (l.ctx = ctx && len ≠ 0 && rangesMeet (l.va * 128) 128 addr len) then
      let s1 := wbLineWake s core l 0 128
      if drop then s1.updCore core fun c => { c with l1 := c.l1.filter fun m => !(m.ctx = l.ctx && m.va = l.va) } else s1
    else s) s

/-- The lanes of a store that have reached their places clear the poison of the units that they together cover whole (R336). -/
def goodStore (s : State) (x : ExecId) (ctx id : Nat) : State :=
  if s.poison.isEmpty && (s.core x.core).l1.all (·.poison.isEmpty) then s
  else match (s.exec x).bind (opOf · id) with
    | none => s
    | some o =>
      let left := accsIn o o.lanes
      let done := ((accsOf o.item).flatMap (accParts { o with low := 0, high := 0 })).filter fun a => !left.contains a
      if throughL1 o.item.instr then l1Covered s x.core ctx (done.map fun a => (a.addr, a.len))
      else clearCovered s (done.flatMap (homeRanges x.core o.item))

/-- STORE_PERFORMED: lanes of a store reach their place, or a cache word its homes (R149, R151). -/
def storeStep (s : State) (x : ExecId) (id : Nat) (lanes : LaneSet) (halves : BitVec 2) : State :=
  match s.wg x.core, (s.exec x).bind fun e => (opOf e id).map (e, ·) with
  | some w, some (e, o) =>
    let cache (c : CacheW) (drop : Bool) : State :=
      if o.performed || heldBack x.core e o o.lanes || (e.ops.any fun p => decide (p.id < id) && isStoreI p.item.instr && !doneFor .wg p)
      then s
      else settle ((cacheRange s x.core w.launch.ctx c.all (o.item.kv.getD 0 0).toNat (o.item.kv.getD 1 0).toNat drop).updOp x id
        fun o => { o with performed := true, lanes := 0 }) x
    match o.item.instr with
    | .cwb c => cache c false
    | .cinv c => cache c true
    | i =>
      if !isStoreI i then s
      else
        let ls := withSharers o lanes
        let accs := asked o lanes halves
        if accs.isEmpty || !mayPerform x.core e o ls || !marksFit s x o accs then s
        else
          let s0 := s.serve x.core (unitsOfAccs s x.core o accs)
          let s1 := match i with | .stl t => releaseL1 s0 x.core t.scope | _ => s0
          let s2 := accs.foldl (storeStep1 x w.launch.ctx o) s1
          settle (if s2.crossings = s1.crossings then goodStore s2 x w.launch.ctx id else s2) x
  | _, _ => s

def execStorePerformed (x : ExecId) (op : Nat) (part : LanePart) (s : State) : Host.Outcome State Fault Refusal :=
  .next (storeStep s x op part.lanes part.halves)

-- atomics (R161 to R163)

/-- New value of an operation from the old value and the operand (R161). -/
def newValue (op : AtomOp) (t : Ty) (m x : Nat) : Nat :=
  let a : Word := BitVec.ofNat 64 m
  let b : Word := BitVec.ofNat 64 x
  let fp := tyFp t
  match op with
  | .add => (if fp then float2 t .rne (addX .rne) a b else int2 t false (fun p q => p + q) a b).toNat
  | .min => (if fp then float2 t .rne (fun p q => XReal.ofF (minF p q)) a b
      else int2 t false (fun p q => if p ≤ q then p else q) a b).toNat
  | .max => (if fp then float2 t .rne (fun p q => XReal.ofF (maxF p q)) a b
      else int2 t false (fun p q => if p ≤ q then q else p) a b).toNat
  | .and => (a &&& b).toNat
  | .or => (a ||| b).toNat
  | .xor => (a ^^^ b).toNat
  | .exch => x
  | .inc => if x ≤ m then 0 else m + 1
  | .dec => if m = 0 || decide (x < m) then x else m - 1

/-- Operation, type, `.ra`, and whether old values return. -/
structure AtomKind where
  op : AtomOp
  ty : Ty
  cas : Bool
  ra : Bool
  ret : Bool
  d : VReg
  deriving DecidableEq, Repr

def atomKind : Instr → Option AtomKind
  | .atom w | .atoms w | .atomv w => some ⟨w.op, w.ty, false, w.ra, true, w.d⟩
  | .atomn w => some ⟨w.op, w.ty, false, w.ra, false, w.d⟩
  | .cas w | .cass w | .casv w => some ⟨.exch, w.ty, true, false, true, w.d⟩
  | _ => none

/-- Operand of a lane; for compare-and-swap the expected value, and the swap value. -/
def operandOf (k : AtomKind) (it : Item) (l : Nat) : Nat :=
  if k.cas then rowValue (it.lv.take (it.lv.length / 2)) l else rowValue it.lv l % 2 ^ tyBits k.ty
def swapOf (it : Item) (l : Nat) : Nat := rowValue (it.lv.drop (it.lv.length / 2)) l

/-- Combine operands in an order and grouping that is open: two of them at a time (R162). -/
def combineAny (f : Nat → Nat → Nat) : Nat → List Nat → State → Nat × State
  | 0, xs, s => (xs.headD 0, s)
  | n + 1, xs, s =>
    if xs.length ≤ 1 then (xs.headD 0, s)
    else
      let (i, s1) := s.choose xs.length
      let rest := xs.eraseIdx i
      let (j, s2) := s1.choose rest.length
      combineAny f n (f (xs.getD i 0) (rest.getD j 0) :: rest.eraseIdx j) s2

/-- Lanes of one location in the order that the operation gives them: ascending for compare-and-swap and floating-point adds
without `.ra`, else as the performing unit chooses (R162). -/
def laneOrder (k : AtomKind) (ls order : List Nat) : List Nat :=
  if k.cas || (k.op == .add && tyFp k.ty) then ls
  else (order.filter ls.contains).eraseDups ++ ls.filter fun l => !order.contains l

/-- One location's lanes, one indivisible step: old values and the final value (R162). -/
def runLanes (k : AtomKind) (it : Item) : List Nat → Nat → List (Nat × Nat) × Nat × Bool
  | [], m => ([], m, false)
  | l :: ls, m =>
    let hit := !k.cas || m = operandOf k it l
    let m' := if k.cas then (if m = operandOf k it l then swapOf it l else m) else newValue k.op k.ty m (operandOf k it l)
    let r := runLanes k it ls m'
    ((l, m) :: r.1, r.2.1, hit || r.2.2)

/-- The old value of a lane waits to land (R161, R147). -/
def oldValue (s : State) (x : ExecId) (id : Nat) (k : AtomKind) (lane v : Nat) : State :=
  if k.ret then s.updOp x id fun o => { o with vals := o.vals ++ dst false k.ty k.d lane (BitVec.ofNat 64 v) } else s
def oldValues (s : State) (x : ExecId) (id : Nat) (k : AtomKind) (rs : List (Nat × Nat)) : State :=
  rs.foldl (fun s r => oldValue s x id k r.1 r.2) s

/-- Lanes whose old values are unspecified. -/
def freeValues (s : State) (n : Nat) (ls : List Nat) : List (Nat × Nat) × State :=
  ls.foldl (fun acc l => (acc.1 ++ [(l, leNat (acc.2.takeFree n).1)], (acc.2.takeFree n).2)) ([], s)

/-- Perform the lanes of one local location (R162, R163, R336). A crossing that fails as the unit reads leaves the lanes' values
unspecified; the unit's own copy is then poisoned (R338; log 80). -/
def atomPlace (x : ExecId) (o : Op) (k : AtomKind) (order : List Nat) (ecc : Ecc) (s : State) (h : Nat) (ls : List Nat) : State :=
  let n := tyBytes k.ty
  let s0 := checkUnit (if isDramHome h then l1Clean s x.core h n true else s) x.core h ecc
  let s1 := match ecc with
    | .span => addPoison (logSpan s0 x.core (domainOf h) (if isDramHome h then 7 else domainOf h) (whereOf h)) h n
    | _ => s0
  if poisoned s1 h n then
    let (rs, s2) := freeValues s1 n ls
    oldValues (opPoison s2 x o.id (poisonDomain s1 h n) (whereOf h)) x o.id k rs
  else
    let (now, s1) := readOpen s1 h (readBytes s1.mem h n)
    let m := leNat now
    let (rs, m', wrote, s2) :=
      if k.ra then
        let (sum, s2) := combineAny (newValue .add k.ty) ls.length (ls.map (operandOf k o.item)) s1
        (ls.map (·, m), newValue .add k.ty m sum, true, s2)
      else
        let r := runLanes k o.item (laneOrder k ls order) m
        (r.1, r.2.1, r.2.2, s1)
    let s3 := if wrote then meetSources (placeBytes s2 (some x.core) true h (leBytes n m')) (some (x, o.id)) h n else s2
    let s4 := match narrowOf o with
      | some scope => if wrote then leaveMark s3 { sector := h / 32 * 32, core := x.core, scope, below := o.id } else s3
      | none => s3
    oldValues s4 x o.id k rs

/-- The message of an atomic to a remote window: operand and swap value (R315). -/
def atomMessage (k : AtomKind) (pa operand swap : Nat) : List Byte :=
  leBytes 8 pa ++ leBytes 1 (if k.cas then 15 else (atomCode k.op).toNat) ++ leBytes 1 (tyCode k.ty).toNat ++ leBytes 6 0 ++
    leBytes 8 operand ++ leBytes 8 swap

/-- Lanes of an operation that name a lane's location, that lane first. -/
def sameLoc (core : Nat) (o : Op) (lane : Nat) : List Nat :=
  let accs := accsIn o o.lanes
  match accs.find? (·.lane = lane) with
  | none => []
  | some a => lane :: ((accs.filter fun b => b.lane ≠ lane &&
      locOf core o.item.xl b.space b.addr = locOf core o.item.xl a.space a.addr).map (·.lane))

/-- The lanes of one location: performed here, sent to the location's endpoint, or failed (R162, R163, R295, R296). A message carries one
operand: with `.ra` the combined one goes, else lane after lane (log 89). -/
def atomGroup (x : ExecId) (o : Op) (k : AtomKind) (order : List Nat) (ecc : Ecc) (s : State) (g : Loc × List Acc) : State :=
  match g.1 with
  | .home h => lanesDone (atomPlace x o k order ecc s h (g.2.map (·.lane))) x o.id (laneSet (g.2.map accLane))
  | .remote ep pa =>
    let send (s : State) (a : Acc) (v : Nat) : State :=
      sendRemote s x o.id a.lane 10 ep a.addr (atomMessage k pa v (if k.cas then swapOf o.item a.lane else 0))
    if k.ra && g.2.any fun a => underWay s x o.id a then s
    else if k.ra && g.2.all fun a => remoteOk s o.item a.addr then
      let (sum, s1) := combineAny (newValue .add k.ty) g.2.length (g.2.map fun a => operandOf k o.item a.lane) s
      g.2.head?.elim s1 fun a => send s1 a sum
    else g.2.foldl (fun s a =>
      if underWay s x o.id a then s
      else if remoteOk s o.item a.addr then send s a (operandOf k o.item a.lane)
      else
        let (rs, s1) := freeValues s (tyBytes k.ty) [a.lane]
        lanesDone (failAccess (oldValues s1 x o.id k rs) x o.id ep) x o.id ((1 : LaneSet) <<< a.lane)) s

/-- ATOMIC_PERFORMED: the lanes asked for (all with an empty list) and those that name a location with them (R162). -/
def atomStep (s : State) (x : ExecId) (id : Nat) (order : List Nat) (ecc : Ecc) : State :=
  match s.wg x.core, (s.exec x).bind fun e => (opOf e id).map (e, ·) with
  | some _, some (e, o) =>
    match atomKind o.item.instr with
    | none => s
    | some k =>
      let place (a : Acc) : Loc := locOf x.core o.item.xl a.space a.addr
      let named := if order.isEmpty then o.lanes else laneSet order &&& o.lanes
      let locs := ((accsIn o named).map place).eraseDups
      let accs := (accsIn o o.lanes).filter fun a => locs.contains (place a)
      let ls := laneSet (accs.map accLane)
      if ls = 0 || !mayPerform x.core e o ls || !marksFit s x o accs then s
      else
        let groups := locs.map fun l => (l, accs.filter fun a => place a = l)
        settle (match groups with
          | [] => s
          | g :: gs => gs.foldl (atomGroup x o k order .good)
              (atomGroup x o k order ecc (s.serve x.core (unitsOfAccs s x.core o accs)) g)) x
  | _, _ => s

def execAtomicPerformed (x : ExecId) (op : Nat) (order : List Nat) (ecc : Ecc) (s : State) : Host.Outcome State Fault Refusal :=
  .next (atomStep s x op order ecc)

-- timeouts, the L1 and marks

/-- WAITA_TIMEOUT: the timeout of a sleeping WAITA has passed: cause 2 (R155). -/
def execWaitaTimeout (x : ExecId) (s : State) : Host.Outcome State Fault Refusal :=
  .next (quiesce (wakeWaita s x (fun _ deadline => deadline.elim false fun d => decide (d ≤ s.now x.core)) 2))

/-- SLEEP_TIMEOUT (R234). -/
def execSleepTimeout (x : ExecId) (s : State) : Host.Outcome State Fault Refusal :=
  .next (((s.exec x).map Exec.waits).getD [] |>.foldl (fun s w => match w with
    | .sleep (some d) => if d ≤ s.now x.core then endWait s x w else s
    | _ => s) s)

/-- L1_WRITEBACK: the L1 writes a line back, or also drops it, of its own accord (R149). -/
def execL1Writeback (core ctx line : Nat) (drop : Bool) (s : State) : Host.Outcome State Fault Refusal :=
  .next (quiesce (cacheRange s core ctx false (line * 128) 128 drop))

/-- MARK_EVICTION: a slice evicts a marked sector, or a vault has no room: the promotion comes first (R257). -/
def execMarkEviction (sector : Nat) (s : State) : Host.Outcome State Fault Refusal :=
  .next (let ms := s.marks.filter (·.sector = sector)
    if ms.isEmpty || !ms.all (promotionReady s) then s else quiesce (ms.foldl promote s))

end Sys2Proof.Machine
end

