-- ==== Sys2Proof/Machine/Sync.lean ====
section
/-! DEFINITION. Barriers and event bits as words issue and commit (spec/10 R164 to R167). -/

namespace Sys2Proof.Machine

def execBar (w : BarW) (s : State) : Host.Outcome State Fault Refusal := issueWord (.bar w) w.ctl (captured · []) s
def execGbar (w : GbarW) (s : State) : Host.Outcome State Fault Refusal := issueWord (.gbar w) w.ctl (captured · []) s

def mask4 (v : View) (a : KReg) : List Word := v.e.krun a.toNat 4
def execEvset (w : EvsetW) (s : State) : Host.Outcome State Fault Refusal :=
  issueWord (.evset w) w.ctl (fun v => captured v (mask4 v w.a)) s
def execEvclr (w : EvclrW) (s : State) : Host.Outcome State Fault Refusal :=
  issueWord (.evclr w) w.ctl (fun v => captured v (mask4 v w.a)) s

/-- EVWAIT and EVTEST: an all-zero mask under `.any` is an illegal instruction (R167). -/
def eventEff (a : KReg) (any : Bool) (v : View) : Eff :=
  if v.on && any && maskOf (mask4 v a) = 0 then { cause := some (v.fault 0x02) } else captured v (mask4 v a)
def execEvwait (w : EvwaitW) (s : State) : Host.Outcome State Fault Refusal := issueWord (.evwait w) w.ctl (eventEff w.a w.any) s
def execEvtest (w : EvtestW) (s : State) : Host.Outcome State Fault Refusal := issueWord (.evtest w) w.ctl (eventEff w.a w.any) s

-- commits

/-- A release clears what a FENCE before it said of later narrow writes (R256). -/
def noteRelease (s : State) (x : ExecId) (scope : Option Scope) : State := s.updExec x fun e => { e with relScope := scope }

/-- A word leaves an operation that stands until the accesses before it are performed; its number is the fresh one (R152, R153, R251). -/
def standing (s : State) (x : ExecId) (c : Clause) (it : Item) : State := release s x c .none it 1 []

/-- FENCE: `.acqrel` is an acquire and a release fence, and no more (R153). -/
def commitFence (s : State) (x : ExecId) (c : Clause) (it : Item) (f : FenceW) : State :=
  let s1 := if f.kind == .acqrel then
      standing (standing s x c { it with instr := .fence { f with kind := .acq } }) x c { it with instr := .fence { f with kind := .rel } }
    else standing s x c it
  if f.kind == .acq then s1 else noteRelease s1 x (some f.scope)

/-- EVSET sets its bits at the commit; the release that it is lasts until its operation is done (R167). -/
def commitEvset (s : State) (x : ExecId) (c : Clause) (it : Item) : State :=
  updateEvents (noteRelease (standing s x c it) x none) (clusterOf x.core) (maskOf it.kv) 0 (some ⟨x, s.fresh⟩)
def commitEvclr (s : State) (x : ExecId) (it : Item) : State := updateEvents s (clusterOf x.core) 0 (maskOf it.kv)

/-- GIVE fills its entry at the commit; a decision for a retired warp is discarded (R138). -/
def commitGive (s : State) (x : ExecId) (c : Clause) (it : Item) : State :=
  (noteRelease (standing s x c it) x none).updExec ⟨x.core, (it.kv.getD 1 0).toNat⟩ fun e =>
    if e.retired then e
    else { e with queue := e.queue ++ [{ value := it.kv.getD 0 0, mark := ⟨x, s.fresh⟩, bad := 0 }], queueHeld := e.queueHeld - 1 }
/-- TAKE removes its entry, an acquire from the entry's GIVE (R138). -/
def commitTake (s : State) (x : ExecId) : State :=
  match (s.exec x).bind (·.queue.head?) with
  | none => s
  | some d => acquireFrom (s.updExec x fun e => { e with queue := e.queue.tail }) x .wg [d.mark]

def commitRelease (s : State) (x : ExecId) (c : Clause) (it : Item) (i : ReleaseW) : State :=
  applyRelease (noteRelease (standing s x c it) x none) x i ⟨x, s.fresh⟩

/-- ICINV and TLBINV: the executor waits until the word is complete (R233). -/
def commitInv (s : State) (x : ExecId) (c : Clause) (it : Item) : State := (standing s x c it).updExec x (·.await (.ops [s.fresh]))

/-- WAITA sleeps or ends after its first read; until then its executor waits, and where its wake read is an acquire the accesses that follow
are held for it (R155). -/
def commitWaita (s : State) (x : ExecId) (c : Clause) (it : Item) (i : WaitaW) : Except Bad State :=
  match s.wg x.core with
  | none => .ok s
  | some w => do
    let (xl, s1) ← checkAccs s x w it.g it.idx (accsOf it)
    let s2 := (standing s1 x c { it with xl }).updExec x (·.await (.ops [s1.fresh]))
    .ok (if waitaAcquires i then holdOn s2 x (wakeScope i) s1.fresh else s2)

/-- The arrivals of a barrier complete it: every executor goes on, its acquire pairing with the releases of all (R165, R166). -/
def completeBar (s : State) (here : List (ExecId × Wait × Nat)) : State :=
  let on := here.map fun a => Rel.mk a.1 a.2.2
  here.foldl (fun s a => endHold (endWait s a.1 a.2.1) a.1 a.2.2 on) s

/-- BAR: an arrival, judged against the barrier as it stands (R165). The nth completes it. -/
def commitBar (s : State) (x : ExecId) (c : Clause) (it : Item) (i : BarW) : Except Bad State :=
  match s.wg x.core with
  | none => .ok s
  | some w =>
    let n := i.n.toNat
    let b := (mapGet none w.barriers i.id.toNat)
    if w.launch.nwarps + 1 < n || (b.map (·.count)).getD n ≠ n then
      .error (itemCause x it 0x0A (n + 2 ^ 32 * (b.map (·.count)).getD 0))
    else
      let arrived := (b.map (·.arrived)).getD [] ++ [(x.ctx, i.scope, s.fresh)]
      let s1 := (holdOn (standing (noteRelease s x none) x c it) x i.scope s.fresh).updExec x (·.await (.barrier i.id.toNat))
      if arrived.length < n then
        .ok (s1.updWg x.core fun w => { w with barriers := mapPut none i.id.toNat (some { count := n, arrived }) w.barriers })
      else
        .ok (completeBar (s1.updWg x.core fun w => { w with barriers := mapPut none i.id.toNat none w.barriers })
          (arrived.map fun a => (⟨x.core, a.1⟩, .barrier i.id.toNat, a.2.2)))

/-- Gang number of a workgroup (R270). -/
def gangOf (l : Launch) (wgid : Nat) : Nat := wgid / l.gsize

/-- Complete a gang barrier that every member's headspring has reached, retired ones counting as arrived (R166). -/
def tryGangBar (s : State) (l : Launch) (gang id : Nat) : State :=
  let here := s.gangBars.filter fun a => a.gen = l.gen && a.gang = gang && a.id = id
  let all := (span (gang * l.gsize) l.gsize).all fun g => here.any (·.wgid = g) || s.headsDone.contains (l.gen, g)
  if here.isEmpty || !all then s
  else completeBar { s with gangBars := s.gangBars.filter fun a => !here.contains a }
    (here.map fun a => (⟨a.core, 40⟩, .gbar id a.scope a.op, a.op))

/-- GBAR: the arrival of the workgroup's headspring (R166). -/
def commitGbar (s : State) (x : ExecId) (c : Clause) (it : Item) (i : GbarW) : State :=
  match s.wg x.core with
  | none => s
  | some w =>
    let a : GangArrival := { gen := w.launch.gen, gang := gangOf w.launch w.wgid, id := i.id.toNat, wgid := w.wgid, core := x.core
                             scope := i.scope, op := s.fresh }
    let s1 := holdOn (standing (noteRelease s x none) x c it) x i.scope s.fresh
    tryGangBar ({ s1 with gangBars := s1.gangBars ++ [a] }.updExec x (·.await (.gbar i.id.toNat i.scope a.op))) w.launch a.gang a.id

/-- Does the condition of EVWAIT or EVTEST hold? With `.clr` its bits are then cleared in the same step; the acquire pairs with the EVSETs
of the bits (R167, R252). -/
def testEvents (s : State) (x : ExecId) (mask : BitVec 256) (any clr : Bool) (scope : Scope) : Option State :=
  let k := clusterOf x.core
  if eventMet (eventsOf s k) mask any then
    let s1 := acquireFrom s x scope (eventRelsOf s k mask)
    some (if clr then clearEvents s1 k mask else s1)
  else none

/-- EVWAIT: found to hold at its commit, or the executor waits; it is ready no earlier than the cycle after (R167, R243). -/
def commitEvwait (s : State) (x : ExecId) (it : Item) (i : EvwaitW) : State :=
  match testEvents s x (maskOf it.kv) i.any i.clr i.scope with
  | some s1 => s1.updExec x fun e => { e with readyAt := max e.readyAt (s1.now x.core + 1) }
  | none => holdOn ({ s with fresh := s.fresh + 1 }.updExec x (·.await (.event (maskOf it.kv) i.any i.clr i.scope s.fresh))) x i.scope s.fresh

/-- EVTEST: its result is in place before the executor's next clause (R167). -/
def commitEvtest (s : State) (x : ExecId) (it : Item) (i : EvtestW) : State :=
  let r := testEvents s x (maskOf it.kv) i.any i.clr i.scope
  (r.getD s).updExec x fun e => putCommitted e (.k i.d.toNat (if r.isSome then 1 else 0))

end Sys2Proof.Machine
end

