-- ==== Sys2Proof/Machine/Engine.lean ====
section
/-! DEFINITION. What the engines share: page requests on the engine path, and ranges read and written at their homes (spec/20 R285 and
R289, spec/13 R206, spec/26 R336). -/

namespace Sys2Proof.Machine

/-- The payload of a page request (R289). -/
def pageRequestBytes (r : PageReq) : List Byte :=
  let entry (i : Nat) (p : MissPage) : Nat :=
    p.page * 4096 % 2 ^ 57 + 16 * p.malformed.toNat + 8 * p.fetch.toNat + 4 * p.write.toNat + 2 * p.read.toNat + (if i = 0 then 1 else 0)
  leBytes 4 r.ctx ++ leBytes 4 r.reqid ++ leBytes 8 r.gen ++ leBytes 1 r.pages.length ++ leBytes 1 r.path ++ leBytes 2 0 ++
    leBytes 4 r.wgid ++ (((upto r.pages.length).zip r.pages).flatMap fun q => leBytes 8 (entry q.1 q.2)) ++
    leBytes (8 * (16 - r.pages.length)) 0

/-- Send a page request to the host (R289, R321). Path 0 replay, 1 in place, 2 engine. -/
def sendRequest (s : State) (ctx gen path wgid : Nat) (pages : List MissPage) (who : Asker) : State :=
  let r : PageReq := { reqid := s.fresh % 2 ^ 32, ctx, gen, pages := pages.take 16, path, wgid, who }
  ({ s with fresh := s.fresh + 1, requests := s.requests ++ [r] }.send s.hostId 4 0 (pageRequestBytes r)).raise 1

-- engines that ask for pages after commit (R289): a core's ring unit and work-list unit, a field's index engine
def ringUnit (core : Nat) : Nat := 2 * core
def listUnit (core : Nat) : Nat := 2 * core + 1
def indexUnit (field : Nat) : Nat := 1024 + field

def askerUnit : Asker → Option Nat
  | .op _ n _ => some n
  | _ => none

/-- Does a step wait for the page request that it has sent (R285)? -/
def asking (s : State) (who : Asker) : Bool := s.requests.any (·.who = who)

/-- An engine's step asks for one page and waits; one request at a time for each engine, and for each other asker (R285, R289).
A killed workgroup asks for none: its operations need not complete (R294). -/
def engineMiss (s : State) (l : Launch) (wgid : Nat) (page : MissPage) (who : Asker) : State :=
  if s.requests.any fun r => r.who = who || ((askerUnit who).isSome && askerUnit r.who = askerUnit who) then s
  else if s.busy.any fun p => p.2.phase = .killed && p.2.launch.gen = l.gen && p.2.wgid = wgid then s
  else sendRequest s l.ctx l.ctxGen 2 wgid [page] who

/-- What keeps an engine from a page after commit: no translation, or a permission that the leaf lacks. -/
inductive PageBad where
  | miss (page : MissPage)
  | perm (addr : Nat)
  deriving DecidableEq, Repr

/-- Pages of a global range as an engine translates them after commit (R283). A remote window is reached where `far` allows it. The walk takes
bits 56 to 12 of an address: a spill area's higher bits count for nothing (DESIGN CHOICE, log 81). -/
def enginePages (s : State) (core : Nat) (l : Launch) (addr n : Nat) (rd wr : Bool) (far : Bool := false) :
    Except PageBad (List (Nat × Xlate) × State) :=
  (pagesOf addr n).foldlM (fun (acc : List (Nat × Xlate) × State) p =>
    match coreLookup acc.2 core l.ctx l.root (p * 4096) with
    | (.ok xl, s1) =>
      if (rd && !xl.rd) || (wr && !xl.wr) || xl.remote.elim false (fun r => !far || !permitted s r.1) then .error (.perm (p * 4096))
      else .ok (acc.1 ++ [(p, xl)], s1)
    | (.miss m, _) => .error (.miss { page := p, malformed := m, fetch := false, write := wr, read := rd })) ([], s)

/-- Read a range at its homes, after the core's L1 has written back and dropped its bytes of the sectors (R206, R246, R250); and the domain of
the first unit that is poisoned, 0 for none. -/
def engineRead (s : State) (core : Nat) (xl : List (Nat × Xlate)) (space : Space) (addr n : Nat) : List Byte × Nat × State :=
  (pieces addr n).foldl (fun (acc : List Byte × Nat × State) p =>
    match locOf core xl space p.1 with
    | .home h =>
      let s1 := (l1Clean acc.2.2 core h p.2 true).crossBlock core h
      (acc.1 ++ readBytes s1.mem h p.2, if acc.2.1 = 0 then poisonDomain s1 h p.2 else acc.2.1, s1)
    | .remote _ _ => (acc.1 ++ List.replicate p.2 0, acc.2.1, acc.2.2)) ([], 0, s)

/-- Write a range at its homes (R206); poison is carried with the data, and good data clears the units that it covers whole (R336). -/
def engineStore (s : State) (core : Nat) (xl : List (Nat × Xlate)) (space : Space) (addr : Nat) (bs : List Byte) (bad : Bool := false) :
    State :=
  let homes := (pieces addr bs.length).filterMap fun p => match locOf core xl space p.1 with
    | .home h => some (p, h)
    | .remote _ _ => none
  let s1 := homes.foldl (fun s q => engineWrite s core q.2 ((bs.drop (q.1.1 - addr)).take q.1.2)) s
  if bad then homes.foldl (fun s q => addPoison s q.2 q.1.2) s1
  else if s.poison.isEmpty || s1.crossings ≠ s.crossings then s1
  else clearCovered s1 (homes.map fun q => (q.2, q.1.2))

-- ranges that lie in part in a remote window: messages of at most 2,048 bytes, lane 64 of the operation

/-- The pieces of a range in remote windows: endpoint, its physical address, the virtual address, length. -/
def remoteChunks (xl : List (Nat × Xlate)) (addr n : Nat) : List (Nat × Nat × Nat × Nat) :=
  if n = 0 then []
  else (span (addr / 2048) ((addr + n - 1) / 2048 - addr / 2048 + 1)).filterMap fun c =>
    let lo := max addr (c * 2048)
    let len := min (addr + n) (c * 2048 + 2048) - lo
    match locOf 0 xl .gl lo with
    | .remote ep pa => some (ep, pa, lo, len)
    | .home _ => none

/-- Ask for the remote bytes that ranges still need; none when all are there. An access that fails gives unspecified bytes (R296). -/
def fetchRemote (s : State) (x : ExecId) (o : Op) (ranges : List (Nat × Nat)) : Option State :=
  let need := (ranges.flatMap fun r => remoteChunks o.item.xl r.1 r.2).filter fun c => !(o.got.any (·.addr = c.2.2.1))
  if need.isEmpty then none
  else some (need.foldl (fun s c =>
    let (ep, pa, va, len) := c
    if s.remotes.any fun r => r.x = x && r.op = o.id && r.addr = va then s
    else if remoteOk s o.item va then sendRemote s x o.id 64 1 ep va (leBytes 8 pa ++ leBytes 4 len ++ leBytes 4 0)
    else
      let (bs, s1) := s.takeFree len
      (failAccess s1 x o.id ep).updOp x o.id fun o => { o with got := o.got ++ [{ addr := va, bytes := bs }], failed := true }) s)

/-- Send the remote part of a write; did it have one? -/
def sendWrite (s : State) (x : ExecId) (o : Op) (addr : Nat) (bs : List Byte) : State × Bool :=
  let cs := remoteChunks o.item.xl addr bs.length
  (cs.foldl (fun s c =>
    let (ep, pa, va, len) := c
    if remoteOk s o.item va then
      sendRemote s x o.id 64 0 ep va (leBytes 8 pa ++ leBytes 4 len ++ leBytes 4 0 ++ ((bs.drop (va - addr)).take len))
    else (failAccess s x o.id ep).updOp x o.id fun o => { o with failed := true }) s, !cs.isEmpty)

/-- Are messages of an operation outstanding? -/
def awaited (s : State) (x : ExecId) (id : Nat) : Bool := s.remotes.any fun r => r.x = x && r.op = id

/-- A range as an engine reads it, with what a remote endpoint has sent; and the domain of the first poisoned unit. -/
def readRange (s : State) (core : Nat) (o : Op) (space : Space) (addr n : Nat) : List Byte × Nat × State :=
  (pieces addr n).foldl (fun (acc : List Byte × Nat × State) p =>
    match locOf core o.item.xl space p.1 with
    | .home h =>
      let s1 := (if space == .gl then l1Clean acc.2.2 core h p.2 true else acc.2.2).crossBlock core h
      let (bs, s2) := readOpen s1 h (readBytes s1.mem h p.2)
      (acc.1 ++ bs, if acc.2.1 = 0 then poisonDomain s1 h p.2 else acc.2.1, s2)
    | .remote _ _ =>
      let g := o.got.find? fun g => g.addr ≤ p.1 && p.1 + p.2 ≤ g.addr + g.bytes.length
      (acc.1 ++ ((g.map fun g => (g.bytes.drop (p.1 - g.addr)).take p.2).getD (List.replicate p.2 0)),
       if acc.2.1 = 0 then g.elim 0 (·.bad) else acc.2.1, acc.2.2))
    ([], 0, s)

/-- Update a range at its atomic units: no mark is removed (R163, R204). -/
def engineUpdate (s : State) (core h : Nat) (bs : List Byte) : State :=
  writeHome (l1Clean s core h bs.length true) (some core) true h bs

/-- An operation is performed and its executor moves on. -/
def finishOp (s : State) (x : ExecId) (id : Nat) (bad : Option Nat) (at' : Nat) : State :=
  let s1 := match bad with | some domain => meetPoison s x domain at' | none => s
  settle (s1.updOp x id fun o => { o with performed := true, lanes := 0 }) x

/-- Is an engine of the core frozen by ocx (R332)? -/
def frozen (s : State) (core : Nat) (e : Engine) : Bool := (s.core core).frozen.contains e

/-- What an engine's step does where a page keeps it: it asks for the page; where a permission lacks, the executor takes the permission
fault at its next clause start and the operation ends without its effect (R283; log 10). -/
def engineBad (s : State) (w : Workgroup) (x : ExecId) (id unit : Nat) (b : PageBad) : State :=
  match b with
  | .miss p => engineMiss s w.launch w.wgid p (.op x unit id)
  | .perm a => settle ((s.entry x 0x07 0 a).updOp x id fun o => { o with performed := true, lanes := 0, due := [], vals := [] }) x

/-- Bytes that an executor's clause or commit needs of an endpoint that it cannot reach: the remote-unreachable trap; in the run-ahead, its
end (R287, R296). -/
def failFar (s : State) (x : ExecId) (ep : Nat) : State :=
  if ((s.exec x).bind (·.shadow)).isSome then
    (s.forgetFar x).updExec x fun e => { e with shadow := e.shadow.map fun h => { h with ended := true } }
  else failEntry (s.forgetFar x) x ep

/-- Ask for bytes of another endpoint that an executor's clause or commit needs (R295). -/
def askFar (s : State) (x : ExecId) (ep pa addr len : Nat) : State :=
  if s.remotes.any fun r => r.x = x && r.lane = 65 then s
  else if reachable s ep then sendRemote s x 0 65 1 ep addr (leBytes 8 pa ++ leBytes 4 len ++ leBytes 4 0)
  else failFar s x ep

/-- Send bytes that a commit puts at another endpoint. -/
def askPut (s : State) (x : ExecId) (ep pa addr : Nat) (bs : List Byte) : State :=
  if s.remotes.any fun r => r.x = x && r.lane = 65 then s
  else if reachable s ep then sendRemote s x 0 65 0 ep addr (leBytes 8 pa ++ leBytes 4 bs.length ++ leBytes 4 0 ++ bs)
  else failFar s x ep

/-- An operation of an executor with its workgroup. -/
def opAt (s : State) (x : ExecId) (id : Nat) : Option (Workgroup × Exec × Op) :=
  match s.wg x.core, s.exec x with
  | some w, some e => (opOf e id).map fun o => (w, e, o)
  | _, _ => none

/-- Writes that met a range since the commit of an operation that watches it (R170, R207). -/
def hitsOf (s : State) (x : ExecId) (id : Nat) : List (Nat × Nat) := (s.watches.filter fun q => q.x = x && q.op = id).flatMap (·.hits)
def dropWatches (s : State) (x : ExecId) (id : Nat) : State := { s with watches := s.watches.filter fun q => !(q.x = x && q.op = id) }
/-- Land a k register at an operation's completion. -/
def landK (s : State) (x : ExecId) (d : Nat) (v : Nat) : State :=
  s.updExec x fun e => putCommitted e (.k d (BitVec.ofNat 64 v))

end Sys2Proof.Machine
end

