-- ==== Sys2Proof/Machine/Rings.lean ====
section
/-! DEFINITION. Rings (spec/10 R168 to R170). -/

namespace Sys2Proof.Machine

def execRput (w : RingW) (s : State) : Host.Outcome State Fault Refusal :=
  issueWord (.rput w) w.ctl (fun v => if v.on then rangeItem v w.a w.b else { item := some ([], []) }) s
def execRget (w : RingW) (s : State) : Host.Outcome State Fault Refusal :=
  issueWord (.rget w) w.ctl (fun v => if v.on then rangeItem v w.a w.b else { item := some ([], []) }) s
def execRcur (w : RingW) (s : State) : Host.Outcome State Fault Refusal :=
  issueWord (.rcur w) w.ctl (fun v => if v.on then rangeItem v w.a w.b else {}) s

/-- A ring as its header describes it (R168). -/
structure Ring where
  header : Nat
  base : Nat
  seqbase : Nat
  z : Nat
  n : Nat
  ncons : Nat
  space : Space
  deriving DecidableEq, Repr

def ringSpace (w : RingW) : Space := if w.vt then .vt else .gl

/-- The vault that an address names from a core (R144). -/
def vaultAt (core addr : Nat) : Nat := if vaultOf addr = 63 then clusterOf core else vaultOf addr

/-- A whole ring area lies in its space: the vault of the header, or the virtual addresses (R168). -/
def areaOk (core : Nat) (space : Space) (header addr len : Nat) : Bool :=
  match space with
  | .vt => addr < 2 ^ 32 && (vaultOf addr < 26 || vaultOf addr = 63) && vaultAt core addr = vaultAt core header &&
      addr % 2 ^ 26 + len ≤ 0x3000000
  | _ => addr + len ≤ 2 ^ 57

/-- Read a header's 128 bytes as a ring, or none where it is malformed (R168). -/
def parseRing (core : Nat) (space : Space) (header : Nat) (bs : List Byte) : Option Ring :=
  let num (o n : Nat) := leNat ((bs.drop o).take n)
  let cfg := num 24 8
  let lgz := cfg / 2 ^ 8 % 16
  let lgn := cfg % 32
  let ncons := cfg / 2 ^ 16 % 16
  let r : Ring := { header, base := num 8 8, seqbase := num 16 8, z := 2 ^ lgz, n := 2 ^ lgn, ncons, space }
  if num 32 32 ≠ 0 || cfg / 2 ^ 20 ≠ 0 || cfg / 2 ^ 12 % 16 ≠ 0 || cfg / 2 ^ 5 % 8 ≠ 0 then none
  else if ncons < 1 || 8 < ncons || lgz < 6 || 12 < lgz || lgn < 1 || 16 < lgn then none
  else if r.base % r.z ≠ 0 || r.seqbase % 8 ≠ 0 then none
  else if !areaOk core space header r.base (r.n * r.z) || !areaOk core space header r.seqbase (8 * r.n) then none
  else some r

/-- The header's range: 128 bytes, aligned to 128. In a remote window it is reached at every scope of the word: R163's scope code 6 is asked of
the atomic words alone (DESIGN CHOICE, log 81). -/
def headerAcc (it : Item) (w : RingW) (rd wr : Bool) : Acc :=
  { lane := 32, space := ringSpace w, addr := (it.kv.getD 0 0).toNat, len := 128, align := 128, rd, wr, remote := true
    named := (it.kv.getD 0 0).toNat }

/-- Read a range before a clause's commit: at its homes, or what its endpoint has sent, or ask for it (R295). The range lies in one page. -/
def commitRead (s : State) (x : ExecId) (xl : List (Nat × Xlate)) (space : Space) (addr n : Nat) : Except Bad (List Byte × Nat × State) :=
  match locOf x.core xl space addr with
  | .home _ => .ok (engineRead s x.core xl space addr n)
  | .remote ep pa => match (s.exec x).bind (farBytes · addr n) with
    | some bs => .ok (bs, 0, s)
    | none => .error (.far ep pa addr n)

/-- Checks of a ring word before commit: the header's address, the header, the consumer (R169). A poisoned header is met: its bytes are
unspecified (R336). -/
def ringChecks (s : State) (x : ExecId) (w : Workgroup) (it : Item) (i : RingW) (rd wr : Bool) :
    Except Bad (Ring × List (Nat × Xlate) × State) := do
  let (xl, s1) ← checkAccs s x w it.g it.idx [headerAcc it i rd wr]
  let (bs, bad, s2) ← commitRead s1 x xl (ringSpace i) (it.kv.getD 0 0).toNat 128
  let (bytes, s3) := if bad = 0 then (bs, s2) else
    ((s2.takeFree 128).1, meetPoison (s2.takeFree 128).2 x bad (whereAt x.core xl (ringSpace i) (it.kv.getD 0 0).toNat))
  match parseRing x.core (ringSpace i) (it.kv.getD 0 0).toNat bytes with
  | none => .error (itemCause x it 0x0B)
  | some ring =>
    if ring.ncons ≤ i.cons.toNat then .error (itemCause x it 0x0B) else .ok (ring, xl, s3)

/-- The payload's scratchpad range; the spec asks no alignment of it. -/
def payloadAcc (it : Item) (z : Nat) (rd wr : Bool) : Acc :=
  { lane := 32, space := .sp, addr := (it.kv.getD 1 0).toNat, len := z, align := 1, rd, wr, remote := false, named := (it.kv.getD 1 0).toNat }

def ringWords (r : Ring) : List Word := [BitVec.ofNat 64 r.base, BitVec.ofNat 64 r.seqbase, BitVec.ofNat 64 r.z, BitVec.ofNat 64 r.n,
  BitVec.ofNat 64 r.ncons]
/-- The ring that an operation captured at its commit. -/
def ringOf (it : Item) (w : RingW) : Ring :=
  let f (i : Nat) := (it.kv.getD i 0).toNat
  { header := f 0, base := f 2, seqbase := f 3, z := f 4, n := f 5, ncons := f 6, space := ringSpace w }

/-- Commit of RPUT and RGET (R169). -/
def commitRing (s : State) (x : ExecId) (c : Clause) (it : Item) (i : RingW) (put : Bool) : Except Bad State :=
  let cls := if put then Cls.s else .l
  match s.wg x.core with
  | none => .ok s
  | some w =>
    if !it.on then .ok (release s x c cls it 0 [])
    else do
      let (ring, xl, s1) ← ringChecks s x w it i (!put) put
      let (_, s2) ← checkAccs s1 x w it.g it.idx [payloadAcc it ring.z put (!put)]
      let s3 := release s2 x c cls { it with kv := it.kv.take 2 ++ ringWords ring, xl } 1 [.k i.d.toNat]
      -- writes to the payload's scratchpad bytes before completion are watched; an RPUT awaits those of the executor's earlier words (R170)
      let watch : Watch := { x, op := s2.fresh, cursor := true, lo := spadHome x.core (it.kv.getD 1 0).toNat, len := ring.z, hits := []
                             own := !put }
      let s4 := { s3 with watches := s3.watches ++ [watch] }
      .ok (if put then noteRelease s4 x none else s4)

-- reading and writing ring words

/-- The operation's item knows the pages that its ring unit has translated. -/
def withPages (s : State) (x : ExecId) (id : Nat) (px : List (Nat × Xlate)) : State :=
  s.updOp x id fun o => { o with item := { o.item with xl := px ++ o.item.xl } }

/-- Pages for a range of a ring after commit. -/
def ringPages (s : State) (x : ExecId) (w : Workgroup) (r : Ring) (addr n : Nat) (rd wr : Bool) :
    Except PageBad (List (Nat × Xlate) × State) :=
  match r.space with
  | .gl => enginePages s x.core w.launch addr n rd wr true
  | _ => .ok ([], s)

/-- What a ring unit reads of a range: its bytes and the domain of a poisoned unit; or it waits for its endpoint. -/
inductive RingRead where
  | bytes (bs : List Byte) (bad : Nat) (s : State)
  | waits (s : State)
  deriving DecidableEq, Repr

def ringRead (s : State) (x : ExecId) (id : Nat) (space : Space) (addr n : Nat) : RingRead :=
  match (s.exec x).bind (opOf · id) with
  | none => .waits s
  | some o =>
    match if space == .gl then fetchRemote s x o [(addr, n)] else none with
    | some s1 => .waits s1
    | none => let r := readRange s x.core o space addr n; .bytes r.1 r.2.1 r.2.2
/-- The same for a cursor or a sequence word: a poisoned one is unspecified, and the word's executor takes the cause at its end (R336). -/
def ringWord (s : State) (x : ExecId) (id : Nat) (space : Space) (addr n : Nat) : RingRead :=
  match ringRead s x id space addr n with
  | .bytes bs 0 s1 => .bytes bs 0 s1
  | .bytes bs bad s1 =>
    let xl := (((s1.exec x).bind (opOf · id)).map fun o => o.item.xl).getD []
    .bytes (s1.takeFree bs.length).1 bad (opPoison (s1.takeFree bs.length).2 x id bad (whereAt x.core xl space addr))
  | r => r
/-- Forget what an endpoint has sent for a range: it is read anew. -/
def forgetRead (s : State) (x : ExecId) (id addr n : Nat) : State :=
  s.updOp x id fun o => { o with got := o.got.filter fun g => !rangesMeet g.addr g.bytes.length addr n }

/-- Write a range of a ring: at its homes, or to its endpoint; was a part sent? -/
def ringWrite (s : State) (x : ExecId) (id : Nat) (space : Space) (addr : Nat) (bs : List Byte) (bad : Bool) : State × Bool :=
  match (s.exec x).bind (opOf · id) with
  | none => (s, false)
  | some o =>
    let s1 := engineStore s x.core o.item.xl space addr bs bad
    if space == .gl then sendWrite s1 x o addr bs else (s1, false)

/-- Is slot t mod n free for ticket t, by the bytes of the cursors (R168)? -/
def slotFree (r : Ring) (cursors : List Byte) (t : Nat) : Bool :=
  (upto r.ncons).all fun c => t + 1 ≤ leNat ((cursors.drop (8 * c)).take 8) + r.n

/-- Where the ring of a word lies: its header's place, whatever vault number or virtual address names it (R144, R168). -/
def ringPlace (core : Nat) (it : Item) (w : RingW) : Nat := placeKey (locOf core it.xl (ringSpace w) (it.kv.getD 0 0).toNat)
def ringW : Instr → Option RingW
  | .rput w | .rget w | .rcur w => some w
  | _ => none
/-- Earlier ring words of the executor on the same ring. -/
def earlierRing (core : Nat) (e : Exec) (o : Op) (p : Op → Bool) : Bool :=
  e.ops.any fun q => decide (q.id < o.id) && (ringW q.item.instr).isSome &&
    (ringW q.item.instr).map (ringPlace core q.item) = (ringW o.item.instr).map (ringPlace core o.item) && p q
/-- Does an operation's ring lie in a remote window (R260)? -/
def ringFar (core : Nat) (o : Op) : Bool := (ringW o.item.instr).elim false fun w => decide (2 ^ 60 ≤ ringPlace core o.item w)

/-- Where a ring word lives. -/
def ringLoc (s : State) (x : ExecId) (id : Nat) (space : Space) (addr : Nat) : Loc :=
  locOf x.core ((((s.exec x).bind (opOf · id)).map fun o => o.item.xl).getD []) space addr

/-- The atomic message that adds 1 to a 64-bit word (R161, R315). -/
def addOne (pa : Nat) : List Byte := leBytes 8 pa ++ leBytes 1 0 ++ leBytes 1 (tyCode .n64).toNat ++ leBytes 6 0 ++ leBytes 8 1 ++ leBytes 8 0

/-- Shared units that a ring word's next request goes to: the tail or its cursor, then the cursors, the sequence word and the slot of its
ticket (R169, R247). -/
def ringUnits (core : Nat) (o : Op) : List Nat :=
  match ringW o.item.instr with
  | none => []
  | some i =>
    let r := ringOf o.item i
    let t := o.tag - 1
    let slot := [(r.base + t % r.n * r.z, r.z), (r.seqbase + 8 * (t % r.n), 8)]
    unitsAt (homesOf core o.item r.space (match o.item.instr, o.tag with
      | .rput _, 0 => [(r.header, 8)]
      | .rput _, _ => (r.header + 64, 64) :: slot
      | _, 0 => [(r.header + 64 + 8 * i.cons.toNat, 8)]
      | _, _ => slot))

/-- An RPUT takes its ticket at the atomic unit of the tail, here or at its endpoint (R169). -/
def takeTicket (s : State) (x : ExecId) (o : Op) (r : Ring) : State :=
  match locOf x.core o.item.xl r.space r.header with
  | .home h =>
    let (bs, bad, s1) := engineRead (s.serve x.core (ringUnits x.core o)) x.core o.item.xl r.space r.header 8
    if bad = 0 then (engineUpdate s1 x.core h (leBytes 8 (leNat bs + 1))).updOp x o.id fun o => { o with tag := leNat bs + 1 }
    else
      -- a poisoned tail: the ticket is unspecified, and the word stays as it is (R336)
      let t := leNat (s1.takeFree 8).1
      (opPoison (s1.takeFree 8).2 x o.id bad (whereOf h)).updOp x o.id fun o => { o with tag := t + 1 }
  | .remote ep pa =>
    if remoteOk s o.item r.header then sendRemote s x o.id 64 10 ep r.header (addOne pa)
    else (failAccess s x o.id ep).updOp x o.id fun o => { o with failed := true }

/-- The end of a ring word: k[d], and cause 0x15 where its data was poisoned (R169, R336). -/
def endRing (s : State) (x : ExecId) (id d v : Nat) (bad : Nat) (at' : Nat) : State :=
  let s1 := (landK (dropWatches s x id) x d v).updOp x id fun o => { o with due := [] }
  finishOp s1 x id (if bad = 0 then none else some bad) at'

/-- A ring word some access of which has failed ends: its register is unspecified (R296). -/
def failRing (s : State) (x : ExecId) (id d : Nat) : State := endRing (s.takeFree 8).2 x id d (leNat (s.takeFree 8).1) 0 0

/-- The payload goes to its slot, then the sequence word publishes it (R169, R170): `low` of the operation says that the payload is
written, `high` that the sequence word is. -/
def publishItem (s : State) (x : ExecId) (o : Op) (i : RingW) (r : Ring) (t : Nat) : State :=
  let o := ((s.exec x).bind (opOf · o.id)).getD o
  let sp := spadHome x.core (o.item.kv.getD 1 0).toNat
  if o.high ≠ 0 then endRing s x o.id i.d.toNat t (o.poison.getD 0) (whereOf sp)
  else if o.low ≠ 0 then
    let (s1, sent) := ringWrite s x o.id r.space (r.seqbase + 8 * (t % r.n)) (leBytes 8 (t + 1)) false
    if sent then s1.updOp x o.id fun o => { o with high := 1 }
    else endRing s1 x o.id i.d.toNat t (o.poison.getD 0) (whereOf sp)
  else
    let s1 := releaseL1 (s.serve x.core (ringUnits x.core o)) x.core i.scope
    let bad := poisonDomain s1 sp r.z
    let (bs, s2) := hitBytes (hitsOf s1 x o.id) sp (readBytes s1.mem sp r.z) s1
    let (s3, sent) := ringWrite s2 x o.id r.space (r.base + t % r.n * r.z) bs (bad ≠ 0)
    let s4 := s3.updOp x o.id fun o => { o with low := 1, poison := if bad = 0 then o.poison else some bad }
    if sent then quiesce s4
    else
      let (s5, sent) := ringWrite s4 x o.id r.space (r.seqbase + 8 * (t % r.n)) (leBytes 8 (t + 1)) false
      if sent then quiesce (s5.updOp x o.id fun o => { o with high := 1 })
      else endRing s5 x o.id i.d.toNat t (if bad = 0 then o.poison.getD 0 else bad) (whereOf sp)

/-- An RPUT that has its ticket: its slot must be free, what it releases performed, and no acquire before it may hold back its read of the
payload; then its pages, then the item. -/
def publishTicket (s : State) (x : ExecId) (w : Workgroup) (e : Exec) (o : Op) (i : RingW) (r : Ring) (t : Nat) : State :=
  if o.low ≠ 0 then publishItem s x o i r t
  else match ringWord s x o.id r.space (r.header + 64) 64 with
    | .waits s1 => s1
    | .bytes cursors _ s1 =>
      if !slotFree r cursors t then quiesce (forgetRead s1 x o.id (r.header + 64) 64)
      else if !releaseReady e o.id i.scope || heldBack x.core e o 0 then quiesce s1
      else match ringPages s1 x w r (r.base + t % r.n * r.z) r.z false true with
        | .error p => engineBad s1 w x o.id (ringUnit x.core) p
        | .ok (px, s2) =>
          match ringPages s2 x w r (r.seqbase + 8 * (t % r.n)) 8 false true with
          | .error p => engineBad s2 w x o.id (ringUnit x.core) p
          | .ok (qx, s3) => publishItem (withPages s3 x o.id (px ++ qx)) x o i r t

/-- RING_PUBLISH: an RPUT takes its ticket, and publishes once its slot is free and what it releases is performed (R169, R170). A word that
has its ticket has begun: a freeze does not hold it (R332). -/
def publishStep (s : State) (x : ExecId) (id : Nat) : State :=
  match opAt s x id with
  | none => s
  | some (w, e, o) =>
    match o.item.instr with
    | .rput i =>
      let r := ringOf o.item i
      let noTicket (q : Op) : Bool := match q.item.instr with | .rput _ => q.tag = 0 | _ => false
      if o.performed || awaited s x id || asking s (.op x (ringUnit x.core) id) then s
      else if o.failed then failRing s x id i.d.toNat
      else if o.tag ≠ 0 then publishTicket s x w e o i r (o.tag - 1)
      else if frozen s x.core .ring || heldBack x.core e o 0 (ringFar x.core o) || earlierRing x.core e o noTicket then s
      else
        let s1 := takeTicket s x o r
        match (s1.exec x).bind (opOf · id) with
        | some o1 => if o1.tag = 0 then s1 else publishTicket s1 x w e o1 i r (o1.tag - 1)
        | none => s1
    | _ => s

def execRingPublish (x : ExecId) (op : Nat) (s : State) : Host.Outcome State Fault Refusal := .next (publishStep s x op)

/-- The payload comes into scratchpad, unless an acquire before the word holds that back; bytes of the destination that were written meanwhile
are unspecified (R170). -/
def receiveItem (s : State) (x : ExecId) (e : Exec) (o : Op) (i : RingW) (r : Ring) (p : Nat) : State :=
  if heldBack x.core e o 0 then s
  else match ringRead s x o.id r.space (r.base + p % r.n * r.z) r.z with
  | .waits s1 => s1
  | .bytes bs bad s1 =>
    let sp := spadHome x.core (o.item.kv.getD 1 0).toNat
    let (vals, s2) := hitBytes (hitsOf s1 x o.id) sp bs (acquireL1 s1 x.core i.scope)
    let s2 := s2.serve x.core (ringUnits x.core (((s.exec x).bind (opOf · o.id)).getD o))
    let s3 := engineStore s2 x.core [] .sp (o.item.kv.getD 1 0).toNat vals (bad ≠ 0)
    endRing s3 x o.id i.d.toNat p bad (match ringLoc s1 x o.id r.space (r.base + p % r.n * r.z) with
      | .home h => whereOf h
      | .remote _ pa => pa)

/-- An RGET that has its ticket: the sequence word must publish it, read as an acquire; then the payload's pages, then the payload. -/
def receiveTicket (s : State) (x : ExecId) (w : Workgroup) (e : Exec) (o : Op) (i : RingW) (r : Ring) (p : Nat) : State :=
  let seqAt := r.seqbase + 8 * (p % r.n)
  if o.low ≠ 0 then receiveItem s x e o i r p
  else match ringPages s x w r seqAt 8 true false with
    | .error m => engineBad s w x o.id (ringUnit x.core) m
    | .ok (qx, s1) =>
      let s1 := withPages s1 x o.id qx
      let (s1, free) := match ringLoc s1 x o.id r.space seqAt with
        | .home h => promoteAll s1 x o.id i.scope [(h, 8)]
        | .remote _ _ => (s1, true)
      if !free then quiesce s1
      else match ringWord s1 x o.id r.space seqAt 8 with
      | .waits s2 => s2
      | .bytes q _ s2 =>
        if leNat q ≠ p + 1 then quiesce (forgetRead s2 x o.id seqAt 8)
        else match ringPages s2 x w r (r.base + p % r.n * r.z) r.z true false with
          | .error m => engineBad s2 w x o.id (ringUnit x.core) m
          | .ok (px, s3) =>
            receiveItem ((withPages s3 x o.id px).updOp x o.id fun o => { o with low := 1 }) x e o i r p

/-- RING_RECEIVE: an RGET fixes its ticket, and once its item is published copies the payload in (R169, R170). A word whose cursor has been asked
of its endpoint has begun: a freeze does not hold it (R332). -/
def receiveStep (s : State) (x : ExecId) (id : Nat) : State :=
  match opAt s x id with
  | none => s
  | some (w, e, o) =>
    match o.item.instr with
    | .rget i =>
      let r := ringOf o.item i
      if o.performed || awaited s x id || asking s (.op x (ringUnit x.core) id) then s
      else if o.failed then failRing s x id i.d.toNat
      else if o.tag ≠ 0 then receiveTicket s x w e o i r (o.tag - 1)
      else if (frozen s x.core .ring && o.got.isEmpty) || heldBack x.core e o 0 (ringFar x.core o) then s
      else match ringWord s x id r.space (r.header + 64 + 8 * i.cons.toNat) 8 with
        | .waits s1 => s1
        | .bytes bs _ s1 =>
          receiveTicket ((s1.serve x.core (ringUnits x.core o)).updOp x id fun o => { o with tag := leNat bs + 1 }) x w e { o with tag := leNat bs + 1 } i r (leNat bs)
    | _ => s

def execRingReceive (x : ExecId) (op : Nat) (s : State) : Host.Outcome State Fault Refusal := .next (receiveStep s x op)

/-- A 64-bit ring word before a clause's commit; a poisoned one is met, and unspecified (R336). -/
def commitWord (s : State) (x : ExecId) (xl : List (Nat × Xlate)) (space : Space) (addr : Nat) : Except Bad (Nat × State) := do
  let (bs, bad, s1) ← commitRead s x xl space addr 8
  if bad = 0 then .ok (leNat bs, s1)
  else .ok (leNat (s1.takeFree 8).1, meetPoison (s1.takeFree 8).2 x bad (whereAt x.core xl space addr))

/-- RCUR's search: the first ticket at or above p that is not published, at most `left` on (R169). -/
def advanceCursor (s : State) (x : ExecId) (w : Workgroup) (it : Item) (r : Ring) : Nat → Nat → Nat → Except Bad (Nat × State)
  | 0, q, _ => .ok (q, s)
  | fuel + 1, q, left =>
    if left = 0 then .ok (q, s)
    else do
      let acc : Acc := { lane := 32, space := r.space, addr := r.seqbase + 8 * (q % r.n), len := 8, align := 8, rd := true, wr := false
                         remote := true, named := r.header }
      let (xl, s1) ← checkAccs s x w it.g it.idx [acc]
      let (v, s2) ← commitWord s1 x xl r.space acc.addr
      if v = (q + 1) % 2 ^ 64 then advanceCursor s2 x w it r fuel (q + 1) (left - 1) else .ok (q, s2)

/-- RCUR's update of its cursor at its home, or at its endpoint: sent, and awaited before the clause commits (R169, R295). A poisoned cursor
stays as it is (R336). -/
def putCursor (s : State) (x : ExecId) (xl : List (Nat × Xlate)) (r : Ring) (addr q : Nat) : Except Bad State :=
  match locOf x.core xl r.space addr with
  | .home h => .ok (if poisoned s h 8 then s else engineUpdate s x.core h (leBytes 8 q))
  | .remote ep pa => if ((s.exec x).bind (farBytes · addr 0)).isSome then .ok s else .error (.put ep pa addr (leBytes 8 q))

/-- RCUR: its update is performed before its clause commits, after the executor's earlier RGETs on the ring (R169, R170). -/
def commitRcur (s : State) (x : ExecId) (it : Item) (i : RingW) : Except Bad State :=
  match s.wg x.core, s.exec x with
  | some w, some e => do
    let (ring, xl, s1) ← ringChecks s x w it i true true
    let waits := e.ops.any fun q => match q.item.instr with
      | .rget j => !opComplete q && ringPlace x.core q.item j = ringPlace x.core { it with xl } i
      | _ => false
    if waits then .error .wait
    else
      let cursor := ring.header + 64 + 8 * i.cons.toNat
      let (p, s2) ← commitWord s1 x xl ring.space cursor
      let (q, s2) ← advanceCursor s2 x w it ring (ring.n + 1) p (it.kv.getD 1 0).toNat
      let s3 ← if it.kv.getD 1 0 = 0 then .ok s2 else putCursor s2 x xl ring cursor q
      .ok (landK s3 x i.d.toNat p)
  | _, _ => .ok s

end Sys2Proof.Machine
end

