-- ==== Sys2Proof/Machine/Control.lean ====
section
/-! DEFINITION. Branches, calls and returns, EXIT, decision queues, and words that only take time (spec/07 R133 to R139, spec/05 R81). -/

namespace Sys2Proof.Machine

-- branches (R81, R133, R134)

/-- Target of a B-form word: the clause's header plus 8 times the signed offset (R81). -/
def branchTarget (v : View) (off : BitVec 27) : Nat := wrap 64 (v.c.code.addr + 8 * sext 27 off.toNat)

/-- A transfer to a target that the commit checks. -/
def goTo (target : Nat) (writes : List RegVal := []) : Eff :=
  { target := some target, item := some ([BitVec.ofNat 64 target], []), writes }

/-- A branch: taken when the word executes and its condition holds (R133). -/
def branchEff (off : BitVec 27) (cond : View → Bool) (v : View) : Eff :=
  if v.on && cond v then goTo (branchTarget v off) else {}

/-- BK's codes compare the signed value with zero (R133). -/
def bkHolds (cc : Cond) (k : Word) : Bool := condInt cc (sext 64 k.toNat) 0

def execBra (w : BraW) (s : State) : Host.Outcome State Fault Refusal :=
  issueWord (.bra w) w.ctl (branchEff w.off fun _ => true) s
def execBany (w : BapW) (s : State) : Host.Outcome State Fault Refusal :=
  issueWord (.bany w) w.ctl (branchEff w.off fun v => v.g &&& v.e.ra w.ap.toNat ≠ 0) s
def execBall (w : BapW) (s : State) : Host.Outcome State Fault Refusal :=
  issueWord (.ball w) w.ctl (branchEff w.off fun v => v.g &&& ~~~ v.e.ra w.ap.toNat = 0) s
def execBnone (w : BapW) (s : State) : Host.Outcome State Fault Refusal :=
  issueWord (.bnone w) w.ctl (branchEff w.off fun v => v.g &&& v.e.ra w.ap.toNat = 0) s
def execBk (w : BkW) (s : State) : Host.Outcome State Fault Refusal :=
  issueWord (.bk w) w.ctl (branchEff w.off fun v => bkHolds w.cc (v.e.rk w.k.toNat)) s

/-- LOOP: the counter falls by one, and the branch is taken while it is not zero (R134). -/
def execLoop (w : CallW) (s : State) : Host.Outcome State Fault Refusal :=
  issueWord (.loop w) w.ctl (fun v =>
    let k := v.e.rk w.d.toNat - 1
    if !v.on then {}
    else if k = 0 then { writes := [.k w.d.toNat k] }
    else goTo (branchTarget v w.off) [.k w.d.toNat k]) s

-- calls (R135 to R137)

/-- The link: the fall-through header of the clause (R135). -/
def linkWrite (v : View) (d : KReg) : RegVal := .k d.toNat (BitVec.ofNat 64 v.c.code.after)

def execCall (w : CallW) (s : State) : Host.Outcome State Fault Refusal :=
  issueWord (.call w) w.ctl (fun v => if v.on then goTo (branchTarget v w.off) [linkWrite v w.d] else {}) s

/-- Insert into a rising list of distinct numbers. -/
def insertNat (n : Nat) : List Nat → List Nat
  | [] => [n]
  | m :: ms => if n < m then n :: m :: ms else if n = m then m :: ms else m :: insertNat n ms

/-- The distinct targets of a vector CALLI over the lanes of G, rising, each with its lanes (R136). -/
def callParts (target : Nat → Nat) (g : LaneSet) : List Part :=
  ((lanesOf g).foldl (fun ts l => insertNat (target l) ts) []).map fun t =>
    { target := t, lanes := laneSet ((lanesOf g).filter fun l => target l = t) }

def pairAt (v : View) (a : VReg) (l : Nat) : Nat := (v.e.rv (a.toNat + 1) l).toNat * 2 ^ 32 + (v.e.rv a.toNat l).toNat

/-- The partition stack as the executor, or its shadow, sees it. -/
def partStack (e : Exec) : List PartEntry := match e.shadow with | none => e.parts | some h => h.parts

/-- CALLI (R136): one target behaves as CALL; several push a partition entry and run one partition at a time. The item holds the
targets with their lanes, and the depth that it found. -/
def calliEff (w : CalliW) (v : View) : Eff :=
  if !v.on then {}
  else
    let ps : List Part := if w.u then [{ target := (v.e.rk w.a.toNat).toNat, lanes := v.g }] else callParts (pairAt v w.a) v.g
    let kv := ps.flatMap fun p => [BitVec.ofNat 64 p.target, p.lanes.setWidth 64]
    match ps with
    | [] => {}
    | [p] => { goTo p.target [linkWrite v w.d] with item := some (0 :: kv, []) }
    | p :: rest =>
      let entry : PartEntry := { a0 := v.e.ra0, rest, ret := v.c.code.after }
      { goTo p.target [linkWrite v w.d] with
        item := some (BitVec.ofNat 64 ((partStack v.e).length + 1) :: kv, [])
        part := some { a0 := p.lanes, stack := entry :: partStack v.e } }

def execCalli (w : CalliW) (s : State) : Host.Outcome State Fault Refusal := issueWord (.calli w) w.ctl (calliEff w) s

/-- RET: to k[a], or at a partition's boundary to the next partition, whose target is checked like any other (R136, R137). -/
def retEff (w : RetW) (v : View) : Eff :=
  let target := (v.e.rk w.a.toNat).toNat
  if !v.on then {}
  else match partStack v.e with
    | top :: stack =>
      if top.ret ≠ target then goTo target
      else match top.rest with
        | [] => { goTo target with part := some { a0 := top.a0, stack } }
        | p :: rest => { goTo p.target with part := some { a0 := p.lanes, stack := { top with rest } :: stack } }
    | [] => goTo target

def execRet (w : RetW) (s : State) : Host.Outcome State Fault Refusal := issueWord (.ret w) w.ctl (retEff w) s

/-- EXIT ends the executor when its clause commits (R137). -/
def execExit (w : Ctl) (s : State) : Host.Outcome State Fault Refusal := issueWord (.exit w) w (captured · []) s

-- decision queues (R138)

/-- TAKE (R138): its entry, or the empty aperture when the queue is closed and holds none for it; else it waits at its word. -/
def takeEff (w : TakeW) (v : View) : Eff :=
  if !v.on then {}
  else match v.e.queue[takenSoFar v.e]? with
    | some q => { writes := [.k w.d.toNat q.value, .a w.ap.toNat v.e.ra0], takes := 1, item := some ([], []) }
    | none => if v.e.queueClosed then { writes := [.a w.ap.toNat 0] } else { hold := true }

def execTake (w : TakeW) (s : State) : Host.Outcome State Fault Refusal := issueWord (.take w) w.ctl (takeEff w) s

/-- Is a home warp's queue full, reservations counted (R138)? -/
def queueFull (s : State) (core q : Nat) : Bool :=
  match s.exec ⟨core, q⟩ with
  | none => false
  | some e => !e.retired && decide (16 ≤ e.queue.length + e.queueHeld)

/-- GIVE reserves an entry at issue (R138). -/
def giveEff (w : GiveW) (v : View) : Eff :=
  let q := (v.e.rk w.b.toNat).toNat
  if v.w.launch.nwarps ≤ q then { cause := some (v.fault 0x02) }
  else if queueFull v.s v.x.core q then { hold := true }
  else { item := some ([v.e.rk w.a.toNat, BitVec.ofNat 64 q], []), gives := some q }

def execGive (w : GiveW) (s : State) : Host.Outcome State Fault Refusal := issueWord (.give w) w.ctl (giveEff w) s

-- time (R139)

def execNop (w : Ctl) (s : State) : Host.Outcome State Fault Refusal := issueWord (.nop w) w (fun _ => {}) s
def execStall (w : StallW) (s : State) : Host.Outcome State Fault Refusal :=
  issueWord (.stall w) w.ctl (fun v => if v.on then { extra := w.n.toNat } else {}) s
/-- YIELD: its cycles begin at the commit of its clause (R139). -/
def execYield (w : StallW) (s : State) : Host.Outcome State Fault Refusal :=
  issueWord (.yield w) w.ctl (fun v => if v.on then { item := some ([], []), away := true } else {}) s

-- commits

/-- A cause of a target's check belongs to the branching word (R90). -/
def atWord (x : ExecId) (it : Item) : Bad → Bad
  | .cause c => .cause { c with word := it.idx, tmask := if isHead x.ctx then 0 else it.g }
  | b => b

def liftBad {α : Type} (x : ExecId) (it : Item) : Except Bad α → Except Bad α
  | .error b => .error (atWord x it b)
  | .ok a => .ok a

def frameBad (x : ExecId) (it : Item) (info : Nat) : Bad := itemCause x it 0x04 info

/-- A taken branch, LOOP or RET: its target holds a valid header (R71). -/
def commitTarget (s : State) (x : ExecId) (it : Item) : Except Bad State :=
  match s.wg x.core with
  | none => .ok s
  | some w => liftBad x it (checkTarget s x w.launch (frameBad x it) (it.kv.getD 0 0).toNat)

/-- Check a function entry: its header, its tag, and answer its budget (R135). -/
def checkEntry (s : State) (x : ExecId) (l : Launch) (it : Item) (target : Nat) : Except Bad (Nat × State) := do
  let s1 ← liftBad x it (checkTarget s x l (frameBad x it) target)
  liftBad x it (entryBudget s1 x l (frameBad x it) target)

/-- CALL: the entry and the budget; the headspring compares none (R135). -/
def commitCall (s : State) (x : ExecId) (it : Item) : Except Bad State :=
  match s.wg x.core with
  | none => .ok s
  | some w => do
    let (budget, s1) ← checkEntry s x w.launch it (it.kv.getD 0 0).toNat
    if !isHead x.ctx && w.launch.window < budget then .error (itemCause x it 0x03 w.launch.window) else .ok s1

/-- Targets and lanes of a CALLI's item. -/
def itemParts : List Word → List Part
  | t :: ls :: rest => { target := t.toNat, lanes := ls.setWidth 32 } :: itemParts rest
  | _ => []

/-- CALLI: every target's checks, then the budgets of all, then the depth (R136). -/
def commitCalli (s : State) (x : ExecId) (it : Item) : Except Bad State :=
  match s.wg x.core with
  | none => .ok s
  | some w => do
    let ps := itemParts (it.kv.drop 1)
    let (fails, s1) ← ps.foldlM (fun (acc : LaneSet × State) p => do
      let (budget, s1) ← checkEntry acc.2 x w.launch it p.target
      .ok (if w.launch.window < budget then acc.1 ||| p.lanes else acc.1, s1)) (0, s)
    if !isHead x.ctx && fails ≠ 0 then
      .error (.cause { code := 0x03, info := w.launch.window, tmask := fails, faddr := 0, word := it.idx })
    else if 8 < (it.kv.getD 0 0).toNat then .error (itemCause x it 0x09)
    else .ok s1

/-- Close the decision queues of a core's home warps (R137, R138). -/
def closeQueues (w : Workgroup) : Workgroup :=
  (w.all.filter fun p => isHome p.1).foldl (fun w p => w.setExec p.1 { p.2 with queueClosed := true }) w

/-- EXIT (R137): the block or the slot's part of the round ends once counters have drained, a warp retires, the headspring retires and
counts as arrived at its gang's barriers (R166). -/
def commitExit (s : State) (x : ExecId) : State :=
  match s.wg x.core, s.exec x with
  | some w, some e =>
    if isHead x.ctx then
      let s1 := s.setWg x.core (dropTokens (closeQueues (w.setExec x.ctx { e with retired := true })) x.ctx)
      let s2 := { s1 with headsDone := s1.headsDone ++ [(w.launch.gen, w.wgid)] }
      (upto 4).foldl (fun s id => tryGangBar s w.launch (gangOf w.launch w.wgid) id) s2
    else if isSlot x.ctx then s.setWg x.core (dropTokens (w.setExec x.ctx { e with exiting := true }) x.ctx)
    else if e.aside.isSome then s.setWg x.core (dropTokens (w.setExec x.ctx { e with exiting := true }) x.ctx)
    else
      s.setWg x.core (dropTokens (w.setExec x.ctx { e with retired := true, parts := [], queue := [], queueHeld := 0 }) x.ctx)
  | _, _ => s

/-- YIELD: not eligible for n cycles after the commit (R139). -/
def commitYield (s : State) (x : ExecId) (n : Nat) : State :=
  if n = 0 then s else s.updExec x fun e => { e with readyAt := max e.readyAt (s.now x.core + n + 1) }

end Sys2Proof.Machine
end

