-- ==== Sys2Proof/Machine/Trace.lean ====
section
/-! DEFINITION. The trace ring, its records, and the phases of a stamp record (spec/25 R324 to R329). -/

namespace Sys2Proof.Machine

/-- The 16-byte header of a record (R326). -/
def traceHead (ty field flags engine gen : Nat) : List Byte :=
  leBytes 1 ty ++ leBytes 1 field ++ leBytes 2 flags ++ leBytes 4 engine ++ leBytes 8 gen

/-- Append a record to the trace ring, or drop and count it when the ring is full (R325). A record whose page cannot be written is
dropped and counted: the spec names no path for it (log 12). -/
def traceWrite (s : State) (bs : List Byte) : State :=
  match s.trace with
  | none => s
  | some t =>
    let dropIt : State := writeHome { s with trace := some { t with drops := t.drops + 1 }, traceDrops := s.traceDrops + 1 } none false (t.desc + 32)
      (leBytes 8 (t.drops + 1))
    let head := readNat s.mem (t.desc + 24) 8
    let va := t.base + 64 * (t.tail % 2 ^ t.lgsize)
    if 2 ^ t.lgsize + head < t.tail + 1 then dropIt
    else
      match ctxDesc s t.ctx with
      | none => dropIt
      | some d =>
        match walk s t.ctx d.root va with
        | .miss _ => dropIt
        | .ok xl =>
          if !xl.wr || xl.remote.isSome then dropIt
          else
            let s1 := writeHome s none false (xl.pfn * 4096 + va % 4096) bs
            writeHome { s1 with trace := some { t with tail := t.tail + 1 } } none false (t.desc + 16) (leBytes 8 (t.tail + 1))

/-- Is tracing on for a workgroup's tile task (R325)? -/
def traced (s : State) (l : Launch) : Bool :=
  match s.trace with
  | none => false
  | some t => t.qmask / 2 ^ l.queue % 2 = 1

/-- Header of a record of a tile task: its core and launch generation (R324). -/
def coreHead (ty flags core : Nat) (l : Launch) : List Byte := traceHead ty (fieldOf core) flags core l.gen

/-- A program mark (R328). -/
def markRecord (x : ExecId) (w : Workgroup) (clause : Nat) (it : Item) : List Byte :=
  coreHead 2 0 x.core w.launch ++ leBytes 8 it.clock ++ leBytes 8 (it.kv.getD 0 0).toNat ++ leBytes 4 x.ctx ++ leBytes 4 w.wgid ++
    leBytes 8 clause ++ leBytes 16 0

/-- A count relative to placement as a stamp record holds it (R327). -/
def phaseCount (place : Nat) : Option Nat → Nat
  | none => 0xFFFFFFFF
  | some c => min (c - place) 0xFFFFFFFE

/-- The stamp record of a placement; `save` sets flag bit 0 (R327). -/
def stampRecord (core : Nat) (w : Workgroup) (save : Bool) : List Byte :=
  let p := w.stamps
  coreHead 1 save.toNat core w.launch ++ leBytes 8 p.place ++
    ([p.cin0, p.cin1, p.owait, p.cmp0, p.cmp1, p.cout0, p.cout1].flatMap fun c => leBytes 4 (phaseCount p.place c)) ++
    leBytes 4 w.wgid ++ leBytes 4 p.restores ++ leBytes 4 0

def writeStamp (s : State) (core : Nat) (save : Bool) : State :=
  match s.wg core with
  | none => s
  | some w => if traced s w.launch then traceWrite s (stampRecord core w save) else s

def stampPhase (s : State) (core : Nat) (f : Stamps → Nat → Stamps) : State :=
  s.updWg core fun w => { w with stamps := f w.stamps (s.now core) }

-- sync packets (R329)

/-- Does a field owe a sync packet in this cycle? -/
def syncDue (f : Field) : Bool := f.changed || (f.count ≠ 0 && f.count % 2 ^ 20 = 0 && f.synced ≠ f.count)

/-- A sync record: flag bit 1 periodic, bit 2 a frequency change. -/
def syncRecord (n : Nat) (f : Field) (time : Nat) : List Byte :=
  let periodic := f.count ≠ 0 && f.count % 2 ^ 20 = 0
  traceHead 3 n (2 * periodic.toNat + 4 * f.changed.toNat) 0xFFFFFFFF 0 ++ leBytes 8 f.count ++ leBytes 8 (time / 4) ++
    leBytes 4 (f.step * 250000) ++ leBytes 28 0

/-- Is the sync packet of the field's present cycle out? It may carry no further change (R329). -/
def packetOut (f : Field) : Bool := f.synced = f.count

def syncPacket (s : State) (n : Nat) : State :=
  let f := s.field n
  if n < s.fieldsUp && syncDue f then
    (traceWrite s (syncRecord n f s.time)).setField n
      { f with changed := false, synced := f.count }
  else s

/-- SYNC_PACKET (R329). -/
def execSyncPacket (field : Nat) (s : State) : Host.Outcome State Fault Refusal := .next (syncPacket s field)

/-- A field's clock takes a new step, and a sync packet is due (R329, R349). -/
def setClock (s : State) (n step : Nat) : State :=
  let f := s.field n
  if f.step = step then s else s.setField n { f with step, changed := true }

end Sys2Proof.Machine
end

