-- ==== Sys2Proof/Machine/System.lean ====
section
/-! DEFINITION. The system words (spec/15 R224 to R234). -/

namespace Sys2Proof.Machine

def execTrap (w : TrapW) (s : State) : Host.Outcome State Fault Refusal := issueWord (.trap w) w.ctl (captured · []) s
/-- BKPT stops its executor before its clause issues, while breakpoints are armed; as a word it does nothing (R227). -/
def execBkpt (w : TrapW) (s : State) : Host.Outcome State Fault Refusal := issueWord (.bkpt w) w.ctl (fun _ => {}) s
/-- RFT outside handler state is an illegal instruction (R224). -/
def execRft (w : RftW) (s : State) : Host.Outcome State Fault Refusal :=
  issueWord (.rft w) w.ctl (fun v => if v.on && !v.e.handler then { cause := some (v.fault 0x02) } else captured v []) s

/-- Mask of the entry causes that are pending (R232). -/
def pendMask (e : Exec) : Nat := (upto 64).foldl (fun m c => if e.entries.any (·.code = c) then m + 2 ^ c else m) 0

/-- A privileged register (R232). Cycles left of the watchdog are cycles of the nominal 4.00 GHz (R6). -/
def privileged (s : State) (x : ExecId) (w : Workgroup) (e : Exec) (sr : Nat) : Word :=
  BitVec.ofNat 64 (match sr with
    | 0x80 => w.launch.ctxbase + 4 * 2 ^ 20 * w.wgid
    | 0x81 => w.launch.handler
    | 0x82 => frameAddr w x.ctx
    | 0x83 => (s.core x.core).corrected
    | 0x84 => w.wdogLeft
    | 0x85 => pendMask e
    | _ => 0)

/-- MOVP: a number that names no privileged register, or a use outside handler state, is an illegal instruction (R224, R232). -/
def execMovp (w : MovpW) (s : State) : Host.Outcome State Fault Refusal :=
  issueWord (.movp w) w.ctl (fun v =>
    if !v.on then {}
    else if !v.e.handler then { cause := some (v.fault 0x02) }
    else { writes := [.k w.d.toNat (privileged v.s v.x v.w v.e w.sr.toNat)] }) s

def rangeWord (w : InvW) (v : View) : Eff := captured v [v.e.rk w.a.toNat, v.e.rk w.b.toNat]
def execIcinv (w : InvW) (s : State) : Host.Outcome State Fault Refusal := issueWord (.icinv w) w.ctl (rangeWord w) s
def execTlbinv (w : InvW) (s : State) : Host.Outcome State Fault Refusal := issueWord (.tlbinv w) w.ctl (rangeWord w) s
def execStamp (w : KaW) (s : State) : Host.Outcome State Fault Refusal :=
  issueWord (.stamp w) w.ctl (fun v => captured v [v.e.rk w.a.toNat]) s
/-- SLEEP: bits above the count must be zero (R234). -/
def execSleep (w : KaW) (s : State) : Host.Outcome State Fault Refusal :=
  issueWord (.sleep w) w.ctl (fun v =>
    if v.on && (v.e.rk w.a.toNat).toNat / 2 ^ 32 ≠ 0 then { cause := some (v.fault 0x02) }
    else captured v [v.e.rk w.a.toNat]) s

-- commits

/-- TRAP: code 0x01 becomes pending with the word's G (R226). -/
def commitTrap (s : State) (x : ExecId) (it : Item) (i : TrapW) : State :=
  s.updExec x fun e => addEntry e { code := 0x01, info := i.n.toNat, tmask := if isHead x.ctx then 0 else it.g, faddr := 0, here := e.handler }

/-- RFT's resume address: whatever is wrong with it is the clause-frame fault, info 5 (R231). -/
def resumeBad (x : ExecId) (it : Item) : Except Bad State → Except Bad State
  | .error (.cause _) => .error (frameBad x it 5)
  | r => r

/-- RFT (R231): the frame is read once the stores of the executor's earlier clauses are performed; a check that fails is a cause in handler
state. -/
def commitRft (s : State) (x : ExecId) (c : Clause) (it : Item) (i : RftW) : Except Bad State :=
  match s.wg x.core, s.exec x with
  | some w, some e =>
    if e.ops.any fun o => isStoreI o.item.instr && o.seq ≠ c.seq && !doneFor .wg o then .error .wait
    else do
      let at' := frameAddr w x.ctx + 16
      let n := if i.pools then 2544 else 104
      let (xl, s1) ← checkAccs s x w it.g it.idx
        [{ lane := 32, space := .gl, addr := at', len := n, align := 8, rd := true, wr := false, remote := false, named := at' }]
      let (bs, bad, s2) := engineRead s1 x.core xl .gl at' n
      let s3 := if bad ≠ 0 then meetPoison s2 x bad (whereAt x.core xl .gl at') else s2
      let s4 ← resumeBad x it (checkTarget s3 x w.launch (frameBad x it) (leNat (bs.take 8)))
      let a0 : LaneSet := BitVec.ofNat 32 (leNat ((bs.drop 28).take 4)) &&& e.base
      if !isHead x.ctx && a0 = 0 then .error (itemCause x it 0x02)
      else
        .ok (s4.updWg x.core fun w => match w.exec x.ctx with
          | some e => returnFrom w x.ctx e bs i.pools
          | none => w)
  | _, _ => .ok s

/-- STAMP writes its mark when its clause commits, while tracing is on for the tile task (R328). -/
def commitStamp (s : State) (x : ExecId) (c : Clause) (it : Item) : State :=
  match s.wg x.core with
  | none => s
  | some w => if traced s w.launch then traceWrite s (markRecord x w c.code.addr it) else s

def commitSleep (s : State) (x : ExecId) (it : Item) : State :=
  let n := (it.kv.getD 0 0).toNat
  s.updExec x fun e => e.await (.sleep (if n = 2 ^ 32 - 1 then none else some (s.now x.core + n)))

end Sys2Proof.Machine
end

