-- ==== Sys2Proof/Machine/WorkList.lean ====
section
/-! DEFINITION. Work-lists (spec/10 R171 to R173). -/

namespace Sys2Proof.Machine

/-- A work-list word with the header address, and its values for the pushes. -/
def listEff (v : View) (a : KReg) (rows : List (List Lane)) : Eff := { item := some ([v.e.rk a.toNat], rows) }

def execWlsort (w : KaW) (s : State) : Host.Outcome State Fault Refusal :=
  issueWord (.wlsort w) w.ctl (fun v => captured v [v.e.rk w.a.toNat]) s
def execWlpush (w : WlpushW) (s : State) : Host.Outcome State Fault Refusal :=
  issueWord (.wlpush w) w.ctl (fun v => listEff v w.a [v.e.vrow w.b.toNat]) s
def execWlpop (w : WlpopW) (s : State) : Host.Outcome State Fault Refusal :=
  issueWord (.wlpop w) w.ctl (fun v => listEff v w.a []) s
def execWlins (w : WlpushW) (s : State) : Host.Outcome State Fault Refusal :=
  issueWord (.wlins w) w.ctl (fun v => listEff v w.a [v.e.vrow w.b.toNat]) s
def execWlcnt (w : KdaW) (s : State) : Host.Outcome State Fault Refusal :=
  issueWord (.wlcnt w) w.ctl (fun v => captured v [v.e.rk w.a.toNat]) s

-- binding (R171)

/-- Read a header's 64 bytes as a work-list, or none where it is malformed. -/
def parseList (header : Nat) (bs : List Byte) : Option WorkList :=
  let num (o n : Nat) := leNat ((bs.drop o).take n)
  let spill := num 0 8
  let cap := num 8 4
  let bm := num 16 8
  let addr := bm % 2 ^ 32
  let present := bm / 2 ^ 63 = 1
  if num 12 4 ≠ 0 || num 24 40 ≠ 0 || bm / 2 ^ 32 % 2 ^ 31 ≠ 0 || cap % 1024 ≠ 0 then none
  else if (if cap = 0 then spill ≠ 0 else spill % 4096 ≠ 0) then none
  else if (if present then addr % 2 ^ 21 ≠ 0 || 26 ≤ vaultOf addr || 0x3000000 ≤ addr % 2 ^ 26 else addr ≠ 0) then none
  else some { header, spill, spillcap := cap, bitmap := if present then some addr else none, store := [], spilled := [] }

/-- The list that a word names: the bound one, or the header it binds. Another address, or a header out of place, is a descriptor
fault. -/
def bindList (s : State) (x : ExecId) (w : Workgroup) (it : Item) : Except Bad (WorkList × State) :=
  let header := (it.kv.getD 0 0).toNat
  match w.worklist with
  | some l => if l.header = header then .ok (l, s) else .error (itemCause x it 0x0B)
  | none =>
    if header % 64 ≠ 0 || w.launch.spsize < header + 64 then .error (itemCause x it 0x0B)
    else
      let r := engineRead s x.core [] .sp header 64
      -- a poisoned header is met: its bytes are unspecified (R336)
      let (bytes, s1) := if r.2.1 = 0 then (r.1, s) else
        ((s.takeFree 64).1, meetPoison (s.takeFree 64).2 x r.2.1 (whereOf (spadHome x.core header)))
      match parseList header bytes with
      | none => .error (itemCause x it 0x0B)
      | some l => .ok (l, s1.updWg x.core fun w => { w with worklist := some l })

def setList (s : State) (core : Nat) (l : WorkList) : State := s.updWg core fun w => { w with worklist := some l }

def held (l : WorkList) : Nat := l.store.length + l.spilled.length

def isListI : Instr → Bool
  | .wlpush _ | .wlpop _ | .wlins _ => true
  | _ => false
def isPushI : Instr → Bool
  | .wlpush _ | .wlins _ => true
  | _ => false

/-- Committed work-list words of a workgroup that are not performed, in commit order. -/
def listOps (w : Workgroup) : List (Nat × Op) :=
  let all := w.all.flatMap fun p => (p.2.ops.filter fun o => isListI o.item.instr && !o.performed).map (p.1, ·)
  all.foldr (fun q acc => (acc.takeWhile fun r => r.2.id < q.2.id) ++ q :: (acc.dropWhile fun r => r.2.id < q.2.id)) []

def pendingPushes (w : Workgroup) : Nat :=
  ((listOps w).map fun q => if isPushI q.2.item.instr then laneCount q.2.item.g else 0).foldl (· + ·) 0

/-- Commit of WLPUSH, WLINS and WLPOP (R172). -/
def commitList (s : State) (x : ExecId) (c : Clause) (it : Item) : Except Bad State :=
  let cls := if isPushI it.instr then Cls.s else .l
  match s.wg x.core with
  | none => .ok s
  | some w =>
    if !it.on then .ok (release s x c cls it 0 [])
    else do
      let (l, s1) ← bindList s x w it
      match it.instr with
      | .wlpop i =>
        .ok (release s1 x c cls it it.g (.a i.ap.toNat :: (lanesOf it.g).map fun n => .v i.d.toNat n))
      | i =>
        let noMap := match i with | .wlins _ => l.bitmap.isNone | _ => false
        if noMap then .error (itemCause x it 0x0B)
        else if 4096 + l.spillcap < laneCount it.g + held l + pendingPushes w then .error (itemCause x it 0x0C (held l))
        else .ok (noteRelease (release s1 x c cls it it.g []) x none)

-- the spill area: the layout of the entries in it is the device's, and open (R171)

/-- Pages of the spill area that hold n entries; which ones is open. -/
def spillPlaces (s : State) (l : WorkList) (n : Nat) : List Nat × State :=
  let pages := max 1 (l.spillcap / 1024)
  let (i, s1) := s.choose pages
  ((upto ((n + 1023) / 1024)).map fun j => l.spill + 4096 * ((i + j) % pages), s1)

/-- Translate pages of the spill area, all of them before the first entry moves. -/
def spillPages (s : State) (core : Nat) (w : Workgroup) (pages : List Nat) (rd : Bool) : Except PageBad (List (Nat × Xlate) × State) :=
  pages.foldlM (fun acc addr => do
    let (xl, s1) ← enginePages acc.2 core w.launch addr 4096 rd (!rd)
    .ok (acc.1 ++ xl, s1)) ([], s)

/-- Write n entries to the spill area: its bytes there are unspecified. -/
def spillOut (s : State) (core : Nat) (w : Workgroup) (l : WorkList) (n : Nat) : Except PageBad State := do
  let (pages, s1) := spillPlaces s l n
  let (xl, s2) ← spillPages s1 core w pages false
  .ok ((pages.foldl (fun (acc : State × Nat) addr =>
    let len := 4 * min acc.2 1024
    let (bs, s3) := acc.1.takeFree len
    (engineStore s3 core xl .gl addr bs, acc.2 - 1024)) (s2, n)).1)

/-- Unspecified entries. -/
def freeEntries (s : State) : List Lane → List Lane × State
  | [] => ([], s)
  | _ :: xs =>
    let r := freeEntries (s.takeFree 4).2 xs
    (BitVec.ofNat 32 (leNat (s.takeFree 4).1) :: r.1, r.2)

/-- Read entries back from the spill area. Where a page that they come from is poisoned, they are unspecified, and the executor that the unit
serves takes the cause (R336). -/
def refillIn (s : State) (x : Option ExecId) (core : Nat) (w : Workgroup) (l : WorkList) (es : List Lane) : Except PageBad (List Lane × State) := do
  let (pages, s1) := spillPlaces s l es.length
  let (xl, s2) ← spillPages s1 core w pages true
  let bad := pages.foldl (fun d addr => if d = 0 then (engineRead s2 core xl .gl addr (4 * min es.length 1024)).2.1 else d) 0
  if bad = 0 then .ok (es, s2)
  else
    let (vals, s3) := freeEntries s2 es
    .ok (vals, match x with
      | some x => meetPoison s3 x bad (whereAt core xl .gl (pages.headD 0))
      | none => logError s3 1 bad 0 core (whereAt core xl .gl (pages.headD 0)) w.launch.gen)

/-- Append entries: to the store while it has room and nothing is spilled, else to the spill area, which is refilled from first when
it has no room. -/
def appendAll (s : State) (x : ExecId) (w : Workgroup) (l0 : WorkList) (xs : List Lane) : Except PageBad (WorkList × State) := do
  let back := !l0.spilled.isEmpty && decide (l0.spillcap < l0.spilled.length + xs.length)
  let n := if back then 4096 - l0.store.length else 0
  let (es, s0) ← if back then refillIn s (some x) x.core w l0 (l0.spilled.take n) else .ok ([], s)
  let l : WorkList := { l0 with store := l0.store ++ es, spilled := l0.spilled.drop n }
  let room := if l.spilled.isEmpty then 4096 - l.store.length else 0
  let rest := xs.drop room
  let s1 ← if rest.isEmpty then .ok s0 else spillOut s0 x.core w l rest.length
  .ok ({ l with store := l.store ++ xs.take room, spilled := l.spilled ++ rest }, s1)

/-- Test and set, or clear, a bit of the bitmap: a vault atomic (R163). The old bit; a poisoned byte gives an unspecified one. -/
def bitAt (s : State) (x : ExecId) (bitmap v : Nat) (set : Bool) : Bool × State :=
  match locOf x.core [] .vt (bitmap + v / 8) with
  | .remote _ _ => (false, s)
  | .home h =>
    if poisoned s h 1 then
      let (i, s1) := s.choose 2
      (i = 1, meetPoison s1 x (poisonDomain s h 1) (whereOf h))
    else
      let b := readNat s.mem h 1
      let old := b / 2 ^ (v % 8) % 2 = 1
      let new := if set then (if old then b else b + 2 ^ (v % 8)) else (if old then b - 2 ^ (v % 8) else b)
      (old, engineUpdate s x.core h (leBytes 1 new))

/-- The values that a WLINS appends, lane after lane (R172). -/
def inserted (x : ExecId) (bitmap : Nat) : List Lane → State → List Lane × State
  | [], s => ([], s)
  | v :: vs, s =>
    if 2 ^ 24 ≤ v.toNat then
      let r := inserted x bitmap vs s
      (v :: r.1, r.2)
    else
      let (old, s1) := bitAt s x bitmap v.toNat true
      let r := inserted x bitmap vs s1
      (if old then r.1 else v :: r.1, r.2)

/-- One work-list word is performed, or what keeps it. -/
def listEffect (s : State) (w : Workgroup) (l : WorkList) (x : ExecId) (o : Op) : Except PageBad State :=
  let vals := (lanesOf o.item.g).map fun n => (o.item.lv.getD 0 []).getD n 0
  match o.item.instr with
  | .wlpush _ => do
    let (l1, s1) ← appendAll s x w l vals
    .ok (setList s1 x.core l1)
  | .wlins _ => do
    let r := inserted x (l.bitmap.getD 0) vals s
    let (l1, s1) ← appendAll r.2 x w l r.1
    .ok (setList s1 x.core l1)
  | .wlpop i => do
    let ls := (lanesOf o.item.g).take (held l)
    let short := ls.length - l.store.length
    let (es, s1) ← if short = 0 then .ok ([], s) else refillIn s (some x) x.core w l (l.spilled.take short)
    let popped := (l.store ++ es).take ls.length
    let s2 := match l.bitmap with
      | none => s1
      | some b => popped.foldl (fun s v => if v.toNat < 2 ^ 24 then (bitAt s x b v.toNat false).2 else s) s1
    let l1 : WorkList := { l with store := l.store.drop ls.length, spilled := l.spilled.drop short }
    let vs : List RegVal := .a i.ap.toNat (laneSet ls) :: (ls.zip popped).map fun p => .v i.d.toNat p.1 p.2
    .ok ((setList s2 x.core l1).updOp x o.id fun o => { o with vals := vs, due := vs.map RegVal.key })
  | _ => .ok s

/-- WORK_LIST_PERFORM: the unit performs the workgroup's oldest committed word (R172). A push is a release at workgroup scope. A word that waits
for a page of the spill area has begun: `sent` keeps it, and a freeze does not hold it (R285, R332). -/
def listStep (s : State) (core : Nat) : State :=
  match s.wg core with
  | none => s
  | some w =>
    match listOps w, w.worklist with
    | q :: _, some l =>
      let x : ExecId := ⟨core, q.1⟩
      match s.exec x with
      | none => s
      | some e =>
        if asking s (.op x (listUnit core) q.2.id) || (frozen s core .workList && !q.2.sent) || heldBack core e q.2 0 ||
            (isPushI q.2.item.instr && !releaseReady e q.2.id .wg) then s
        else match listEffect s w l x q.2 with
          | .error p => engineBad (s.updOp x q.2.id fun o => { o with sent := true }) w x q.2.id (listUnit core) p
          | .ok s1 => finishOp s1 x q.2.id none 0
    | _, _ => s

def execWorkListPerform (core : Nat) (s : State) : Host.Outcome State Fault Refusal := .next (listStep s core)

/-- WORK_LIST_SPILL: the hardware moves n entries between the store and the spill area of its own accord (R171). -/
def spillStep (s : State) (core n : Nat) (refill : Bool) : State :=
  match s.wg core with
  | none => s
  | some w =>
    match w.worklist with
    | none => s
    | some l =>
      if frozen s core .workList || asking s (.op ⟨core, 40⟩ (listUnit core) 0) then s
      else if refill then
        let k := min n (min l.spilled.length (4096 - l.store.length))
        if k = 0 then s
        else match refillIn s none core w l (l.spilled.take k) with
          | .error (.miss p) => engineMiss s w.launch w.wgid p (.op ⟨core, 40⟩ (listUnit core) 0)
          | .error (.perm _) => s
          | .ok (es, s1) => setList s1 core { l with store := l.store ++ es, spilled := l.spilled.drop k }
      else
        let k := min n (min l.store.length (l.spillcap - l.spilled.length))
        if k = 0 then s
        else match spillOut s core w l k with
          | .error (.miss p) => engineMiss s w.launch w.wgid p (.op ⟨core, 40⟩ (listUnit core) 0)
          | .error (.perm _) => s
          | .ok s1 =>
            let keep := l.store.length - k
            quiesce (setList s1 core { l with store := l.store.take keep, spilled := l.store.drop keep ++ l.spilled })

def execWorkListSpill (core n : Nat) (refill : Bool) (s : State) : Host.Outcome State Fault Refusal :=
  .next (spillStep s core n refill)

/-- Rising order of values; equal values cannot be told apart (R173). -/
def sortLanes (xs : List Lane) : List Lane :=
  xs.foldr (fun v acc => (acc.takeWhile fun u => u.toNat < v.toNat) ++ v :: (acc.dropWhile fun u => u.toNat < v.toNat)) []

/-- WLCNT and WLSORT commit once every word committed before their clause is performed (R172, R173). Words of the clause itself are released
at its commit, after them (DEDUCED, log 34). -/
def commitListNow (s : State) (x : ExecId) (c : Clause) (it : Item) (f : Workgroup → WorkList → State → Except Bad State) : Except Bad State :=
  match s.wg x.core with
  | none => .ok s
  | some w => do
    let (l, s1) ← bindList s x w it
    let before := (listOps w).filter fun q => !(q.1 = x.ctx && q.2.seq = c.seq)
    if !before.isEmpty || frozen s1 x.core .workList then .error .wait else f w l s1

def commitWlcnt (s : State) (x : ExecId) (c : Clause) (it : Item) (i : KdaW) : Except Bad State :=
  commitListNow s x c it fun _ l s => .ok (landK s x i.d.toNat (held l))

/-- What keeps an engine from a page before a commit: its request goes out, or the word takes the permission fault (R171, R283). -/
def pageBad {α : Type} (x : ExecId) (it : Item) (unit : Nat) : Except PageBad α → Except Bad α
  | .ok a => .ok a
  | .error (.miss p) => .error (.page unit p)
  | .error (.perm a) => .error (itemCause x it 0x07 0 a)

/-- WLSORT: spilled entries come from the spill area and go back to it (R171, R173). -/
def commitWlsort (s : State) (x : ExecId) (c : Clause) (it : Item) : Except Bad State :=
  commitListNow s x c it fun w l s => do
    if asking s (.op x (listUnit x.core) c.seq) then .error .wait else pure ()
    let (es, s1) ← if l.spilled.isEmpty then .ok ([], s) else pageBad x it (listUnit x.core) (refillIn s (some x) x.core w l l.spilled)
    let s2 ← if l.spilled.isEmpty then .ok s1 else pageBad x it (listUnit x.core) (spillOut s1 x.core w l l.spilled.length)
    let all := sortLanes (l.store ++ es)
    .ok (setList s2 x.core { l with store := all.take l.store.length, spilled := all.drop l.store.length })

end Sys2Proof.Machine
end

