-- ==== Sys2Proof/Machine/Shapes.lean ====
section
/-! DEFINITION. Shapes, and the matrix, Lens and quantising words as they issue and commit (spec/12 R177 to R192, spec/13 R208 to
R211, spec/03 R44 to R46, spec/04 R61 and R62). -/

namespace Sys2Proof.Machine

-- format slots (R61)

structure Slot where
  pctl : Nat
  sat : Bool
  rnd : Rnd
  spn : Nat
  geom : Nat
  efmt : Nat
  deriving DecidableEq, Repr

/-- Kept elements of twelve, by the sparsity code (R61). -/
def sparsity (code : Nat) : Nat := [0, 2, 3, 4, 6].getD code 0
def slotOf (v : Word) : Slot :=
  { pctl := (fld v 32 11).toNat, sat := bitOf v 31, rnd := rndOf (fld v 29 2), spn := sparsity (fld v 26 3).toNat
    geom := (fld v 20 4).toNat, efmt := (fld v 16 4).toNat }
def efmtTy (e : Nat) : Ty := [Ty.e4m3, .e5m2, .i8, .n8, .f16, .bf16, .f32, .f64].getD e .f64
def slotAt (w : Workgroup) (f : SlotReg) : Slot := slotOf (w.launch.slotsF.getD f.toNat 0)
/-- A launch record's slot that R61 accepts. -/
def slotOk (v : Word) : Bool :=
  fld v 43 21 == 0 && 1 ≤ (fld v 32 11).toNat && (fld v 32 11).toNat ≤ 1024 && (fld v 26 3).toNat ≤ 4 && fld v 24 2 == 0 &&
    (fld v 20 4).toNat ≤ 4 && (fld v 16 4).toNat ≤ 7 && fld v 0 16 == 0
/-- May WLOAD, MMA, MMAS, SIGHASH and SIGREP name the slot (R61)? -/
def matrixSlot (f : Slot) : Bool := f.efmt < 6 && (f.spn = 0 || f.efmt ≤ 2)

/-- Rows and columns of one scale cell under a geometry; 0 for the whole extent (R62). -/
def cellRows (geom : Nat) : Nat := [0, 1, 128, 16, 32].getD geom 0
def cellCols (geom : Nat) : Nat := [0, 128, 128, 16, 32].getD geom 0
def ceilDiv (a b : Nat) : Nat := (a + b - 1) / b
/-- Cell counts along the two extents; geometry none is one cell (R208). -/
def cellsOf (geom rows cols : Nat) : Nat × Nat :=
  if geom = 0 then (1, 1) else (ceilDiv rows (cellRows geom), ceilDiv cols (cellCols geom))
/-- Number of the cell that holds an element. -/
def cellAt (geom cols i k : Nat) : Nat := if geom = 0 then 0 else i / cellRows geom * ceilDiv cols (cellCols geom) + k / cellCols geom

-- shape registers (R44, R180, R181)

abbrev Shape := BitVec 256

def Shape.f (s : Shape) (lo n : Nat) : Nat := (s.extractLsb' lo n).toNat
def Shape.reqM (s : Shape) : Nat := s.f 224 32
def Shape.reqN (s : Shape) : Nat := s.f 192 32
def Shape.reqK (s : Shape) : Nat := s.f 160 32
def Shape.grM (s : Shape) : Nat := s.f 144 16
def Shape.grN (s : Shape) : Nat := s.f 128 16
def Shape.grK (s : Shape) : Nat := s.f 112 16
def Shape.tailM (s : Shape) : Nat := s.f 96 16
def Shape.tailN (s : Shape) : Nat := s.f 80 16
def Shape.tailK (s : Shape) : Nat := s.f 64 16
def Shape.slot (s : Shape) : Nat := s.f 60 4
def Shape.twin (s : Shape) : Bool := s.f 59 1 = 1
def Shape.valid (s : Shape) : Bool := s.f 57 1 = 1

/-- The layout of R44. -/
def packShape (m n k grM grN grK slot : Nat) (twin : Bool) (cls : Nat) : Shape :=
  BitVec.ofNat 256 (m * 2 ^ 224 + n * 2 ^ 192 + k * 2 ^ 160 + grM * 2 ^ 144 + grN * 2 ^ 128 + grK * 2 ^ 112 + m % grM * 2 ^ 96 +
    n % grN * 2 ^ 80 + k % grK * 2 ^ 64 + slot * 2 ^ 60 + twin.toNat * 2 ^ 59 + cls * 2 ^ 58 + 2 ^ 57)

/-- The grant of SETSHAPE on a class of core; none is the shape fault (R180). -/
def grant (classE : Bool) (spn slot m n k : Nat) (twin : Bool) : Option Shape :=
  let depth := if classE then 128 else 384
  if m = 0 || n = 0 || k = 0 || 2 ^ 32 ≤ m || 2 ^ 32 ≤ n || 2 ^ 32 ≤ k then none
  else
    let grM := min (roundUp m 8) 64
    let grN := if twin then 512 else 256
    let cap := if spn = 0 then depth else depth * 12 / spn / 384 * 384
    if cap = 0 then none
    else
      let grK := min (roundUp k (if spn = 0 then 128 else 384)) cap
      some (packShape m n k grM grN grK slot twin classE.toNat)

def shapeOf (w : Workgroup) (r : Nat) : Shape := mapGet 0 w.shapes r
def rowsOf (s : Shape) (lm : Bool) : Nat := if lm && s.tailM ≠ 0 then s.tailM else s.grM
def kdepth (s : Shape) (lk : Bool) : Nat := if lk && s.tailK ≠ 0 then s.tailK else s.grK
def spanOf (s : Shape) (ln : Bool) : Nat := if ln && s.tailN ≠ 0 then s.tailN else s.grN
def colsOf (s : Shape) (t : Nat) (ln : Bool) : Nat :=
  if s.twin then min (spanOf s ln - 256 * (t % 2)) 256 else spanOf s ln

-- twins (R183)

def twinLegal (s : State) (core : Nat) : Bool :=
  core % 2 = 0 && match s.wg core, s.wg (core + 1) with
    | some a, some b => a.launch.gen = b.launch.gen && gangOf a.launch a.wgid = gangOf b.launch b.wgid && a.launch.twin
    | _, _ => false

-- the words as they issue

/-- A matrix word with its k operands; an encoding that its slot forbids is an illegal instruction, whatever the guard (R177,
R178). -/
def unitEff (v : View) (ok : Slot → Bool) (f : SlotReg) (ks : List KReg) : Eff :=
  if !ok (slotAt v.w f) then { cause := some (v.fault 0x02) } else { item := some (ks.map fun k => v.e.rk k.toNat, []) }

def execSetshape (w : SetshapeW) (s : State) : Host.Outcome State Fault Refusal :=
  issueWord (.setshape w) w.ctl (fun v => captured v [v.e.rk w.a.toNat, v.e.rk w.b.toNat, v.e.rk w.c.toNat]) s
/-- GETSHAPE reads the shape as it stands (R181). -/
def execGetshape (w : GetshapeW) (s : State) : Host.Outcome State Fault Refusal :=
  issueWord (.getshape w) w.ctl (fun v =>
    { writes := if v.on then (upto 4).map fun i => .k (w.a.toNat + i) ((shapeOf v.w w.s.toNat).extractLsb' (64 * i) 64) else [] }) s
def execWload (w : WloadW) (s : State) : Host.Outcome State Fault Refusal :=
  issueWord (.wload w) w.ctl (fun v =>
    unitEff v (fun f => matrixSlot f && (f.geom ≠ 0 || w.b = 0) && (f.spn ≠ 0 || w.c = 0)) w.fs [w.a, w.b, w.c]) s
def execWdrop (w : Ctl) (s : State) : Host.Outcome State Fault Refusal := issueWord (.wdrop w) w (captured · []) s
def execOpfence (w : Ctl) (s : State) : Host.Outcome State Fault Refusal := issueWord (.opfence w) w (captured · []) s
def mmaEff (w : MmaW) (sparse : Bool) (v : View) : Eff :=
  unitEff v (fun f => matrixSlot f && (f.geom ≠ 0 || w.b = 0) && decide (f.spn ≠ 0) == sparse) w.fs [w.a, w.b]
def execMma (w : MmaW) (s : State) : Host.Outcome State Fault Refusal := issueWord (.mma w) w.ctl (mmaEff w false) s
def execMmas (w : MmaW) (s : State) : Host.Outcome State Fault Refusal := issueWord (.mmas w) w.ctl (mmaEff w true) s
def execTacq (w : TileW) (s : State) : Host.Outcome State Fault Refusal := issueWord (.tacq w) w.ctl (captured · []) s
def execTrel (w : TileW) (s : State) : Host.Outcome State Fault Refusal := issueWord (.trel w) w.ctl (captured · []) s
def execTzero (w : TileW) (s : State) : Host.Outcome State Fault Refusal :=
  issueWord (.tzero w) w.ctl (fun _ => { item := some ([], []) }) s
def execTld (w : TmemW) (s : State) : Host.Outcome State Fault Refusal :=
  issueWord (.tld w) w.ctl (fun v => unitEff v (fun _ => true) w.fs [w.a, w.b]) s
def execTst (w : TmemW) (s : State) : Host.Outcome State Fault Refusal :=
  issueWord (.tst w) w.ctl (fun v => unitEff v (fun _ => true) w.fs [w.a, w.b]) s
def execSighash (w : SighashW) (s : State) : Host.Outcome State Fault Refusal :=
  issueWord (.sighash w) w.ctl (fun v => unitEff v matrixSlot w.fs [w.a, w.b, w.c]) s
def execSigrep (w : SigrepW) (s : State) : Host.Outcome State Fault Refusal :=
  issueWord (.sigrep w) w.ctl (fun v => unitEff v matrixSlot w.fs [w.a, w.a + 1, w.a + 2, w.b]) s
def execSigscat (w : SigscatW) (s : State) : Host.Outcome State Fault Refusal :=
  issueWord (.sigscat w) w.ctl (fun v => unitEff v (fun _ => true) w.fs [w.a, w.b]) s
def execSigbwd (w : SigbwdW) (s : State) : Host.Outcome State Fault Refusal :=
  issueWord (.sigbwd w) w.ctl (fun v => { item := some ([v.e.rk w.a.toNat, v.e.rk w.b.toNat, v.e.rk w.c.toNat], []) }) s
def execQhist (w : QhistW) (s : State) : Host.Outcome State Fault Refusal :=
  issueWord (.qhist w) w.ctl (fun v => unitEff v (fun _ => true) w.fs [w.a, w.b]) s
def execQscale (w : QscaleW) (s : State) : Host.Outcome State Fault Refusal :=
  issueWord (.qscale w) w.ctl (fun v => unitEff v (fun _ => true) w.fs [w.a, w.b, w.c]) s
def execQcvt (w : QcvtW) (s : State) : Host.Outcome State Fault Refusal :=
  issueWord (.qcvt w) w.ctl (fun v => unitEff v (fun _ => true) w.fs [w.a, w.b, w.c]) s

-- what a committed command keeps: its operands, its shape, its slot, and the column span of the macro record (R177, R187)

def cmdWords (sh : Shape) (slot : Word) (span : Nat) : List Word :=
  ((upto 4).map fun i => sh.extractLsb' (64 * i) 64) ++ [slot, BitVec.ofNat 64 span]
/-- The words after n operands, and what they hold. -/
def cmdShape (it : Item) (n : Nat) : Shape :=
  BitVec.ofNat 256 (((upto 4).map fun i => (it.kv.getD (n + i) 0).toNat * 2 ^ (64 * i)).foldl (· + ·) 0)
def cmdSlot (it : Item) (n : Nat) : Word := it.kv.getD (n + 4) 0
def cmdSpan (it : Item) (n : Nat) : Nat := (it.kv.getD (n + 5) 0).toNat

-- operands (R179)

/-- A scratchpad operand: offset, stride, rows and bytes of a row. -/
structure Opnd where
  off : Nat
  stride : Nat
  rows : Nat
  len : Nat
  /-- Bits [63:40], or a stride that a packed operand may not have, are not zero. -/
  bad : Bool
  align : Nat
  deriving DecidableEq, Repr

def opnd (k : Word) (rows len align : Nat) : Opnd :=
  { off := (fld k 0 20).toNat, stride := if fld k 20 20 == 0 then len else (fld k 20 20).toNat, rows, len
    bad := fld k 40 24 != 0, align }
def packedOpnd (k : Word) (len align : Nat) : Opnd :=
  { off := (fld k 0 20).toNat, stride := len, rows := 1, len, bad := fld k 20 44 != 0, align }

/-- Bytes from the offset that the operand's region holds. -/
def Opnd.region (o : Opnd) : Nat := if o.rows = 0 then 0 else max (o.rows * o.stride) ((o.rows - 1) * o.stride + o.len)
/-- The bytes that rows touch: offset and length. -/
def Opnd.bytes (o : Opnd) : Nat × Nat := (o.off, if o.rows = 0 then 0 else (o.rows - 1) * o.stride + o.len)

/-- The checks of R179 on the operands of a word in field order: address faults, then alignment faults (R145, R229). -/
def checkOpnds (x : ExecId) (w : Workgroup) (it : Item) (os : List Opnd) : Except Bad Unit :=
  match os.find? fun o => o.bad || decide (w.launch.spsize < o.off + o.region) with
  | some o => .error (itemCause x it 0x05 0 (if o.bad then 0 else o.off))
  | none =>
    match os.find? fun o => o.off % o.align ≠ 0 || o.stride % o.align ≠ 0 with
    | some o => .error (itemCause x it 0x06 0 (if o.off % o.align ≠ 0 then o.off else 0))
    | none => .ok ()

/-- Scale operand over granted extents (R184, R187). -/
def scaleOpnd (k : Word) (geom rows cols : Nat) : List Opnd :=
  if geom = 0 then [] else [packedOpnd k (4 * ((cellsOf geom rows cols).1 * (cellsOf geom rows cols).2)) 4]

/-- The rows of TLD or TST in an addressed space (R191). -/
def tileRows (it : Item) (w : TmemW) (sh : Shape) (rd wr : Bool) : List Acc :=
  let base := (it.kv.getD 0 0).toNat
  let stride := (it.kv.getD 1 0).toNat
  (upto (rowsOf sh w.lm)).map fun i =>
    { lane := 32, space := w.sp, addr := (base + i * stride) % 2 ^ 64, len := colsOf sh w.t.toNat w.ln * tyBytes w.ty
      align := tyBytes w.ty, rd, wr, remote := !w.add && (!wr || w.scope == .system), named := base }

/-- Length of the sparse metadata in bytes (R184). -/
def metaLen (sh : Shape) (spn : Nat) : Nat := ceilDiv (sh.grN * (sh.grK / 12) * spn) 2

/-- The scratchpad operands of a command, sources then destinations. Histograms are packed, with no stride, and aligned to 16, as R209 has it of
QHIST's destination (DESIGN CHOICE for the stride and for QSCALE's source, log 81). -/
def cmdOpnds (it : Item) (sh : Shape) (slot : Word) : List Opnd × List Opnd :=
  let f := slotOf slot
  let k (i : Nat) : Word := it.kv.getD i 0
  let ez := tyBytes (efmtTy f.efmt)
  match it.instr with
  | .wload _ =>
    let rows := if f.spn = 0 then sh.grK else sh.grK * f.spn / 12
    (opnd (k 0) rows (sh.grN * ez) ez :: scaleOpnd (k 1) f.geom sh.grN sh.grK ++
      (if f.spn = 0 then [] else [packedOpnd (k 2) (metaLen sh f.spn) 1]), [])
  | .mma w | .mmas w => (opnd (k 0) (rowsOf sh w.lm) (sh.grK * ez) ez :: scaleOpnd (k 1) f.geom sh.grM sh.grK, [])
  | .sighash w =>
    ([opnd (k 0) (rowsOf sh w.lm) (sh.reqK * ez) ez, opnd (k 1) (w.h.toNat + 1) (sh.reqK * ez) ez],
     [packedOpnd (k 2) (2 * rowsOf sh w.lm) 2])
  | .sigrep w =>
    ([opnd (k 0) (rowsOf sh w.lm) (sh.reqK * ez) ez, packedOpnd (k 1) (2 * rowsOf sh w.lm) 2],
     [opnd (k 2) (rowsOf sh w.lm) (sh.reqK * ez) ez, packedOpnd (k 3) 512 16])
  | .sigscat w =>
    ([packedOpnd (k 1) 512 16], [opnd (k 0) (rowsOf sh w.lm) (colsOf sh w.t.toNat w.ln * tyBytes w.ty) (tyBytes w.ty)])
  | .sigbwd w =>
    let len := (if w.spread then sh.reqK else sh.reqN) * tyBytes w.ty
    let members := rowsOf sh w.lm
    ([opnd (k 0) (if w.spread then 64 else members) len (tyBytes w.ty), packedOpnd (k 2) 512 16],
     [opnd (k 1) (if w.spread then members else 64) len (tyBytes w.ty)])
  | .qhist w =>
    let c := cellsOf f.geom sh.grM sh.grK
    let h := packedOpnd (k 1) (1024 * (c.1 * c.2)) 16
    (opnd (k 0) (rowsOf sh w.lm) (kdepth sh w.lk * tyBytes w.ty) (tyBytes w.ty) :: (if w.acc then [h] else []), [h])
  | .qscale _ =>
    let c := cellsOf f.geom sh.grM sh.grK
    ([packedOpnd (k 0) (1024 * (c.1 * c.2)) 16], [packedOpnd (k 1) (4 * (c.1 * c.2)) 4])
  | .qcvt w =>
    let c := cellsOf f.geom sh.grM sh.grK
    ([opnd (k 0) (rowsOf sh w.lm) (kdepth sh w.lk * tyBytes w.ty) (tyBytes w.ty), packedOpnd (k 2) (4 * (c.1 * c.2)) 4],
     [opnd (k 1) (rowsOf sh w.lm) (kdepth sh w.lk * ez) ez])
  | _ => ([], [])

/-- The operands in the order of the a, b and c fields (R229). -/
def checkOrder (i : Instr) (os : List Opnd × List Opnd) : List Opnd :=
  match i, os with
  | .sigscat _, (m, d) => d ++ m
  | .sigbwd _, (a :: m, d) => a :: d ++ m
  | .qcvt _, (a :: m, d) => a :: d ++ m
  | _, (a, d) => a ++ d

-- commits

/-- SETSHAPE (R180, R183); the register is written whole (R337). -/
def commitSetshape (s : State) (x : ExecId) (it : Item) (i : SetshapeW) : Except Bad State :=
  match s.wg x.core with
  | none => .ok s
  | some w =>
    let k (j : Nat) : Nat := (it.kv.getD j 0).toNat
    match grant (coreE x.core) (slotAt w i.fs).spn i.fs.toNat (k 0) (k 1) (k 2) i.twin with
    | none => .error (itemCause x it 0x0D i.s.toNat)
    | some sh =>
      if i.twin && !twinLegal s x.core then .error (itemCause x it 0x0E)
      else .ok (s.updWg x.core fun w =>
        { w with shapes := mapPut 0 i.s.toNat sh w.shapes, badShapes := w.badShapes.filter (· / 8 ≠ i.s.toNat) })

/-- Slot, shape register, tile whose token the executor must hold, and number of k operands of a counted command. -/
structure CmdInfo where
  fs : SlotReg
  sreg : Option ShapeReg
  tile : Option TileReg
  n : Nat
  deriving DecidableEq, Repr

def cmdInfo : Instr → Option CmdInfo
  | .wload w => some ⟨w.fs, some w.s, none, 3⟩
  | .mma w | .mmas w => some ⟨w.fs, some w.s, none, 2⟩
  | .tzero w => some ⟨0, none, some w.t, 0⟩
  | .tld w | .tst w => some ⟨w.fs, some w.s, some w.t, 2⟩
  | .sighash w => some ⟨w.fs, some w.s, none, 3⟩
  | .sigrep w => some ⟨w.fs, some w.s, none, 4⟩
  | .sigscat w => some ⟨w.fs, some w.s, some w.t, 2⟩
  | .sigbwd w => some ⟨0, some w.s, none, 3⟩
  | .qhist w => some ⟨w.fs, some w.s, none, 2⟩
  | .qscale w => some ⟨w.fs, some w.s, none, 3⟩
  | .qcvt w => some ⟨w.fs, some w.s, none, 3⟩
  | _ => none

/-- Does the record of the macros serve a shape (R187)? -/
def recordFits (r : MacroRec) (sh : Shape) : Bool := r.grK = sh.grK && r.grN = sh.grN && r.slot = sh.slot && r.twin == sh.twin

/-- Checks of MMA and MMAS that come before the operands, in their order (R187); the column span of the record. -/
def mmaChecks (s : State) (x : ExecId) (w : Workgroup) (it : Item) (i : MmaW) (sh : Shape) : Except Bad Nat :=
  if sh.slot ≠ i.fs.toNat || sh.twin != i.twin then .error (itemCause x it 0x0D i.s.toNat)
  else if i.twin && !twinLegal s x.core then .error (itemCause x it 0x0E)
  else match (s.core x.core).macroRec with
    | none => .error (itemCause x it 0x0F)
    | some r =>
      if !recordFits r sh then .error (itemCause x it 0x0D i.s.toNat)
      else if tokenOf w i.t.toNat ≠ 0 then .error (itemCause x it 0x10 i.t.toNat)
      else if i.twin && tokenOf w (i.t.toNat + 1) ≠ 0 then .error (itemCause x it 0x10 (i.t.toNat + 1))
      else .ok (if r.ln && r.tailN ≠ 0 then r.tailN else r.grN)

/-- WLOAD changes the record at its commit, and a twin one slaves the follower; the follower's weights are lost once it is performed, since
its earlier multiplies still use them (R185, R188). DESIGN CHOICE (log 81): a clause of the follower that had begun issue before commits as
ever: its WLOAD sets the follower's record, its MMA finds it empty. -/
def setMacros (s : State) (x : ExecId) (i : WloadW) (sh : Shape) (slot : Word) : State :=
  let r : MacroRec := { grK := sh.grK, grN := sh.grN, tailK := sh.tailK, tailN := sh.tailN, slot := i.fs.toNat, twin := i.twin
                        ln := i.ln, lk := i.lk, fmt := slot, shape := sh }
  let s1 := s.updCore x.core fun c => { c with macroRec := some r }
  if i.twin then s1.updCore (x.core + 1) fun c => { c with slavedBy := some x.core, macroRec := none }
  else s1

/-- Commit of a counted command (R177, R187, R190, R191). -/
def commitCmd (s : State) (x : ExecId) (c : Clause) (it : Item) : Except Bad State :=
  match s.wg x.core, s.exec x, cmdInfo it.instr with
  | some w, some e, some q =>
    if !it.on then .ok (release s x c .t it 0 [])
    else do
      let sh : Shape := (q.sreg.map fun r => shapeOf w r.toNat).getD 0
      let slot := w.launch.slotsF.getD q.fs.toNat 0
      match q.sreg with
      | some r => if !sh.valid then .error (itemCause x it 0x0D r.toNat) else pure ()
      | none => pure ()
      match it.instr with
      | .wload i => if i.twin && !twinLegal s x.core then .error (itemCause x it 0x0E) else pure ()
      | _ => pure ()
      let span ← match it.instr with
        | .mma i | .mmas i => mmaChecks s x w it i sh
        | _ => pure 0
      match q.tile with
      | some t => if tokenOf w t.toNat ≠ x.ctx + 1 then .error (itemCause x it 0x10 t.toNat) else pure ()
      | none => pure ()
      checkOpnds x w it (checkOrder it.instr (cmdOpnds it sh slot))
      match it.instr with
      | .qscale i => if i.p && (it.kv.getD 2 0).toNat / 2 ^ 11 ≠ 0 then .error (itemCause x it 0x05) else pure ()
      | _ => pure ()
      let (xl, s1) ← match it.instr with
        | .tld i =>
          if (it.kv.getD 1 0).toNat / 2 ^ 32 ≠ 0 then .error (itemCause x it 0x05)
          else checkAccs s x w it.g it.idx (tileRows it i sh true false)
        | .tst i =>
          if (it.kv.getD 1 0).toNat / 2 ^ 32 ≠ 0 then .error (itemCause x it 0x05)
          else checkAccs s x w it.g it.idx (tileRows it i sh i.add true)
        | _ => .ok ([], s)
      let s2 := match it.instr with
        | .wload i => setMacros s1 x i sh slot
        | .tst i => if i.sp == .sp then s1 else stampPhase s1 x.core fun p n => { p with cout0 := some (p.cout0.getD n) }
        | _ => s1
      let due := match it.instr with | .sigrep i => [RegKey.k i.c.toNat] | _ => []
      .ok (release s2 x c .t { it with kv := it.kv.take q.n ++ cmdWords sh slot span, xl } 1 due e.cover)
  | _, _, _ => .ok s

/-- WDROP: the record is empty from its commit, and the unit performs it in order (R185). -/
def commitWdrop (s : State) (x : ExecId) (c : Clause) (it : Item) : State :=
  release (s.updCore x.core fun c => { c with macroRec := none }) x c .none it 1 []

/-- OPFENCE waits for the executor's own scratchpad stores (R186). -/
def commitOpfence (s : State) (x : ExecId) : State :=
  match s.exec x with
  | none => s
  | some e =>
    let own := e.ops.filter fun o => isStoreI o.item.instr && !o.performed && (accsOf o.item).any (·.space == .sp)
    if own.isEmpty then endOpfence s x [] s.fresh else s.setExec x (e.await (.opfence (own.map (·.id)) s.fresh))

/-- TACQ (R190): the free token is reserved, a token held by another is waited for. -/
def commitTacq (s : State) (x : ExecId) (i : TileW) : State :=
  match s.wg x.core with
  | none => s
  | some w =>
    let t := i.t.toNat
    if tokenOf w t = x.ctx + 1 then s
    else if tokenOf w t = 0 then
      (s.updWg x.core fun w => { w with tokens := mapPut 0 t (x.ctx + 1) w.tokens }).updExec x
        fun e => e.await (.tacq t true s.fresh)
    else
      (s.updWg x.core fun w => { w with tacqs := w.tacqs ++ [(x.ctx, t)] }).updExec x
        fun e => e.await (.tacq t false s.fresh)

/-- TREL (R190). -/
def commitTrel (s : State) (x : ExecId) (it : Item) (i : TileW) : Except Bad State :=
  match s.wg x.core with
  | none => .ok s
  | some w =>
    if tokenOf w i.t.toNat = x.ctx + 1 then .ok (s.updWg x.core fun w => passToken w i.t.toNat)
    else .error (itemCause x it 0x10 i.t.toNat)

end Sys2Proof.Machine
end

