-- ==== Sys2Proof/Machine/Matrix.lean ====
section
/-! DEFINITION. Matrix, Lens and quantising commands as they are performed (spec/12 R184 to R198, spec/13 R208 to R211, spec/04 R63 to
R66, spec/26 R336 and R339). -/

namespace Sys2Proof.Machine

-- numbers

/-- The value of an element of a type (R52, R54). -/
def elemVal (ty : Ty) (bits : Nat) : FVal :=
  if tyFloat ty then unpackF (fmtOf ty) bits
  else
    let z := toInt (tySigned ty) (tyBits ty) bits
    .fin (decide (z < 0)) z.natAbs 0

/-- cvt_float or cvt_int into a type (R58, R59). -/
def convTo (ty : Ty) (rnd : Rnd) (sat : Bool) (x : XReal) : Nat :=
  if tyFloat ty then packF (fmtOf ty) rnd sat x else packI (tySigned ty) (tyBits ty) rnd x

/-- A dyadic number z * 2^e. -/
structure Dy where
  z : Int
  e : Int
  deriving DecidableEq, Repr

def sumDy (xs : List Dy) : Dy :=
  let e := xs.foldl (fun m d => min m d.e) ((xs.head?.map (·.e)).getD 0)
  ⟨(xs.map fun d => d.z * 2 ^ (d.e - e).toNat).foldl (· + ·) 0, e⟩
def Dy.toF (d : Dy) : FVal := .fin (decide (d.z < 0)) d.z.natAbs d.e
def finZ : FVal → Int
  | .fin n m _ => signedMag n m
  | _ => 0
def finE : FVal → Int
  | .fin _ _ e => e
  | _ => 0

/-- round_x80_rne of a datum (R63). -/
def roundX80 (x : XReal) : Nat := packF fmtX80 .rne false x

-- matrix blocks (R63, R64)

/-- align_block: the block exponent and the aligned elements. -/
def alignBlock (isInt : Bool) (wdt : Nat) (xs : List FVal) : Int × List Int :=
  if isInt then (0, xs.map finZ)
  else
    let logs := xs.filterMap fun x => match x with
      | .fin _ m e => if m = 0 then none else some ((Nat.log2 m : Int) + e)
      | _ => none
    let e := logs.foldl max (logs.headD 0)
    (e, xs.map fun x => match x with
      | .fin n m ex => signedMag n (roundInt .rne n m 1 (ex + ((wdt : Int) - 2 - e)))
      | _ => 0)

/-- special_product of a block that holds an infinity and no NaN (R64). -/
def specialProduct (a b : List FVal) : FVal :=
  let ps := ((a.zip b).filter fun p => isInf p.1 || isInf p.2).map fun p => mulF p.1 p.2
  if ps.any isNan then .nan
  else if ps.any negOf && ps.any fun p => !negOf p then .nan
  else .inf (ps.any negOf)

/-- contribution(i, j, b): elements of both blocks, and the scales of each position (R63). -/
def blockTerm (isInt : Bool) (wdt : Nat) (a b sa sb : List FVal) : FVal :=
  if (a ++ b).any isNan || (sa ++ sb).any fun x => isNan x || isInf x then .nan
  else if (a ++ b).any isInf then specialProduct a b
  else
    let (ea, qa) := alignBlock isInt wdt a
    let (eb, qb) := alignBlock isInt wdt b
    let p : Int := if isInt then 0 else ea + eb - 2 * ((wdt : Int) - 2)
    (sumDy ((upto a.length).map fun k =>
      let ska := sa.getD k (.fin false 1 0)
      let skb := sb.getD k (.fin false 1 0)
      ⟨qa.getD k 0 * qb.getD k 0 * finZ ska * finZ skb, finE ska + finE skb + p⟩)).toF

/-- One block reaches the accumulator (R63). -/
def accAdd (acc : Nat) (c : FVal) : Nat :=
  if isZeroF c then acc
  else roundX80 (addX .rne (unpackF fmtX80 acc) (unpackF fmtX80 (roundX80 (XReal.ofF c))))

-- reading scratchpad (R186, R336)

/-- Are bytes unspecified for a command: poisoned, or written without an OPFENCE that covers the write? -/
def openBytes (s : State) (core cover off n : Nat) : Bool :=
  n ≠ 0 && (poisoned s (spadHome core off) n || (s.core core).fills.any fun f => decide (cover ≤ f.stamp) && rangesMeet f.off f.len off n)
def spadNat (s : State) (core off n : Nat) : Nat := readNat s.mem (spadHome core off) n
/-- An element of a row operand. -/
def elemOff (o : Opnd) (ez i k : Nat) : Nat := o.off + i * o.stride + k * ez

/-- The first ranges of an operand's rows, n bytes of each. -/
def rowParts (o : Opnd) (rows n : Nat) : List (Nat × Nat) := (upto rows).map fun i => (o.off + i * o.stride, n)

/-- The first poisoned one of ranges of scratchpad, as a domain and a place in the error log (R336, R340). -/
def firstPoison (s : State) (core : Nat) (ps : List (Nat × Nat)) : Option (Nat × Nat) :=
  (ps.find? fun p => poisoned s (spadHome core p.1) p.2).map fun p =>
    (poisonDomain s (spadHome core p.1) p.2, whereOf (((unitsOf (spadHome core p.1) p.2).find? fun u => poisoned s u 8).getD (spadHome core p.1)))

-- tiles

def tileKey (t row col : Nat) : Nat := (t * 64 + row) * 256 + col
def tileAt (s : State) (core t row col : Nat) : Nat := (mapGet 0 (s.core core).tiles (tileKey t row col)).toNat
/-- Write an element whole: an error that it held is gone (R337). -/
def setTile (s : State) (core t row col v : Nat) : State :=
  s.updCore core fun c => { c with tiles := mapPut 0 (tileKey t row col) (BitVec.ofNat 80 v) c.tiles
                                   badTiles := c.badTiles.filter (· ≠ tileKey t row col) }
/-- A tile element takes an unspecified value. -/
def freeTile (s : State) (core t row col : Nat) : State :=
  let (bs, s1) := s.takeFree 10
  setTile s1 core t row col (leNat bs)

/-- Read an element: one that holds an error gives an unspecified value, and the executor takes cause 0x15 (R337). -/
def readTile (s : State) (x : ExecId) (t row col : Nat) : Nat × State :=
  if (s.core x.core).badTiles.contains (tileKey t row col) then
    (leNat (s.takeFree 10).1, meetPoison (s.takeFree 10).2 x 2 (tileKey t row col))
  else (tileAt s x.core t row col, s)
/-- Read the elements 0 to n - 1 of a row. -/
def readTiles (s : State) (x : ExecId) (t row n : Nat) : List Nat × State :=
  (upto n).foldl (fun acc j => (acc.1 ++ [(readTile acc.2 x t row j).1], (readTile acc.2 x t row j).2)) ([], s)

/-- Write scratchpad bytes of the unit. -/
def spadWrite (s : State) (core off : Nat) (bs : List Byte) : State := unitWrite s core false (spadHome core off) bs
/-- Write n unspecified bytes. -/
def spadFree (s : State) (core off n : Nat) : State :=
  let (bs, s1) := s.takeFree n
  spadWrite s1 core off bs

-- WLOAD (R184)

/-- The stored row of a dense position of a column under sparsity, if an element is kept there: the highest q that names it. -/
def keptRow (spn : Nat) (nibble : Nat → Nat) (groups j k : Nat) : Option Nat :=
  (((upto spn).filter fun q => nibble ((j * groups + k / 12) * spn + q) = k % 12).getLast?).map fun q => k / 12 * spn + q

/-- The bits that position (k, j) of B loads; none when its bytes, or the metadata that place it, are unspecified. -/
def weightBits (s : State) (core cover : Nat) (b : Opnd) (meta? : Option Opnd) (sh : Shape) (spn ez j k : Nat) : Option Nat :=
  let take (row : Nat) : Option Nat :=
    if openBytes s core cover (elemOff b ez row j) ez then none else some (spadNat s core (elemOff b ez row j) ez)
  match meta? with
  | none => take k
  | some m =>
    let groups := sh.grK / 12
    let nibble (n : Nat) := spadNat s core (m.off + n / 2) 1 / 16 ^ (n % 2) % 16
    let first := (j * groups + k / 12) * spn
    if openBytes s core cover (m.off + first / 2) ((first + spn - 1) / 2 - first / 2 + 1) then none
    else match keptRow spn nibble groups j k with
      | none => some 0
      | some row => take row

def doWload (s : State) (core cover : Nat) (it : Item) (i : WloadW) (sh : Shape) (slot : Word) : State :=
  let f := slotOf slot
  let ez := tyBytes (efmtTy f.efmt)
  let os := (cmdOpnds it sh slot).1
  let b := os.headD (opnd 0 0 0 1)
  let scales := if f.geom = 0 then none else os[1]?
  let meta? := if f.spn = 0 then none else os.getLast?
  let s0 := s.updCore core fun c => { c with weights := [], bscales := [] }
  let s1 := (upto (min (spanOf sh i.ln) sh.grN)).foldl (fun s j =>
    (upto (kdepth sh i.lk)).foldl (fun s k =>
      let put (s : State) (v : Nat) : State :=
        s.updCore core fun c => { c with weights := mapPut 0 (k * 512 + j) (BitVec.ofNat 64 v) c.weights }
      match weightBits s core cover b meta? sh f.spn ez j k with
      | some v => put s v
      | none => put (s.takeFree ez).2 (leNat (s.takeFree ez).1)) s) s0
  match scales with
  | none => s1
  | some o =>
    (upto (o.len / 4)).foldl (fun s n =>
      let (v, s2) := if openBytes s core cover (o.off + 4 * n) 4 then (leNat (s.takeFree 4).1, (s.takeFree 4).2)
        else (spadNat s core (o.off + 4 * n) 4, s)
      s2.updCore core fun c => { c with bscales := mapPut 0 n (BitVec.ofNat 32 v) c.bscales }) s1

-- MMA (R187)

/-- The scales of positions: 1.0 with geometry none, and for a cell that holds only positions at or beyond a depth, which is not read
(R187). -/
def scaleRun (cell : Nat → Nat) (geom cols i depth : Nat) (ks : List Nat) : List FVal :=
  ks.map fun k =>
    if geom = 0 || depth ≤ k / cellCols geom * cellCols geom then .fin false 1 0 else unpackF fmtF32 (cell (cellAt geom cols i k))

/-- The contributions of the blocks of one element, in ascending K over the granted depth: A reads as 0 from `depth` on, B as loaded
(R63, R187). -/
def mmaTerms (s : State) (core : Nat) (f : Slot) (a : Opnd) (scales : Option Opnd) (sh : Shape) (depth i j : Nat) : List FVal :=
  let ty := efmtTy f.efmt
  let ez := tyBytes ty
  let isInt := f.efmt = 2 || f.efmt = 3
  let wdt := if f.efmt ≤ 1 then 12 else 24
  let aCell (n : Nat) := match scales with | none => 0 | some o => spadNat s core (o.off + 4 * n) 4
  let bCell (n : Nat) := (mapGet 0 (s.core core).bscales n).toNat
  (upto (ceilDiv sh.grK 32)).map fun blk =>
    let ks := span (32 * blk) (min 32 (sh.grK - 32 * blk))
    blockTerm isInt wdt (ks.map fun k => if k < depth then elemVal ty (spadNat s core (elemOff a ez i k) ez) else .fin false 0 0)
      (ks.map fun k => elemVal ty (mapGet 0 (s.core core).weights (k * 512 + j)).toNat)
      (scaleRun aCell f.geom sh.grK i depth ks) (scaleRun bCell f.geom sh.grK j sh.grK ks)

/-- Does row i of A, or a scale that it uses, hold an unspecified byte? -/
def rowOpen (s : State) (core cover : Nat) (f : Slot) (a : Opnd) (scales : Option Opnd) (sh : Shape) (depth i : Nat) : Bool :=
  openBytes s core cover (a.off + i * a.stride) (depth * tyBytes (efmtTy f.efmt)) ||
  (match scales with
   | none => false
   | some o => (upto depth).any fun k => openBytes s core cover (o.off + 4 * cellAt f.geom sh.grK i k) 4)

def doMma (s : State) (x : ExecId) (cover : Nat) (it : Item) (i : MmaW) (sh : Shape) (slot : Word) (cols : Nat) : State :=
  let core := x.core
  let f := slotOf slot
  let os := (cmdOpnds it sh slot).1
  let a := os.headD (opnd 0 0 0 1)
  let depth := kdepth sh i.lk
  (upto (rowsOf sh i.lm)).foldl (fun s r =>
    let bad := rowOpen s core cover f a os[1]? sh depth r
    (upto cols).foldl (fun s j =>
      let t := i.t.toNat + j / 256
      if bad then freeTile s core t r (j % 256)
      else
        let (acc, s1) := readTile s x t r (j % 256)
        setTile s1 core t r (j % 256) ((mmaTerms s1 core f a os[1]? sh depth r j).foldl accAdd acc)) s) s

-- TZERO, TLD, TST (R191, R192)

def doTzero (s : State) (core t : Nat) : State :=
  s.updCore core fun c => { c with tiles := c.tiles.filter fun p => p.1 / (64 * 256) ≠ t
                                   badTiles := c.badTiles.filter fun n => n / (64 * 256) ≠ t }

/-- The X80 value of a memory element; every NaN becomes the one NaN (R55). -/
def toX80 (ty : Ty) (bits : Nat) : Nat := roundX80 (XReal.ofF (elemVal ty (bits % 2 ^ tyBits ty)))

/-- Bytes of an X80 value drained into a type (R65, R191). -/
def drainBytes (ty : Ty) (f : Slot) (x : Nat) : List Byte :=
  if ty == .x80 then leBytes 16 x else leBytes (tyBytes ty) (convTo ty f.rnd f.sat (XReal.ofF (unpackF fmtX80 x)))
/-- The same for an exact sum with the element that stands there. -/
def addBytes (ty : Ty) (f : Slot) (old x : Nat) : List Byte :=
  let rnd := if ty == .x80 then .rne else f.rnd
  let sum := addX rnd (elemVal ty (old % 2 ^ tyBits ty)) (unpackF fmtX80 x)
  if ty == .x80 then leBytes 16 (roundX80 sum) else leBytes (tyBytes ty) (convTo ty f.rnd f.sat sum)

/-- TLD of one row that has been read; `open'` says which elements are unspecified. -/
def loadRow (s : State) (core t row ez : Nat) (ty : Ty) (bs : List Byte) (open' : Nat → Bool) (n : Nat) : State :=
  (upto n).foldl (fun s j =>
    if open' j then freeTile s core t row j else setTile s core t row j (toX80 ty (leNat ((bs.drop (j * ez)).take ez)))) s

/-- Write a row of a tile at its place: by the unit's order in scratchpad, at the home elsewhere; elements that are bad carry poison, by
offset and length (R188, R336). -/
def storeRow (s : State) (core : Nat) (xl : List (Nat × Xlate)) (space : Space) (add : Bool) (addr : Nat) (bs : List Byte)
    (bad : List (Nat × Nat)) : State :=
  let s1 := (pieces addr bs.length).foldl (fun s p =>
    match locOf core xl space p.1 with
    | .home h => unitWrite (if space == .gl then l1Clean s core h p.2 true else s) core add h ((bs.drop (p.1 - addr)).take p.2)
    | .remote _ _ => s) s
  let s1 := if s1.poison.isEmpty then s1 else clearCovered s1 (pieces addr bs.length |>.filterMap fun p => match locOf core xl space p.1 with
    | .home h => some (h, p.2)
    | .remote _ _ => none)
  bad.foldl (fun s b => match locOf core xl space (addr + b.1) with
    | .home h => addPoison s h b.2
    | .remote _ _ => s) s1

/-- The poison of an element at its place: its domain and its place in the error log. -/
def elemPoison (s : State) (core : Nat) (xl : List (Nat × Xlate)) (space : Space) (addr n : Nat) : Option (Nat × Nat) :=
  match locOf core xl space addr with
  | .home h => if poisoned s h n then some (poisonDomain s h n, whereOf h) else none
  | .remote _ _ => none

/-- TLD: the elements, and the first poison met. It reads at the home, after the L1's dirty bytes are written back and its clean bytes
dropped (R191, R192). -/
def doTld (s : State) (x : ExecId) (o : Op) (w : TmemW) (sh : Shape) : State × Option (Nat × Nat) :=
  let ez := tyBytes w.ty
  let n := colsOf sh w.t.toNat w.ln
  let rows := tileRows o.item w sh true false
  ((upto rows.length).zip rows).foldl (fun (acc : State × Option (Nat × Nat)) p =>
    let s0 := if w.sp == .gl then
        (pieces p.2.addr p.2.len).foldl (fun s q => match locOf x.core o.item.xl .gl q.1 with
          | .home h => l1Clean s x.core h q.2 true
          | .remote _ _ => s) acc.1
      else acc.1
    let (bs, _, s1) := readRange s0 x.core o w.sp p.2.addr p.2.len
    let bad (j : Nat) := elemPoison s1 x.core o.item.xl w.sp (p.2.addr + j * ez) (min ez 10)
    let open' (j : Nat) : Bool := (bad j).isSome || (w.sp == .sp && openBytes s1 x.core o.tag (p.2.addr + j * ez) (min ez 10))
    (loadRow s1 x.core w.t.toNat p.1 ez w.ty bs open' n, acc.2.or ((upto n).findSome? bad))) (s, none)

/-- One row that TST writes: address, bytes, elements that carry poison, and the first poison met. -/
structure RowOut where
  addr : Nat
  bytes : List Byte
  bad : List (Nat × Nat)
  met : Option (Nat × Nat)
  deriving DecidableEq, Repr

/-- The rows that TST writes. An add reads what stands there: of an x80 element bytes 0 to 9 (R55, R191). -/
def tstRows (s : State) (x : ExecId) (o : Op) (w : TmemW) (sh : Shape) (slot : Word) : List RowOut × State :=
  let ez := tyBytes w.ty
  let n := colsOf sh w.t.toNat w.ln
  let used := min ez 10
  let rows := tileRows o.item w sh w.add true
  ((upto rows.length).zip rows).foldl (fun (acc : List RowOut × State) p =>
    let (old, _, s1) := if w.add then readRange acc.2 x.core o w.sp p.2.addr p.2.len else ([], 0, acc.2)
    let bad (j : Nat) := if w.add then elemPoison s1 x.core o.item.xl w.sp (p.2.addr + j * ez) used else none
    let (vals, s2) := readTiles s1 x w.t.toNat p.1 n
    let r := ((upto n).zip vals).foldl (fun (b : List Byte × State) v =>
      if (bad v.1).isSome || (w.add && w.sp == .sp && openBytes b.2 x.core o.tag (p.2.addr + v.1 * ez) used) then
        (b.1 ++ (b.2.takeFree used).1 ++ List.replicate (ez - used) 0, (b.2.takeFree used).2)
      else (b.1 ++ (if w.add then addBytes w.ty (slotOf slot) (leNat ((old.drop (v.1 * ez)).take ez)) v.2
                    else drainBytes w.ty (slotOf slot) v.2), b.2)) ([], s2)
    (acc.1 ++ [{ addr := p.2.addr, bytes := r.1, bad := ((upto n).filter fun j => (bad j).isSome).map fun j => (j * ez, used)
                 met := (upto n).findSome? bad }], r.2)) ([], s)

-- the Lens (R194 to R198)

/-- Sign of an exact dot product: is it above zero? NaN is not (R194). -/
def dotPositive (a b : List FVal) : Bool :=
  let ps := (a.zip b).map fun p => mulF p.1 p.2
  if ps.any isNan then false
  else if ps.any isInf then !(ps.any fun p => isInf p && negOf p)
  else decide (0 < (sumDy (ps.map fun p => ⟨finZ p, finE p⟩)).z)

def rowVals (s : State) (core : Nat) (o : Opnd) (ty : Ty) (i n : Nat) : List FVal :=
  (upto n).map fun k => elemVal ty (spadNat s core (elemOff o (tyBytes ty) i k) (tyBytes ty))

def doSighash (s : State) (core cover : Nat) (it : Item) (i : SighashW) (sh : Shape) (slot : Word) : State :=
  let ty := efmtTy (slotOf slot).efmt
  let (src, dst') := cmdOpnds it sh slot
  let rows := src.headD (opnd 0 0 0 1)
  let planes := src.getD 1 (opnd 0 0 0 1)
  let out := dst'.headD (opnd 0 0 0 1)
  let hs := upto (i.h.toNat + 1)
  let planesOpen := hs.any fun h => openBytes s core cover (planes.off + h * planes.stride) planes.len
  (upto (rowsOf sh i.lm)).foldl (fun s r =>
    if planesOpen || openBytes s core cover (rows.off + r * rows.stride) rows.len then spadFree s core (out.off + 2 * r) 2
    else
      let bits := hs.map fun h => dotPositive (rowVals s core rows ty r sh.reqK) (rowVals s core planes ty h sh.reqK)
      let code := bits.foldl (fun c b => 2 * c + b.toNat) 0
      spadWrite s core (out.off + 2 * r) (leBytes 2 (code / 2 ^ (i.h.toNat - i.p.toNat)))) s

/-- ridx by order of first appearance (R195). -/
def repIndex (ids : List Nat) : List Nat :=
  let firsts := ids.eraseDups
  ids.map fun d => firsts.findIdx (· = d)

/-- Bits of f32 arithmetic in RNE. -/
def f32Add (a b : Nat) : Nat := packF fmtF32 .rne false (addX .rne (unpackF fmtF32 a) (unpackF fmtF32 b))
def f32Mul (a b : Nat) : Nat := packF fmtF32 .rne false (XReal.ofF (mulF (unpackF fmtF32 a) (unpackF fmtF32 b)))
def f32Div (a b : Nat) : Nat := packF fmtF32 .rne false (divX (unpackF fmtF32 a) (unpackF fmtF32 b))
def f32Of (v : FVal) : Nat := packF fmtF32 .rne false (XReal.ofF v)
def f32Sum : List Nat → Nat
  | [] => 0
  | v :: vs => vs.foldl f32Add v

/-- The sum of squares of a row; none is infinite (R196). -/
def normOf (xs : List FVal) : Option Dy :=
  if xs.any fun v => isNan v || isInf v then none else some (sumDy (xs.map fun v => ⟨finZ v * finZ v, 2 * finE v⟩))
def normLess (a b : Option Dy) : Bool :=
  match a, b with
  | none, _ => false
  | some _, none => true
  | some p, some q => decide (0 < (sumDy [q, ⟨-p.z, p.e⟩]).z)
/-- The member with the largest norm, the lowest on ties. -/
def maxNorm (norm : Nat → Option Dy) : List Nat → Nat
  | [] => 0
  | m :: ms => ms.foldl (fun best r => if normLess (norm best) (norm r) then r else best) m

/-- A representative row, and the weight of a member (R196). -/
def repRow (s : State) (core : Nat) (src : Opnd) (f : Slot) (n : Nat) (rule : RepRule) (members : List Nat) : List Byte :=
  let ty := efmtTy f.efmt
  let ez := tyBytes ty
  let copy (r : Nat) := readBytes s.mem (spadHome core (src.off + r * src.stride)) (n * ez)
  match rule with
  | .first => copy (members.headD 0)
  | .maxnorm => copy (maxNorm (fun r => normOf (rowVals s core src ty r n)) members)
  | .mean =>
    (upto n).flatMap fun k =>
      let vals := members.map fun r => f32Of (elemVal ty (spadNat s core (elemOff src ez r k) ez))
      let q := f32Div (f32Sum vals) (f32Of (.fin false members.length 0))
      leBytes ez (convTo ty f.rnd f.sat (XReal.ofF (unpackF fmtF32 q)))
def repWeight (s : State) (core : Nat) (src : Opnd) (f : Slot) (n : Nat) (rule : RepRule) (members : List Nat) (r : Nat) : Nat :=
  match rule with
  | .first => if members.head? = some r then 0x3F800000 else 0
  | .maxnorm => if maxNorm (fun r => normOf (rowVals s core src (efmtTy f.efmt) r n)) members = r then 0x3F800000 else 0
  | .mean => f32Div 0x3F800000 (f32Of (.fin false members.length 0))

/-- SIGREP (R195, R196). What derives from unspecified bytes is unspecified: all of it for a bucket id, the bucket for a row. DESIGN CHOICE
(log 81): an unspecified R is a number from 0 to 64. -/
def doSigrep (s : State) (x : ExecId) (cover : Nat) (it : Item) (i : SigrepW) (sh : Shape) (slot : Word) : State :=
  let core := x.core
  let f := slotOf slot
  let ez := tyBytes (efmtTy f.efmt)
  let (ss, ds) := cmdOpnds it sh slot
  let src := ss.headD (opnd 0 0 0 1)
  let idp := ss.getD 1 (opnd 0 0 0 1)
  let rep := ds.headD (opnd 0 0 0 1)
  let map := ds.getD 1 (opnd 0 0 0 1)
  let m := rowsOf sh i.lm
  if openBytes s core cover idp.off (2 * m) then
    let s1 := (upto m).foldl (fun s q => spadFree s core (rep.off + q * rep.stride) (sh.reqK * ez)) (spadFree s core map.off 512)
    landK (s1.takeFree 1).2 x i.c.toNat (leNat (s1.takeFree 1).1 % 65)
  else
    let ridx := repIndex ((upto m).map fun r => spadNat s core (idp.off + 2 * r) 2)
    let members (q : Nat) := (upto m).filter fun r => ridx.getD r 0 = q
    let n := ridx.foldl (fun a q => max a (q + 1)) 0
    let openRow (r : Nat) := openBytes s core cover (src.off + r * src.stride) (sh.reqK * ez)
    let openRep (q : Nat) := (members q).any openRow
    let rows := (upto n).map fun q => if openRep q then none else some (repRow s core src f sh.reqK i.rule (members q))
    let weights := (upto 64).map fun r =>
      if m ≤ r then some 0
      else if openRep (ridx.getD r 0) && i.rule == .maxnorm then none
      else some (repWeight s core src f sh.reqK i.rule (members (ridx.getD r 0)) r)
    let s1 := ((upto n).zip rows).foldl (fun s p => match p.2 with
      | some bs => spadWrite s core (rep.off + p.1 * rep.stride) bs
      | none => spadFree s core (rep.off + p.1 * rep.stride) (sh.reqK * ez)) s
    let s2 := spadWrite s1 core map.off (((upto 64).flatMap fun r => leBytes 2 (if r < m then ridx.getD r 0 else 0xFFFF)) ++
      (upto 64).flatMap fun q => leBytes 2 (if q < n then (members q).length else 0))
    let s3 := ((upto 64).zip weights).foldl (fun s p => match p.2 with
      | some v => spadWrite s core (map.off + 256 + 4 * p.1) (leBytes 4 v)
      | none => spadFree s core (map.off + 256 + 4 * p.1) 4) s2
    landK s3 x i.c.toNat n

/-- SIGSCAT (R197): a row whose map entry is unspecified is written with unspecified values. -/
def doSigscat (s : State) (x : ExecId) (cover : Nat) (it : Item) (i : SigscatW) (sh : Shape) (slot : Word) : State :=
  let core := x.core
  let (ms, ds) := cmdOpnds it sh slot
  let map := ms.headD (opnd 0 0 0 1)
  let out := ds.headD (opnd 0 0 0 1)
  (upto (rowsOf sh i.lm)).foldl (fun s r =>
    let at' := out.off + r * out.stride
    if openBytes s core cover (map.off + 2 * r) 2 then spadFree s core at' out.len
    else
      let q := spadNat s core (map.off + 2 * r) 2
      if sh.grM ≤ q then s
      else
        let (vals, s1) := readTiles s x i.t.toNat q (colsOf sh i.t.toNat i.ln)
        spadWrite s1 core at' (vals.flatMap (drainBytes i.ty (slotOf slot)))) s

/-- SIGBWD (R198). Sources are read whole first; a destination element that is also read as a source is unspecified. -/
def doSigbwd (s : State) (core cover : Nat) (it : Item) (i : SigbwdW) (sh : Shape) : State :=
  let (ss, ds) := cmdOpnds it sh 0
  let src := ss.headD (opnd 0 0 0 1)
  let map := ss.getD 1 (opnd 0 0 0 1)
  let out := ds.headD (opnd 0 0 0 1)
  let ez := tyBytes i.ty
  let n := if i.spread then sh.reqK else sh.reqN
  let m := rowsOf sh i.lm
  let ridx (r : Nat) := spadNat s core (map.off + 2 * r) 2
  let count (q : Nat) := spadNat s core (map.off + 128 + 2 * q) 2
  let weight (r : Nat) := spadNat s core (map.off + 256 + 4 * r) 4
  let mapOpen (o len : Nat) := openBytes s core cover (map.off + o) len
  let val (r k : Nat) := f32Of (elemVal i.ty (spadNat s core (elemOff src ez r k) ez))
  let rowOpen' (r : Nat) := openBytes s core cover (src.off + r * src.stride) src.len
  let enc (v : Nat) := leBytes ez (convTo i.ty .rne false (XReal.ofF (unpackF fmtF32 v)))
  -- the rows written, their bytes (none: unspecified), and the source rows read
  let rows : List (Nat × Option (List Byte) × List Nat) :=
    if i.spread then
      ((upto m).filter fun r => decide (ridx r < 64) || mapOpen (2 * r) 2).map fun r =>
        if mapOpen (2 * r) 2 || mapOpen (256 + 4 * r) 4 || rowOpen' (ridx r) then (r, none, [ridx r % 64])
        else (r, some ((upto n).flatMap fun k => enc (f32Mul (val (ridx r) k) (weight r))), [ridx r])
    else
      ((upto 64).filter fun q => decide (count q ≠ 0) || mapOpen (128 + 2 * q) 2).map fun q =>
        let ms := (upto m).filter fun r => ridx r = q
        if mapOpen (128 + 2 * q) 2 || mapOpen 0 (2 * m) || ms.any rowOpen' then (q, none, ms)
        else (q, some ((upto n).flatMap fun k => enc (f32Sum (ms.map fun r => val r k))), ms)
  let readAt (off : Nat) : Bool := rows.any fun p => p.2.2.any fun r => rangesMeet (src.off + r * src.stride) src.len off ez
  rows.foldl (fun s p =>
    let at' := out.off + p.1 * out.stride
    match p.2.1 with
    | none => spadFree s core at' (n * ez)
    | some bs => (upto n).foldl (fun s k =>
        if readAt (at' + k * ez) then spadFree s core (at' + k * ez) ez
        else spadWrite s core (at' + k * ez) ((bs.drop (k * ez)).take ez)) s) s

-- quantising (R66, R209 to R211)

/-- Bin of a value, from 0 for exponent -126; none is not counted. -/
def binOf : FVal → Option Nat
  | .nan => none
  | .inf _ => some 253
  | .fin _ m e => if m = 0 then none else some (max (-126) (min 127 ((Nat.log2 m : Int) + e)) + 126).toNat

/-- The elements of a cell of a tile (R208). -/
def cellElems (geom : Nat) (nq rows depth cell : Nat) : List (Nat × Nat) :=
  (upto rows).flatMap fun i => ((upto depth).filter fun k =>
    if geom = 0 then true else i / cellRows geom * nq + k / cellCols geom = cell).map (i, ·)

def satAdd (a b : Nat) : Nat := min (a + b) 0xFFFFFFFF

/-- QHIST; poison gives unspecified counts to the cell (R209, R336). -/
def doQhist (s : State) (core : Nat) (it : Item) (i : QhistW) (sh : Shape) (slot : Word) : State :=
  let f := slotOf slot
  let (ss, ds) := cmdOpnds it sh slot
  let src := ss.headD (opnd 0 0 0 1)
  let out := ds.headD (opnd 0 0 0 1)
  let (nr, nq) := cellsOf f.geom sh.grM sh.grK
  let ez := tyBytes i.ty
  (upto (nr * nq)).foldl (fun s c =>
    let es := cellElems f.geom nq (rowsOf sh i.lm) (kdepth sh i.lk) c
    let at' := out.off + 1024 * c
    let bad := es.any (fun p => poisoned s (spadHome core (elemOff src ez p.1 p.2)) ez) || (i.acc && poisoned s (spadHome core at') 1020)
    if bad then spadWrite (spadFree s core at' 1020) core (at' + 1020) (leBytes 4 0)
    else
      let bins := es.filterMap fun p => binOf (elemVal i.ty (spadNat s core (elemOff src ez p.1 p.2) ez))
      let old (n : Nat) := if i.acc then spadNat s core (at' + 4 * n) 4 else 0
      let counts := (upto 254).map fun j => satAdd (bins.filter (· = j)).length (old j)
      spadWrite s core at' ((counts.flatMap fun v => leBytes 4 v) ++ leBytes 4 (satAdd bins.length (old 254)) ++ leBytes 4 0)) s

/-- max_magnitude of an element format as m * 2^e (R66). -/
def maxMagnitude (ty : Ty) : FVal :=
  match ty with
  | .i8 => .fin false 127 0
  | .n8 => .fin false 255 0
  | t => unpackF (fmtOf t) (fmtOf t).maxBits

/-- qscale of R66 over the bins. -/
def qscale (bins : List Nat) (p : Nat) (ty : Ty) : Nat :=
  let n := bins.foldl (· + ·) 0
  if n = 0 then 0x3F800000
  else
    let need := ceilDiv (p * n) 1024
    let b := ((upto bins.length).find? fun j => need ≤ (bins.take (j + 1)).foldl (· + ·) 0).getD 253
    packF fmtF32 .rne false (divX (.fin false 1 ((b : Int) - 126 + 1)) (maxMagnitude ty))

def doQscale (s : State) (core : Nat) (it : Item) (i : QscaleW) (sh : Shape) (slot : Word) : State :=
  let f := slotOf slot
  let (ss, ds) := cmdOpnds it sh slot
  let src := ss.headD (opnd 0 0 0 1)
  let out := ds.headD (opnd 0 0 0 1)
  let (nr, nq) := cellsOf f.geom sh.grM sh.grK
  let p := if i.p then max 1 (min 1024 ((it.kv.getD 2 0).toNat % 2 ^ 11)) else f.pctl
  (upto (nr * nq)).foldl (fun s c =>
    if poisoned s (spadHome core (src.off + 1024 * c)) 1016 then spadFree s core (out.off + 4 * c) 4
    else
      let bins := (upto 254).map fun j => spadNat s core (src.off + 1024 * c + 4 * j) 4
      spadWrite s core (out.off + 4 * c) (leBytes 4 (qscale bins p (efmtTy f.efmt)))) s

/-- QCVT (R211). DESIGN CHOICE (log 81): where the destination overlaps the source or the scales, each element is read after the earlier
ones have been written. -/
def doQcvt (s : State) (core : Nat) (it : Item) (i : QcvtW) (sh : Shape) (slot : Word) : State :=
  let f := slotOf slot
  let (ss, ds) := cmdOpnds it sh slot
  let src := ss.headD (opnd 0 0 0 1)
  let scales := ss.getD 1 (opnd 0 0 0 1)
  let out := ds.headD (opnd 0 0 0 1)
  let ty := efmtTy f.efmt
  (upto (rowsOf sh i.lm)).foldl (fun s r => (upto (kdepth sh i.lk)).foldl (fun s k =>
    let from' := elemOff src (tyBytes i.ty) r k
    let sc := scales.off + 4 * cellAt f.geom sh.grK r k
    let to' := elemOff out (tyBytes ty) r k
    if poisoned s (spadHome core from') (tyBytes i.ty) || poisoned s (spadHome core sc) 4 then spadFree s core to' (tyBytes ty)
    else
      let q := divX (elemVal i.ty (spadNat s core from' (tyBytes i.ty))) (unpackF fmtF32 (spadNat s core sc 4))
      spadWrite s core to' (leBytes (tyBytes ty) (convTo ty f.rnd f.sat q))) s) s

-- the unit's order (R188)

def isMatrixI : Instr → Bool
  | .wload _ | .wdrop _ | .mma _ | .mmas _ | .tzero _ | .tld _ | .tst _ | .sighash _ | .sigrep _ | .sigscat _ | .sigbwd _
  | .qhist _ | .qscale _ | .qcvt _ => true
  | _ => false
def usesMacros : Instr → Bool
  | .wload _ | .wdrop _ | .mma _ | .mmas _ => true
  | _ => false
/-- Lens commands and multiplies, which a stamp record times (R327). -/
def timedI : Instr → Bool
  | .mma _ | .mmas _ | .sighash _ | .sigrep _ | .sigscat _ | .sigbwd _ => true
  | _ => false
def tilesOf : Instr → List Nat
  | .mma w | .mmas w => if w.twin then [w.t.toNat, w.t.toNat + 1] else [w.t.toNat]
  | .tzero w => [w.t.toNat]
  | .tld w | .tst w => [w.t.toNat]
  | .sigscat w => [w.t.toNat]
  | _ => []

def cmdN (i : Instr) : Nat := ((cmdInfo i).map (·.n)).getD 0
def opShape (o : Op) : Shape := cmdShape o.item (cmdN o.item.instr)
def opSlot (o : Op) : Word := cmdSlot o.item (cmdN o.item.instr)

/-- Scratchpad bytes that a command reads, and those that it writes. -/
def cmdBytes (o : Op) : List (Nat × Nat) × List (Nat × Nat) :=
  let os := cmdOpnds o.item (opShape o) (opSlot o)
  match o.item.instr with
  | .tld w => (if w.sp == .sp then (tileRows o.item w (opShape o) true false).map fun a => (a.addr, a.len) else [], [])
  | .tst w =>
    let rs := if w.sp == .sp then (tileRows o.item w (opShape o) true true).map fun a => (a.addr, a.len) else []
    (if w.add then rs else [], rs)
  | _ => (os.1.map Opnd.bytes, os.2.map Opnd.bytes)

def spansMeet (ps qs : List (Nat × Nat)) : Bool := ps.any fun p => qs.any fun q => rangesMeet p.1 p.2 q.1 q.2

/-- Must p be performed before the later o? -/
def cmdConflict (p o : Op) : Bool :=
  (usesMacros p.item.instr && usesMacros o.item.instr) || ((tilesOf p.item.instr).any (tilesOf o.item.instr).contains) ||
  spansMeet (cmdBytes p).2 ((cmdBytes o).1 ++ (cmdBytes o).2) || spansMeet (cmdBytes p).1 (cmdBytes o).2

/-- Unperformed commands of a core, with their executors' contexts. -/
def unitOps (s : State) (core : Nat) : List (Nat × Op) :=
  match s.wg core with
  | none => []
  | some w => w.all.flatMap fun p => (p.2.ops.filter fun o => isMatrixI o.item.instr && !o.performed).map (p.1, ·)

/-- Has a command begun: it has asked another endpoint for bytes, or has written what it writes here (R295, R332)? -/
def begun (s : State) (x : ExecId) (o : Op) : Bool := o.sent || !o.got.isEmpty || awaited s x o.id

/-- May a command be performed: after the commands that it depends on, after an OPFENCE before it in its clause, and for a twin load after
the follower's earlier multiplies (R185, R186, R188). A freeze does not hold one that has begun (R332). -/
def cmdReady (s : State) (x : ExecId) (e : Exec) (o : Op) : Bool :=
  !o.performed && (begun s x o || !frozen s x.core .matrix) && !heldBack x.core e o 0 &&
  ((unitOps s x.core).all fun p => o.id ≤ p.2.id || !cmdConflict p.2 o) &&
  (e.waits.all fun w => match w with | .opfence _ start => decide (o.id < start) | _ => true) &&
  (match o.item.instr with
   | .wload w => !w.twin || (unitOps s (x.core + 1)).all fun p => o.id ≤ p.2.id || !usesMacros p.2.item.instr
   | _ => true)

-- parity (R193, R339)

/-- The core that runs a number: the original, or its cluster's spare, which the records name 208 + cluster (R17, R342; DESIGN CHOICE,
log 82). -/
def coreRunning (s : State) (n : Nat) : Nat := if mapGet none s.spares (clusterOf n) = some n then 208 + clusterOf n else n

/-- A macro row fails its parity check while an MMA reads it: the MMA has begun (R193, R327). -/
def parityTrap (s : State) (x : ExecId) (o : Op) (row : Nat) : State :=
  let isMma (i : Instr) : Bool := match i with | .mma _ | .mmas _ => true | _ => false
  let gone := (unitOps s x.core).filter fun p => isMma p.2.item.instr && decide (o.id ≤ p.2.id)
  let c := s.core x.core
  let twice := c.failedRows.contains row
  let s0 := stampPhase s x.core fun p n => { p with cmp0 := some (p.cmp0.getD n) }
  let s1 := s0.updCore x.core fun c => { c with macroRec := none, parityTraps := c.parityTraps + 1, failedRows := row :: c.failedRows }
  let rs : List Repair := (if c.parityTraps + 1 = 16 then [.core (coreRunning s x.core)] else []) ++
    (if twice then [.macroRow (coreRunning s x.core) row] else [])
  let s2 := { s1 with pendingRepairs := s1.pendingRepairs ++ rs.filter fun r => !s1.pendingRepairs.contains r }
  let gen := ((s.wg x.core).map fun w => w.launch.gen).getD 0
  let s3 := (logError s2 2 8 0 x.core row gen).entry x 0x11 gone.length o.clause
  let s4 := gone.foldl (fun s p => s.updOp ⟨x.core, p.1⟩ p.2.id fun o => { o with performed := true, lanes := 0 }) s3
  (gone.map (·.1)).eraseDups.foldl (fun s ctx => settle s ⟨x.core, ctx⟩) s4

-- MATRIX_COMMAND_PERFORMED

/-- A WDROP, or a single WLOAD, ends the slaving of the follower, unless a twin WLOAD committed after it began a new one (R185). -/
def endSlaving (s : State) (x : ExecId) (o : Op) : State :=
  let again := (unitOps s x.core).any fun p => decide (o.id < p.2.id) && (match p.2.item.instr with | .wload w => w.twin | _ => false)
  if again then s else freeFollower s x.core

/-- WLOAD takes effect in the macros; a twin one takes the follower's (R184, R185). -/
def loadMacros (s : State) (x : ExecId) (o : Op) (w : WloadW) : State :=
  let s1 := if w.twin then s.updCore (x.core + 1) fun c => { c with weights := [], bscales := [] } else endSlaving s x o
  doWload s1 x.core o.tag o.item w (opShape o) (opSlot o)

/-- A command that touches no memory beyond scratchpad. -/
def doCmd (s : State) (x : ExecId) (o : Op) : State :=
  let sh := opShape o
  let slot := opSlot o
  match o.item.instr with
  | .wload w => loadMacros s x o w
  | .wdrop _ => endSlaving (s.updCore x.core fun c => { c with weights := [], bscales := [] }) x o
  | .mma w | .mmas w => doMma s x o.tag o.item w sh slot (cmdSpan o.item 2)
  | .tzero w => doTzero s x.core w.t.toNat
  | .sighash w => doSighash s x.core o.tag o.item w sh slot
  | .sigrep w => (doSigrep s x o.tag o.item w sh slot).updOp x o.id fun o => { o with due := [] }
  | .sigscat w => doSigscat s x o.tag o.item w sh slot
  | .sigbwd w => doSigbwd s x.core o.tag o.item w sh
  | .qhist w => doQhist s x.core o.item w sh slot
  | .qscale w => doQscale s x.core o.item w sh slot
  | .qcvt w => doQcvt s x.core o.item w sh slot
  | _ => s

/-- Scratchpad ranges that a command reads (R184, R187, R194 to R198, R209 to R211). -/
def cmdReads (s : State) (core : Nat) (o : Op) : List (Nat × Nat) :=
  let sh := opShape o
  let f := slotOf (opSlot o)
  let src := (cmdOpnds o.item sh (opSlot o)).1
  let first := src.headD (opnd 0 0 0 1)
  let second := src.getD 1 (opnd 0 0 0 1)
  let (nr, nq) := cellsOf f.geom sh.grM sh.grK
  let whole := src.flatMap fun p => rowParts p p.rows p.len
  let cells (p : Opnd) (rows depth : Nat) : List (Nat × Nat) :=
    (((upto rows).flatMap fun i => (upto depth).map fun k => cellAt f.geom sh.grK i k).eraseDups).map fun n => (p.off + 4 * n, 4)
  match o.item.instr with
  | .wload w =>
    let kept := if f.spn = 0 then kdepth sh w.lk else ceilDiv (kdepth sh w.lk) 12 * f.spn
    rowParts first (min kept first.rows) (min (spanOf sh w.ln) sh.grN * tyBytes (efmtTy f.efmt)) ++ src.tail.flatMap fun p => rowParts p p.rows p.len
  | .mma w | .mmas w =>
    rowParts first (rowsOf sh w.lm) (kdepth sh w.lk * tyBytes (efmtTy f.efmt)) ++
      (if f.geom = 0 then [] else cells second (rowsOf sh w.lm) (kdepth sh w.lk))
  | .sigscat w => [(first.off, 2 * rowsOf sh w.lm)]
  | .sigbwd w =>
    let m := rowsOf sh w.lm
    if w.spread then
      let rows := ((upto m).map fun r => spadNat s core (second.off + 2 * r) 2).eraseDups.filter (· < 64)
      (second.off, 2 * m) :: (second.off + 256, 4 * m) :: rows.map fun q => (first.off + q * first.stride, first.len)
    else (second.off, 2 * m) :: (second.off + 128, 128) :: rowParts first m first.len
  | .qhist w =>
    rowParts first (rowsOf sh w.lm) first.len ++ (if w.acc then (upto (nr * nq)).map fun c => (second.off + 1024 * c, 1020) else [])
  | .qscale _ => (upto (nr * nq)).map fun c => (first.off + 1024 * c, 1016)
  | .qcvt w => rowParts first (rowsOf sh w.lm) first.len ++ cells second (rowsOf sh w.lm) (kdepth sh w.lk)
  | _ => whole

def endCmd (s : State) (x : ExecId) (o : Op) (bad : Option (Nat × Nat)) : State :=
  let s1 := if timedI o.item.instr then stampPhase s x.core fun p n => { p with cmp0 := some (p.cmp0.getD n), cmp1 := some n } else s
  let s2 := match o.item.instr with
    | .tst w => if w.sp == .sp then s1 else stampPhase s1 x.core fun p n => { p with cout1 := some n }
    | _ => s1
  let s3 := finishOp s2 x o.id (bad.map (·.1)) ((bad.map (·.2)).getD 0)
  match o.item.instr with
  | .wdrop _ => s3.updExec x (dropOp · o.id)
  | _ => s3

/-- Check domain of a space's stores (R333). -/
def spaceDomain (space : Space) : Nat := match space with | .sp => 3 | .vt => 5 | .gl => 6

/-- A crossing into a tile fails its check: the first element that TLD wrote holds the error until it is written (R337, R338). -/
def tldSpan (s : State) (x : ExecId) (w : TmemW) (ecc : Ecc) : State :=
  match ecc with
  | .span => logSpan (s.updCore x.core fun c => { c with badTiles := tileKey w.t.toNat 0 0 :: c.badTiles.filter (· ≠ tileKey w.t.toNat 0 0) })
      x.core 2 (spaceDomain w.sp) (tileKey w.t.toNat 0 0)
  | _ => s
/-- One out of a tile: the first unit that TST wrote is poisoned, and its executor is told (R336, R338). -/
def tstSpan (s : State) (x : ExecId) (o : Op) (w : TmemW) (r : Option RowOut) (ecc : Ecc) : State :=
  match ecc, r.map fun r => locOf x.core o.item.xl w.sp r.addr with
  | .span, some (.home h) =>
    (addPoison (logSpan s x.core (domainOf h) 2 (whereOf h)) h 1).updOp x o.id fun o => { o with poison := o.poison.or (some (domainOf h)) }
  | _, _ => s
/-- One into the macros: the first weight is unspecified, and the executor is told (R338; log 80). -/
def wloadSpan (s : State) (x : ExecId) (o : Op) (ecc : Ecc) : State :=
  match o.item.instr, ecc with
  | .wload _, .span =>
    let s1 := logSpan (s.takeFree 8).2 x.core 8 3 (whereOf (((cmdReads s x.core o).head?.map (fun r => spadHome x.core r.1)).getD 0))
    (s1.updCore x.core fun c => { c with weights := mapPut 0 0 (BitVec.ofNat 64 (leNat (s.takeFree 8).1)) c.weights }).updOp x o.id
      fun o => { o with poison := o.poison.or (some 8) }
  | _, _ => s

/-- The first range of a command that is read at its place meets the check's outcome. -/
def checkFirst (s : State) (x : ExecId) (o : Op) (space : Space) (ps : List (Nat × Nat)) (ecc : Ecc) : State :=
  match ps.head?.map fun r => locOf x.core o.item.xl space r.1 with
  | some (.home h) => checkUnit s x.core h ecc
  | _ => s

/-- Shared units that a drain's requests go to (R192, R247). -/
def drainUnits (core : Nat) (o : Op) : List Nat :=
  let rows (w : TmemW) (st : Bool) : List Nat :=
    unitsAt (homesOf core o.item w.sp ((tileRows o.item w (opShape o) (!st) st).map fun a => (a.addr, a.len)))
  match o.item.instr with
  | .tld w => rows w false
  | .tst w => rows w true
  | _ => []

def matrixStep (s : State) (x : ExecId) (id : Nat) (badRow : Option Nat) (ecc : Ecc) : State :=
  match opAt s x id with
  | none => s
  | some (_, e, o) =>
    if !isMatrixI o.item.instr || !cmdReady s x e o then s
    else
      let s := s.serve x.core (drainUnits x.core o)
      let sh := opShape o
      match o.item.instr, badRow with
      | .mma _, some row => parityTrap s x o row
      | .mmas _, some row => parityTrap s x o row
      | .tld w, _ =>
        let ranges := (tileRows o.item w sh true false).map fun a => (a.addr, a.len)
        match fetchRemote s x o ranges with
        | some s1 => s1
        | none =>
          let (s1, bad) := doTld (checkFirst s x o w.sp ranges ecc) x o w sh
          endCmd (tldSpan s1 x w ecc) x o bad
      | .tst w, _ =>
        if o.sent then (if awaited s x id then s else endCmd s x o none)
        else
          let s0 := if w.add then checkFirst s x o w.sp ((tileRows o.item w sh true true).map fun a => (a.addr, a.len)) ecc else s
          let (rows, s1) := tstRows s0 x o w sh (opSlot o)
          let s2 := tstSpan (rows.foldl (fun s r => storeRow s x.core o.item.xl w.sp w.add r.addr r.bytes r.bad) s1) x o w rows.head? ecc
          let (s3, sent) := rows.foldl (fun (acc : State × Bool) r =>
            let (s, any) := if w.sp == .gl then sendWrite acc.1 x o r.addr r.bytes else (acc.1, false)
            (s, acc.2 || any)) (s2, false)
          let s4 := match rows.findSome? (·.met) with | some m => opPoison s3 x id m.1 m.2 | none => s3
          if sent then quiesce (s4.updOp x id fun o => { o with sent := true }) else endCmd s4 x o none
      | _, _ =>
        let s1 := checkFirst s x o .sp (cmdReads s x.core o) ecc
        endCmd (wloadSpan (doCmd s1 x o) x o ecc) x o (firstPoison s1 x.core (cmdReads s1 x.core o))

def execMatrixCommandPerformed (x : ExecId) (op : Nat) (badRow : Option Nat) (ecc : Ecc) (s : State) :
    Host.Outcome State Fault Refusal := .next (matrixStep s x op badRow ecc)

/-- TACQ_HOLD: the commands on the tile committed before the TACQ are performed, and the executor holds the token (R190). -/
def tacqStep (s : State) (x : ExecId) : State :=
  (((s.exec x).map Exec.waits).getD []).foldl (fun s w => match w with
    | .tacq tile true below =>
      if (unitOps s x.core).all fun p => below ≤ p.2.id || !(tilesOf p.2.item.instr).contains tile then endWait s x w else s
    | _ => s) s

def execTacqHold (x : ExecId) (s : State) : Host.Outcome State Fault Refusal := .next (tacqStep s x)

end Sys2Proof.Machine
end

