-- ==== Sys2Proof/Machine/Copy.lean ====
section
/-! DEFINITION. The copy words and CPYQ (spec/13 R200 to R207). -/

namespace Sys2Proof.Machine

/-- The operands of a copy word, read at issue: k[a], k[b] and its run (R200, R202). -/
def copyEff (i : Instr) (w : CopyW) (v : View) : Eff :=
  { item := some (if v.on then v.e.rk w.a.toNat :: v.e.rk w.b.toNat :: v.e.krun w.c.toNat (copyRun i) else [], []) }

def execCpy (w : CopyW) (s : State) : Host.Outcome State Fault Refusal := issueWord (.cpy w) w.ctl (copyEff (.cpy w) w) s
def execCpyt (w : CopyW) (s : State) : Host.Outcome State Fault Refusal := issueWord (.cpyt w) w.ctl (copyEff (.cpyt w) w) s
def execCpyg (w : CopyW) (s : State) : Host.Outcome State Fault Refusal := issueWord (.cpyg w) w.ctl (copyEff (.cpyg w) w) s
def execCpys (w : CopyW) (s : State) : Host.Outcome State Fault Refusal := issueWord (.cpys w) w.ctl (copyEff (.cpys w) w) s
def execCpyr (w : CopyW) (s : State) : Host.Outcome State Fault Refusal := issueWord (.cpyr w) w.ctl (copyEff (.cpyr w) w) s
def execCpyq (w : KdaW) (s : State) : Host.Outcome State Fault Refusal :=
  issueWord (.cpyq w) w.ctl (fun v => captured v [v.e.rk w.a.toNat]) s

/-- The fields of a copy word. -/
def copyW : Instr → Option CopyW
  | .cpy w | .cpyt w | .cpyg w | .cpys w | .cpyr w => some w
  | _ => none
def isCopyI (i : Instr) : Bool := (copyW i).isSome
def isReduce : Instr → Bool
  | .cpyr _ => true
  | _ => false

-- what a copy moves (R204)

/-- Byte ranges of the source and of the destination in one order: byte j of the sources goes to byte j of the destinations. -/
structure CopyPlan where
  src : List (Nat × Nat)
  dst : List (Nat × Nat)
  deriving DecidableEq, Repr

/-- Offsets of the index tuples in linear order, dimension 0 innermost (R204). -/
def tupleOffsets : List (Nat × Int) → List Int
  | [] => [0]
  | (ext, stride) :: ds => (tupleOffsets ds).flatMap fun o => (upto ext).map fun (i : Nat) => o + (i : Int) * stride

/-- Extents and strides from a captured descriptor's words. -/
def dimsOf : List Word → List (Nat × Int)
  | e :: st :: rest => (e.toNat, sext 64 st.toNat) :: dimsOf rest
  | _ => []

/-- The ranges of a copy. Its item holds k[a], k[b] and the run, then what was read of its list or descriptor before commit: the
indices, or esize and the dimensions. Addresses are taken modulo 2^64. -/
def copyPlan (it : Item) : CopyPlan :=
  let f (i : Nat) : Nat := (it.kv.getD i 0).toNat
  match it.instr with
  | .cpyt w =>
    let es := f 4
    let dims := dimsOf (it.kv.drop 5)
    let base := if w.out then f 1 else f 0
    let strided := (tupleOffsets dims).map fun o => (wrap 64 ((base : Int) + o), es)
    let packed := [(if w.out then f 0 else f 1, es * strided.length)]
    if w.out then { src := packed, dst := strided } else { src := strided, dst := packed }
  | .cpyg _ | .cpys _ =>
    let len := f 3 % 2 ^ 32
    let stride := f 3 / 2 ^ 32
    let gather := match it.instr with | .cpyg _ => true | _ => false
    let rows := (it.kv.drop 5).map fun i => (((if gather then f 0 else f 1) + i.toNat * stride) % 2 ^ 64, len)
    let packed := [(if gather then f 1 else f 0, len * rows.length)]
    if gather then { src := rows, dst := packed } else { src := packed, dst := rows }
  | _ => { src := [(f 0, f 2)], dst := [(f 1, f 2)] }

/-- The completion register: value and scratchpad offset (R202). -/
def copyDone (it : Item) : Nat × Nat :=
  let k := (it.kv.getD (1 + copyRun it.instr) 0).toNat
  (k / 2 ^ 32, k % 2 ^ 20)

-- the checks before commit (R200, R202, R203)

def spRange (addr len align : Nat) (rd : Bool) : Acc :=
  { lane := 32, space := .sp, addr, len, align, rd, wr := !rd, remote := false, named := addr }

/-- Address faults and alignment faults of ranges, without translation. -/
def checkPlaces (w : Workgroup) (x : ExecId) (it : Item) (accs : List Acc) : Except Bad Unit :=
  match accs.filter (addrBad w.launch.spsize), accs.filter alignBad with
  | a :: as, _ => .error (.cause (accCause 0x05 x.ctx it.g it.idx (a :: as)))
  | [], a :: as => .error (.cause (accCause 0x06 x.ctx it.g it.idx (a :: as)))
  | [], [] => .ok ()

/-- The registers of a run whose zero bits are not zero (R202). -/
def copyRunBad (it : Item) (w : CopyW) : Bool :=
  let f (i : Nat) : Nat := (it.kv.getD i 0).toNat
  let last := f (1 + copyRun it.instr)
  (match it.instr with
   | .cpyt _ => decide (2 ^ 20 ≤ f 2)
   | .cpyg _ | .cpys _ => decide (2 ^ 37 ≤ f 2)
   | _ => decide (2 ^ 32 ≤ f 2)) || (w.cw && last / 2 ^ 20 % 2 ^ 12 ≠ 0)

/-- The table that a copy reads before its commit: the index list or the descriptor. -/
def copyTable (it : Item) : Option Acc :=
  let k := (it.kv.getD 2 0).toNat
  match it.instr with
  | .cpyt _ => some (spRange (k % 2 ^ 20) 272 16 true)
  | .cpyg _ | .cpys _ =>
    let iw := if k / 2 ^ 20 % 2 = 1 then 8 else 4
    some (spRange (k % 2 ^ 20) (k / 2 ^ 21 % 2 ^ 16 * iw) iw true)
  | _ => none

/-- Numbers of n bytes each. -/
def chunkNats (n : Nat) (bs : List Byte) : List Word := (upto (bs.length / n)).map fun i => BitVec.ofNat 64 (leNat ((bs.drop (n * i)).take n))

/-- The words that a copy captures of its table: indices, or esize and dimensions; none for a malformed descriptor (R203). -/
def tableWords (it : Item) (bs : List Byte) : Option (List Word) :=
  match it.instr with
  | .cpyt _ =>
    let num (o n : Nat) := leNat ((bs.drop o).take n)
    let es := num 0 4
    let nd := num 4 4
    let ext (d : Nat) := num (16 + 16 * d) 8
    let str (d : Nat) := num (24 + 16 * d) 8
    if !([1, 2, 4, 8, 16].contains es) || nd = 0 || 16 < nd || num 8 8 ≠ 0 then none
    else if (upto 16).any fun d => if d < nd then ext d = 0 || decide (2 ^ 32 < ext d) else ext d ≠ 0 || str d ≠ 0 then none
    else if 2 ^ 32 < (upto nd).foldl (fun p d => p * ext d) 1 then none
    else some (BitVec.ofNat 64 es :: (upto nd).flatMap fun d => [BitVec.ofNat 64 (ext d), BitVec.ofNat 64 (str d)])
  | .cpyg _ | .cpys _ => some (chunkNats (if (it.kv.getD 2 0).toNat / 2 ^ 20 % 2 = 1 then 8 else 4) bs)
  | _ => some []

/-- An address, stride or length that is out of its alignment: what faddr names, 0 for what is no address (R203, R229). -/
def copyMisaligned (it : Item) (w : CopyW) : Option Nat :=
  let f (i : Nat) : Nat := (it.kv.getD i 0).toNat
  match it.instr with
  | .cpyr _ =>
    let es := tyBytes w.ty
    if f 0 % es ≠ 0 then some (f 0) else if f 1 % es ≠ 0 then some (f 1) else if f 2 % es ≠ 0 then some 0 else none
  | .cpyt _ =>
    let al := min (f 4) 8
    let base := if w.out then f 1 else f 0
    if base % al ≠ 0 then some base
    else if (dimsOf (it.kv.drop 5)).any fun d => d.2 % (al : Int) ≠ 0 then some 0 else none
  | _ => none

/-- The ranges of a copy's payload and completion word (R200). A destination of CPYR is read too (R283). -/
def copyAccs (it : Item) (w : CopyW) : List Acc :=
  let p := copyPlan it
  let f (i : Nat) : Nat := (it.kv.getD i 0).toNat
  (p.src.map fun r => { lane := 32, space := w.src, addr := r.1, len := r.2, align := 1, rd := true, wr := false, remote := true
                        named := f 0 }) ++
  (p.dst.map fun r => { lane := 32, space := w.dst, addr := r.1, len := r.2, align := 1, rd := isReduce it.instr, wr := true, remote := true
                        named := f 1 }) ++
  (if w.cw then [spRange (copyDone it).2 4 4 false] else [])

/-- What a copy reads of its table; a poisoned one is met, and its bytes are unspecified (R336). -/
def readTable (s : State) (x : ExecId) (a : Acc) : List Byte × State :=
  let h := spadHome x.core a.addr
  if poisoned s h a.len then ((s.takeFree a.len).1, meetPoison (s.takeFree a.len).2 x (poisonDomain s h a.len) (whereOf h))
  else (readBytes s.mem h a.len, s)

/-- All checks of a copy: the item with what it captured, the pages it touches. -/
def copyChecks (s0 : State) (x : ExecId) (wg : Workgroup) (it : Item) (w : CopyW) : Except Bad (Item × State) := do
  if copyRunBad it w then .error (itemCause x it 0x05) else pure ()
  let table := copyTable it
  checkPlaces wg x it table.toList
  match table with
  | some a => if a.addr % a.align ≠ 0 then .error (itemCause x it 0x06 0 a.addr) else pure ()
  | none => pure ()
  let (bytes, s) := match table with | some a => readTable s0 x a | none => ([], s0)
  match tableWords it bytes with
  | none => .error (itemCause x it 0x0B)
  | some ws =>
    let it1 : Item := { it with kv := it.kv ++ ws }
    let accs := copyAccs it1 w
    match accs.filter (addrBad wg.launch.spsize) with
    | a :: as => .error (.cause (accCause 0x05 x.ctx it.g it.idx (a :: as)))
    | [] =>
      match copyMisaligned it1 w with
      | some faddr => .error (itemCause x it 0x06 0 faddr)
      | none => do
        let (xl, s1) ← checkAccs s x wg it.g it.idx accs
        .ok ({ it1 with xl }, s1)

-- commit

/-- Home ranges of a copy's source. -/
def sourceHomes (core : Nat) (it : Item) (w : CopyW) : List (Nat × Nat) := homesOf core it w.src (copyPlan it).src

/-- Does a stamp record time the copy on its way in, or out (R327)? -/
def copyIn (w : CopyW) : Bool := w.dst == .sp
def copyOut (w : CopyW) : Bool := w.src == .sp

/-- Commit of a copy word (R200, R205): its tag goes to k[d], it counts in C, and its sources are watched until it completes
(R207). The operation's `sent` flag is for messages alone; a copy in committed before cmp0 is kept in `lanes` bit 1. -/
def commitCopy (s : State) (x : ExecId) (c : Clause) (it : Item) (w : CopyW) : Except Bad State :=
  match s.wg x.core with
  | none => .ok s
  | some wg =>
    if !it.on then .ok (release s x c .c it 0 [])
    else do
      let (it1, s1) ← copyChecks s x wg it w
      let tag := wg.copies + 1
      let id := s1.fresh
      let s2 := release s1 x c .c it1 (if wg.stamps.cmp0.isNone then 3 else 1) [] tag
      let s3 := landK (s2.updWg x.core fun g => { g with copies := tag }) x w.d.toNat (tag % 2 ^ 40)
      let ws : List Watch := (sourceHomes x.core it1 w).map fun r => { x, op := id, cursor := false, lo := r.1, len := r.2, hits := [] }
      .ok (stampPhase { s3 with watches := s3.watches ++ ws } x.core fun p n =>
        { p with cin0 := if copyIn w then some (p.cin0.getD n) else p.cin0
                 cout0 := if copyOut w then some (p.cout0.getD n) else p.cout0 })

/-- CPYQ (R205). -/
def commitCpyq (s : State) (x : ExecId) (it : Item) (i : KdaW) : State :=
  match s.wg x.core with
  | none => s
  | some w =>
    let q := (it.kv.getD 0 0).toNat
    landK s x i.d.toNat (if q = 0 || w.copies < q then 3 else if w.copiesDone.contains q then 1 else 0)

-- COPY_COMPLETE

/-- One byte of a copy's source: where it lives, its value, and the domain in which its unit is poisoned, 0 where it is good. -/
structure SrcByte where
  home : Nat
  val : Byte
  bad : Nat
  deriving DecidableEq, Repr

/-- The places of ranges, as numbers. -/
def placesOf (core : Nat) (it : Item) (space : Space) (rs : List (Nat × Nat)) : List (Nat × Nat) :=
  rs.flatMap fun r => (pieces r.1 r.2).map fun p => (placeKey (locOf core it.xl space p.1), p.2)

/-- The source bytes of a copy, at their homes or as their endpoints sent them (R206). -/
def copySource (s : State) (core : Nat) (o : Op) (space : Space) (rs : List (Nat × Nat)) : List SrcByte × State :=
  rs.foldl (fun (acc : List SrcByte × State) r =>
    (pieces r.1 r.2).foldl (fun (acc : List SrcByte × State) p =>
      let q := readRange acc.2 core o space p.1 p.2
      let home := placeKey (locOf core o.item.xl space p.1)
      let bs : List SrcByte := ((upto q.1.length).zip q.1).map fun b =>
        { home := home + b.1, val := b.2, bad := poisonDomain q.2.2 (home + b.1) 1 }
      (acc.1 ++ bs, q.2.2)) acc) ([], s)

/-- Source bytes that an agent wrote while the copy was in flight, the copy itself among them, have unspecified values (R207). -/
def blurred (s : State) (hits : List (Nat × Nat)) : List SrcByte → List SrcByte × State
  | [] => ([], s)
  | b :: bs =>
    if isHit hits b.home then
      let (f, s1) := s.takeFree 1
      let r := blurred s1 hits bs
      ({ b with val := f.headD 0 } :: r.1, r.2)
    else
      let r := blurred s hits bs
      (b :: r.1, r.2)

/-- Carry the poison of single bytes to their destination. -/
def carryPoison (s : State) (h : Nat) (bs : List SrcByte) : State :=
  ((upto bs.length).zip bs).foldl (fun s b => if b.2.bad ≠ 0 then addPoison s (h + b.1) 1 else s) s

/-- A copy's write of one piece at its home (R206): destination bytes inside the source are open. It does not meet the sources of other
copies, which may read old or new bytes (R207). -/
def copyStore (s : State) (core h : Nat) (srcs : List (Nat × Nat)) (bs : List SrcByte) : State :=
  let (vals, s1) := hitBytes srcs h (bs.map (·.val)) s
  carryPoison (meetCursors (meetRegions (placeBytes (l1Clean s1 core h bs.length true) (some core) false h vals) h bs.length) h bs.length) h bs

/-- Sum of elements of a type, byte lists of one length (R162, R204). -/
def addElems (ty : Ty) (old new : List Byte) : List Byte :=
  let n := tyBytes ty
  (upto (old.length / n)).flatMap fun i =>
    leBytes n (newValue .add ty (leNat ((old.drop (n * i)).take n)) (leNat ((new.drop (n * i)).take n)))

/-- The sums of elements where any byte of an element is open are unspecified whole. -/
def openElems (n : Nat) (isOpen : Nat → Bool) : Nat → List Byte → State → List Byte × State
  | 0, bs, s => (bs, s)
  | k + 1, bs, s =>
    let r := openElems n isOpen k bs s
    if (span (n * k) n).any isOpen then (r.1.take (n * k) ++ (r.2.takeFree n).1 ++ r.1.drop (n * (k + 1)), (r.2.takeFree n).2) else r

/-- CPYR's update of the elements of one sector, indivisible (R204); elements that meet an open byte are unspecified (R207). Elements of a
poisoned unit stay as they are; the answer is its domain (R336). -/
def reduceStore (s : State) (core h : Nat) (ty : Ty) (srcs hits : List (Nat × Nat)) (bs : List SrcByte) : State × Nat :=
  let s1 := l1Clean s core h bs.length true
  let n := tyBytes ty
  let isOpen (j : Nat) : Bool := isHit srcs (h + j) || isHit hits ((bs.map (·.home)).getD j 0)
  let (vals, s2) := openElems n isOpen (bs.length / n) (addElems ty (readBytes s1.mem h bs.length) (bs.map (·.val))) s1
  -- runs of elements that no poisoned unit holds
  let good := runsOf ((upto bs.length).filter fun j => !poisoned s1 (h + j / n * n) n)
  (good.foldl (fun s r =>
    let bytes := (vals.drop r.1).take r.2
    carryPoison (meetCursors (meetRegions (placeBytes s (some core) true (h + r.1) bytes) (h + r.1) r.2) (h + r.1) r.2) (h + r.1)
      ((bs.drop r.1).take r.2)) s2, poisonDomain s1 h bs.length)

/-- CPYR's messages for elements at an endpoint: an atomic add for each element, since a message of kind 10 carries one (R163, R204, R315).
DESIGN CHOICE (log 89): a sector's elements are then no single update at the target. -/
def reduceSend (s : State) (x : ExecId) (o : Op) (ty : Ty) (addr : Nat) (bs : List SrcByte) : State :=
  let n := tyBytes ty
  (upto (bs.length / n)).foldl (fun s i =>
    match locOf x.core o.item.xl .gl (addr + n * i) with
    | .home _ => s
    | .remote ep pa =>
      let v := leNat (((bs.drop (n * i)).take n).map (·.val))
      if remoteOk s o.item (addr + n * i) then
        sendRemote s x o.id 64 10 ep (addr + n * i)
          (leBytes 8 pa ++ leBytes 1 0 ++ leBytes 1 (tyCode ty).toNat ++ leBytes 6 0 ++ leBytes 8 v ++ leBytes 8 0)
      else (failAccess s x o.id ep).updOp x o.id fun o => { o with failed := true }) s

/-- Flags of the 4 KiB scratchpad blocks that a copy has written whole with zeros (R189, R206). -/
def copyZeros (s : State) (core : Nat) (rs : List (Nat × Nat)) : State :=
  let offs := rs.flatMap fun r => if r.2 = 0 then [] else span (r.1 / 4096) ((r.1 + r.2 - 1) / 4096 - r.1 / 4096 + 1)
  offs.eraseDups.foldl (fun s b =>
    let whole := (span (4096 * b) 4096).all fun o =>
      rs.any (fun r => decide (r.1 ≤ o) && decide (o < r.1 + r.2)) && readByte s.mem (spadHome core o) = 0
    if whole && !poisoned s (spadHome core (4096 * b)) 4096 then
      s.updCore core fun c => { c with zflags := if c.zflags.contains b then c.zflags else c.zflags ++ [b] }
    else s) s

/-- The bytes of a range as they go to other endpoints. -/
def remoteData (s : State) (core : Nat) (o : Op) (srcs : List (Nat × Nat)) (addr : Nat) (bs : List SrcByte) : List Byte × State :=
  ((pieces addr bs.length).foldl (fun (acc : List Byte × State) p =>
    let r := hitBytes srcs (placeKey (locOf core o.item.xl .gl p.1)) (((bs.drop (p.1 - addr)).take p.2).map (·.val)) acc.2
    (acc.1 ++ r.1, r.2)) ([], s))

/-- One destination range of a copy: its local part is written, its remote part sent. The answer: was a part sent, and the domain and address
of a poisoned unit that a reduction met. -/
def copyRange (x : ExecId) (o : Op) (w : CopyW) (srcs hits : List (Nat × Nat)) (mine : List SrcByte) (r : Nat × Nat) (s : State) :
    State × Bool × Nat × Nat :=
  let red := isReduce o.item.instr
  let (s1, bad) := (pieces r.1 r.2).foldl (fun (acc : State × Nat × Nat) p =>
    let bs := (mine.drop (p.1 - r.1)).take p.2
    match locOf x.core o.item.xl w.dst p.1 with
    | .home h =>
      if red then
        let q := reduceStore acc.1 x.core h w.ty srcs hits bs
        (q.1, if acc.2.1 = 0 then (q.2, p.1) else acc.2)
      else (copyStore acc.1 x.core h srcs bs, acc.2)
    | .remote _ _ => acc) (s, 0, 0)
  if w.dst == .gl && !(remoteChunks o.item.xl r.1 r.2).isEmpty then
    if red then (reduceSend s1 x o w.ty r.1 mine, true, bad)
    else
      let (bs, s2) := remoteData s1 x.core o srcs r.1 mine
      let q := sendWrite s2 x o r.1 bs
      (q.1, q.2, bad)
  else (s1, false, bad)

/-- Write a copy's payload in its order (R204). -/
def copyWrite (s : State) (x : ExecId) (o : Op) (w : CopyW) (srcs hits : List (Nat × Nat)) (data : List SrcByte) (rs : List (Nat × Nat)) :
    State × Bool × Nat × Nat :=
  let r := rs.foldl (fun (acc : (State × Bool × Nat × Nat) × List SrcByte) r =>
    let q := copyRange x o w srcs hits (acc.2.take r.2) r acc.1.1
    ((q.1, acc.1.2.1 || q.2.1, if acc.1.2.2.1 = 0 then q.2.2 else acc.1.2.2), acc.2.drop r.2)) ((s, false, 0, 0), data)
  r.1

/-- The end of a copy: its completion word, unless an access of it has failed, its tag, its count (R205, R206, R296). -/
def endCopy (s : State) (x : ExecId) (o : Op) (w : CopyW) (bad : Option Nat) (at' : Nat) : State :=
  let failed := (((s.exec x).bind (opOf · o.id)).map (·.failed)).getD false
  let (val, off) := copyDone o.item
  let s1 := if w.cw && !failed then writeHome s (some x.core) false (spadHome x.core off) (leBytes 4 val) else s
  let s2 := s1.updWg x.core fun g => { g with copiesDone := o.tag :: g.copiesDone }
  let s3 := stampPhase s2 x.core fun p n =>
    { p with cin1 := if copyIn w && o.lanes.getLsbD 1 then some n else p.cin1, cout1 := if copyOut w then some n else p.cout1 }
  finishOp (dropWatches s3 x o.id) x o.id bad at'

/-- Does a copy touch bytes of this device, its completion word among them (R260)? -/
def copyHere (core : Nat) (o : Op) (w : CopyW) : Bool :=
  w.cw || !(homesOf core o.item w.src (copyPlan o.item).src).isEmpty || !(homesOf core o.item w.dst (copyPlan o.item).dst).isEmpty

/-- May a copy start: after the executor's earlier stores and atomics (R206)? Its reads in remote windows alone, with `far`, await no acquire
below scope 6 (R260). -/
def copyReady (core : Nat) (e : Exec) (o : Op) (far : Bool) : Bool :=
  !o.performed && !heldBack core e o 0 far &&
  e.ops.all fun p => o.id ≤ p.id || !(isStoreI p.item.instr || isAtomI p.item.instr) || doneFor .wg p

/-- A crossing into the destination fails its check: the first unit there is poisoned, and the log names the span (R338). -/
def copySpan (s : State) (x : ExecId) (o : Op) (w : CopyW) (ecc : Ecc) : State :=
  match ecc, homesOf x.core o.item w.src (copyPlan o.item).src, homesOf x.core o.item w.dst (copyPlan o.item).dst with
  | .span, (src, _) :: _, (dst, _) :: _ => addPoison (logSpan s x.core (domainOf dst) (domainOf src) (whereOf src)) dst 1
  | _, _, _ => s

/-- A copy's good bytes clear the poison of the units that they together cover whole (R336). -/
def goodCopy (s : State) (core : Nat) (o : Op) (w : CopyW) (rs : List (Nat × Nat)) (data : List SrcByte) : State :=
  if s.poison.isEmpty || isReduce o.item.instr then s
  else clearCovered s (((rs.flatMap fun r => span r.1 r.2).zip data).filterMap fun p =>
    if p.2.bad = 0 then some (placeKey (locOf core o.item.xl w.dst p.1), 1) else none)

/-- Shared units that a copy's requests go to (R247). -/
def copyUnits (core : Nat) (o : Op) (w : CopyW) : List Nat :=
  unitsAt (sourceHomes core o.item w ++ homesOf core o.item w.dst (copyPlan o.item).dst)

/-- The payload moves. -/
def copyPayload (s : State) (x : ExecId) (o : Op) (w : CopyW) (ecc : Ecc) : State :=
  let p := copyPlan o.item
  let s := s.serve x.core (copyUnits x.core o w)
  let s0 := (sourceHomes x.core o.item w).head?.elim s fun r => checkUnit s x.core r.1 ecc
  let (raw, s1) := copySource s0 x.core o w.src p.src
  let hits := hitsOf s1 x o.id ++ placesOf x.core o.item w.dst p.dst
  let (data, s2) := blurred s1 hits raw
  let (s3, sent, metBad, metAt) := copyWrite s2 x o w (placesOf x.core o.item w.src p.src) hits data p.dst
  let s3 := goodCopy s3 x.core o w p.dst data
  let s4 := copySpan (if w.dst == .sp then copyZeros s3 x.core p.dst else s3) x o w ecc
  let first := data.find? (·.bad ≠ 0)
  let bad := match first with | some b => some b.bad | none => if metBad = 0 then none else some metBad
  let at' := match first with
    | some b => whereKey b.home
    | none => whereAt x.core o.item.xl w.dst metAt
  if sent then
    let s5 := s4.updOp x o.id fun o => { o with sent := true }
    quiesce (bad.elim s5 fun d => opPoison s5 x o.id d at')
  else endCopy s4 x o w bad at'

/-- A copy that has sent its messages has begun: a freeze does not hold it (R332). -/
def copyStep (s : State) (x : ExecId) (id : Nat) (ecc : Ecc) : State :=
  match opAt s x id with
  | none => s
  | some (_, e, o) =>
    match copyW o.item.instr with
    | none => s
    | some w =>
      if o.performed then s
      else if o.sent then (if awaited s x id then s else endCopy s x o w none 0)
      else if awaited s x id then s
      else if o.got.isEmpty && (frozen s x.core .copy || !copyReady x.core e o true) then s
      else match if w.src == .gl then fetchRemote s x o (copyPlan o.item).src else none with
        | some s1 => s1
        | none => if copyHere x.core o w && heldBack x.core e o 0 then s else copyPayload s x o w ecc

/-- COPY_COMPLETE (R204 to R207). -/
def execCopyComplete (x : ExecId) (op : Nat) (ecc : Ecc) (s : State) : Host.Outcome State Fault Refusal := .next (copyStep s x op ecc)

end Sys2Proof.Machine
end

