-- ==== Sys2Proof/Machine/Index.lean ====
section
/-! DEFINITION. Sparse-tensor regions and the index words (spec/13 R212 to R219). -/

namespace Sys2Proof.Machine

/-- An index word's k operands in field order, read at issue (R214). -/
def indexEff (rs : List KReg) (v : View) : Eff := { item := some (if v.on then rs.map fun k => v.e.rk k.toNat else [], []) }

def execXld (w : XlistW) (s : State) : Host.Outcome State Fault Refusal :=
  issueWord (.xld w) w.ctl (indexEff [w.a, w.b, w.b + 1, w.c]) s
def execXst (w : XlistW) (s : State) : Host.Outcome State Fault Refusal :=
  issueWord (.xst w) w.ctl (indexEff [w.a, w.b, w.b + 1, w.c]) s
def execXadd (w : XlistW) (s : State) : Host.Outcome State Fault Refusal :=
  issueWord (.xadd w) w.ctl (indexEff [w.a, w.b, w.b + 1, w.c]) s
def execXcur (w : XpairW) (s : State) : Host.Outcome State Fault Refusal := issueWord (.xcur w) w.ctl (indexEff [w.a, w.b, w.b + 1]) s
def execXnext (w : XpairW) (s : State) : Host.Outcome State Fault Refusal := issueWord (.xnext w) w.ctl (indexEff [w.a, w.b, w.b + 1]) s
def execXcnt (w : KdaW) (s : State) : Host.Outcome State Fault Refusal := issueWord (.xcnt w) w.ctl (indexEff [w.a]) s
def execXdense (w : XdenseW) (s : State) : Host.Outcome State Fault Refusal := issueWord (.xdense w) w.ctl (indexEff [w.a, w.b, w.c]) s
def execXrange (w : XpairW) (s : State) : Host.Outcome State Fault Refusal :=
  issueWord (.xrange w) w.ctl (indexEff [w.a, w.b, w.b + 1]) s

/-- Destination register and number of operand words of an index word. -/
def indexInfo : Instr → Option (KReg × Nat)
  | .xld w | .xst w | .xadd w => some (w.d, 4)
  | .xcur w | .xnext w | .xrange w => some (w.d, 3)
  | .xdense w => some (w.d, 3)
  | .xcnt w => some (w.d, 1)
  | _ => none

-- descriptors and keys (R212, R213)

structure RegionDesc where
  pool : Nat
  pcount : Nat
  ndims : Nat
  ty : Ty
  exts : List Nat
  deriving DecidableEq, Repr

def regionTys : List Ty := [.i32, .i64, .n32, .n64, .f16, .bf16, .f32, .f64]

/-- A descriptor's 64 bytes, or none where it is malformed (R212). -/
def parseRegion (bs : List Byte) : Option RegionDesc :=
  let num (o n : Nat) := leNat ((bs.drop o).take n)
  let nd := num 12 1
  let exts := (upto nd).map fun d => num (16 + 4 * d) 4 + 1
  if num 14 2 ≠ 0 || num 60 4 ≠ 0 || nd = 0 || 4 < nd || num 8 4 = 0 || 32 ≤ num 13 1 then none
  else if (upto 4).any (fun d => decide (nd ≤ d) && num (16 + 4 * d) 4 ≠ 0) || 2 ^ 64 < exts.foldl (· * ·) 1 then none
  else match tyOf (BitVec.ofNat 5 (num 13 1)) with
    | .ok ty => if regionTys.contains ty then some { pool := num 0 8, pcount := num 8 4, ndims := nd, ty, exts } else none
    | .error _ => none

/-- Row-major key of the coordinates of the dimensions present (R213). -/
def keyOf (exts cs : List Nat) : Nat := (exts.zip cs).foldl (fun k p => k * p.1 + p.2) 0
/-- The key of a coordinate entry, or none where a coordinate is out of place (R213). -/
def coordKey (d : RegionDesc) (cs : List Nat) : Option Nat :=
  if (cs.drop d.ndims).all (· = 0) && (d.exts.zip cs).all (fun p => decide (p.2 < p.1)) then some (keyOf d.exts cs) else none

/-- Is a value zero: an integer 0, a float +0 or -0 (R213)? -/
def zeroValue (ty : Ty) (x : Nat) : Bool := if tyFloat ty then x % 2 ^ (tyBits ty - 1) = 0 else x = 0

-- the engine fields in memory (R212)

def freshRegion : Region := { entries := [], levels := [], unused := 0, free := [], pool := [], bad := false }

/-- Bytes 32 to 59 of the descriptor. -/
def engineFields (r : Region) : List Byte :=
  leBytes 4 (match r.levels.getLast? with | some (t :: _) => t.n | _ => 0xFFFFFFFF) ++ leBytes 4 r.unused ++
    leBytes 4 (r.free.headD 0xFFFFFFFF) ++ leBytes 4 r.free.length ++ leBytes 8 r.entries.length ++ leBytes 4 r.levels.length

/-- The region as its engine finds it: fresh fields are a fresh region, fields that the engine did not write leave every later result
open (R212). That such a write ends the region's use for good is the model's choice (DESIGN CHOICE, log 54). -/
def regionNow (s : State) (home : Nat) : Region :=
  let fields := readBytes s.mem (home + 32) 28
  match mapGet none s.regions home with
  | none => { freshRegion with bad := decide (fields ≠ engineFields freshRegion) }
  | some r =>
    if fields = engineFields freshRegion && (r.bad || !r.entries.isEmpty || r.unused ≠ 0) then freshRegion
    else { r with bad := r.bad || decide (fields ≠ engineFields r) }

-- the checks before commit (R214)

/-- The descriptor's place: outside global memory or in a remote window it raises the permission fault. A region whose later results are
unspecified may raise the descriptor fault, which is an open choice (R212). -/
def regionAt (s : State) (x : ExecId) (w : Workgroup) (it : Item) (addr : Nat) :
    Except Bad (Nat × RegionDesc × List (Nat × Xlate) × State) := do
  if 2 ^ 57 < addr + 64 then .error (itemCause x it 0x07 0 addr) else pure ()
  let (xl, s1) ← checkAccs s x w it.g it.idx
    [{ lane := 32, space := .gl, addr, len := 64, align := 64, rd := true, wr := true, remote := false, named := addr }]
  let r := engineRead s1 x.core xl .gl addr 64
  match locOf x.core xl .gl addr, parseRegion r.1 with
  | .home h, some d =>
    let (i, s2) := if (regionNow r.2.2 h).bad then r.2.2.choose 2 else (0, r.2.2)
    if i = 1 then .error (itemCause x it 0x0B) else .ok (h, d, xl, s2)
  | _, _ => .error (itemCause x it 0x0B)

/-- A scratchpad range that is aligned even when it is empty. -/
def checkSp (w : Workgroup) (x : ExecId) (it : Item) (off len align : Nat) : Except Bad Unit := do
  checkPlaces w x it [spRange off len 1 true]
  if off % align ≠ 0 then .error (itemCause x it 0x06 0 off) else .ok ()

/-- What an index word reads of scratchpad before its commit, as numbers of n bytes; poison is met (R336). -/
def readNats (s : State) (x : ExecId) (off count n : Nat) : List Nat × State :=
  let r := readTable s x (spRange off (n * count) 1 true)
  ((upto count).map fun i => leNat ((r.1.drop (n * i)).take n), r.2)

/-- Index positions of a box in row-major order (R215). -/
def boxPoints : List (Nat × Nat) → List (List Nat)
  | [] => [[]]
  | (lo, n) :: bs => (span lo n).flatMap fun c => (boxPoints bs).map (c :: ·)

/-- A box that a region has (R214). -/
def boxOk (d : RegionDesc) (lo n : List Nat) : Bool :=
  (lo.drop d.ndims).all (· = 0) && (n.drop d.ndims).all (· = 0) &&
  (upto d.ndims).all fun i => 1 ≤ n.getD i 0 && decide (lo.getD i 0 + n.getD i 0 ≤ d.exts.getD i 0)

/-- All checks of an index word. The item keeps, after its operands, the descriptor's home address and what was read of its list or
box: keys, then values; or lo0 to lo3 and n0 to n3. -/
def indexChecks (s : State) (x : ExecId) (w : Workgroup) (it : Item) : Except Bad (Item × State) := do
  let f (i : Nat) : Nat := (it.kv.getD i 0).toNat
  let keep (h : Nat) (ws : List Nat) (xl : List (Nat × Xlate)) : Item :=
    { it with kv := it.kv ++ BitVec.ofNat 64 h :: ws.map (BitVec.ofNat 64), xl }
  let list : Except Bad (Item × State) := do
    let (h, d, xl, s1) ← regionAt s x w it (f 0)
    let n := f 2
    if 4096 < n then .error (itemCause x it 0x05) else pure ()
    checkSp w x it (f 1) (16 * n) 16
    checkSp w x it (f 3) (tyBytes d.ty * n) (tyBytes d.ty)
    let (coords, s2) := readNats s1 x (f 1) (4 * n) 4
    match (upto n).mapM fun i => coordKey d ((coords.drop (4 * i)).take 4) with
    | none => .error (itemCause x it 0x05)
    | some keys =>
      let (vals, s3) := match it.instr with
        | .xld _ => ((upto n).map fun _ => 0, s2)
        | _ => readNats s2 x (f 3) n (tyBytes d.ty)
      .ok (keep h (keys ++ vals) xl, s3)
  match it.instr with
  | .xld _ => list
  | .xst _ => list
  | .xadd _ => list
  | .xcur _ => do
    let (h, _, xl, s1) ← regionAt s x w it (f 0)
    checkSp w x it (f 1) 32 32
    .ok (keep h [] xl, s1)
  | .xnext _ => do
    checkSp w x it (f 0) 32 32
    let (cur, s) := readNats s x (f 0) 32 1
    let addr := leNat ((cur.take 8).map (BitVec.ofNat 8))
    if (cur.drop 17).any (fun b => b ≠ 0) || 2 ^ 57 < addr + 64 || addr % 64 ≠ 0 then
      .error (itemCause x it 0x0B)
    else pure ()
    if f 2 < 1 || 32 < f 2 then .error (itemCause x it 0x0B) else pure ()
    checkSp w x it (f 1) (16 * f 2) 16
    let (h, _, xl, s1) ← regionAt s x w it addr
    .ok (keep h [] xl, s1)
  | .xdense i => do
    let (h, d, xl, s1) ← regionAt s x w it (f 0)
    checkPlaces w x it [spRange (f 1) 32 1 true]
    let (box, s1) := readNats s1 x (f 1) 8 4
    let lo := box.take 4
    let n := box.drop 4
    let total := (n.take d.ndims).foldl (· * ·) 1 * tyBytes d.ty
    if !boxOk d lo n || 2 ^ 32 < total then .error (itemCause x it 0x05) else pure ()
    let (xl2, s2) ← checkAccs s1 x w it.g it.idx
      [{ lane := 32, space := i.sp, addr := f 2, len := total, align := 1, rd := false, wr := true, remote := true, named := f 2 }]
    .ok (keep h (lo ++ n) (xl ++ xl2.filter fun p => !(xl.any (·.1 = p.1))), s2)
  | _ => do
    let (h, _, xl, s1) ← regionAt s x w it (f 0)
    .ok (keep h [] xl, s1)

/-- Home address of the descriptor that a committed index word names. -/
def regionOf (it : Item) : Nat := (it.kv.getD (((indexInfo it.instr).map (·.2)).getD 0) 0).toNat
def regionHome (o : Op) : Nat := regionOf o.item

/-- A pending index exhaustion of the executor on the word's region, which withdraws the word (R219). -/
def exhausts (it : Item) (n : Entry) : Bool := decide (n.code = 0x12) && n.region == some (regionOf it)
def isWithdrawn (s : State) (x : ExecId) (it : Item) : Bool := (s.exec x).elim false fun e => e.entries.any (exhausts it)
/-- The entry counts one more withdrawn command in its info (R219). -/
def withdraw (s : State) (x : ExecId) (it : Item) : State :=
  s.updExec x fun e => { e with entries := updFirst (exhausts it) (fun n => { n with info := n.info + 2 ^ 32 }) e.entries }

/-- Commit of an index word: it counts in X (R214). An XNEXT's cursor is watched for program writes (R215). -/
def commitIndex (s : State) (x : ExecId) (c : Clause) (it : Item) : Except Bad State :=
  match s.wg x.core, indexInfo it.instr with
  | some w, some (d, _) =>
    if !it.on then .ok (release s x c .x it 0 [])
    else do
      let (it1, s1) ← indexChecks s x w it
      let cur : Watch := { x, op := s1.fresh, cursor := true, lo := spadHome x.core (it.kv.getD 0 0).toNat, len := 32, hits := [] }
      let ws := match it.instr with | .xnext _ => [cur] | _ => []
      if isWithdrawn s1 x it1 then .ok (withdraw (release s1 x c .x it1 0 []) x it1)
      else
        let s2 := release s1 x c .x it1 1 [.k d.toNat]
        .ok { s2 with watches := s2.watches ++ ws }
  | _, _ => .ok s

-- the tree (R216, R219): which node splits where, which nodes merge, and where new nodes come from is the engine's

/-- Node of a level that holds a position, and the position in it. -/
def locate : List TreeNode → Nat → Nat × Nat
  | [], p => (0, p)
  | t :: ts, p =>
    if p < t.size then (0, p)
    else
      let r := locate ts (p - t.size)
      (r.1 + 1, r.2)

/-- Node that takes a new entry at a position; between two nodes it may be either. -/
def locateNew (right : Bool) : List TreeNode → Nat → Nat
  | [], _ => 0
  | t :: ts, p => if ts.isEmpty || p < t.size || (p = t.size && !right) then 0 else locateNew right ts (p - t.size) + 1

def nodeAt (l : List TreeNode) (j : Nat) : TreeNode := l.getD j { n := 0, size := 0 }

/-- Nodes on the path to a position, leaf first. -/
def pathOf : List (List TreeNode) → Nat → List Nat
  | [], _ => []
  | l :: ls, p =>
    let j := min (locate l p).1 (l.length - 1)
    (nodeAt l j).n :: pathOf ls j

/-- A node for the tree: the head of the free list, or the first never-used node. -/
def newNode (s : State) (pcount : Nat) (r : Region) : Nat × Region × State :=
  match r.free with
  | [] => (r.unused, { r with unused := r.unused + 1 }, s)
  | f :: fs =>
    let (i, s1) := if pcount ≤ r.unused then (0, s) else s.choose 2
    if i = 0 then (f, { r with free := fs }, s1) else (r.unused, { r with unused := r.unused + 1 }, s1)

/-- Node j of the lowest level given gains an entry; a full node splits. -/
def growTree (pcount : Nat) : List (List TreeNode) → Nat → Region → State → List (List TreeNode) × Region × State
  | [], _, r, s => ([], r, s)
  | l :: ls, j, r, s =>
    let t := nodeAt l j
    if t.size < 16 then (l.set j { t with size := t.size + 1 } :: ls, r, s)
    else
      let (i, s1) := s.choose 16
      let (n, r1, s2) := newNode s1 pcount r
      let l1 := l.take j ++ [{ t with size := i + 1 }, { n, size := 16 - i }] ++ l.drop (j + 1)
      match ls with
      | [] =>
        let (m, r2, s3) := newNode s2 pcount r1
        ([l1, [{ n := m, size := 2 }]], r2, s3)
      | p :: ps =>
        let q := growTree pcount (p :: ps) (locate p j).1 r1 s2
        (l1 :: q.1, q.2)

/-- Node j loses an entry: an empty node is freed, and a node may merge with the next under its parent. -/
def shrinkTree : List (List TreeNode) → Nat → Region → State → List (List TreeNode) × Region × State
  | [], _, r, s => ([], r, s)
  | l :: ls, j, r, s =>
    let t := nodeAt l j
    let parent (i : Nat) : Nat := (locate (ls.headD []) i).1
    if t.size ≤ 1 then
      let q := shrinkTree ls (parent j) { r with free := t.n :: r.free } s
      (if (l.eraseIdx j).isEmpty then [] else l.eraseIdx j :: q.1, q.2)
    else
      let l1 := l.set j { t with size := t.size - 1 }
      match l[j + 1]? with
      | none => (l1 :: ls, r, s)
      | some u =>
        if parent j = parent (j + 1) && t.size - 1 + u.size ≤ 16 then
          let (i, s1) := s.choose 2
          if i = 0 then (l1 :: ls, r, s1)
          else
            let q := shrinkTree ls (parent j) { r with free := u.n :: r.free } s1
            ((l1.set j { t with size := t.size - 1 + u.size }).eraseIdx (j + 1) :: q.1, q.2)
        else (l1 :: ls, r, s)

/-- A root with one child may give way to it. -/
def lowerRoot (r : Region) (s : State) : Region × State :=
  match r.levels.getLast?, r.levels.length with
  | some [t], n + 2 =>
    if t.size = 1 then
      let (i, s1) := s.choose 2
      if i = 0 then (r, s1) else ({ r with levels := r.levels.take (n + 1), free := t.n :: r.free }, s1)
    else (r, s)
  | _, _ => (r, s)

/-- Position of a key among the entries. -/
def keyPos (r : Region) (key : Nat) : Nat := (r.entries.takeWhile fun p => decide (p.1 < key)).length

def insertKeyAt (pcount key : Nat) (val : Word) (r : Region) (s : State) : Region × State :=
  let r1 := { r with entries := mapPut 0 key val r.entries }
  match r.levels with
  | [] =>
    let (n, r2, s1) := newNode s pcount r1
    ({ r2 with levels := [[{ n, size := 1 }]] }, s1)
  | l :: _ =>
    let (i, s1) := s.choose 2
    let q := growTree pcount r.levels (locateNew (i = 1) l (keyPos r key)) r1 s1
    ({ q.2.1 with levels := q.1 }, q.2.2)

def deleteKey (key : Nat) (r : Region) (s : State) : Region × State :=
  let q := shrinkTree r.levels (locate (r.levels.headD []) (keyPos r key)).1 { r with entries := mapPut 0 key 0 r.entries } s
  lowerRoot { q.2.1 with levels := q.1 } q.2.2

/-- Free nodes suffice for an insertion (R219). -/
def hasRoom (pcount : Nat) (r : Region) : Bool := r.levels.length + 1 ≤ r.free.length + pcount - r.unused

-- the steps (R215)

/-- A command as far as it has come: the region, nodes touched, values for the value list, entries found, and the list index that found
no room. -/
structure IndexRun where
  r : Region
  touched : List Nat
  vals : List Nat
  found : Nat
  fail : Option Nat
  deriving DecidableEq, Repr

/-- One list entry of XLD, XST or XADD. -/
def listEntry (i : Instr) (d : RegionDesc) (n key val : Nat) (st : IndexRun × State) : IndexRun × State :=
  let (q, s) := st
  if q.fail.isSome then st
  else
    let old := (mapGet 0 q.r.entries key).toNat
    let q1 := { q with touched := q.touched ++ pathOf q.r.levels (keyPos q.r key) }
    let load := match i with | .xld _ => true | _ => false
    let add := match i with | .xadd _ => true | _ => false
    if load then ({ q1 with vals := q.vals ++ [old], found := q.found + (if old = 0 then 0 else 1) }, s)
    else
      let new := if add then newValue .add d.ty old val else val
      let done (r : Region) : IndexRun :=
        { q1 with r, vals := if add then q.vals ++ [old] else q.vals, touched := q1.touched ++ pathOf r.levels (keyPos r key) }
      if zeroValue d.ty new then
        if old = 0 then (done q.r, s)
        else
          let (r, s1) := deleteKey key q.r s
          (done r, s1)
      else if old ≠ 0 then (done { q.r with entries := mapPut 0 key (BitVec.ofNat 64 new) q.r.entries }, s)
      else if hasRoom d.pcount q.r then
        let (r, s1) := insertKeyAt d.pcount key (BitVec.ofNat 64 new) q.r s
        (done r, s1)
      else ({ q1 with fail := some n }, s)

/-- Entries with keys from lo, in order. -/
def entriesFrom (r : Region) (lo : Nat) : List (Nat × Word) := r.entries.filter fun p => decide (lo ≤ p.1)

/-- What a step writes besides the region: its result word, and bytes for places in scratchpad or at its destination. -/
structure IndexOut where
  result : Nat
  spad : List (Nat × List Byte)
  cursor : Option (Nat × List Byte)
  dense : Option (Space × Nat × List Byte)
  deriving DecidableEq, Repr

def noOut (result : Nat) : IndexOut := { result, spad := [], cursor := none, dense := none }

/-- The step of a command with a list, entry by entry in order (R215). -/
def indexListEffect (it : Item) (d : RegionDesc) (r : Region) (s : State) : IndexRun × IndexOut × State :=
  let f (i : Nat) : Nat := (it.kv.getD i 0).toNat
  let q0 : IndexRun := { r, touched := [], vals := [], found := 0, fail := none }
  let (q, s1) := (upto (f 2)).foldl (fun st n => listEntry it.instr d n (f (5 + n)) (f (5 + f 2 + n)) st) (q0, s)
  let load := match it.instr with | .xld _ => true | _ => false
  (q, { noOut (if load then q.found else q.r.entries.length) with
        spad := if q.vals.isEmpty then [] else [(f 3, q.vals.flatMap (leBytes (tyBytes d.ty)))] }, s1)

/-- The step of a command on a region: the region after it, the nodes it touched, and what it writes (R215). -/
def indexEffect (s : State) (core : Nat) (it : Item) (d : RegionDesc) (r : Region) : IndexRun × IndexOut × State :=
  let f (i : Nat) : Nat := (it.kv.getD i 0).toNat
  let q0 : IndexRun := { r, touched := [], vals := [], found := 0, fail := none }
  let es := tyBytes d.ty
  let reads (ks : List Nat) : List Nat := ks.flatMap fun k => pathOf r.levels (keyPos r k)
  match it.instr with
  | .xld _ => indexListEffect it d r s
  | .xst _ => indexListEffect it d r s
  | .xadd _ => indexListEffect it d r s
  | .xcur _ => (q0, { noOut 0 with cursor := some (f 1, leBytes 8 (f 0) ++ leBytes 8 (f 2) ++ leBytes 16 0) }, s)
  | .xnext _ =>
    let last := spadNat s core (f 0 + 8) 8
    let started := spadNat s core (f 0 + 16) 1 % 2 = 1
    let e := (entriesFrom r (if started then last + 1 else last)).take (f 2)
    let last' := (e.getLast?.map (·.1)).getD last
    let more := r.entries.any fun p => decide (last' < p.1)
    let fin := e.isEmpty || !more
    ({ q0 with touched := reads (e.map (·.1)) ++ pathOf r.levels (keyPos r last) },
     { noOut e.length with
       spad := if e.isEmpty then [] else [(f 1, e.flatMap fun p => leBytes 8 p.1 ++ leBytes 8 p.2.toNat)]
       cursor := some (f 0 + 8, leBytes 8 last' ++ leBytes 1 ((started || !e.isEmpty).toNat + 2 * fin.toNat)) }, s)
  | .xdense i =>
    let pts := boxPoints ((span 4 d.ndims).map fun j => (f j, f (j + 4)))
    let vals := pts.map fun p => (mapGet 0 r.entries (keyOf d.exts p)).toNat
    ({ q0 with touched := reads (pts.map (keyOf d.exts)) },
     { noOut (vals.filter (· ≠ 0)).length with dense := some (i.sp, f 2, vals.flatMap (leBytes es)) }, s)
  | .xrange _ =>
    let e := r.entries.filter fun p => decide (f 1 ≤ p.1) && decide (p.1 ≤ f 2)
    ({ q0 with touched := reads (e.map (·.1)) ++ pathOf r.levels (keyPos r (f 1)) }, noOut e.length, s)
  | _ => (q0, noOut r.entries.length, s)

/-- Unspecified bytes in the places of a step's outputs (R212): lists whole, XNEXT's whole output, the cursor's last and flags. -/
def openOut (s : State) (it : Item) (d : RegionDesc) (out : IndexOut) : IndexOut × State :=
  let f (i : Nat) : Nat := (it.kv.getD i 0).toNat
  let (rb, s1) := s.takeFree 8
  let spad : List (Nat × Nat) := match it.instr with
    | .xld _ | .xadd _ => [(f 3, tyBytes d.ty * f 2)]
    | .xnext _ => [(f 1, 16 * f 2)]
    | _ => []
  let fills (s : State) (rs : List (Nat × Nat)) : List (Nat × List Byte) × State :=
    rs.foldl (fun (acc : List (Nat × List Byte) × State) r =>
      (acc.1 ++ [(r.1, (acc.2.takeFree r.2).1)], (acc.2.takeFree r.2).2)) ([], s)
  let (lists, s2) := fills s1 spad
  let (cur, s3) := fills s2 (match it.instr with | .xnext _ => [(f 0 + 8, 9)] | _ => [])
  let (dn, s4) := fills s3 ((out.dense.map fun q => (q.2.1, q.2.2.length)).toList)
  ({ result := leNat rb, spad := lists, cursor := match it.instr with | .xnext _ => cur.head? | _ => out.cursor
     dense := out.dense.map fun q => (q.1, q.2.1, ((dn.head?).map (·.2)).getD q.2.2) }, s4)

-- INDEX_STEP

def isIndexI (i : Instr) : Bool := (indexInfo i).isSome

/-- A cursor's write: copies that read it are met, other commands on it are not (R215). -/
def writeCursor (s : State) (core off : Nat) (bs : List Byte) : State :=
  let h := spadHome core off
  let s1 := placeBytes s (some core) false h bs
  { s1 with watches := s1.watches.map fun w =>
      if !w.cursor && rangesMeet w.lo w.len h bs.length then { w with hits := w.hits ++ [(h, bs.length)] } else w }

/-- Home ranges of a region's pool as its pages lie now. -/
def poolRanges (s : State) (l : Launch) (d : RegionDesc) : List (Nat × Nat) :=
  (pagesOf d.pool (256 * d.pcount)).filterMap fun p =>
    let lo := max d.pool (4096 * p)
    match walk s l.ctx l.root lo with
    | .ok xl => if xl.remote.isSome then none else some (xl.pfn * 4096 + lo % 4096, min (d.pool + 256 * d.pcount) (4096 * p + 4096) - lo)
    | .miss _ => none

/-- Pages of the nodes that a step touches; otherwise what keeps the engine from one (R285). -/
def nodePages (s : State) (core : Nat) (l : Launch) (d : RegionDesc) (ns : List Nat) : Except PageBad (List (Nat × Xlate) × State) :=
  ns.foldlM (fun (acc : List (Nat × Xlate) × State) n => do
    let (xl, s1) ← enginePages acc.2 core l (d.pool + 256 * n) 256 true true
    .ok (acc.1 ++ xl.filter fun p => !(acc.1.any (·.1 = p.1)), s1)) ([], s)

/-- The engine's write at a home; copies that read there are met. -/
def engineFieldWrite (s : State) (core h : Nat) (bs : List Byte) : State :=
  meetCopies (placeBytes s (some core) false h bs) none h bs.length

/-- Nodes hold what the engine lays out, which a program read finds unspecified (R212). -/
def writeNodes (s : State) (core : Nat) (d : RegionDesc) (xl : List (Nat × Xlate)) (ns : List Nat) : State :=
  ns.foldl (fun s n => match locOf core xl .gl (d.pool + 256 * n) with
    | .home h => engineFieldWrite (s.takeFree 256).2 core h (s.takeFree 256).1
    | .remote _ _ => s) s

/-- Later commands of the executor on the region are withdrawn, those that commit before the trap is taken too (`withdraw`), and the trap is
pending (R219). -/
def exhaust (s : State) (x : ExecId) (o : Op) (index : Nat) : State :=
  match s.exec x with
  | none => s
  | some e =>
    let later := e.ops.filter fun p => decide (o.id < p.id) && isIndexI p.item.instr && p.item.on && !p.performed &&
      regionHome p = regionHome o
    let s1 := later.foldl (fun s p => s.updOp x p.id fun p => { p with performed := true, lanes := 0, due := [] }) s
    { s1 with watches := s1.watches.filter fun w => !(w.x = x && later.any (·.id = w.op)) }.updExec x fun e =>
      addEntry e { code := 0x12, info := index + 2 ^ 32 * later.length, tmask := e.a0, faddr := o.clause
                   region := some (regionHome o) }

def writeSpad (s : State) (core : Nat) (ws : List (Nat × List Byte)) : State :=
  ws.foldl (fun s w => writeHome s (some core) false (spadHome core w.1) w.2) s

/-- The last part of a command: its result word, and it is performed. -/
def endIndex (s : State) (x : ExecId) (o : Op) (reg : KReg) (result : Nat) : State :=
  let s1 := (landK s x reg.toNat result).updOp x o.id fun o => { o with due := [] }
  finishOp (dropWatches s1 x o.id) x o.id none 0

/-- The first poison that a step meets: of the descriptor, or of a node (R336). -/
def indexPoison (s : State) (core home : Nat) (d : RegionDesc) (xl : List (Nat × Xlate)) (ns : List Nat) : Option (Nat × Nat) :=
  let at' (h n : Nat) : Option (Nat × Nat) := if poisoned s h n then some (poisonDomain s h n, whereOf h) else none
  (at' home 64).or (ns.findSome? fun n => match locOf core xl .gl (d.pool + 256 * n) with
    | .home h => at' h 256
    | .remote _ _ => none)

/-- XDENSE's destination takes its bytes; poison is carried, and a crossing from the engine that fails poisons the first unit (R215, R336,
R338). -/
def denseOut (s : State) (x : ExecId) (o : Op) (out : IndexOut) (bad : Bool) (ecc : Ecc) : State × Bool :=
  match out.dense with
  | none => (s, false)
  | some (space, addr, bs) =>
    let t := engineStore s x.core o.item.xl space addr bs bad
    let t := match ecc, locOf x.core o.item.xl space addr with
      | .span, .home h => if domainOf h = 6 then t else addPoison (logSpan t x.core (domainOf h) 6 (whereOf h)) h 1
      | _, _ => t
    if space == Space.gl then sendWrite t x o addr bs else (t, false)

/-- May a command's step begin: after the earlier ones of its executor on the region, and XDENSE after its executor's earlier stores and
atomics (R215, R217, R258)? One that has waited for a page has begun, and a freeze does not keep it (R332). -/
def indexReady (s : State) (x : ExecId) (e : Exec) (o : Op) : Bool :=
  let before := e.ops.any fun p => decide (p.id < o.id) && isIndexI p.item.instr && !p.performed && regionHome p = regionHome o
  (o.low ≠ 0 || !frozen s x.core .index) && !before && !heldBack x.core e o 0 &&
    (match o.item.instr with | .xdense _ => copyReady x.core e o false | _ => true)

/-- The step itself: the region after it, and everything it writes (R215, R216, R219). -/
def indexApply (s : State) (x : ExecId) (w : Workgroup) (o : Op) (reg : KReg) (ecc : Ecc) : State :=
  let home := regionHome o
  let s0 := checkUnit s x.core home ecc
  let desc := parseRegion (readBytes s0.mem home 64)
  let r0 := regionNow s0 home
  let d := desc.getD { pool := 0, pcount := 1, ndims := 0, ty := .n64, exts := [] }
  let (q, out, s1) := indexEffect s0 x.core o.item d r0
  let nodes := q.touched.eraseDups
  match nodePages s1 x.core w.launch d nodes with
  | .error b => engineBad (s.updOp x o.id fun o => { o with low := 1 }) w x o.id (indexUnit (homeField home)) b
  | .ok (xl, s2) =>
    let poison := indexPoison s2 x.core home d xl nodes
    let bad := r0.bad || desc.isNone || poison.isSome
    let (out, s3) := if bad then openOut s2 o.item d out else (out, s2)
    let (cur, s4) := match o.item.instr, out.cursor with
      | .xnext _, some c =>
        if (hitsOf s3 x o.id).isEmpty then (some c, s3) else (some ((o.item.kv.getD 0 0).toNat, (s3.takeFree 32).1), (s3.takeFree 32).2)
      | _, c => (c, s3)
    let r1 : Region := { q.r with pool := poolRanges s4 w.launch d, bad }
    let s5 : State := { s4 with regions := mapPut none home (some r1) s4.regions }
    let changed := decide (q.r ≠ r0)
    let s6 := if changed then writeNodes s5 x.core d xl nodes else s5
    let s7 := if changed && !bad then engineFieldWrite s6 x.core (home + 32) (engineFields r1) else s6
    let s8 := writeSpad s7 x.core out.spad
    let s9 := match cur with | some c => writeCursor s8 x.core c.1 c.2 | none => s8
    let (s10, sent) := denseOut s9 x o out poison.isSome ecc
    let s11 := match q.fail with | some n => exhaust s10 x o n | none => s10
    let s12 := match poison with | some p => opPoison s11 x o.id p.1 p.2 | none => s11
    if sent then quiesce (s12.updOp x o.id fun o => { o with sent := true, tag := out.result }) else endIndex s12 x o reg out.result

def indexStep (s : State) (x : ExecId) (id : Nat) (ecc : Ecc) : State :=
  match opAt s x id with
  | none => s
  | some (w, e, o) =>
    match indexInfo o.item.instr with
    | none => s
    | some (reg, _) =>
      if o.performed then s
      else if o.sent then (if awaited s x id then s else endIndex s x o reg o.tag)
      else if asking s (.op x (indexUnit (homeField (regionHome o))) id) then s
      else if indexReady s x e o then indexApply (s.serve x.core [indexEngine (regionHome o)]) x w o reg ecc
      else s

/-- INDEX_STEP (R215). -/
def execIndexStep (x : ExecId) (op : Nat) (ecc : Ecc) (s : State) : Host.Outcome State Fault Refusal := .next (indexStep s x op ecc)

end Sys2Proof.Machine
end

