-- ==== Sys2Proof/Machine/Merge.lean ====
section
/-! DEFINITION. The merge unit (spec/13 R220 and R221). -/

namespace Sys2Proof.Machine

/-- MERGE: six base addresses, and the rows of A start, A end, B start, B end and output start (R220). -/
def execMerge (w : MergeW) (s : State) : Host.Outcome State Fault Refusal :=
  issueWord (.merge w) w.ctl (fun v =>
    { item := some (if v.on then v.e.krun w.a.toNat 6 else [],
        if v.on then [w.b.toNat, w.b.toNat + 1, w.c.toNat, w.c.toNat + 1, w.c.toNat + 2].map v.e.vrow else []) }) s

/-- A lane's A start and end, B start and end, and output start. -/
structure MergeLane where
  sa : Nat
  ea : Nat
  sb : Nat
  eb : Nat
  o : Nat
  deriving DecidableEq, Repr

def mergeLane (it : Item) (l : Nat) : MergeLane :=
  let f (i : Nat) : Nat := ((it.lv.getD i []).getD l 0).toNat
  { sa := f 0, ea := f 1, sb := f 2, eb := f 3, o := f 4 }
def MergeLane.malformed (m : MergeLane) : Bool := m.ea < m.sa || m.eb < m.sb
/-- Greatest length of a lane's output. -/
def MergeLane.most (m : MergeLane) : Nat := (m.ea - m.sa) + (m.eb - m.sb)

def mergeAddr (it : Item) (i n : Nat) : Nat := ((it.kv.getD i 0).toNat + 4 * n) % 2 ^ 64

/-- Input ranges of a lane: A columns and values, B columns and values. -/
def mergeIn (it : Item) (m : MergeLane) : List (Nat × Nat) :=
  let na := 4 * (m.ea - m.sa)
  let nb := 4 * (m.eb - m.sb)
  [(mergeAddr it 0 m.sa, na), (mergeAddr it 1 m.sa, na), (mergeAddr it 2 m.sb, nb), (mergeAddr it 3 m.sb, nb)]

/-- Lanes of G with well-formed rows. -/
def mergeLanes (it : Item) : List (Nat × MergeLane) :=
  ((lanesOf it.g).map fun l => (l, mergeLane it l)).filter fun p => !p.2.malformed

/-- The ranges that the checks cover (R220). -/
def mergeAccs (it : Item) (w : MergeW) : List Acc :=
  (mergeLanes it).flatMap fun p =>
    let acc (r : Nat × Nat) (rd : Bool) : Acc :=
      { lane := p.1, space := w.sp, addr := r.1, len := r.2, align := 4, rd, wr := !rd, remote := true, named := r.1 }
    (mergeIn it p.2).map (acc · true) ++
      [acc (mergeAddr it 4 p.2.o, 4 * p.2.most) false, acc (mergeAddr it 5 p.2.o, 4 * p.2.most) false]

/-- Commit of MERGE: it counts in X. -/
def commitMerge (s : State) (x : ExecId) (c : Clause) (it : Item) (i : MergeW) : Except Bad State :=
  match s.wg x.core with
  | none => .ok s
  | some w =>
    if !it.on then .ok (release s x c .x it 0 [])
    else do
      let (xl, s1) ← checkAccs s x w it.g it.idx (mergeAccs it i)
      .ok (release s1 x c .x { it with xl } 1 (.k i.d.toNat :: .a i.st.toNat :: (lanesOf it.g).map fun l => .v (i.c.toNat + 2) l))

/-- The merge of two rows of column and value, f32 (R221); fuel is the greatest length. -/
def mergeRows (drop0 : Bool) : Nat → List (Nat × Nat) → List (Nat × Nat) → List (Nat × Nat)
  | 0, _, _ => []
  | _ + 1, [], [] => []
  | n + 1, a :: as, [] => a :: mergeRows drop0 n as []
  | n + 1, [], b :: bs => b :: mergeRows drop0 n [] bs
  | n + 1, a :: as, b :: bs =>
    if a.1 < b.1 then a :: mergeRows drop0 n as (b :: bs)
    else if b.1 < a.1 then b :: mergeRows drop0 n (a :: as) bs
    else
      let sum := newValue .add .f32 a.2 b.2
      if zeroValue .f32 sum then (if drop0 then mergeRows drop0 n as bs else (a.1, 0) :: mergeRows drop0 n as bs)
      else (a.1, sum) :: mergeRows drop0 n as bs

def wordNats (bs : List Byte) : List Nat := (upto (bs.length / 4)).map fun i => leNat ((bs.drop (4 * i)).take 4)

/-- What one lane gives: its output entries, and the domain of poison that it met, else 0; then length and bytes are open (R336). -/
structure MergeOut where
  lane : Nat
  m : MergeLane
  rows : List (Nat × Nat)
  bad : Nat
  deriving DecidableEq, Repr

def mergeOne (core : Nat) (o : Op) (w : MergeW) (acc : List MergeOut × State) (p : Nat × MergeLane) : List MergeOut × State :=
  let (reads, s1) := (mergeIn o.item p.2).foldl (fun (acc : List (List Nat × Nat) × State) r =>
    let q := readRange acc.2 core o w.sp r.1 r.2
    (acc.1 ++ [(wordNats q.1, q.2.1)], q.2.2)) ([], acc.2)
  let col (i : Nat) : List Nat := (reads.getD i ([], 0)).1
  let bad := ((reads.map (·.2)).find? (· ≠ 0)).getD 0
  if bad ≠ 0 then
    let (n, s2) := s1.choose (p.2.most + 1)
    let (bs, s3) := s2.takeFree (8 * n)
    let ws := wordNats bs
    (acc.1 ++ [{ lane := p.1, m := p.2, rows := (ws.take n).zip (ws.drop n), bad }], s3)
  else
    (acc.1 ++ [{ lane := p.1, m := p.2, rows := mergeRows w.drop0 p.2.most ((col 0).zip (col 1)) ((col 2).zip (col 3)), bad }], s1)

/-- A lane's output ranges with their bytes. -/
def mergeWrites (it : Item) (r : MergeOut) : List (Nat × List Byte × Bool) :=
  [(mergeAddr it 4 r.m.o, r.rows.flatMap (fun p => leBytes 4 p.1), r.bad ≠ 0),
   (mergeAddr it 5 r.m.o, r.rows.flatMap (fun p => leBytes 4 p.2), r.bad ≠ 0)]

def bytePlaces (core : Nat) (o : Op) (space : Space) (addr n : Nat) : List Nat :=
  (span addr n).map fun a => placeKey (locOf core o.item.xl space a)

/-- Output bytes that lie in an input or in another output are open (R221). -/
def mergeBlur (s : State) (shared : List Nat) : List Nat → List Byte → List Byte × State
  | k :: ks, b :: bs =>
    let (v, s1) := if shared.contains k then ((s.takeFree 1).1.headD 0, (s.takeFree 1).2) else (b, s)
    let r := mergeBlur s1 shared ks bs
    (v :: r.1, r.2)
  | _, _ => ([], s)

/-- Places that occur again in a list. -/
def repeated : List Nat → List Nat
  | [] => []
  | k :: ks => if ks.contains k then k :: repeated ks else repeated ks

/-- The lengths, the status aperture and the result word land as load data (R147, R221). -/
def endMerge (s : State) (x : ExecId) (o : Op) (w : MergeW) (lens : List (Nat × Nat)) : State :=
  let ls := lanesOf o.item.g
  let len (l : Nat) : Nat := ((lens.find? (·.1 = l)).map (·.2)).getD 0
  let vs : List RegVal := ls.map fun l => .v (w.c.toNat + 2) l (BitVec.ofNat 32 (len l))
  let status := laneSet (ls.filter fun l => (mergeLane o.item l).malformed)
  let total := (ls.map len).foldl (· + ·) 0
  finishOp (s.updOp x o.id fun o => { o with vals := vs ++ [.a w.st.toNat status, .k w.d.toNat (BitVec.ofNat 64 total)] }) x o.id none 0

/-- Has a remote endpoint reported the byte of a place as bad (R336)? -/
def farBad (o : Op) (k : Nat) : Bool :=
  o.got.any fun g => g.bad ≠ 0 && (span g.addr g.bytes.length).any fun a => placeKey (locOf 0 o.item.xl .gl a) = k

/-- Does a merge touch bytes of this device (R260)? -/
def mergeHere (core : Nat) (o : Op) (w : MergeW) : Bool := (mergeAccs o.item w).any fun a => !(homeRanges core o.item a).isEmpty

/-- Shared units that a MERGE's requests go to: its rows, and its outputs as long as they may be (R247). -/
def mergeUnits (core : Nat) (o : Op) (w : MergeW) : List Nat :=
  unitsAt (homesOf core o.item w.sp ((mergeLanes o.item).flatMap fun p =>
    mergeIn o.item p.2 ++ [(mergeAddr o.item 4 p.2.o, 4 * p.2.most), (mergeAddr o.item 5 p.2.o, 4 * p.2.most)]))

/-- The rows are read and merged, and their local outputs written (R221). -/
def mergeApply (s : State) (x : ExecId) (o : Op) (w : MergeW) (ecc : Ecc) : State :=
  let ins := (mergeLanes o.item).flatMap fun p => (mergeIn o.item p.2).flatMap fun r => bytePlaces x.core o w.sp r.1 r.2
  let s := s.serve x.core (mergeUnits x.core o w)
  let s0 := (ins.find? (· < 2 ^ 60)).elim s fun h => checkUnit s x.core h ecc
  let (outs, s1) := (mergeLanes o.item).foldl (mergeOne x.core o w) ([], s0)
  let writes := outs.flatMap (mergeWrites o.item)
  let shared := ins ++ repeated (writes.flatMap fun q => bytePlaces x.core o w.sp q.1 q.2.1.length)
  let (s2, sent) := writes.foldl (fun (acc : State × Bool) q =>
    let (bs, s3) := mergeBlur acc.1 shared (bytePlaces x.core o w.sp q.1 q.2.1.length) q.2.1
    let s4 := engineStore s3 x.core o.item.xl w.sp q.1 bs q.2.2
    if w.sp == .gl then ((sendWrite s4 x o q.1 bs).1, acc.2 || (sendWrite s4 x o q.1 bs).2) else (s4, acc.2)) (s1, false)
  let lens := outs.map fun r => (r.lane, r.rows.length)
  let s3 := match outs.find? (·.bad ≠ 0) with
    | some r =>
      -- the first unit that the lane met
      let places := (mergeIn o.item r.m).flatMap fun q => bytePlaces x.core o w.sp q.1 q.2
      opPoison s2 x o.id r.bad (whereKey ((places.find? fun k => if 2 ^ 60 ≤ k then farBad o k else poisoned s0 k 1).getD 0))
    | none => s2
  if sent then
    let kept : List Word := (upto 32).map fun l => BitVec.ofNat 64 (((lens.find? (·.1 = l)).map (·.2)).getD 0)
    quiesce (s3.updOp x o.id fun o => { o with sent := true, item := { o.item with kv := o.item.kv ++ kept } })
  else endMerge s3 x o w lens

def mergeStep (s : State) (x : ExecId) (id : Nat) (ecc : Ecc) : State :=
  match opAt s x id with
  | none => s
  | some (_, e, o) =>
    match o.item.instr with
    | .merge w =>
      -- lengths of a merge whose messages are under way stand after the operands
      let sentLens := (mergeLanes o.item).map fun p => (p.1, (o.item.kv.getD (6 + p.1) 0).toNat)
      if o.performed then s
      else if o.sent then (if awaited s x id then s else endMerge s x o w sentLens)
      else if !begun s x o && (frozen s x.core .index || !copyReady x.core e o true) then s
      else match if w.sp == .gl then fetchRemote s x o ((mergeLanes o.item).flatMap fun p => mergeIn o.item p.2) else none with
        | some s1 => s1
        | none => if mergeHere x.core o w && heldBack x.core e o 0 then s else mergeApply s x o w ecc
    | _ => s

/-- MERGE_PERFORMED (R221). -/
def execMergePerformed (x : ExecId) (op : Nat) (ecc : Ecc) (s : State) : Host.Outcome State Fault Refusal := .next (mergeStep s x op ecc)

end Sys2Proof.Machine
end

