-- ==== Sys2Proof/Machine/Clause.lean ====
section
/-! DEFINITION. Clauses: fetch, the award of issue slots, the landing of results, commit and undo, the run-ahead, and handler entry
(spec/03 R47 to R51, spec/05 R69 to R73 and R90, spec/15 R225 to R228, spec/16 R238 to R242, spec/20 R285 to R288). -/

namespace Sys2Proof.Machine

-- what a clause holds

/-- The counter of a counted instruction (R87). -/
def clsOf : Instr → Cls
  | .ld _ | .ldx _ | .lds _ | .ldsx _ | .ldv _ | .ldk _ | .lda _ | .pref _ | .pld _ | .rget _ | .wlpop _ => .l
  | .atom _ | .cas _ | .atoms _ | .cass _ | .atomv _ | .casv _ => .l
  | .st _ | .stx _ | .sts _ | .stsx _ | .stv _ | .stk _ | .stl _ | .pst _ | .cwb _ | .cinv _ | .atomn _ | .rput _ | .wlpush _
  | .wlins _ => .s
  | .cpy _ | .cpyt _ | .cpyg _ | .cpys _ | .cpyr _ => .c
  | .wload _ | .mma _ | .mmas _ | .tzero _ | .tld _ | .tst _ | .sighash _ | .sigrep _ | .sigscat _ | .sigbwd _ | .qhist _
  | .qscale _ | .qcvt _ => .t
  | .xld _ | .xst _ | .xadd _ | .xcur _ | .xnext _ | .xcnt _ | .xdense _ | .xrange _ | .merge _ => .x
  | _ => .none

def countIn (cls : Cls) (is : List Instr) : Nat := (is.filter fun i => clsOf i = cls).length

/-- Words whose effect is in place before the executor's next clause begins issue: the next clause waits for the commit (R165 to
R167, R172, R173, R205, R226, R231, R233, R234 and the waits of R245). -/
def blocksNext : Instr → Bool
  | .bar _ | .gbar _ | .evwait _ | .evtest _ | .waita _ | .sleep _ | .yieldh _ | .tacq _ | .opfence _ | .icinv _ | .tlbinv _
  | .rcur _ | .wlcnt _ | .wlsort _ | .cpyq _ | .rft _ | .exit _ | .trap _ => true
  | .cpy _ | .cpyt _ | .cpyg _ | .cpys _ | .cpyr _ => true
  | .yield w => w.n ≠ 0
  | _ => false

def clauseBlocks (c : Clause) : Bool := c.cause.isSome || c.items.any fun it => it.on && blocksNext it.instr
/-- Has a clause issued its last word? -/
def clauseIssued (c : Clause) : Bool := c.code.words.length ≤ c.next
/-- May the executor's next clause be fetched and begin: every clause before it has issued, and none holds it back? -/
def clausesClear (e : Exec) : Bool := e.clauses.all fun c => clauseIssued c && (e.shadow.isSome || !clauseBlocks c)

/-- A counter as a header wait and the headroom see it: with the counted words of clauses that have issued and not yet committed
(R50; for header waits as the timing of spec/09 needs it, log 20). -/
def seenCount (e : Exec) (cls : Cls) : Nat :=
  counterOf e cls + (e.clauses.map fun c => countIn cls (clauseInstrs c.code)).foldl (· + ·) 0
/-- Are the waits of a header met (R47, R70)? -/
def headerMet (h : Word) (e : Exec) : Bool := (headerWaits h).all fun p => p.2 = 15 || seenCount e p.1 ≤ p.2

-- misses (R285 to R288, R290)

/-- Number of a page request that no executor has: its owner stands at a clause start until its workgroup is saved (R288). -/
def standingReq : Nat := 2 ^ 32

/-- The checkpoint at a clause start, with the faulting page recorded (R286, R287). -/
def checkpoint (e : Exec) (page : MissPage) (ended : Bool) : Shadow :=
  { pc := e.pc, v := e.v, k := e.k, a := e.a, a0 := e.a0, parts := e.parts, poison := [], pages := [page], words := 0, trail := [], ended }

/-- How many times in a row the executor has missed at this clause on a page that its answered request named (R290). -/
def repeatCount (e : Exec) (page : Nat) : Nat :=
  match e.repeats with
  | some (clause, pages, n) => if clause = e.pc && pages.contains page then n + 1 else 0
  | none => 0

/-- A miss at a clause start: the run-ahead begins, on the in-place path while an apply is in progress; during another executor's
run-ahead the page joins the batch and the executor stands (R285, R286, R288). -/
def missAt (s : State) (x : ExecId) (page : MissPage) (fetch : Bool) : State :=
  match s.wg x.core, s.exec x with
  | some w, some e =>
    let n := repeatCount e page.page
    let e1 := { e with repeats := some (e.pc, [], n) }
    let stand := s.setExec x { e1 with waits := e1.waits ++ [.page standingReq] }
    if 8 ≤ n then killFor s x w e 4 { code := 0, info := 0, tmask := 0, faddr := page.page * 4096, word := 31 }
    else if w.apply.isSome then s.setExec x { e1 with shadow := some (checkpoint e page fetch) }
    else match w.phase with
      | .running =>
        (s.setExec x { e1 with shadow := some (checkpoint e page fetch) }).updWg x.core fun w =>
          { w with phase := .ahead x.ctx }
      | .ahead runner =>
        stand.updExec ⟨x.core, runner⟩ fun r =>
          { r with shadow := r.shadow.map fun h =>
              if h.pages.length < 16 || h.pages.any (·.page = page.page) then
                { h with pages := addPage h.pages page, ended := h.ended || 16 ≤ (addPage h.pages page).length
                         trail := h.trail.map fun t => (t.1, t.2.1, addPage t.2.2 page) }
              else h }
      | _ => stand
  | _, _ => s

def noPage : MissPage := { page := 0, malformed := false, fetch := false, write := false, read := false }

-- CLAUSE_FETCH (R69 to R72)

/-- A clause-frame fault or permission fault of the clause being fetched: tmask is a0 (R225). -/
def frameCause (x : ExecId) (e : Exec) (code info faddr : Nat) : Cause :=
  { code, info, faddr, tmask := if isHead x.ctx then 0 else e.a0, word := 31 }

/-- The words of a clause, one read after another. -/
def readWords (x : ExecId) (l : Launch) : Nat → Nat → State → Except Bad (List Word × State)
  | 0, _, s => .ok ([], s)
  | n + 1, addr, s => do
    let (w, s1) ← readCode s x l addr
    let (ws, s2) ← readWords x l n (addr + 8) s1
    .ok (w :: ws, s2)

/-- The pages of a buffered clause, which it may be fetched from as any other (R283). -/
def codePages (x : ExecId) (l : Launch) : List Nat → State → Except Bad State
  | [], s => .ok s
  | p :: ps, s => do
    let (_, s1) ← codePage s x l (p * 4096)
    codePages x l ps s1

/-- A clause's header and words: a buffered copy of it whole, or read at its home and buffered (R69, R304). -/
def clauseWords (s : State) (x : ExecId) (l : Launch) (e : Exec) (anew : Bool) : Except Bad (Word × List Word × State) :=
  match if anew then none else buffered s x.core l.ctx e.pc with
  | some (h :: ws) => do
    let s1 ← codePages x l (pagesOf e.pc (8 * (ws.length + 1))) s
    .ok (h, ws, s1)
  | _ => do
    let (h, s1) ← readCode s x l e.pc
    if !headerOk h then .error (.cause (frameCause x e 0x04 1 0)) else pure ()
    let (ws, s2) ← readWords x l (headerCount h) (e.pc + 8) s1
    .ok (h, ws, s2.updCore x.core fun c => { c with code := mapPut none (codeKey l.ctx e.pc) (some (h :: ws)) c.code })

/-- Read a clause whole: its words, or what is wrong with it. A permission fault names the clause (R229). -/
def readClause (s : State) (x : ExecId) (l : Launch) (e : Exec) (anew : Bool) : Except Bad (Fetched × State) :=
  if e.pc % 8 ≠ 0 then .error (.cause (frameCause x e 0x04 1 0))
  else match clauseWords s x l e anew with
    | .error (.cause c) => .error (.cause (frameCause x e c.code c.info (if c.code = 0x07 then e.pc else 0)))
    | .error b => .error b
    | .ok (h, ws, s1) =>
      match frameCheck (headerClass h) ws with
      | some info => .error (.cause (frameCause x e 0x04 info 0))
      | none => .ok ({ addr := e.pc, header := h, words := ws }, s1)

/-- Does an apply slot take part in the round in progress (R242)? -/
def inRound (w : Workgroup) (ctx : Nat) : Bool :=
  match w.apply with
  | some a => a.phase = 1 && a.active.contains ctx
  | none => false
/-- Is the executor there to issue: not retired, not ended, and a slot only in a round? -/
def present (w : Workgroup) (ctx : Nat) (e : Exec) : Bool := !e.retired && !e.exiting && (!isSlot ctx || inRound w ctx)

/-- Entry causes that may be taken now: in handler state only a software trap of the handler's own clauses, which ends the context; one that
was pending before stays so until RFT (R225, R226, R228). DESIGN CHOICE (log 81): of the entry causes TRAP alone counts as raised in
handler state; the others stay pending until RFT. -/
def takeable (e : Exec) : List Entry := if e.handler then e.entries.filter fun n => n.code = 0x01 && n.here else e.entries

/-- Home address of a code word, when its page is cached or walks; none in a remote window. -/
def codeHome (s : State) (x : ExecId) (l : Launch) (addr : Nat) : Option Nat :=
  match codePage s x l addr with
  | .ok (xl, _) => if xl.remote.isSome then none else some (xl.pfn * 4096 + addr % 4096)
  | .error _ => none

/-- The first poisoned unit among the words of the clause at an address that is read at its home (R336). -/
def codePoison (s : State) (x : ExecId) (l : Launch) (addr : Nat) : Option Nat :=
  let at? (a : Nat) : Option Nat := (codeHome s x l a).bind fun h => if poisoned s h 8 then some h else none
  match at? addr with
  | some h => some h
  | none => ((upto ((codeHome s x l addr).elim 0 fun h => headerCount (BitVec.ofNat 64 (readNat s.mem h 8)))).findSome? fun i =>
      at? (addr + 8 * (i + 1)))

/-- Home ranges of the most that a clause at an address may hold. -/
def codeRanges (s : State) (x : ExecId) (l : Launch) (addr : Nat) : List (Nat × Nat) :=
  (pieces addr 200).filterMap fun p => (codeHome s x l p.1).map fun h => (h, p.2)

/-- Are some lanes of a store in their places and others not, of those that write home ranges? A clause fetched there would mix old and new
(R304). -/
def halfStored (s : State) (rs : List (Nat × Nat)) : Bool :=
  (executors s).any fun p => p.2.ops.any fun o => isStoreI o.item.instr && !o.performed && (
    let meets (a : Acc) : Bool := (homeRanges p.1.core o.item a).any fun h => rs.any fun r => rangesMeet h.1 h.2 r.1 r.2
    let all := ((accsOf o.item).flatMap (accParts { o with low := 0, high := 0 })).filter meets
    let left := (accsIn o o.lanes).filter meets
    !left.isEmpty && decide (left.length < all.length))

/-- Before a clause is read at its home, every L1 writes back its dirty bytes there, so that none of a store's bytes are missed (R149, R246,
R304). -/
def settleCode (s : State) (rs : List (Nat × Nat)) : State :=
  s.cores.foldl (fun s c => if c.2.l1.isEmpty then s else rs.foldl (fun s r => l1Clean s c.1 r.1 r.2 false) s) s

/-- Pages join a batch of at most 16 (R287). -/
def addPages (ps new : List MissPage) : List MissPage :=
  new.foldl (fun a p => if a.length < 16 || a.any (·.page = p.page) then addPage a p else a) ps

/-- Does the executor wait for a page? -/
def pageWait (e : Exec) : Bool := e.waits.any fun w => match w with | .page _ => true | _ => false

/-- A clause has been fetched. -/
def fetchDone (s : State) (x : ExecId) (f : Fetched) : State := s.updExec x fun e => { e with fetched := some f, far := [] }

/-- What a fetch comes to. Until its earlier clauses have committed and its waits are over, the executor takes nothing but the clause
itself from it. -/
def fetchStep (s : State) (x : ExecId) (anew : Bool) (ecc : Ecc) : State :=
  match s.wg x.core, s.exec x with
  | some w, some e =>
    let have' := match e.fetched with | some f => decide (f.addr = e.pc) | none => false
    if have' || !present w x.ctx e || !clausesClear e || (e.shadow.isNone && (!(takeable e).isEmpty || e.cause.isSome)) || pageWait e ||
        e.shadow.elim false (·.ended) then s
    else
      let kept := !anew && (buffered s x.core w.launch.ctx e.pc).isSome
      let ranges := if kept then [] else codeRanges s x w.launch e.pc
      let s := settleCode s ranges
      if halfStored s ranges then s else
      let s0 := match codeHome s x w.launch e.pc with
        | some h => if kept then s else checkUnit s x.core h ecc
        | none => s
      let bad := if kept then none else codePoison s0 x w.launch e.pc
      let idle := e.clauses.isEmpty && e.waiting.isEmpty
      let ends (pages : List MissPage) (s : State) : State :=
        s.updExec x fun e => { e with shadow := e.shadow.map fun h => { h with ended := true, pages := addPages h.pages pages } }
      match readClause s0 x w.launch e anew, bad with
      | .error (.far ep pa addr len), _ => askFar s0 x ep pa addr len
      | .error (.put _ _ _ _), _ => s0
      | .error (.page _ _), _ => s0
      | .error .wait, _ => s0
      | .error (.miss ps), _ =>
        if !idle then s0 else if e.shadow.isSome then ends ps s0 else missAt s0 x (ps.headD noPage) true
      | .error (.cause c), none =>
        if !idle then s0 else if e.shadow.isSome then ends [] s0 else s0.setExec x { e with cause := some c }
      | .ok (f, s1), none => fetchDone s1 x f
      | _, some h =>
        if !idle then s0 else if e.shadow.isSome then ends [] s0 else meetPoison s0 x (poisonDomain s0 h 8) (whereOf h)
  | _, _ => s

/-- CLAUSE_FETCH: a clause is fetched whole, from buffered copies or, with fresh, from its home (R69, R304). -/
def execClauseFetch (x : ExecId) (fresh : Bool) (ecc : Ecc) (s : State) : Host.Outcome State Fault Refusal :=
  .next (fetchStep s x fresh ecc)

-- stops at a clause start (R158, R227, R331)

/-- May a word with this guard do anything in an executor (R74, R224)? -/
def guarded (ctx : Nat) (e : Exec) (c : Ctl) : Bool := isHead ctx || guardSet e c ≠ 0
/-- Does a fetched clause hold a BKPT that executes, by its guard as it stands at the clause start (R224, R227)? -/
def holdsBkpt (ctx : Nat) (e : Exec) (f : Fetched) : Bool := (clauseInstrs f).any fun i => match i with
  | .bkpt w => guarded ctx e w.ctl
  | _ => false

/-- The breakpoint that stops an executor at its next clause, the lowest number first; 4 for BKPT. -/
def breakAt (c : Core) (ctx : Nat) (e : Exec) : Option Nat :=
  let hit (i : Nat) : Bool := match mapGet none c.breaks i with
    | some b => b.addr = e.pc && (b.ctx.isNone || b.ctx = some ctx)
    | none => false
  let bkpt := !c.breaks.isEmpty && (match e.fetched with | some f => f.addr = e.pc && holdsBkpt ctx e f | none => false)
  if e.stop.pass = some e.pc then none
  else match (upto 4).find? hit with
    | some i => some i
    | none => if bkpt then some 4 else none

def countersOf (e : Exec) : List Nat := [e.cL, e.cS, e.cC, e.cT, e.cX]

/-- The stop of an executor takes effect (R158). -/
def Exec.halt (e : Exec) (by' : Option Nat) : Exec :=
  { e with stop := { e.stop with stopped := true, pending := false, rptBy := by', counters := countersOf e } }

/-- Does the executor sleep, in WAITA or SLEEP (R156)? -/
def sleeps : Wait → Bool
  | .waita _ _ _ _ _ _ _ | .woken _ _ _ _ _ _ | .sleep _ => true
  | _ => false
def asleep (e : Exec) : Bool := e.waits.any sleeps

/-- Stop an executor at a clause start that it has reached: a pending stop, which a sleeper takes at once, or a breakpoint (R158, R262). DESIGN
CHOICE (log 61): one that stands at its next clause and still waits is stopped at once by a step or an interrupt, by a breakpoint there only
when the wait is over. -/
def stopAt (c : Core) (ctx : Nat) (e : Exec) : Exec :=
  if e.stop.stopped || e.retired || e.exiting || !e.clauses.isEmpty || e.shadow.isSome then e
  else if e.stop.pending && asleep e then e.halt none
  else if e.cause.isSome || !(takeable e).isEmpty then e
  else if e.stop.pending then e.halt none
  else if e.waiting.isEmpty then (breakAt c ctx e).elim e fun i => e.halt (some i)
  else e

/-- Has an executor of the list been stopped by a breakpoint that names the whole workgroup (R308, R331)? DESIGN CHOICE (log 70): one stop is
reported under one number, so where another breakpoint of a lower number, or a step, stops the executor too, that one alone decides. -/
def stopsAll (c : Core) (old new : SMap (Option Exec)) : Bool :=
  new.any fun p => match p.2, mapGet none old p.1 with
    | some e, some o => !o.stop.stopped && e.stop.stopped && (e.stop.rptBy.bind fun i => mapGet none c.breaks i).elim false (·.whole)
    | _, _ => false

/-- Stops take effect on a workgroup; one that names the whole workgroup stops every other executor at its next clause start. -/
def stopExecs (c : Core) (w : Workgroup) : Workgroup :=
  let stops (es : SMap (Option Exec)) : SMap (Option Exec) := es.map fun p => (p.1, p.2.map (stopAt c p.1))
  let execs := stops w.execs
  { w with execs := if stopsAll c w.execs execs then
      stops (execs.map fun p => (p.1, p.2.map fun e => if e.stop.stopped then e else { e with stop := { e.stop with pending := true } }))
    else execs }

-- ISSUE_SLOT_AWARD (R238, R239)

/-- Copies in flight on a core, and those of clauses that have begun issue (R200). -/
def copiesInFlight (w : Workgroup) : Nat :=
  (w.all.map fun p => ((p.2.ops.filter fun o => isCopyI o.item.instr && !opComplete o).length) +
    ((p.2.clauses.flatMap fun c => clauseInstrs c.code).filter isCopyI).length).foldl (· + ·) 0

/-- Headroom of the counters for a clause (R47). -/
def headroom (e : Exec) (is : List Instr) : Bool :=
  [Cls.l, .s, .c, .t, .x].all fun cls =>
    decide (seenCount e cls + countIn cls is ≤ 127)

/-- The k registers that the words of a clause before a word write. -/
def writtenBefore (head : Bool) (is : List Instr) (n : Nat) : List Nat := (is.take n).flatMap fun i => (foot head i).kw

/-- Has every apply of the workgroup ended, one of a clause that has not committed among them (R127)? -/
def applyFree (w : Workgroup) (e : Exec) : Bool :=
  w.apply.isNone && w.applies.isEmpty &&
  !(e.clauses.any fun c => c.items.any fun it => it.on && (match it.instr with | .apply _ | .applyw _ => true | _ => false))

/-- Does another executor hold the token of a tile: it has it, and not merely reserved by a TACQ that still waits (R190)? -/
def heldByOther (w : Workgroup) (ctx t : Nat) : Bool :=
  tokenOf w t ≠ 0 && tokenOf w t ≠ ctx + 1 && !((w.exec (tokenOf w t - 1)).elim false fun e => e.waits.any fun q => match q with
    | .tacq tile _ _ => tile = t
    | _ => false)

/-- Conditions that a clause's words put on its start (R127, R138, R154, R185, R190, R200, R238). A word that the executor does not accept
puts none: it raises the illegal-instruction trap when it issues (R116). -/
def wordsAllow (s : State) (x : ExecId) (w : Workgroup) (e : Exec) (is : List Instr) : Bool :=
  (match is.head? with
   | some (.wait i) => !guarded x.ctx e i.ctl || waitMet i e
   | some (.take i) => !guarded x.ctx e i.ctl || (e.queue[takenSoFar e]?).isSome || e.queueClosed ||
       !accepts x.ctx (.take i)
   | _ => true) &&
  ((upto is.length).zip is).all (fun p => !accepts x.ctx p.2 || match p.2 with
    | .give i => (writtenBefore (isHead x.ctx) is p.1).contains i.b.toNat || !queueFull s x.core (e.rk i.b.toNat).toNat
    | .apply _ => applyFree w e
    | .applyw _ => applyFree w e
    | .tacq i => !heldByOther w x.ctx i.t.toNat
    | .wload _ => (s.core x.core).slavedBy.isNone
    | .mma _ => (s.core x.core).slavedBy.isNone
    | .mmas _ => (s.core x.core).slavedBy.isNone
    | _ => true) &&
  (!(is.any isCopyI) || decide (copiesInFlight w + (is.filter isCopyI).length ≤ 64))

/-- A workgroup on its way off the core lets only the round in progress run (R288), a killed one no further clause (R294). -/
def mayStart (w : Workgroup) (ctx : Nat) (e : Exec) : Bool :=
  match w.phase with
  | .running => true
  | .ahead _ => true
  | .killed => false
  | .saving _ => e.shadow.isSome || inRound w ctx

/-- Is an executor ready (R238)? In shadow no counter is waited for, and no entry cause or stop is taken (R286, R311). -/
def ready (s : State) (x : ExecId) (w : Workgroup) (e : Exec) : Bool :=
  match e.fetched with
  | none => false
  | some f =>
    present w x.ctx e && e.slot.isNone && e.waiting.isEmpty && !e.stop.stopped && f.addr = e.pc && e.readyAt ≤ s.now x.core &&
    clausesClear e && mayStart w x.ctx e &&
    (match e.shadow with
     | some h => !h.ended
     | none =>
       e.cause.isNone && (takeable e).isEmpty && !e.stop.pending && (!e.stop.step || e.clauses.isEmpty) &&
       (breakAt (s.core x.core) x.ctx e).isNone && headerMet f.header e && headroom e (clauseInstrs f) &&
       wordsAllow s x w e (clauseInstrs f))

/-- Does a rank ahead of b: least recent award, the headspring first, then the lower context (R239)? -/
def ranks (a b : Nat × Exec) : Bool :=
  match a.2.lastAward, b.2.lastAward with
  | none, some _ => true
  | some _, none => false
  | some m, some n => m < n || (m = n && (isHead a.1 || (!isHead b.1 && a.1 < b.1)))
  | none, none => isHead a.1 || (!isHead b.1 && a.1 < b.1)

def bestOf : List (Nat × Exec) → Option (Nat × Exec)
  | [] => none
  | a :: as =>
    match bestOf as with
    | none => some a
    | some b => if ranks b a then some b else some a

/-- A clause begins issue on a slot: its first word is due in this cycle (R73). -/
def beginClause (s : State) (core slot ctx : Nat) : State :=
  match s.exec ⟨core, ctx⟩ with
  | none => s
  | some e =>
    match e.fetched with
    | none => s
    | some f =>
      let now := s.now core
      let c : Clause := { seq := s.fresh, code := f, next := 0, due := now, settled := now, undo := [], items := [], cause := none
                          target := none, takes := 0, gives := [], parts := none }
      ({ s with fresh := s.fresh + 1 }.setExec ⟨core, ctx⟩
        { e with slot := some slot, lastAward := some now, clauses := e.clauses ++ [c], pc := f.after, fetched := none
                 stop := { e.stop with pass := none } }).updCore core fun c => { c with away := mapPut none slot none c.away }

/-- Award one slot, if it is free; a clause that switched away gives it to another ready executor (R73, R239). The awards of a cycle come
before its commits (log 26). -/
def awardSlot (s : State) (core slot : Nat) : State :=
  match s.wg core with
  | none => s
  | some w =>
    let taken := w.all.any fun p => p.2.slot = some slot
    if taken || s.now core < mapGet 0 (s.core core).slotFree slot || turnTaken s (clusterOf core) then s
    else
      let able := w.all.filter fun p => ready s ⟨core, p.1⟩ w p.2
      let others := match mapGet none (s.core core).away slot with
        | some ctx => able.filter (·.1 ≠ ctx)
        | none => able
      match bestOf (if others.isEmpty then able else others) with
      | none => s
      | some p => beginClause s core slot p.1

/-- ISSUE_SLOT_AWARD: stops take effect, then each free slot goes to the best-ranked ready executor (R239). -/
def awardStep (s : State) (core : Nat) : State :=
  let s1 := s.updWg core (stopExecs (s.core core))
  (upto 4).foldl (fun s i => awardSlot s core i) s1

def execIssueSlotAward (core : Nat) (s : State) : Host.Outcome State Fault Refusal := .next (awardStep s core)

-- RESULT_LANDING (R49)

/-- A result lands; what an undo of a later clause would give back follows it (R51). In a run-ahead it poisons its cell or makes it clean
(R286). -/
def landResult (now : Nat) (e : Exec) (p : Pend) : Exec :=
  let late := e.late now (issueOrder p.seq p.idx) p.val.key fun _ => true
  let e1 := e.write now (issueOrder p.seq p.idx) p.val
  { e1 with
    shadow := if late then e1.shadow else e1.shadow.map fun h => if p.bad then setPoison h [p.val.key] else unPoison h [p.val.key]
    clauses := e.clauses.map fun c =>
      if p.seq < c.seq then { c with undo := c.undo.map fun u => if u.key = p.val.key then p.val else u } else c }

def landingStep (s : State) (x : ExecId) : State :=
  let now := s.now x.core
  s.updExec x fun e =>
    (e.pend.filter (·.land ≤ now)).foldl (landResult now) { e with pend := e.pend.filter fun p => !(decide (p.land ≤ now)) }

def execResultLanding (x : ExecId) (s : State) : Host.Outcome State Fault Refusal := .next (landingStep s x)

-- CLAUSE_COMMIT (R50)

/-- The effect of one word at the commit of its clause, after its checks. -/
def commitItem (s : State) (x : ExecId) (c : Clause) (it : Item) : Except Bad State :=
  match it.instr with
  -- loads, stores, atomics
  | .ld _ | .ldx _ | .lds _ | .ldsx _ | .ldv _ | .ldk _ | .lda _ | .pld _ => commitAccess s x c it .l
  | .atom _ | .cas _ | .atoms _ | .cass _ | .atomv _ | .casv _ => commitAccess s x c it .l
  | .st _ | .stx _ | .sts _ | .stsx _ | .stv _ | .stk _ | .stl _ | .atomn _ => commitAccess s x c it .s
  | .pst i => commitPst s x c it i
  | .pref _ => .ok (release s x c .l it it.g [])
  | .cwb _ => .ok (release s x c .s it (if it.on then 1 else 0) [])
  | .cinv _ => .ok (release s x c .s it (if it.on then 1 else 0) [])
  | .waita i => commitWaita s x c it i
  | .fence i => .ok (commitFence s x c it i)
  | .evset _ => .ok (commitEvset s x c it)
  | .evclr _ => .ok (commitEvclr s x it)
  | .give _ => .ok (commitGive s x c it)
  | .take _ => .ok (commitTake s x)
  | .release i => .ok (commitRelease s x c it i)
  -- sets
  | .pdep _ | .poolop _ | .pclr _ | .pfill _ => .ok (s.updWg x.core fun w => commitPool w x it)
  | .apply i => commitApply s x c it i.pa.toNat i.ev.toNat i.cs.toNat i.cn.toNat true
  | .applyw i => commitApply s x c it i.pa.toNat i.ev.toNat 0 0 false
  | .yieldh _ => .ok (s.updExec x fun e => if e.waiting.contains .parked then e else e.await .parked)
  -- control
  | .bra _ | .bany _ | .ball _ | .bnone _ | .bk _ | .loop _ | .ret _ => commitTarget s x it
  | .call _ => commitCall s x it
  | .calli _ => commitCalli s x it
  | .exit _ => .ok ((commitExit s x).updExec x fun e => { e with pc := c.code.addr })
  | .yield i => .ok (commitYield s x i.n.toNat)
  -- synchronising words
  | .bar i => commitBar s x c it i
  | .gbar i => .ok (commitGbar s x c it i)
  | .evwait i => .ok (commitEvwait s x it i)
  | .evtest i => .ok (commitEvtest s x it i)
  | .rput i => commitRing s x c it i true
  | .rget i => commitRing s x c it i false
  | .rcur i => commitRcur s x it i
  | .wlsort _ => commitWlsort s x c it
  | .wlpush _ | .wlpop _ | .wlins _ => commitList s x c it
  | .wlcnt i => commitWlcnt s x c it i
  -- matrix
  | .setshape i => commitSetshape s x it i
  | .wload _ | .mma _ | .mmas _ | .tzero _ | .tld _ | .tst _ | .sighash _ | .sigrep _ | .sigscat _ | .sigbwd _ | .qhist _
  | .qscale _ | .qcvt _ => commitCmd s x c it
  | .wdrop _ => .ok (commitWdrop s x c it)
  | .opfence _ => .ok (commitOpfence s x)
  | .tacq i => .ok (commitTacq s x i)
  | .trel i => commitTrel s x it i
  -- copies and the index engine
  | .cpy i | .cpyt i | .cpyg i | .cpys i | .cpyr i => commitCopy s x c it i
  | .cpyq i => .ok (commitCpyq s x it i)
  | .xld _ | .xst _ | .xadd _ | .xcur _ | .xnext _ | .xcnt _ | .xdense _ | .xrange _ => commitIndex s x c it
  | .merge i => commitMerge s x c it i
  -- system
  | .trap i => .ok (commitTrap s x it i)
  | .rft i => commitRft s x c it i
  | .icinv _ | .tlbinv _ => .ok (commitInv s x c it)
  | .stamp _ => .ok (commitStamp s x c it)
  | .sleep _ => .ok (commitSleep s x it)
  | _ => .ok s

/-- The checks and effects of a clause's words, in word order. -/
def commitItems (s : State) (x : ExecId) (c : Clause) (its : List Item) : Except Bad State := its.foldlM (fun s it => commitItem s x c it) s

/-- The clause that may commit now: the oldest, issued whole, its results landed (R50). -/
def committable (s : State) (x : ExecId) : Option (Exec × Clause) :=
  match s.exec x with
  | none => none
  | some e =>
    match e.clauses with
    | [] => none
    | c :: _ =>
      if clauseIssued c && c.settled ≤ s.now x.core && !(e.pend.any fun p => p.seq = c.seq) then some (e, c) else none

/-- The clause leaves, its writes permanent; a single step ends (R50, R223). DESIGN CHOICE (log 70): a slot's step over its EXIT clause stays
pending, so that the slot stops at its first clause of a later round. -/
def clauseLeaves (e : Exec) (c : Clause) : Exec :=
  { e with clauses := e.clauses.filter (·.seq ≠ c.seq), far := [], repeats := none
           stop := if e.stop.step then { e.stop with step := false, pending := true } else e.stop }

/-- A cause keeps the clause from committing: it and every later one are undone, and the cause is taken at its start (R51, R90). DESIGN
CHOICE (log 81): a single step of that clause goes on through the handler entry, and ends after the handler's first clause. -/
def failClause (s : State) (x : ExecId) (cause : Cause) : State := (undoAll s x).updExec x fun e => { e with cause := some cause }

/-- A miss undoes the clause; the run-ahead begins at its start (R286). -/
def missClause (s : State) (x : ExecId) (pages : List MissPage) : State := missAt (undoAll s x) x (pages.headD noPage) false

-- the end of a run-ahead (R287)

/-- The word of a clause of the run-ahead that would raise a cause at its commit. -/
def shadowCause (s : State) (x : ExecId) (c : Clause) : Option Nat :=
  (c.items.find? fun it => match commitItem s x c it with | .error (.cause _) => true | _ => false).map (·.idx)

/-- The pages recorded by the words before the first word that would raise a cause, when there is one among these clauses (R287). -/
def shadowPages (s : State) (x : ExecId) (h : Shadow) : List Clause → Option (List MissPage)
  | [] => none
  | c :: cs =>
    match shadowCause s x c with
    | some i => some (((h.trail.find? fun t => t.1 = c.seq && t.2.1 = i).map (·.2.2)).getD h.pages)
    | none => shadowPages s x h cs

/-- A clause of the run-ahead is dropped; a word of it that would raise a cause ends the run-ahead (R286, R287). -/
def shadowCommit (s : State) (x : ExecId) (e : Exec) (h : Shadow) (c : Clause) : State :=
  match shadowPages s x h [c] with
  | some pages => s.setExec x { e with shadow := some { h with ended := true, pages } }
  | none =>
    s.setExec x { e with clauses := e.clauses.filter (·.seq ≠ c.seq)
                         shadow := some { h with trail := h.trail.filter (·.1 ≠ c.seq) } }

/-- CLAUSE_COMMIT: everything in one step, or the undo (R50, R51). The commits of a cycle come in the order of R167 and R172. A killed
workgroup's last one frees its core (R294). -/
def commitStep (s : State) (x : ExecId) : State :=
  match committable s x with
  | none => s
  | some (e, c) =>
    match e.shadow with
    | some h => if h.ended then s else shadowCommit s x e h c
    | none =>
      if !turnFree s (clusterOf x.core) (turnOf x.core x.ctx) then s
      else
        let s0 := takeTurn s (clusterOf x.core) (turnOf x.core x.ctx)
        (match commitItems s0 x c c.items, c.cause with
        | .error (.cause cause), _ => failClause s0 x cause
        | .error (.miss pages), _ => missClause s0 x pages
        | .error (.far ep pa addr len), _ => askFar s x ep pa addr len
        | .error (.put ep pa addr bs), _ => askPut s x ep pa addr bs
        | .error .wait, _ => s
        | .error (.page unit p), _ => (s.wg x.core).elim s fun w =>
          if w.phase = .killed then undoAll s x else engineMiss s w.launch w.wgid p (.op x unit c.seq)
        | .ok _, some cause => failClause s0 x cause
        | .ok s1, none => settle (s1.updExec x fun e => clauseLeaves e c) x : State) |> (reap · x.core)

def execClauseCommit (x : ExecId) (s : State) : Host.Outcome State Fault Refusal := .next (commitStep s x)

-- RUN_AHEAD_END (R287, R288)

/-- The shadow is discarded: every register holds its checkpoint value, and the executor stands at the checkpoint, where a stop asked for
meanwhile takes effect (R287, R311). -/
def dropShadow (e : Exec) (h : Shadow) (wait : Wait) : Exec :=
  let e1 := { e with shadow := none, clauses := [], pend := [], slot := none, fetched := none, pc := h.pc, waits := e.waits ++ [wait], far := []
                     written := e.written.filter (!·.shadow) }
  if e1.stop.pending then e1.halt none else e1

/-- RUN_AHEAD_END: the save begins, or on the in-place path the executor's own request goes out (R285, R288). -/
def runAheadStep (s : State) (x : ExecId) : State :=
  match s.wg x.core, s.exec x with
  | some w, some e =>
    match e.shadow with
    | none => s
    | some h =>
      if !h.ended then s
      else
        let pages := (shadowPages s x h e.clauses).getD h.pages
        let s0 := (freeSlot s x.core e.slot).forgetFar x
        if w.phase = .ahead x.ctx then
          (s0.setExec x (dropShadow e h (.page standingReq))).updWg x.core fun w =>
            { w with batch := pages, phase := .saving false }
        else
          let id := s0.fresh % 2 ^ 32
          sendRequest (s0.setExec x (dropShadow e h (.page id))) w.launch.ctx w.launch.ctxGen 1 w.wgid pages (.exec x)
  | _, _ => s

def execRunAheadEnd (x : ExecId) (s : State) : Host.Outcome State Fault Refusal := .next (runAheadStep s x)

-- HANDLER_ENTRY (R225 to R228)

/-- The cause that is taken first: entry causes in ascending code, then the clause's (R225). -/
def firstEntry (es : List Entry) : Option Entry :=
  match es with
  | [] => none
  | a :: as =>
    match firstEntry as with
    | none => some a
    | some b => if b.code < a.code then some b else some a

/-- Lanes of an entry cause: a0, but for the software trap's own set; none in the headspring (R225). -/
def entryCause (x : ExecId) (e : Exec) (n : Entry) : Cause :=
  { code := n.code, info := n.info, faddr := n.faddr, word := 31
    tmask := if isHead x.ctx then 0 else if n.code = 0x01 then n.tmask else e.a0 }

def nextCause (x : ExecId) (e : Exec) : Option (Cause × Option Entry) :=
  match firstEntry (takeable e) with
  | some n => some (entryCause x e n, some n)
  | none => e.cause.map (·, none)

/-- Does the executor stand at a clause start at which it may be taken to its handler? -/
def atStart (w : Workgroup) (ctx : Nat) (e : Exec) : Bool :=
  present w ctx e && e.clauses.isEmpty && e.pend.isEmpty && e.waiting.isEmpty && e.shadow.isNone && !e.stop.stopped && mayStart w ctx e

/-- HANDLER_ENTRY: the exception is taken (R228). A cause in handler state, or with no handler, ends the context (R294). -/
def handlerStep (s : State) (x : ExecId) : State :=
  match s.wg x.core, s.exec x with
  | some w, some e =>
    match nextCause x e with
    | none => s
    | some (cause, entry) =>
      if !atStart w x.ctx e || asking s (.exec x) then s
      else if e.handler then killFor s x w e 1 cause
      else if w.launch.handler = 0 then killFor s x w e 2 cause
      else match takeException s x w e cause with
        | .miss page => engineMiss s w.launch w.wgid page (.exec x)
        | .bad => killFor s x w e 1 { cause with code := 0x07, faddr := frameAddr w x.ctx }
        | .entered s1 =>
          quiesce (match entry with
            | some n => s1.updExec x fun e => { e with entries := e.entries.erase n }
            | none => s1)
  | _, _ => s

def execHandlerEntry (x : ExecId) (s : State) : Host.Outcome State Fault Refusal := .next (handlerStep s x)

end Sys2Proof.Machine
end

