-- ==== Sys2Proof/Machine/Applies.lean ====
section
/-! DEFINITION. The rounds of an apply, the blocks of APPLYW, and a core that becomes free (spec/07 R123 to R132 and R137, spec/16 R237
and R242). -/

namespace Sys2Proof.Machine

/-- Has an executor nothing under way: no clause, no result to land, no operation (R47)? -/
def drained (e : Exec) : Bool := e.clauses.isEmpty && e.pend.isEmpty && e.ops.all opComplete && countersOf e = [0, 0, 0, 0, 0]

/-- Does the apply pack (APPLY), with its carry window and `.rel`? -/
def packsOf : Instr → Option (Nat × Nat)
  | .apply i => some (i.cs.toNat, i.cn.toNat)
  | _ => none
def relOf : Instr → Bool
  | .apply i => i.rel
  | .applyw i => i.rel
  | _ => false
def evOf : Instr → Nat
  | .apply i => i.ev.toNat
  | .applyw i => i.ev.toNat
  | _ => 0

/-- Release the members of an ended apply: all of them under `.rel`, and those that a RELEASE has named meanwhile, which acquire from it too
(R124, R130). -/
def releaseMembers (s : State) (core : Nat) (a : Apply) : State :=
  ((if relOf a.word then memberWarps a.members else []) ++ a.released.map (·.1)).eraseDups.foldl (fun s c =>
    releaseWarps s core ((a.released.filter (·.1 = c)).map (·.2)) [c]) s

/-- Place of an apply's event update among those of its core in a cycle (R167). -/
def applyTurn (core : Nat) : Nat := turnOf core 63

/-- The end of an apply: its event bit is set, then `.rel` and the RELEASE words that came meanwhile release members, and an apply of the
same clause follows (R124, R129, R132; log 78). -/
def endApply (s : State) (core : Nat) : State :=
  match (s.wg core).bind (·.apply) with
  | none => s
  | some a =>
    let s1 := s.updWg core fun w => { w with apply := w.applies.head?, applies := w.applies.drop 1 }
    let s2 := updateEvents (takeTurn s1 (clusterOf core) (applyTurn core)) (clusterOf core) ((1 : BitVec 256) <<< evOf a.word) 0
    releaseMembers s2 core a

/-- May an apply of a core end in this cycle (R167, R243)? -/
def mayEnd (s : State) (core : Nat) : Bool := turnFree s (clusterOf core) (applyTurn core)

/-- Members of the round: 32 for each apply slot (R129). -/
def roundMembers (w : Workgroup) (a : Apply) : List Nat :=
  (a.members.drop (32 * w.launch.slots * a.round)).take (32 * w.launch.slots)

/-- The register cells of the snapshot k0 to k7. -/
def snapshotRegs (ks : List Word) : List RegVal := ((upto ks.length).zip ks).map fun p => .k p.1 p.2

/-- The carry window of one member as a lane of a slot. -/
def carryIn (w : Workgroup) (cs cn m lane : Nat) : List RegVal :=
  match w.exec (m / 32) with
  | none => []
  | some e => (span cs cn).map fun r => .v r lane (e.rv r (m % 32))

/-- A slot at the start of a round: its lanes packed from lane 0, the carry window copied, the snapshot in k0 to k7, every other
register zero; a stop that was asked for stays asked for (R129, R175, R242). -/
def packSlot (w : Workgroup) (a : Apply) (cs cn now : Nat) (old : Option Exec) (ms : List Nat) : Exec :=
  let e := Exec.fresh (lowLanes ms.length) a.target now
  let e1 := { e with lastAward := old.bind (·.lastAward), stop := { e.stop with pending := old.elim false (·.stop.pending) }
                     origin := ((upto ms.length).zip ms).foldl (fun o (p : Nat × Nat) => mapPut 0 p.1 p.2 o) [] }
  (e1.puts (snapshotRegs a.ks)).puts (((upto ms.length).zip ms).flatMap fun (p : Nat × Nat) => carryIn w cs cn p.2 p.1)

/-- A member warp at the start of its block: a0 is its slice of the pool, of launched lanes, and what it waited for waits on (R42, R132). -/
def blockStart (a : Apply) (warp now : Nat) (e : Exec) : Exec :=
  let aside : Aside := { regs := (upto 8).map (fun r => e.cell (.k r)) ++ (span 1 15).map (fun r => e.cell (.a r)), pc := e.pc, waits := e.waits }
  { e.puts (snapshotRegs a.ks) with
    aside := some aside, a := [], badCells := e.badCells.filter fun k => !isApKey k
    a0 := laneSet ((a.members.filter fun m => m / 32 = warp).map (· % 32)) &&& e.base, pc := a.target
    fetched := none, readyAt := max e.readyAt (now + 1) }

/-- APPLY_ROUND_START: every member warp is settled, and the next round starts, or the APPLYW block in every member warp that has not
retired (R129, R132). A workgroup that is being saved starts none (R131). -/
def roundStart (s : State) (core : Nat) : State :=
  match s.wg core with
  | none => s
  | some w =>
    match w.apply with
    | none => s
    | some a =>
      let goes := match w.phase with | .running => true | .ahead _ => true | _ => false
      if a.phase ≠ 0 || !goes || !(memberWarps a.members).all (settled w) || !mayEnd s core then s
      else match packsOf a.word with
        | some (cs, cn) =>
          let ms := roundMembers w a
          let used := (ms.length + 31) / 32
          (ms.foldl (fun s m => spoilCells s ⟨core, m / 32⟩ ((span cs cn).map fun r => .v r (m % 32))) s).updWg core fun w0 =>
            let w1 := (upto used).foldl (fun w i =>
              w.setExec (32 + i) (packSlot w0 a cs cn (s.now core) (w0.exec (32 + i)) ((ms.drop (32 * i)).take 32))) w0
            { w1 with apply := some { a with phase := 1, active := span 32 used } }
        | none =>
          let run := (memberWarps a.members).filter fun c => ((w.exec c).map fun e => !e.retired).getD false
          let aside : List RegKey := (upto 8).map .k ++ (span 1 15).map .a
          let s1 := run.foldl (fun s c => (spoilCells s ⟨core, c⟩ aside).updExec ⟨core, c⟩ (blockStart a c (s.now core))) s
          let s2 := s1.updWg core fun w => { w with apply := some { a with phase := 1, active := run } }
          if run.isEmpty then quiesce (endApply s2 core) else s2

def execApplyRoundStart (core : Nat) (s : State) : Host.Outcome State Fault Refusal := .next (roundStart s core)

/-- The carry window of one member as it returns to its home lane (R129). -/
def carryBack (w : Workgroup) (cs cn slot lane m : Nat) : Workgroup :=
  match w.exec slot, w.exec (m / 32) with
  | some p, some e => w.setExec (m / 32) (e.puts ((span cs cn).map fun r => .v r (m % 32) (p.rv r lane)))
  | _, _ => w

/-- APPLY_ROUND_END: every used slot has ended and drained; the carry windows return, and the next round waits or the apply ends (R129,
R130). -/
def roundEnd (s : State) (core : Nat) : State :=
  match s.wg core with
  | none => s
  | some w =>
    match w.apply with
    | none => s
    | some a =>
      match packsOf a.word with
      | none => s
      | some (cs, cn) =>
        let ended := a.active.all fun c => ((w.exec c).map fun e => e.exiting && drained e).getD true
        if a.phase ≠ 1 || !ended || !mayEnd s core then s
        else
          let ms := roundMembers w a
          let w1 := ((upto ms.length).zip ms).foldl (fun w p => carryBack w cs cn (32 + p.1 / 32) (p.1 % 32) p.2) w
          let w2 := { w1 with apply := some { a with phase := 0, active := [], round := a.round + 1 } }
          let s1 := s.setWg core w2
          if a.members.length ≤ 32 * w.launch.slots * (a.round + 1) then quiesce (endApply s1 core) else s1

def execApplyRoundEnd (core : Nat) (s : State) : Host.Outcome State Fault Refusal := .next (roundEnd s core)

/-- APPLYW_BLOCK_END: the warp has drained: k0 to k7 and a1 to a15 come back, a0 reads the launched lanes, and the warp stays parked;
the apply ends with its last block (R132). DESIGN CHOICE (log 81): the warp keeps the partition stack as the block leaves it. -/
def blockEnd (s : State) (x : ExecId) : State :=
  match s.wg x.core, s.exec x with
  | some w, some e =>
    match w.apply, e.aside with
    | some a, some old =>
      if !e.exiting || !drained e || !e.waiting.isEmpty || !mayEnd s x.core then s
      else
        let e1 : Exec := { e with
          a := [], a0 := e.base, badCells := e.badCells.filter (fun k => !isApKey k), aside := none, exiting := false, pc := old.pc, fetched := none }
        let s1 := s.setExec x (e1.puts old.regs)
        let s2 := s1.updWg x.core fun w => { w with apply := some { a with active := a.active.erase x.ctx } }
        if (a.active.erase x.ctx).isEmpty then quiesce (endApply s2 x.core) else s2
    | _, _ => s
  | _, _ => s

def execApplywBlockEnd (x : ExecId) (s : State) : Host.Outcome State Fault Refusal := .next (blockEnd s x)

-- a core that becomes free (R137, R237)

/-- Has the workgroup retired: the headspring and every home warp retired, no apply in progress (R137)? -/
def wgRetired (w : Workgroup) : Bool := w.apply.isNone && w.all.all fun p => isSlot p.1 || p.2.retired

/-- Is any member of a gang on a core? -/
def gangOnCores (s : State) (gen gang : Nat) : Bool :=
  s.busy.any fun p => p.2.launch.gen = gen && gangOf p.2.launch p.2.wgid = gang && !wgRetired p.2

/-- Count of the field of a record's lowest allowed cluster. -/
def recordNow (s : State) (clusters : List Nat) : Nat := (s.field (fieldOfCluster (clusters.headD 0))).count

/-- An evacuated gang whose last member has left its core returns to its launch as the earliest unplaced gang (R276). -/
def gangReturns (s : State) (l : Launch) (gang : Nat) : State :=
  if gangOnCores s l.gen gang || !(s.saved.any fun v => v.evac && v.wg.launch.gen = l.gen && gangOf v.wg.launch v.wg.wgid = gang) then s
  else { s with taken := updFirst (fun t => t.launch.gen = l.gen && (mapGet none t.returned gang).isNone)
                  (fun t => { t with returned := mapPut none gang (some (recordNow s t.clusters)) t.returned }) s.taken }

/-- Clear a core of its workgroup: the macros empty, twin slaving ended, the estimate returned (R185, R237, R271). -/
def clearCore (s : State) (core : Nat) (w : Workgroup) : State :=
  let s1 := { s with watches := s.watches.filter fun t => t.x.core ≠ core }.updCore core fun c =>
    { c with wg := none, l1 := [], macroRec := none, weights := [], bscales := [], away := [], slotFree := [], fills := [] }
  joinStage (returnBudget (freeFollower s1 core) core w.launch.est) (clusterOf core)

/-- CORE_FREED: every operation of the retired workgroup has completed; its dirty bytes go back, its stamp record is written, and the
core is free (R237, R327). It may be the last member of an evacuated gang to leave (R276). -/
def coreFree (s : State) (core : Nat) : State :=
  match s.wg core with
  | none => s
  | some w =>
    if !wgRetired w || !w.all.all (fun p => p.2.ops.all opComplete && p.2.clauses.isEmpty) || s.remotes.any (fun r => r.x.core = core) then s
    else
      let s1 := writeStamp (wbAll s core) core false
      let s2 := clearCore s1 core w
      let s3 := { s2 with taken := updFirst (fun t => t.launch.gen = w.launch.gen) (fun t =>
        let place := (s2.taken.map (·.ended)).foldl max 0 + 1
        { t with retired := t.retired + 1, ended := if t.launch.nwg ≤ t.retired + 1 then place else t.ended }) s2.taken }
      quiesce (gangReturns s3 w.launch (gangOf w.launch w.wgid))

def execCoreFreed (core : Nat) (s : State) : Host.Outcome State Fault Refusal := .next (coreFree s core)

end Sys2Proof.Machine
end

