-- ==== Sys2Proof/Machine/Cross.lean ====
section
/-! DEFINITION. Compares, selection, aperture and cross-lane words (spec/06 R109 to R115, spec/04 R67). -/

namespace Sys2Proof.Machine

/-- The condition of CMP or FCMP on two operands of a type. -/
def condBits (t : Ty) (c : Cond) (a b : Word) : Bool :=
  if tyFloat t then condFloat c (unpackF (fmtOf t) a.toNat) (unpackF (fmtOf t) b.toNat)
  else condInt c (toInt (tySigned t) (tyBits t) a.toNat) (toInt (tySigned t) (tyBits t) b.toNat)

/-- Both forms of a compare (R109): the vector form writes even with G empty. -/
def cmpEff (w : CmpW) (v : View) : Eff :=
  let holds (l : Nat) := condBits w.ty w.cond (v.e.src w.u w.ty w.a l) (v.e.src w.u w.ty w.b l)
  { writes :=
      if w.u then (if v.on then splitWrites w.t w.f v.g (if holds 0 then v.g else 0) else [])
      else splitWrites w.t w.f v.g (laneSet ((lanesOf v.g).filter holds)) }

def execCmp (w : CmpW) (s : State) : Host.Outcome State Fault Refusal := issueWord (.cmp w) w.ctl (cmpEff w) s
def execFcmp (w : CmpW) (s : State) : Host.Outcome State Fault Refusal := issueWord (.fcmp w) w.ctl (cmpEff w) s

def execSel (w : SelW) (s : State) : Host.Outcome State Fault Refusal :=
  issueWord (.sel w) w.ctl (fun v =>
    { writes := laneWrites v false w.ty w.d fun l =>
        if (v.e.ra w.sel.toNat).getLsbD l then v.e.src false w.ty w.a l else v.e.src false w.ty w.b l }) s

/-- One write of a word that executes once (R111). -/
def once (v : View) (r : RegVal) : Eff := { writes := if v.on then [r] else [] }

/-- The truth table of AOP over 32 bits (R111). -/
def aopBits (tt : BitVec 4) (a b : LaneSet) : LaneSet :=
  laneSet ((upto 32).filter fun i => tt.getLsbD (2 * (a.getLsbD i).toNat + (b.getLsbD i).toNat))
def execAop (w : AopW) (s : State) : Host.Outcome State Fault Refusal :=
  issueWord (.aop w) w.ctl (fun v => once v (.a w.d.toNat (aopBits w.tt (v.e.ra w.a.toNat) (v.e.ra w.b.toNat)))) s
def execAcnt (w : AkW) (s : State) : Host.Outcome State Fault Refusal :=
  issueWord (.acnt w) w.ctl (fun v => once v (.k w.d.toNat (BitVec.ofNat 64 (laneCount (v.e.ra w.a.toNat))))) s
def execAfirst (w : AkW) (s : State) : Host.Outcome State Fault Refusal :=
  issueWord (.afirst w) w.ctl (fun v => once v (.k w.d.toNat (BitVec.ofNat 64 (lowestLane (v.e.ra w.a.toNat))))) s
def execAmovk (w : AmovkW) (s : State) : Host.Outcome State Fault Refusal :=
  issueWord (.amovk w) w.ctl (fun v =>
    once v (if w.toA then .a w.ap.toNat ((v.e.rk w.k.toNat).setWidth 32) else .k w.k.toNat ((v.e.ra w.ap.toNat).setWidth 64))) s

/-- SHFL (R112). -/
def execShfl (w : ShflW) (s : State) : Host.Outcome State Fault Refusal :=
  issueWord (.shfl w) w.ctl (fun v =>
    { lat := 8
      writes := laneWrites v false w.ty w.d fun l => v.e.src false w.ty w.a (shflFrom v.e v.g w l) }) s

/-- SHFLX: a table of 64 entries over two registers; a lane outside a0 reads as 0 (R113). -/
def execShflx (w : ShflxW) (s : State) : Host.Outcome State Fault Refusal :=
  issueWord (.shflx w) w.ctl (fun v =>
    { lat := 8
      writes := laneWrites v false .b32 w.d fun l =>
        let i := (v.e.rv w.b.toNat l).toNat % 64
        if v.e.ra0.getLsbD (i % 32) then (v.e.rv (w.a.toNat + i / 32) (i % 32)).setWidth 64 else 0 }) s

def execBcast (w : BcastW) (s : State) : Host.Outcome State Fault Refusal :=
  issueWord (.bcast w) w.ctl (fun v =>
    { lat := 8
      writes := laneWrites v false w.ty w.d fun _ =>
        let i := (v.e.rk w.k.toNat).toNat
        if i < 32 && v.e.ra0.getLsbD i then v.e.src false w.ty w.a i else 0 }) s

/-- One combining step of SCAN and REDUCE (R67, R115). -/
def combine (t : Ty) (op : RedOp) (rm : Rnd) (sat : Bool) (a b : Word) : Word :=
  match op with
  | .add => if tyFloat t then float2 t rm (addX rm) a b else int2 t sat (fun x y => x + y) a b
  | .min => if tyFloat t then float2 t .rne (fun x y => XReal.ofF (minF x y)) a b
    else int2 t false (fun x y => if x ≤ y then x else y) a b
  | .max => if tyFloat t then float2 t .rne (fun x y => XReal.ofF (maxF x y)) a b
    else int2 t false (fun x y => if x ≤ y then y else x) a b
  | .and => a &&& b
  | .or => a ||| b
  | .xor => a ^^^ b

/-- The identities of R115. -/
def identity (t : Ty) (op : RedOp) (rm : Rnd) : Word :=
  let f := fmtOf t
  let n := tyBits t
  BitVec.ofNat 64 (match op with
    | .add => if tyFloat t then (if rm == .rdn then 0 else f.signBit) else 0
    | .min => if tyFloat t then f.infBits else if tySigned t then 2 ^ (n - 1) - 1 else 2 ^ n - 1
    | .max => if tyFloat t then f.signBit + f.infBits else if tySigned t then 2 ^ (n - 1) else 0
    | .and => 2 ^ n - 1
    | .or | .xor => 0)

/-- Running combinations over values in ascending lane order: before and after each lane. -/
def runs (comb : Word → Word → Word) : Option Word → List Word → List (Option Word × Word)
  | _, [] => []
  | acc, x :: xs =>
    let y := match acc with | none => x | some a => comb a x
    (acc, y) :: runs comb (some y) xs

def scanWrites (w : ScanW) (v : View) (pick : List (Option Word × Word) → List Word) : List RegVal :=
  let ls := lanesOf v.g
  let rs := runs (combine w.ty w.op w.rnd w.sat) none (ls.map fun l => v.e.src false w.ty w.a l)
  (ls.zip (pick rs)).flatMap fun p => dst false w.ty w.d p.1 p.2

def execScan (w : ScanW) (s : State) : Host.Outcome State Fault Refusal :=
  issueWord (.scan w) w.ctl (fun v =>
    { lat := 8
      writes := scanWrites w v fun rs => rs.map fun r => if w.excl then r.1.getD (identity w.ty w.op w.rnd) else r.2 }) s
def execReduce (w : ScanW) (s : State) : Host.Outcome State Fault Refusal :=
  issueWord (.reduce w) w.ctl (fun v =>
    { lat := 8, writes := scanWrites w v fun rs => rs.map fun _ => (rs.getLast?.map (·.2)).getD 0 }) s

end Sys2Proof.Machine
end

