-- ==== Sys2Proof/Machine/Replay.lean ====
section
/-! DEFINITION. Saved workgroups and their return, page answers, and shootdowns (spec/20 R284 and R288 to R294, spec/12 R182 and R199,
spec/23 R310 and R311, spec/24 R312 and R322). -/

namespace Sys2Proof.Machine

-- messages that arrive (R312, R315, R345)

/-- Channel of a message kind (R314). -/
def channelOf (kind : Nat) : Nat := if kind = 2 then 1 else if kind = 0 || kind = 1 || kind = 3 || kind = 10 then 0 else 2
/-- Flits that a payload of n bytes takes, at least one (R313, R315). -/
def flitCount (n : Nat) : Nat := max 1 ((n + 51) / 52)
/-- Does a message's header and padding fit its kind and the length of its payload (R313, R315)? A kind has one channel (R314; log 66). -/
def fits (h : MsgHdr) (kind n : Nat) : Bool := h.vc = channelOf kind && h.nflit + 1 = flitCount n && h.pad
/-- Is a message taken: the device runs, the sender is permitted, and header and layout hold? -/
def heard (s : State) (h : MsgHdr) (kind n : Nat) : Bool := s.startState = 2 && permitted s h.src && fits h kind n && h.zero
/-- Doorbells, page answers and shootdowns come from the host alone (R314). -/
def heardHost (s : State) (h : MsgHdr) (kind n : Nat) : Bool := heard s h kind n && h.src = s.hostId
/-- Drop a message and count it. -/
def dropMessage (s : State) : State := { s with dropped := s.dropped + 1 }

-- the save (R288, R310)

/-- Does a clause stand at a TAKE or GIVE that cannot go on? Its executor is saved at the clause's start. -/
def heldUp (s : State) (core : Nat) (e : Exec) (c : Clause) : Bool :=
  c.next < c.code.words.length && (match decode (c.code.words.getD c.next 0) c.code.words[c.next + 1]? with
    | .ok (.take _) => (e.queue[takenSoFar e]?).isNone && !e.queueClosed
    | .ok (.give i) => queueFull s core (e.rk i.b.toNat).toNat
    | _ => false)

/-- Waits that end by themselves once operations have drained. -/
def waitDrains : Wait → Bool
  | .ops _ | .woken _ _ _ _ _ _ | .opfence _ _ => true
  | _ => false

/-- Does an executor stand at a clause start with every operation drained, or at a clause that it can only wait in? -/
def standsStill (s : State) (core : Nat) (e : Exec) : Bool :=
  e.shadow.isNone && e.pend.isEmpty && e.ops.all opComplete && countersOf e = [0, 0, 0, 0, 0] && !e.waits.any waitDrains &&
    (match e.clauses with
     | [] => true
     | [c] => heldUp s core e c
     | _ => false)

/-- May the workgroup of a core be saved now (R51, R288)? -/
def saveReady (s : State) (core : Nat) (w : Workgroup) : Bool :=
  w.all.all (fun p => standsStill s core p.2) && !w.apply.elim false (fun a => decide (a.phase = 1)) &&
    !(s.remotes.any fun r => r.x.core = core)

/-- The save area of a workgroup: what its 4 MiB hold beyond 164 KiB (R267). -/
def saveArea (w : Workgroup) : Nat := w.launch.ctxbase + 4 * 2 ^ 20 * w.wgid + 164 * 1024
def savePages : Nat := 983

/-- Physical pages of the save area, or the first that the context does not give. The model takes every page of it (log 14). -/
def areaPages (s : State) (l : Launch) (base : Nat) : Except MissPage (List Nat) :=
  (upto savePages).mapM fun i =>
    let page := base / 4096 + i
    match walk s l.ctx l.root (page * 4096) with
    | .miss m => .error { page, malformed := m, fetch := false, write := true, read := true }
    | .ok xl =>
      if !xl.rd || !xl.wr || xl.remote.isSome then .error { page, malformed := false, fetch := false, write := true, read := true }
      else .ok xl.pfn

/-- Bytes of pages that are not zero, by offset from the first page. -/
def areaBytes (s : State) (pfns : List Nat) : List (Nat × Byte) :=
  ((upto pfns.length).zip pfns).flatMap fun p =>
    (s.mem.filter fun c => p.2 * 4096 ≤ c.1 && c.1 < p.2 * 4096 + 4096).map fun c => (p.1 * 4096 + (c.1 - p.2 * 4096), c.2)

/-- Withdraw what the workgroup's headspring has at its gang's barriers: a saved member has not arrived; one whose headspring has retired
counts as arrived for good (R166). -/
def leaveGang (s : State) (w : Workgroup) : State :=
  { s with gangBars := s.gangBars.filter fun a => !(a.gen = w.launch.gen && a.wgid = w.wgid) }

/-- Does every executor of a workgroup that is being saved stand still in its clauses: no arrival or setting of its own can come any more? -/
def stilled (s : State) (core : Nat) (w : Workgroup) : Bool :=
  w.all.all (fun p => p.2.shadow.isNone && (match p.2.clauses with | [] => true | [c] => heldUp s core p.2 c | _ => false)) &&
    !w.apply.elim false (fun a => decide (a.phase = 1))
/-- An executor whose waits hold committed operations lets them go: those waits end no more before the restore. -/
def letGoExec (fresh : Nat) (e : Exec) : Exec :=
  let behind (key : Nat) : Bool := e.ops.any fun o => !o.performed && decide (key < o.id)
  { e with
    holds := e.holds.map fun h =>
      if h.key.isSome && e.ops.any fun o => !o.performed && decide (h.start ≤ o.id) then { h with start := fresh, gone := true } else h
    waits := e.waits.map fun w => match w with
      | .waita home space near kd scope deadline key =>
        if behind key && !(e.holds.any (·.key = some key)) then .waita home space near kd scope deadline fresh else w
      | w => w }
/-- While a workgroup is saved, no operation is held by a wait of its own executor: all that is committed drains. It is let go once no clause
of the workgroup runs any more, and the headspring's arrival at its gang's barrier is withdrawn with it, so that no barrier and no event ends
the wait between (R51, R166, R288; log 84). -/
def letGo (s : State) (core : Nat) (w : Workgroup) : State :=
  if !stilled s core w then s
  else
    let s1 := s.updWg core fun w => { w with execs := w.execs.map fun p => (p.1, p.2.map (letGoExec s.fresh)) }
    if ((s1.exec ⟨core, 40⟩).map Exec.holds).elim false (·.any (·.gone)) then leaveGang s1 w else s1

/-- Write pages whole, by offset from the first: bytes that are not zero, and poisoned units. -/
def fillPages (s : State) (core : Nat) (pfns : List Nat) (bytes : List (Nat × Byte)) (bad : SMap Nat) : State :=
  let homeOf (o : Nat) : Nat := pfns.getD (o / 4096) 0 * 4096 + o % 4096
  let inPages (h : Nat) : Bool := pfns.contains (h / 4096)
  let s1 := { s with
    mem := bytes.foldl (fun m p => writeByte m (homeOf p.1) p.2) (s.mem.filter fun c => !inPages c.1)
    poison := bad.foldl (fun m p => mapPut 0 (homeOf p.1) (domainOf (homeOf p.1)) m) (s.poison.filter fun c => !inPages c.1)
    marks := s.marks.filter fun m => !inPages m.sector || m.core = core }
  pfns.foldl (fun s p => meetSources (wakeSectors s (p * 4096) 4096) none (p * 4096) 4096) s1

/-- What a core's workgroup leaves for its save. -/
def savedOf (s : State) (core : Nat) (w : Workgroup) (reqid : Nat) (waiting evac : Bool) (area : List (Nat × Byte)) : Saved :=
  let c := s.core core
  let lo := spadHome core 0
  let hi := spadHome core w.launch.spsize
  { wg := w, core, reqid, waiting, since := s.now core, evac, area, tiles := c.tiles, badTiles := c.badTiles
    macros := c.macroRec.map fun r => (r, c.weights, c.bscales)
    sp := (s.mem.filter fun p => lo ≤ p.1 && p.1 < hi).map fun p => (p.1 - lo, p.2)
    spBad := (s.poison.filter fun u => lo ≤ u.1 && u.1 < hi).map fun u => u.1 - lo }

/-- The check code and the scratchpad reach the save area: the code in its first page, the scratchpad from its second on (R288, R310;
log 14). -/
def writeArea (s : State) (core : Nat) (w : Workgroup) (pfns : List Nat) : State :=
  let (code, s1) := s.takeFree 8
  let s2 := writeHome s1 (some core) false (pfns.headD 0 * 4096) code
  let sv := savedOf s2 core w 0 false false []
  fillPages s2 core ((pfns.drop 1).take ((w.launch.spsize + 4095) / 4096)) sv.sp (sv.spBad.map fun u => (u, 3))

/-- WORKGROUP_SAVE: the workgroup goes to its save area, its core is freed, and its page request is sent (R288, R310, R327). -/
def saveStep (s : State) (core : Nat) : State :=
  match s.wg core with
  | none => s
  | some w =>
    match w.phase with
    | .saving evac =>
      if asking s (.core core) then s
      else if !saveReady s core w then quiesce (letGo s core w)
      else match areaPages s w.launch (saveArea w) with
        | .error p => engineMiss s w.launch w.wgid p (.core core)
        | .ok pfns =>
          let s0 := w.all.foldl (fun s p => undoAll s ⟨core, p.1⟩) s
          let s1 := writeStamp (sweepCore (wbAll s0 core) core w.launch.ctx true 0 0) core true
          let s3 := writeArea s1 core w pfns
          let w1 := (s3.wg core).getD w
          let ask := !w1.batch.isEmpty
          let sv := savedOf s3 core w1 (s3.fresh % 2 ^ 32) ask evac (areaBytes s3 pfns)
          let s4 := leaveGang (clearCore s3 core w1) w1
          let s5 := { s4 with saved := s4.saved ++ [sv] }
          let s6 := if ask then sendRequest s5 w1.launch.ctx w1.launch.ctxGen 0 w1.wgid w1.batch (.replay w1.launch.gen w1.wgid) else s5
          quiesce (if evac then gangReturns s6 w1.launch (gangOf w1.launch w1.wgid) else s6)
    | _ => s

def execWorkgroupSave (core : Nat) (s : State) : Host.Outcome State Fault Refusal := .next (saveStep s core)

-- the restore (R182, R199, R293)

/-- Fields of a grant that a new grant may change: grants and tails (R182). -/
def grantFields (sh : Shape) : Nat := sh.f 64 96

/-- One shape register on a new core: its value, and whether its grant differs or faults (R182). DESIGN CHOICE (log 81): a core that is no
legal leader for a twin does not make the grant fault here; the commands that need the twin check it (R183). -/
def regrant (classE : Bool) (w : Workgroup) (sh : Shape) : Shape × Bool :=
  if !sh.valid then (sh, false)
  else match grant classE (slotOf (w.launch.slotsF.getD sh.slot 0)).spn sh.slot sh.reqM sh.reqN sh.reqK sh.twin with
    | none => (sh &&& ~~~ ((1 : Shape) <<< 57), true)
    | some g => (g, grantFields g ≠ grantFields sh)

/-- The place of a sleeper's word on a new core. DESIGN CHOICE (log 81): a global word keeps the home that the first read found. -/
def newHome (core home : Nat) (space : Space) (near : Bool) : Nat :=
  match space with
  | .sp => spadHome core (spadOff home)
  | .vt => if near then vaultHome (clusterOf core) ((home - vaultBase) % 2 ^ 26) else home
  | .gl => home

/-- An executor on its new core: sleepers wake with cause 4, waits on pages end (R156, R234, R293). -/
def restoreExec (core now : Nat) (e : Exec) : Exec :=
  { e with
    lastPage := [], lastAward := none, readyAt := now, slot := none, fetched := none, far := [], written := []
    holds := e.holds.map fun h => { h with gone := false }
    waits := e.waits.filterMap fun w => match w with
      | .page _ => none
      | .sleep _ => none
      | .waita home space near kd scope _ key => some (.woken (newHome core home space near) space kd scope 4 key)
      | w => some w }

/-- What a try at restoring gives: placed, a page of the save area missing, or a save area that fails its check. -/
inductive RestoreResult where
  | placed (s : State)
  | miss (page : MissPage)
  | bad
  deriving DecidableEq, Repr

/-- The macros of a saved workgroup on a new core, when they load back (R199). -/
def restoreMacros (s : State) (core : Nat) (sv : Saved) (changed : Bool) : State :=
  match sv.macros with
  | none => s
  | some (r, ws, bs) =>
    let (_, differs) := regrant (coreE core) sv.wg r.shape
    if changed || differs || (r.twin && !twinLegal s core) then s
    else
      let s1 := s.updCore core fun c => { c with macroRec := some r, weights := ws, bscales := bs }
      if r.twin then s1.updCore (core + 1) fun c => { c with slavedBy := some core, macroRec := none, weights := [], bscales := [] } else s1

/-- The workgroup's headspring arrives again at the barrier of its gang that it waits at (R166). -/
def rejoinGang (s : State) (core : Nat) (w : Workgroup) : State :=
  let gang := gangOf w.launch w.wgid
  match w.exec 40 with
  | none => s
  | some e =>
    let s1 := e.waits.foldl (fun s w' => match w' with
      | .gbar id scope key =>
        let a : GangArrival := { gen := w.launch.gen, gang, id, wgid := w.wgid, core, scope, op := key }
        { s with gangBars := s.gangBars ++ [a] }
      | _ => s) s
    (upto 4).foldl (fun s id => tryGangBar s w.launch gang id) s1

/-- Put a saved workgroup on a core (R293). -/
def restoreOn (s : State) (sv : Saved) (core : Nat) : RestoreResult :=
  let root := ((ctxDesc s sv.wg.launch.ctx).map CtxDesc.root).getD sv.wg.launch.root
  let l : Launch := { sv.wg.launch with root }
  match areaPages s l (saveArea sv.wg) with
  | .error p => .miss p
  | .ok pfns =>
    if areaBytes s pfns ≠ sv.area then .bad
    else
      let now := s.now core
      let shapes := (upto 16).map fun r => (r, regrant (coreE core) sv.wg (shapeOf sv.wg r))
      let mask := (shapes.map fun p => if p.2.2 then 2 ^ p.1 else 0).foldl (· + ·) 0
      let w : Workgroup := { sv.wg with
        launch := l, shapes := shapes.foldl (fun m p => mapPut 0 p.1 p.2.1 m) [], phase := .running, batch := []
        wdogLeft := l.wdog * 4000, stamps := { noStamps now with restores := sv.wg.stamps.restores + 1 }
        execs := sv.wg.execs.map fun p => (p.1, p.2.map (restoreExec core now)) }
      let lo := spadHome core 0
      let hi := spadHome core l.spsize
      let mem := sv.sp.foldl (fun m p => writeByte m (lo + p.1) p.2) (s.mem.filter fun c => !(lo ≤ c.1 && c.1 < hi))
      let poison := sv.spBad.foldl (fun m u => mapPut 0 (lo + u) 3 m) (s.poison.filter fun u => !(lo ≤ u.1 && u.1 < hi))
      let f := s.field (fieldOf core)
      let s1 := ({ s with mem, poison, saved := s.saved.filter fun v => v ≠ sv }.setField (fieldOf core)
        { f with committed := f.committed + l.est }).updCore core fun c =>
          { c with wg := some w, tiles := sv.tiles, badTiles := sv.badTiles, l1 := [], zflags := [], fills := [], code := [], away := [], slotFree := []
                   macroRec := none, weights := [], bscales := [] }
      let s2 := restoreMacros s1 core sv (mask ≠ 0)
      let s3 := if mask = 0 then s2 else
        (w.all.filter fun p => !isSlot p.1 && !p.2.retired).foldl (fun s p => s.entry ⟨core, p.1⟩ 0x14 mask) s2
      let s4 := rejoinGang s3 core w
      .placed (quiesce (serveWaiters (eventWaiters s4 (clusterOf core)) s4 (clusterOf core)))

-- page answers (R290)

/-- The pages of an answered request, as an executor that missed on one of them remembers them (R290). -/
def noteAnswer (r : PageReq) (e : Exec) : Exec :=
  match e.repeats with
  | some (clause, _, n) => { e with repeats := some (clause, r.pages.map (·.page), n) }
  | none => e

/-- An answer with status 0: the workgroup becomes restorable, or the executor or step tries again. -/
def resolved (s : State) (r : PageReq) : State :=
  let s1 := { s with requests := s.requests.filter (· ≠ r) }
  match r.who with
  | .replay gen wgid =>
    { s1 with saved := s1.saved.map fun v =>
        if v.wg.launch.gen = gen && v.wg.wgid = wgid then
          { v with waiting := false, since := s1.now v.core
                   wg := if r.path = 0 then { v.wg with execs := v.wg.execs.map fun p => (p.1, p.2.map (noteAnswer r)) } else v.wg }
        else v }
  | .exec x => s1.updExec x fun e =>
      if e.waits.contains (.page r.reqid) then { noteAnswer r e with waits := e.waits.erase (.page r.reqid) } else e
  | .launch gen gang =>
    { s1 with taken := updFirst (fun t => t.launch.gen = gen) (fun t => { t with asked := mapPut none gang (some none) t.asked }) s1.taken }
  | .governor c =>
    { s1 with governors := mapPut none c ((mapGet none s1.governors c).map fun g => { g with request := none, again := true }) s1.governors }
  | _ => s1

/-- Launch generation, wgid and core that a failed request's fault record names (R294). -/
def askerInfo (s : State) (r : PageReq) : KillInfo :=
  let base : KillInfo := { wgid := r.wgid, reqid := r.reqid, faddr := (r.pages.head?.map fun p => p.page * 4096).getD 0 }
  let on (core : Nat) : KillInfo := { base with core, lgen := ((s.wg core).map fun w => w.launch.gen).getD 0 }
  match r.who with
  | .replay gen _ => { base with lgen := gen }
  | .exec x => on x.core
  | .op x _ _ => on x.core
  | .core core => on core
  | .launch gen _ => { base with lgen := gen }
  | .governor _ => base

/-- A discarded answer is counted (R290). -/
def lateAnswer (s : State) : State := { s with lateAnswers := s.lateAnswers + 1 }

/-- PAGE_ANSWER (R290, R322). -/
def answerStep (s : State) (h : MsgHdr) (ctx reqid gen status : Nat) : State :=
  if !heardHost s h 5 24 || 1 < status then dropMessage s
  else match s.requests.find? fun r => r.reqid = reqid && r.ctx = ctx with
    | none => lateAnswer s
    | some r =>
      match ctxDesc s ctx with
      | none => lateAnswer s
      | some d =>
        if !d.live || d.gen ≠ gen || r.gen ≠ gen then lateAnswer s
        else if status = 0 then resolved s r
        else killCtx { s with requests := s.requests.filter (· ≠ r) } ctx 3 (askerInfo s r)

def execPageAnswer (h : MsgHdr) (ctx reqid gen status : Nat) (s : State) : Host.Outcome State Fault Refusal :=
  .next (answerStep s h ctx reqid gen status)

-- shootdowns (R284)

/-- Operations not performed that a translation of a range serves: executor and operation. -/
def translatedOps (s : State) (ctx addr len : Nat) : List (ExecId × Nat) :=
  (s.busy.filter fun p => p.2.launch.ctx = ctx).flatMap fun p => p.2.all.flatMap fun q =>
    (q.2.ops.filter fun o => !o.performed &&
      o.item.xl.any fun t => len = 0 || rangesMeet (t.1 * 4096) 4096 addr len).map fun o => (⟨p.1, q.1⟩, o.id)

/-- SHOOTDOWN: every core drops the range's translations at once; the acknowledgement waits (R284, R322). -/
def shootStep (s : State) (h : MsgHdr) (ctx number addr len : Nat) : State :=
  if !heardHost s h 6 24 || 2 ^ 57 ≤ addr then dropMessage s
  else
    let s1 := sweepCores s (fun _ => true) ctx (len = 0) addr len
    quiesce { s1 with shoots := s1.shoots ++ [{ ctx, number, src := h.src, tag := h.tag, ops := translatedOps s ctx addr len }] }

def execShootdown (h : MsgHdr) (ctx number addr len : Nat) (s : State) : Host.Outcome State Fault Refusal :=
  .next (shootStep s h ctx number addr len)

/-- Is an operation gone or performed? -/
def opGone (s : State) (p : ExecId × Nat) : Bool := ((s.exec p.1).bind (opOf · p.2)).elim true (·.performed)

/-- SHOOTDOWN_ACK: the accesses that dropped entries translated are performed; what they left in an L1 is written back first. -/
def shootAck (s : State) (number : Nat) : State :=
  match s.shoots.find? (·.number = number) with
  | none => s
  | some t =>
    if !t.ops.all (opGone s) then s
    else
      let s1 := ((t.ops.map fun p => p.1.core).eraseDups).foldl (fun s c => l1Drop s c (·.ctx = t.ctx)) s
      quiesce ({ s1 with shoots := s1.shoots.erase t }.send t.src 7 t.tag (leBytes 4 t.ctx ++ leBytes 4 t.number))

def execShootdownAck (number : Nat) (s : State) : Host.Outcome State Fault Refusal := .next (shootAck s number)

end Sys2Proof.Machine
end

