-- ==== Sys2Proof/Machine/Launch.lean ====
section
/-! DEFINITION. Level rings, launch records, and the placement of gangs (spec/19 R264 to R273, spec/24 R317, spec/16 R235 and R236,
spec/20 R292, spec/26 R336 and R342). -/

namespace Sys2Proof.Machine

-- level rings (R264, R265, R317); level l of queue q has number 8 q + l

def levelAddr (t k : Nat) : Nat := t + 64 * k

/-- Write a field of a level's descriptor. -/
def writeLevel (s : State) (k off : Nat) (bs : List Byte) : State :=
  match s.queueTable with
  | none => s
  | some t => writeHome s none false (levelAddr t k + off) bs

def setLevel (s : State) (k : Nat) (l : Level) : State := { s with levels := mapPut none k (some l) s.levels }

/-- err: a code with the sequence number of the record that is next to be taken (R264; log 15). -/
def levelErr (s : State) (k code head : Nat) : State := writeLevel s k 40 (leBytes 1 code ++ leBytes 7 head)

/-- A running level stops: its state byte, err for a failed check, and the interrupt (R317, R321). -/
def stopLevel (s : State) (k code : Nat) : State :=
  match mapGet none s.levels k with
  | none => s
  | some l =>
    if !l.running then s
    else
      let s1 := writeLevel (setLevel s k { l with running := false }) k 9 [0]
      (if code = 0 then s1 else levelErr s1 k code l.head).raise 3

/-- Start a level: what its descriptor gives, and head and done of the device's own for a level that has taken records (R317). -/
def startLevelAt (s : State) (k : Nat) (fromTable : Bool) : Nat × State :=
  match s.queueTable with
  | none => (1, s)
  | some t =>
    let at' (o n : Nat) : Nat := readNat s.mem (levelAddr t k + o) n
    let old := mapGet none s.levels k
    if (old.map (·.running)).getD false then (0, s)
    else
      let own := match old with | some l => if fromTable then false else l.took | none => false
      let l : Level := match old, own with
        | some l, true => { l with base := at' 0 8, lgsize := at' 8 1, ctx := at' 12 4, tail := at' 16 8 }
        | _, _ => { base := at' 0 8, lgsize := at' 8 1, ctx := at' 12 4, tail := at' 16 8, head := at' 24 8, doneN := at' 32 8
                    running := false, took := false, finished := [] }
      let s1 := if own then writeLevel s k 24 (leBytes 8 l.head ++ leBytes 8 l.doneN) else s
      let ok := !poisoned s (levelAddr t k) 64 && at' 10 2 = 0 && at' 48 16 = 0 && l.base % 4096 = 0 && 1 ≤ l.lgsize && l.lgsize ≤ 16 &&
        l.ctx < 4096 && l.doneN ≤ l.head && l.head ≤ l.tail && l.tail ≤ l.doneN + 2 ^ l.lgsize
      if ok then (0, writeLevel (setLevel s1 k { l with running := true }) k 9 [1])
      else (3, levelErr (writeLevel (setLevel s1 k l) k 9 [0]) k 9 l.head)

/-- DOORBELL (R265, R322). -/
def doorbellStep (s : State) (h : MsgHdr) (offset tail : Nat) : State :=
  if !heardHost s h 3 16 || offset % 8 ≠ 0 || 4096 ≤ offset then dropMessage s
  else
    let k := offset / 8
    match mapGet none s.levels k with
    | none => { s with doorbellsDropped := s.doorbellsDropped + 1 }
    | some l =>
      if !l.running then { s with doorbellsDropped := s.doorbellsDropped + 1 }
      else if tail < l.tail || l.doneN + 2 ^ l.lgsize < tail then stopLevel s k 9
      else writeLevel (setLevel s k { l with tail }) k 16 (leBytes 8 tail)

def execDoorbell (h : MsgHdr) (offset tail : Nat) (s : State) : Host.Outcome State Fault Refusal := .next (doorbellStep s h offset tail)

-- launch records (R266 to R268)

/-- The record's fields as a launch (R266, R267). -/
def parseRecord (l : Level) (k seq : Nat) (b : List Byte) : Launch :=
  let num (o n : Nat) : Nat := leNat ((b.drop o).take n)
  let flag (i : Nat) : Bool := num 67 1 / 2 ^ i % 2 = 1
  { gen := k / 8 * 2 ^ 58 + k % 8 * 2 ^ 55 + seq % 2 ^ 55, queue := k / 8, seq, ctx := l.ctx, ctxGen := 0, root := 0
    headoff := num 0 8, warpoff := num 8 8, codeobj := num 16 8, argptr := num 24 8, handler := num 32 8, ctxbase := num 40 8
    rowcnt := num 48 8, nwg := num 56 4, gsize := num 60 1, nwarps := num 61 1, slots := num 62 1, window := 16 * num 63 1
    spsize := 4096 * num 64 1, prio := num 65 1 % 8, cls := num 66 1, twin := flag 0, clrw := flag 1, wdkill := flag 2
    migrate := flag 3, notify := flag 4
    menu := (upto (min (num 68 1 % 8) 4)).map fun i =>
      (num (208 + 12 * i) 4, num (212 + 12 * i) 2, num (214 + 12 * i) 2, num (216 + 12 * i) 2)
    menuSlot := num 68 1 / 8 % 8, menuTwin := num 68 1 / 64 % 2 = 1, lanes := num 69 1, est := num 70 2
    affinity := num 72 4 % 2 ^ 26, wdog := num 76 4, slotsF := (upto 8).map fun i => BitVec.ofNat 64 (num (80 + 8 * i) 8)
    wait := BitVec.ofNat 256 (num 144 32), set := BitVec.ofNat 256 (num 176 32), allowF := false, allowE := false }

/-- The native section that the loader keeps for a class: base and length (R300). -/
def nativeOf (s : State) (l : Launch) (classE : Bool) : Option (Nat × Nat) :=
  (s.codeObjs.find? (·.id = l.codeobj)).bind fun o => if classE then o.e else o.f

/-- Does an entry offset lie in the section, at a valid clause header? The header is read only for a live context; an address with
no translation holds none (log 16). -/
def entryOk (s : State) (l : Launch) (d : Option CtxDesc) (sec : Nat × Nat) (off : Nat) : Bool :=
  off % 8 = 0 && off + 8 ≤ sec.2 &&
    (match d with
     | none => true
     | some d =>
       !d.live ||
       (match walk s l.ctx d.root (sec.1 + off) with
        | .miss _ => false
        | .ok xl => xl.remote.isNone && headerOk (BitVec.ofNat 64 (readNat s.mem (xl.pfn * 4096 + (sec.1 + off) % 4096) 8))))

/-- The lowest check that drops a class from the record's allowed classes (R268). -/
def classDrop (s : State) (l : Launch) (d : Option CtxDesc) (classE : Bool) : Option Nat :=
  let slot := slotOf (l.slotsF.getD l.menuSlot 0)
  if l.spsize < 4096 || (if classE then 128 else 192) * 4096 < l.spsize then some 4
  else if l.menu.any (fun m => (grant classE slot.spn l.menuSlot m.2.1 m.2.2.1 m.2.2.2 l.menuTwin).isNone) then some 8
  else match nativeOf s l classE with
    | none => some 12
    | some sec => if entryOk s l d sec l.headoff && entryOk s l d sec l.warpoff then none else some 10

/-- Clusters that a record may use: of its affinity, on an allowed class, with a core that is not fenced (R268, R342). -/
def clustersFor (s : State) (l : Launch) (allowF allowE : Bool) : List Nat :=
  (upto 26).filter fun c => l.affinity / 2 ^ c % 2 = 1 && (if fieldE (fieldOfCluster c) then allowE else allowF) &&
    (span (8 * c) 8).any fun n => !s.fenced.contains n

/-- The checks of R268 on a record's bytes: the lowest code that fails, or the launch with its allowed classes and clusters. -/
def checkRecord (s : State) (l : Launch) (level : Nat) (b : List Byte) : Except Nat (Launch × List Nat) :=
  let num (o n : Nat) : Nat := leNat ((b.drop o).take n)
  let d := ctxDesc s l.ctx
  let named (e : Bool) : Bool := l.cls = 2 || l.cls = (if e then 1 else 0)
  let drop (e : Bool) : Option Nat := if named e then classDrop s l d e else some 0
  let allowF := named false && (drop false).isNone
  let allowE := named true && (drop true).isNone
  let left := allowF || allowE
  -- the check that dropped the last class
  let lost := max ((drop false).getD 0) ((drop true).getD 0)
  let clusters := clustersFor s l allowF allowE
  let zero := num 65 1 / 8 ≠ 0 || num 67 1 / 32 ≠ 0 || num 68 1 / 128 ≠ 0 || num 72 4 / 2 ^ 26 ≠ 0 ||
    (upto 4).any fun i => num (218 + 12 * i) 2 ≠ 0
  let fails : List (Bool × Nat) :=
    [(zero || l.prio ≠ level, 1),
     (!(1 ≤ l.nwarps && l.nwarps ≤ 32 && l.slots ≤ 8 && 16 ≤ l.window && l.window ≤ 256 && 1 ≤ l.lanes && l.lanes ≤ 32) ||
        512 * 1024 < (l.nwarps + l.slots) * 32 * l.window * 4, 2),
     (!l.slotsF.all slotOk, 3),
     (2 < l.cls || (!left && lost = 4), 4),
     (l.gsize < 1 || 8 < l.gsize || l.nwg = 0 || l.nwg % l.gsize ≠ 0 || (l.twin && l.gsize % 2 = 1), 5),
     (left && clusters.isEmpty, 6),
     (l.est = 0 || (!clusters.isEmpty && clusters.all fun c => fieldLimit (fieldOfCluster c) < l.est * l.gsize), 7),
     (4 < num 68 1 % 8 || (num 68 1 % 8 ≠ 0 && (l.rowcnt = 0 || l.rowcnt % 4 ≠ 0)) ||
        l.menu.any (fun m => m.2.1 = 0 || m.2.2.1 = 0 || m.2.2.2 = 0) || (!left && lost = 8), 8),
     (l.wdog = 0 || l.ctxbase % (4 * 2 ^ 20) ≠ 0 || l.headoff % 8 ≠ 0 || l.warpoff % 8 ≠ 0 || (!left && lost = 10), 10),
     (!(d.map CtxDesc.live).getD false, 11),
     (!left && lost = 12, 12)]
  match fails.find? (·.1) with
  | some f => .error f.2
  | none => .ok ({ l with allowF, allowE, ctxGen := (d.map CtxDesc.gen).getD 0 }, clusters)

/-- RECORD_TAKE: the next record of a level ring is read at its home and checked (R265, R266, R268). -/
def takeStep (s : State) (q lv : Nat) : State :=
  let k := 8 * q + lv
  match mapGet none s.levels k with
  | none => s
  | some l =>
    let waiting := (s.taken.filter fun t => t.level = k && !t.allPlaced).length
    if s.startState ≠ 2 || 8 ≤ lv || !l.running || l.tail ≤ l.head || 16 ≤ waiting then s
    else
      let n := l.head
      let addr := l.base + 256 * (n % 2 ^ l.lgsize)
      let s1 := writeLevel (setLevel s k { l with head := n + 1, took := true }) k 24 (leBytes 8 (n + 1))
      let b := readBytes s.mem addr 256
      let rec' := parseRecord l k n b
      if Config.dramEnd < addr + 256 || poisoned s addr 256 then rejectRecord s1 k n rec'.gen l.ctx 9
      else match checkRecord s1 rec' lv b with
        | .error code => rejectRecord s1 k n rec'.gen l.ctx code
        | .ok (launch, clusters) =>
          { s1 with fresh := s1.fresh + 1, taken := s1.taken ++
              [{ launch, order := s1.fresh, level := k, released := false, next := 0, returned := [], asked := [], retired := 0, since := 0
                 clusters }] }

def execRecordTake (q l : Nat) (s : State) : Host.Outcome State Fault Refusal := .next (takeStep s q l)

-- the placement order (R270, R292)

/-- What waits for a place: a gang of a taken record, or a restorable workgroup. -/
inductive Cand where
  | gang (t : Taken) (gang : Nat)
  | restore (v : Saved)
  deriving DecidableEq, Repr

def Cand.launch : Cand → Launch
  | .gang t _ => t.launch
  | .restore v => v.wg.launch

/-- Insert by a key, after equal keys. -/
def insertKey {α : Type} (k : α → Nat) (x : α) : List α → List α
  | [] => [x]
  | y :: ys => if k x < k y then x :: y :: ys else y :: insertKey k x ys
def sortKey {α : Type} (k : α → Nat) (xs : List α) : List α := xs.foldl (fun acc x => insertKey k x acc) []

/-- Is a reservation for a gang of a record? -/
def reservedGang (r : Reservation) (gen gang : Nat) : Bool := r.gen = gen && r.gang = gang && r.wgid.isNone

/-- Gangs of a record that wait, ascending, evacuated ones first (R270, R273, R276). A gang whose row count is being asked for is none. Beyond
the first that no reservation is for, gangs with one are as well placed as that one. -/
def waitingGangs (s : State) (t : Taken) : List Nat :=
  let kept := (s.reservations.filter fun r => r.gen = t.launch.gen).length
  t.returned.map (·.1) ++ (t.asked.filter fun p => p.2 = some none).map (·.1) ++
    span t.next (min (t.launch.nwg / t.launch.gsize - t.next) (kept + 1))

/-- Has a gang returned after an evacuation? -/
def Taken.back (t : Taken) (gang : Nat) : Bool := (mapGet none t.returned gang).isSome

/-- Everything that waits, in placement order: higher priority, restorable workgroups, then the earlier-taken record. -/
def candidates (s : State) : List Cand :=
  let rest := (s.saved.filter fun v => !v.waiting && !v.evac).map Cand.restore
  let gangs := (sortKey (fun (t : Taken) => t.order) (s.taken.filter (·.released))).flatMap fun t => (waitingGangs s t).map (Cand.gang t)
  sortKey (fun (c : Cand) => 7 - c.launch.prio) (rest ++ gangs)

/-- The saved members of an evacuated gang. -/
def membersSaved (s : State) (gen gang : Nat) : List Saved :=
  s.saved.filter fun v => v.evac && v.wg.launch.gen = gen && gangOf v.wg.launch v.wg.wgid = gang

/-- Does a class suit a saved workgroup: its old class, or under migrate the other (R276, R292)? -/
def classSuits (v : Saved) (cluster : Nat) : Bool := fieldE (fieldOfCluster cluster) = coreE v.core || v.wg.launch.migrate

/-- Allowed clusters of a candidate, rising. -/
def candClusters (s : State) (c : Cand) : List Nat :=
  match c with
  | .gang t g =>
    if t.back g then t.clusters.filter fun k => (membersSaved s t.launch.gen g).all (classSuits · k) else t.clusters
  | .restore v =>
    if v.wg.launch.gsize = 1 then
      ((s.taken.find? (·.launch.gen = v.wg.launch.gen)).elim [] (·.clusters)).filter (classSuits v)
    else [clusterOf v.core]

/-- Stage twins take records of their stage's queue alone, with gsize 1 or 2; other twins take every other record (R278). -/
def stageOk (s : State) (l : Launch) (cluster : Nat) (cores : List Nat) : Bool :=
  match mapGet none s.governors cluster with
  | none => true
  | some g =>
    let queueOf (stage : Nat) : Option Nat := [g.qload, g.qcomp, g.qstore][stage]?
    let stageOf (core : Nat) : Nat := g.stages.getD (core % 8 / 2) 3
    let moving (core : Nat) : Bool := g.moving.elim false fun m => m.1 = core % 8 / 2
    if [g.qload, g.qcomp, g.qstore].contains l.queue then
      l.gsize ≤ 2 && cores.all fun c => queueOf (stageOf c) = some l.queue
    else cores.all fun c => stageOf c = 3 && !moving c

/-- Windows of cores that a candidate may take on a cluster, lowest first, whoever holds them (R270, R292). -/
def windows (s : State) (c : Cand) (cluster : Nat) : List (List Nat) :=
  let l := c.launch
  let ws : List (List Nat) := match c with
    | .gang _ _ => ((upto (9 - l.gsize)).filter fun i => !l.twin || i % 2 = 0).map fun i => span (8 * cluster + i) l.gsize
    | .restore v => ((span (8 * cluster) 8).filter fun n => !l.twin || n % 2 = v.core % 2).map fun n => [n]
  ws.filter fun w => w.all (fun n => !s.fenced.contains n) && stageOk s l cluster w

/-- May a core be had: free, or held by one of `freed`, and not reserved for another (R270, R274)? -/
def coreFor (s : State) (c : Cand) (freed : Nat → Bool) (n : Nat) : Bool :=
  let mine (r : Reservation) : Bool := match c with
    | .gang t g => reservedGang r t.launch.gen g
    | .restore v => r.gen = v.wg.launch.gen && r.wgid = some v.wg.wgid
  ((s.wg n).isNone || freed n) && s.reservations.all (fun r => mine r || !r.cores.contains n) &&
    (match c with
     | .restore v =>
       !(v.wg.launch.twin && v.wg.launch.gsize ≠ 1) ||
         (let p := if n % 2 = 0 then n + 1 else n - 1
          match s.wg p with
          | none => true
          | some w => w.launch.gen = v.wg.launch.gen && gangOf w.launch w.wgid = gangOf v.wg.launch v.wg.wgid)
     | .gang _ _ => true)

/-- Current that a candidate needs. -/
def needOf (s : State) (c : Cand) : Nat :=
  match c with
  | .gang t g => if t.back g then t.launch.est * (membersSaved s t.launch.gen g).length else t.launch.est * t.launch.gsize
  | .restore v => v.wg.launch.est

/-- Uncommitted budget of a field for a candidate: less what is reserved for others (R270, R274). -/
def roomFor (s : State) (c : Cand) (f : Nat) : Nat :=
  let mine (r : Reservation) : Bool := match c with
    | .gang t g => reservedGang r t.launch.gen g
    | .restore v => r.gen = v.wg.launch.gen && r.wgid = some v.wg.wgid
  fieldLimit f - (s.field f).committed - ((s.reservations.filter fun r => r.field = f && !mine r).map (·.budget)).foldl (· + ·) 0

/-- Is the candidate kept from every place: a victim's launch while the reservation stands (R274), or a gang with a member whose page
request is unanswered? -/
def heldOff (s : State) (c : Cand) : Bool :=
  match c with
  | .gang t g => s.reservations.any (fun r => r.victims.any fun v => v.1 = t.launch.gen) ||
      (t.back g && (membersSaved s t.launch.gen g).any (·.waiting))
  | .restore v => s.reservations.any fun r => r.victims.any fun p => p = (v.wg.launch.gen, gangOf v.wg.launch v.wg.wgid)

/-- The cores that a candidate is placed on, once those placed before it have theirs: the lowest cluster that qualifies, and there the lowest
window. Of a field's budget the schedulers of the lower clusters and its own commit first (R270). -/
def choiceAfter (s : State) (before : List (Cand × Nat × List Nat)) (c : Cand) : Option (Nat × List Nat) :=
  let taken (n : Nat) : Bool := before.any fun p => p.2.2.contains n
  let used (k : Nat) : Nat :=
    ((before.filter fun p => p.2.1 ≤ k && fieldOfCluster p.2.1 = fieldOfCluster k).map fun p => needOf s p.1).foldl (· + ·) 0
  if heldOff s c then none
  else (candClusters s c).findSome? fun k =>
    if roomFor s c (fieldOfCluster k) < needOf s c + used k then none
    else ((windows s c k).find? fun w => w.all fun n => coreFor s c (fun _ => false) n && !taken n).map (k, ·)
def choice (s : State) (c : Cand) : Option (Nat × List Nat) := choiceAfter s [] c

/-- What the schedulers place in this cycle, in placement order: each candidate that qualifies, its cluster and its cores (R270). -/
def placements (s : State) : List (Cand × Nat × List Nat) :=
  (candidates s).foldl (fun before c => match choiceAfter s before c with
    | some q => before ++ [(c, q)]
    | none => before) []

/-- The candidate that the scheduler of a cluster places next. -/
def nextFor (s : State) (cluster : Nat) : Option (Cand × List Nat) :=
  ((placements s).find? fun p => p.2.1 = cluster).map fun p => (p.1, p.2.2)

-- placing (R236, R271 to R273)

/-- The row count of a gang, as the home cache slice has it: its value, or a page that misses. No executor reads it, and R256 gives it no
promotion (R273). -/
inductive RowRead where
  | count (n : Nat) (s : State)
  | miss (page : MissPage)
  deriving DecidableEq, Repr

def readRows (s : State) (l : Launch) (root : Nat) : RowRead :=
  let miss (m : Bool) : RowRead := .miss { page := l.rowcnt / 4096, malformed := m, fetch := false, write := false, read := true }
  match walk s l.ctx root l.rowcnt with
  | .miss m => miss m
  | .ok xl =>
    if !xl.rd || xl.remote.isSome then miss false
    else
      let h := xl.pfn * 4096 + l.rowcnt % 4096
      if poisoned s h 4 then .count (leNat (s.takeFree 4).1) (s.takeFree 4).2 else .count (readNat s.mem h 4) s

/-- s0 under the shape menu: the first valid entry whose thr is at least the count, else the last (R273). -/
def menuShape (l : Launch) (classE : Bool) (count : Nat) : Option Shape :=
  let e := (l.menu.find? fun m => count ≤ m.1).getD (l.menu.getLastD (0, 0, 0, 0))
  grant classE (slotOf (l.slotsF.getD l.menuSlot 0)).spn l.menuSlot e.2.1 e.2.2.1 e.2.2.2 l.menuTwin

/-- The executors of a workgroup at its placement: home warps, idle apply slots and the headspring (R39, R235, R236). -/
def startExecs (l : Launch) (code now : Nat) : SMap (Option Exec) :=
  let head := { Exec.fresh 0 (code + l.headoff) now with k := mapPut 0 0 (BitVec.ofNat 64 l.argptr) [] }
  (upto l.nwarps).map (fun n => (n, some (Exec.fresh (lowLanes l.lanes) (code + l.warpoff) now))) ++
    (span 32 l.slots).map (fun n => (n, some { Exec.fresh 0 0 now with exiting := true })) ++ [(40, some head)]

/-- Place one workgroup on a core: an acquire at device scope for each executor, of the releases of the EVSET words that its launch's release
met (R39, R252, R272). -/
def placeWg (s : State) (l : Launch) (on : List Rel) (wgid core : Nat) (s0 : Option Shape) : State :=
  let now := s.now core
  let code := ((nativeOf s l (coreE core)).map (·.1)).getD 0
  let w : Workgroup := { Workgroup.fresh l wgid code now with
    shapes := match s0 with | some sh => mapPut 0 0 sh [] | none => []
    execs := (startExecs l code now).map fun p => (p.1, p.2.map fun e =>
      if on.isEmpty then e else { e with holds := [{ start := s.fresh, key := none, on, scope := .device }] }) }
  (dropClean s core).updCore core fun c =>
    { c with wg := some w, tiles := [], badTiles := [], zflags := [], fills := [], macroRec := none, weights := [], bscales := [], away := [], slotFree := [] }

/-- Commit current on a field (R271). -/
def commitBudget (s : State) (f mA : Nat) : State := s.setField f { s.field f with committed := (s.field f).committed + mA }

/-- A gang that was tried is placed, or asks for its row count's page: it and the gangs passed over are no longer among those from `next` on
(R270, R273). -/
def noteTried (gang : Nat) (asks : Option (Option Nat)) (t : Taken) : Taken :=
  if gang < t.next then { t with asked := mapPut none gang asks t.asked }
  else { t with next := gang + 1
                asked := mapPut none gang asks ((span t.next (gang - t.next)).foldl (fun m g => mapPut none g (some none) m) t.asked) }

/-- A new gang takes its cores: the row count first, then every workgroup (R271 to R273). -/
def placeGang (s : State) (t : Taken) (gang cluster : Nat) (cores : List Nat) : State :=
  let d := ctxDesc s t.launch.ctx
  let l : Launch := { t.launch with root := (d.map CtxDesc.root).getD 0, ctxGen := (d.map CtxDesc.gen).getD t.launch.ctxGen }
  let note (asks : Option (Option Nat)) (s : State) : State :=
    { s with taken := updFirst (fun u => u.launch.gen = l.gen) (noteTried gang asks) s.taken }
  let go (s : State) (count : Nat) : State :=
    let s1 := ((upto cores.length).zip cores).foldl (fun s p =>
      placeWg s l (t.on.filter fun r => !relGone s r) (gang * l.gsize + p.1) p.2 (if l.menu.isEmpty then none else menuShape l (coreE p.2) count)) s
    let s2 := commitBudget s1 (fieldOfCluster cluster) (l.est * l.gsize)
    note none { s2 with reservations := s2.reservations.filter fun r => !reservedGang r l.gen gang }
  if l.menu.isEmpty then go s 0
  else match readRows s l l.root with
    | .count n s1 => go s1 n
    | .miss p => sendRequest (note (some (some (s.fresh % 2 ^ 32))) s) l.ctx l.ctxGen 2 0xFFFFFFFF [p] (.launch l.gen gang)

/-- What follows a try at restoring: a request for the save area's page, or the kill for a failed check, which the error
log has (R290, R294, R333, R340). -/
def afterRestore (s : State) (v : Saved) (r : RestoreResult) : State :=
  let l := v.wg.launch
  match r with
  | .placed s1 => s1
  | .miss p =>
    sendRequest { s with saved := s.saved.map fun u => if u = v then { u with waiting := true } else u } l.ctx l.ctxGen 2 v.wg.wgid [p]
      (.replay l.gen v.wg.wgid)
  | .bad =>
    let at' := ((areaPages s l (saveArea v.wg)).toOption.bind (·.head?)).elim 0 (· * 4096)
    killCtx (logError s 1 10 0 208 at' l.gen) l.ctx 6 { lgen := l.gen, wgid := v.wg.wgid }

/-- An evacuated gang returns whole, its members on ascending cores (R276). The last comes first, so that a leader finds the follower of its
twin there (R199). -/
def returnGang (s : State) (t : Taken) (gang : Nat) (cores : List Nat) : State :=
  let ms := (sortKey (fun (v : Saved) => v.wg.wgid) (membersSaved s t.launch.gen gang)).reverse
  let tried := ms.map fun v => (v, restoreOn s v (cores.getD (v.wg.wgid % t.launch.gsize) 0))
  match tried.find? fun p => match p.2 with | .placed _ => false | _ => true with
  | some p => afterRestore s p.1 p.2
  | none =>
    let s1 := ms.foldl (fun s v => afterRestore s v (restoreOn s v (cores.getD (v.wg.wgid % t.launch.gsize) 0))) s
    { s1 with reservations := s1.reservations.filter fun r => !reservedGang r t.launch.gen gang
              taken := updFirst (fun u => u.launch.gen = t.launch.gen) (fun u => { u with returned := mapPut none gang none u.returned })
                s1.taken }

/-- GANG_PLACE: the scheduler of a cluster places the first gang in placement order whose choice it is (R270). -/
def placeStep (s : State) (cluster : Nat) : State :=
  if s.startState ≠ 2 then s
  else match nextFor s cluster with
    | some (.gang t g, cores) => if t.back g then returnGang s t g cores else placeGang s t g cluster cores
    | _ => s

def execGangPlace (cluster : Nat) (s : State) : Host.Outcome State Fault Refusal := .next (placeStep s cluster)

/-- WORKGROUP_RESTORE: the restorable workgroup of a request is the first that its cluster places (R292, R293). -/
def restoreStep (s : State) (reqid core : Nat) : State :=
  if s.startState ≠ 2 then s
  else match nextFor s (clusterOf core) with
    | some (.restore v, [n]) =>
      if v.reqid ≠ reqid || n ≠ core then s
      else
        let s1 := afterRestore s v (restoreOn s v core)
        { s1 with reservations := s1.reservations.filter fun r => !((s1.wg core).isSome && r.gen = v.wg.launch.gen && r.wgid = some v.wg.wgid) }
    | _ => s

def execWorkgroupRestore (reqid core : Nat) (s : State) : Host.Outcome State Fault Refusal := .next (restoreStep s reqid core)

-- release and retirement (R269, R272)

/-- One record at its release on a cluster: the state at the end of the last cycle meets its mask; clrw clears it (R243, R269). The releases
of the EVSET words that it meets are acquired at placement (R272). -/
def releaseOne (cluster : Nat) (s : State) (t : Taken) : State :=
  let bits := mapGet 0 s.endEvents cluster
  if t.released || t.launch.affinity / 2 ^ cluster % 2 ≠ 1 || bits &&& t.launch.wait ≠ t.launch.wait then s
  else
    let s1 : State := { s with taken := updFirst (fun u => u.launch.gen = t.launch.gen)
                                 (fun u => { u with released := true, since := recordNow s u.clusters, on := eventRelsOf s cluster t.launch.wait }) s.taken }
    if t.launch.clrw && t.launch.wait ≠ 0 then
      updateEvents (takeTurn { s1 with endEvents := mapPut 0 cluster (bits &&& ~~~ t.launch.wait) s1.endEvents } cluster lastTurn) cluster 0
        t.launch.wait
    else s1

/-- LAUNCH_RELEASE: the records that wait, in placement order (R269); their clears come after the updates of the cluster's cores and before
set-mask updates of the cycle (R167). -/
def releaseStep (s : State) (cluster : Nat) : State :=
  if s.startState ≠ 2 || 26 ≤ cluster || !turnFree s cluster lastTurn then s
  else (sortKey (fun (t : Taken) => 7 - t.launch.prio) (sortKey (fun (t : Taken) => t.order) s.taken)).foldl (releaseOne cluster) s

def execLaunchRelease (cluster : Nat) (s : State) : Host.Outcome State Fault Refusal := .next (releaseStep s cluster)

/-- LAUNCH_RETIRE: every workgroup has retired: the set mask on every cluster of the affinity, the completion, done (R272). -/
def retireStep (s : State) (gen : Nat) : State :=
  match s.taken.find? (·.launch.gen = gen) with
  | none => s
  | some t =>
    let l := t.launch
    if t.retired < l.nwg then s
    else
      let s1 := ((upto 26).filter fun c => l.affinity / 2 ^ c % 2 = 1).foldl
        (fun s c => updateEvents (takeTurn s c (lastTurn + 1)) c l.set 0) s
      let s2 := if l.notify then completion s1 1 0 gen l.ctx [] else s1
      let s3 := { s2 with taken := s2.taken.filter (·.launch.gen ≠ gen), headsDone := s2.headsDone.filter (·.1 ≠ gen) }
      quiesce (finishRecord s3 t.level l.seq)

def execLaunchRetire (gen : Nat) (s : State) : Host.Outcome State Fault Refusal := .next (retireStep s gen)

end Sys2Proof.Machine
end

