-- ==== Sys2Proof/Machine/Schedule.lean ====
section
/-! DEFINITION. Reservation and pre-emption, the watchdog and evacuation, and the stage governor (spec/19 R274 to R279). -/

namespace Sys2Proof.Machine

-- reservations (R274)

/-- A workgroup of lower priority: its core, its gang, its priority, and when it was placed. -/
structure Lower where
  core : Nat
  gang : Nat × Nat
  prio : Nat
  place : Nat
  deriving DecidableEq, Repr

/-- Workgroups below a priority on the cores chosen, in ascending priority and the most recently placed first. -/
def lowerOn (s : State) (prio : Nat) (on : Nat → Bool) : List Lower :=
  let all := s.busy.filterMap fun p =>
    if on p.1 && p.2.launch.prio < prio then
      some { core := p.1, gang := (p.2.launch.gen, gangOf p.2.launch p.2.wgid), prio := p.2.launch.prio, place := p.2.stamps.place }
    else none
  sortKey (fun (x : Lower) => x.prio) (sortKey (fun (x : Lower) => 2 ^ 64 - x.place) all)

/-- Workgroups of gangs on cores. -/
def gangCores (s : State) (gs : List (Nat × Nat)) : List (Nat × Workgroup) :=
  s.busy.filter fun p => gs.contains (p.2.launch.gen, gangOf p.2.launch p.2.wgid)

/-- Take victims one by one until enough would be freed; every gang that holds one is a victim whole. -/
def takeVictims (enough : List (Nat × Nat) → Bool) : List (Nat × Nat) → List Lower → Option (List (Nat × Nat))
  | gs, [] => if enough gs then some gs else none
  | gs, x :: xs =>
    if enough gs then some gs else takeVictims enough (if gs.contains x.gang then gs else gs ++ [x.gang]) xs

/-- The window of a cluster that would be free without the victims. -/
def windowWithout (s : State) (c : Cand) (k : Nat) (gs : List (Nat × Nat)) : Option (List Nat) :=
  let freed := (gangCores s gs).map (·.1)
  (windows s c k).find? fun w => w.all (coreFor s c freed.contains)

/-- Current that the victims hold on a field. -/
def currentOf (s : State) (f : Nat) (gs : List (Nat × Nat)) : Nat :=
  (((gangCores s gs).filter fun p => fieldOf p.1 = f).map fun p => p.2.launch.est).foldl (· + ·) 0

/-- What a cluster would need freed: the victims and the window. -/
def planFor (s : State) (c : Cand) (k : Nat) : Option (List (Nat × Nat) × List Nat) :=
  let f := fieldOfCluster k
  let prio := c.launch.prio
  (takeVictims (fun gs => (windowWithout s c k gs).isSome) [] (lowerOn s prio fun n => clusterOf n = k)).bind fun gs =>
  (takeVictims (fun gs => needOf s c ≤ roomFor s c f + currentOf s f gs) gs (lowerOn s prio fun n => fieldOf n = f)).bind fun vs =>
  (windowWithout s c k vs).map (vs, ·)

/-- Is a reservation a candidate's own? -/
def ownReservation (c : Cand) (r : Reservation) : Bool :=
  match c with
  | .gang t g => reservedGang r t.launch.gen g
  | .restore v => r.gen = v.wg.launch.gen && r.wgid = some v.wg.wgid

/-- The candidates of a launch that are unable to qualify and have no reservation. -/
def blocked (s : State) (gen : Nat) : List Cand :=
  (candidates s).filter fun c => c.launch.gen = gen && (choice s c).isNone && !heldOff s c && s.reservations.all fun r => !ownReservation c r

def reservationFor (s : State) (c : Cand) (k : Nat) (cores : List Nat) (victims : List (Nat × Nat)) : Reservation :=
  { gen := c.launch.gen, cluster := k, cores, budget := needOf s c, field := fieldOfCluster k, victims
    gang := match c with | .gang _ g => g | .restore v => gangOf v.wg.launch v.wg.wgid
    wgid := match c with | .gang _ _ => none | .restore v => some v.wg.wgid }

/-- Allowed clusters with their plans. -/
def plansOf (s : State) (c : Cand) : List (Nat × List (Nat × Nat) × List Nat) :=
  (candClusters s c).filterMap fun k => (planFor s c k).map (k, ·)

/-- Workgroups that a plan makes victims. -/
def victimCount (s : State) (p : Nat × List (Nat × Nat) × List Nat) : Nat := (gangCores s p.2.1).length

/-- Windows of a cluster that no other reservation withholds: what may be reserved though workgroups of the candidate's priority or above
hold a part of it. -/
def openWindows (s : State) (c : Cand) (k : Nat) : List (List Nat) :=
  (windows s c k).filter fun w => w.all fun n => s.reservations.all fun r => ownReservation c r || !r.cores.contains n

/-- Victims taken one by one until enough would be freed, or all of them. -/
def takeMost (enough : List (Nat × Nat) → Bool) : List (Nat × Nat) → List Lower → List (Nat × Nat)
  | gs, [] => gs
  | gs, x :: xs => if enough gs then gs else takeMost enough (if gs.contains x.gang then gs else gs ++ [x.gang]) xs

/-- Where lower priorities alone do not free enough: the first window that a workgroup of lower priority holds a core of, or any where one
holds budget that is short; the victims are those that hold cores of it, and then such as hold budget until enough of it would be freed
(R274, R277; log 85). -/
def mixedPlan (s : State) (c : Cand) (k : Nat) : Option (Nat × List (Nat × Nat) × List Nat) :=
  let prio := c.launch.prio
  let f := fieldOfCluster k
  let onIt (w : List Nat) : List (Nat × Nat) :=
    takeMost (fun gs => needOf s c ≤ roomFor s c f + currentOf s f gs) ((lowerOn s prio w.contains).map (·.gang)).eraseDups
      (lowerOn s prio fun n => fieldOf n = f)
  ((openWindows s c k).find? fun w => !(onIt w).isEmpty).map fun w => (k, onIt w, w)
def mixedPlans (s : State) (c : Cand) : List (Nat × List (Nat × Nat) × List Nat) := (candClusters s c).filterMap (mixedPlan s c)

/-- The plans of a candidate, fewest victims first, ties to the lowest cluster. -/
def plans (s : State) (c : Cand) : List (Nat × List (Nat × Nat) × List Nat) :=
  let freeing := (plansOf s c).filter fun p => !p.2.1.isEmpty
  sortKey (victimCount s) (if freeing.isEmpty then mixedPlans s c else freeing)

/-- TARGET_RESERVATION: the first blocked candidate of the launch that a plan helps reserves at once the allowed cluster with the fewest
victims (R274). -/
def targetStep (s : State) (gen : Nat) : State :=
  match (blocked s gen).findSome? fun c => (plans s c).head?.map (c, ·) with
  | none => s
  | some (c, k, vs, w) => { s with reservations := s.reservations ++ [reservationFor s c k w vs] }

def execTargetReservation (gen : Nat) (s : State) : Host.Outcome State Fault Refusal := .next (targetStep s gen)

/-- Cycles that a candidate has waited. -/
def waited (s : State) (c : Cand) : Nat :=
  match c with
  | .gang t g => recordNow s t.clusters - (mapGet none t.returned g).getD t.since
  | .restore v => s.now v.core - v.since

/-- RESERVATION_TIMER_EXPIRY: nothing of lower priority blocks, and 65,536 cycles have passed: the lowest allowed cluster with a window
that is neither fenced nor reserved (R274). -/
def timerStep (s : State) (gen : Nat) : State :=
  let place (c : Cand) : Option (Nat × List Nat) :=
    if !(plansOf s c).isEmpty || !(mixedPlans s c).isEmpty || waited s c < 65536 then none
    else (candClusters s c).findSome? fun k => (openWindows s c k).head?.map (k, ·)
  match (blocked s gen).findSome? fun c => (place c).map (c, ·) with
  | none => s
  | some (c, k, w) => { s with reservations := s.reservations ++ [reservationFor s c k w []] }

def execReservationTimerExpiry (gen : Nat) (s : State) : Host.Outcome State Fault Refusal := .next (timerStep s gen)

-- the watchdog (R275, R276)

/-- Evacuation begins on one core: a run-ahead ends there, and every executor stops at its next clause start (R276). -/
def evacuateCore (s : State) (core : Nat) : State :=
  match s.wg core with
  | none => s
  | some w =>
    match w.phase with
    | .ahead c =>
      match w.exec c with
      | none => s.setWg core { w with phase := .saving true }
      | some e =>
        match e.shadow with
        | none => s.setWg core { w with phase := .saving true }
        | some h =>
          let s1 := ((freeSlot s core e.slot).forgetFar ⟨core, c⟩).setExec ⟨core, c⟩ (dropShadow e h (.page standingReq))
          s1.updWg core fun w => { w with batch := (shadowPages s ⟨core, c⟩ h e.clauses).getD h.pages, phase := .saving true }
    | _ => s.setWg core { w with phase := .saving true }

/-- Evacuate a gang: the members on cores, and those already saved, which return with it. -/
def evacuate (s : State) (l : Launch) (gang : Nat) : State :=
  let cores := s.busy.filterMap fun p =>
    if p.2.launch.gen = l.gen && gangOf p.2.launch p.2.wgid = gang && !wgRetired p.2 then some p.1 else none
  let s1 : State := { s with saved := s.saved.map fun v =>
    if v.wg.launch.gen = l.gen && gangOf v.wg.launch v.wg.wgid = gang then { v with evac := true } else v }
  cores.foldl evacuateCore s1

/-- WATCHDOG_EXPIRY (R275). A workgroup that is being evacuated has had its expiry (R276). -/
def watchdogStep (s : State) (core : Nat) : State :=
  match s.wg core with
  | none => s
  | some w =>
    let gang := gangOf w.launch w.wgid
    if w.wdogLeft ≠ 0 || w.phase = .saving true || w.phase = .killed then s
    else if s.reservations.any fun r => r.victims.contains (w.launch.gen, gang) then evacuate s w.launch gang
    else if w.launch.wdkill then killCtx s w.launch.ctx 5 { lgen := w.launch.gen, wgid := w.wgid, core }
    else s.setWg core { w with wdogLeft := w.launch.wdog * 4000 }

def execWatchdogExpiry (core : Nat) (s : State) : Host.Outcome State Fault Refusal := .next (watchdogStep s core)

-- the governor (R278, R279)

def governorAddr (t cluster : Nat) : Nat := t + 64 * cluster

/-- A governor's descriptor: none when it is off, and whether its bounds are broken (R278). -/
def parseGovernor (b : List Byte) : Option Governor × Bool :=
  let num (o n : Nat) : Nat := leNat ((b.drop o).take n)
  let nl := num 40 1
  let nc := num 41 1
  let ns := num 42 1
  let ok := num 20 4 < num 16 4 && num 16 4 ≤ 65536 && num 28 4 < num 24 4 && num 24 4 ≤ 65536 && num 32 1 < 64 && num 33 1 < 64 &&
    num 34 1 < 64 && num 35 1 < 2 && num 36 4 < 4096 && 1 ≤ nl && 1 ≤ nc && 1 ≤ ns && nl + nc + ns ≤ 4 && num 43 21 = 0
  if !ok then (none, true)
  else if num 35 1 = 0 then (none, false)
  else (some { ringA := num 0 8, ringB := num 8 8, hiA := num 16 4, loA := num 20 4, hiB := num 24 4, loB := num 28 4, qload := num 32 1
               qcomp := num 33 1, qstore := num 34 1, ctx := num 36 4, moving := none, ticked := none, request := none, again := false
               stages := (upto 4).map fun i => if i < nl then 0 else if i < nl + nc then 1 else if i < nl + nc + ns then 2 else 3 }, false)

/-- Occupancy of a ring, tail less the least cursor; none for a malformed header; or the page that misses (R279). -/
def occupancy (s : State) (ctx root header : Nat) : Except MissPage (Option Nat) :=
  let read (o n : Nat) : Except MissPage (List Byte) :=
    (pieces (header + o) n).foldlM (fun bs p =>
      match walk s ctx root p.1 with
      | .miss m => .error { page := p.1 / 4096, malformed := m, fetch := false, write := false, read := true }
      | .ok xl =>
        if !xl.rd || xl.remote.isSome then .error { page := p.1 / 4096, malformed := false, fetch := false, write := false, read := true }
        else .ok (bs ++ readBytes s.mem (xl.pfn * 4096 + p.1 % 4096) p.2)) []
  do
    let b ← read 0 128
    match parseRing 0 .gl header b with
    | none => .ok none
    | some r =>
      let cursors := (upto r.ncons).map fun c => leNat ((b.drop (64 + 8 * c)).take 8)
      .ok (some (leNat (b.take 8) - cursors.foldl min (cursors.headD 0)))

/-- The move that the first rule to apply starts: from one stage to another (R279). -/
def governorMove (g : Governor) (a b : Option Nat) : Option (Nat × Nat) :=
  let twins (stage : Nat) : Nat := (g.stages.filter (· = stage)).length
  let has (o : Option Nat) (p : Nat → Bool) : Bool := o.elim false p
  if has a (g.hiA ≤ ·) && 2 ≤ twins 0 then some (0, 1)
  else if has a (· ≤ g.loA) && 2 ≤ twins 1 then some (1, 0)
  else if has b (g.hiB ≤ ·) && 2 ≤ twins 1 then some (1, 2)
  else if has b (· ≤ g.loB) && 2 ≤ twins 2 then some (2, 1)
  else none

/-- GOVERNOR_TICK: every 1,024 cycles, and at once when a page request is answered, the governor reads its rings; it starts no move while one
is under way, and none until its request is answered (R279, R285, R290). -/
def governorStep (s : State) (cluster : Nat) : State :=
  match mapGet none s.governors cluster with
  | none => s
  | some g0 =>
    let now := (s.field (fieldOfCluster cluster)).count
    if g0.request.isSome || s.startState ≠ 2 || (!g0.again && (now % 1024 ≠ 0 || g0.ticked = some now)) then s
    else
      let g : Governor := { g0 with ticked := some now, again := false }
      let put (g : Governor) : State := { s with governors := mapPut none cluster (some g) s.governors }
      match ctxDesc s g.ctx with
      | none => put g
      | some d =>
        let miss (p : MissPage) : State :=
          sendRequest (put { g with request := some (s.fresh % 2 ^ 32) }) g.ctx d.gen 2 0xFFFFFFFF [p] (.governor cluster)
        match occupancy s g.ctx d.root g.ringA, occupancy s g.ctx d.root g.ringB with
        | .error p, _ => miss p
        | _, .error p => miss p
        | .ok a, .ok b =>
          match if g.moving.isSome then none else governorMove g a b with
          | none => put g
          | some (src, dst) =>
            let twin := ((upto 4).filter fun i => g.stages.getD i 3 = src).getLastD 0
            joinStage (put { g with stages := g.stages.set twin 3, moving := some (twin, dst) }) cluster

def execGovernorTick (cluster : Nat) (s : State) : Host.Outcome State Fault Refusal := .next (governorStep s cluster)

end Sys2Proof.Machine
end

