-- ==== Sys2Proof/Machine/Fabric.lean ====
section
/-! DEFINITION. The fabric: accesses from outside, responses to the device's own, link epochs, ports and interrupts (spec/24 R312 to
R322, spec/20 R295 and R296, spec/26 R336). -/

namespace Sys2Proof.Machine

-- islands (R343, R346)

/-- Power islands, but for the management island, which is powered whenever the module is (R343). -/
inductive Island where
  | phy (field : Nat)
  | field (n : Nat)
  | vaultDie (field : Nat)
  | dram (field : Nat)
  deriving DecidableEq, Repr

/-- Is the island of a bring-up step up: a start has taken the step or kept the island, or a power down has not undone it (R345, R346)? -/
def stepUp (s : State) (step : Nat) (kept : Bool) : Bool :=
  s.startState = 2 || (s.startState = 1 && (kept || step < s.startNext)) || (s.startState = 4 && step ≤ s.startNext)

/-- Is an island up and locked (R343)? -/
def islandUp (s : State) : Island → Bool
  | .phy _ => stepUp s 3 (s.startKind ≠ 0)
  | .field n => n < s.fieldsUp
  | .vaultDie _ => stepUp s 7 (s.startKind = 2)
  | .dram _ => stepUp s 8 (s.startKind = 2)

/-- The memory of a home address is in an island that is up. -/
def homeUp (s : State) (h : Nat) : Bool :=
  if isSpadHome h then islandUp s (.field (fieldOf (spadCore h)))
  else if isDramHome h then islandUp s (.dram 0) else islandUp s (.vaultDie 0)

-- flits (R313)

/-- A CRC-32 step over one bit and over one byte, least significant bit first (log 83). -/
def crcBit (c : BitVec 32) : BitVec 32 := if c.getLsbD 0 then (c >>> 1) ^^^ 0xEDB88320 else c >>> 1
def crcByte (c : BitVec 32) (b : Byte) : BitVec 32 := (upto 8).foldl (fun c _ => crcBit c) (c ^^^ b.setWidth 32)
/-- The CRC-32 of bytes. -/
def crc32 (bs : List Byte) : BitVec 32 := ~~~ bs.foldl crcByte 0xFFFFFFFF

/-- Header of a message's flit: dst, src, kind, channel, nflit, idx and tag (R313). -/
def flitHeader (m : Message) (idx : Nat) : Nat :=
  m.dst % 4096 * 2 ^ 52 + m.src % 4096 * 2 ^ 40 + m.kind % 16 * 2 ^ 36 + channelOf m.kind * 2 ^ 34 +
    (flitCount m.payload.length - 1) % 64 * 2 ^ 28 + idx % 64 * 2 ^ 22 + m.tag % 2 ^ 22
/-- Bytes 0 to 59 of a flit, and the flit with its CRC (R313, R315). -/
def flitBody (m : Message) (idx : Nat) : List Byte :=
  let part := (m.payload.drop (52 * idx)).take 52
  leBytes 8 (flitHeader m idx) ++ part ++ List.replicate (52 - part.length) 0
def flit (m : Message) (idx : Nat) : List Byte := flitBody m idx ++ leBytes 4 (crc32 (flitBody m idx)).toNat
/-- The flits of a message, in ascending idx. -/
def flits (m : Message) : List (List Byte) := (upto (flitCount m.payload.length)).map (flit m)

-- accesses of the host and of peers (R315, R320)

/-- A response: status, length and data (R315). -/
def respond (s : State) (h : MsgHdr) (status : Nat) (data : List Byte) : State :=
  s.send h.src 2 h.tag (leBytes 4 status ++ leBytes 4 data.length ++ data)

/-- An endpoint that is heard from has a route again (log 17). -/
def noteHeard (s : State) (ep : Nat) : State := { s with unreachable := s.unreachable.filter (· ≠ ep) }

def outside (addr n : Nat) : Bool := decide (Config.dramEnd < addr + n)

/-- HOST_MEMORY_WRITE: performed at the home at system scope, then acknowledged (R320). -/
def hostWrite (s : State) (h : MsgHdr) (addr : Nat) (data : List Byte) : State :=
  if !heard s h 0 (16 + data.length) || 2 ^ 52 ≤ addr || data.length = 0 || 3072 < data.length then dropMessage s
  else
    let s1 := noteHeard s h.src
    if outside addr data.length then respond s1 h 1 []
    else respond (quiesce (writeHome s1 none false addr data)) h 0 []

def execHostMemoryWrite (h : MsgHdr) (addr : Nat) (data : List Byte) (s : State) : Host.Outcome State Fault Refusal :=
  .next (hostWrite s h addr data)

/-- HOST_MEMORY_READ: served at the home; poison and an address beyond memory carry their status (R320, R336). -/
def hostRead (s : State) (h : MsgHdr) (addr len : Nat) : State :=
  if !heard s h 1 16 || 2 ^ 52 ≤ addr || len = 0 || 3072 < len then dropMessage s
  else
    let s1 := noteHeard s h.src
    if outside addr len then respond s1 h 1 (List.replicate len 0xFF)
    else if poisoned s1 addr len then respond (s1.takeFree len).2 h 2 (s1.takeFree len).1
    else respond s1 h 0 (readBytes s1.mem addr len)

def execHostMemoryRead (h : MsgHdr) (addr len : Nat) (s : State) : Host.Outcome State Fault Refusal := .next (hostRead s h addr len)

/-- The operation and type of an atomic message, when R161 pairs them. -/
def peerKind (op ty : Nat) : Option AtomKind :=
  match tyOf (BitVec.ofNat 5 ty), atomOf (BitVec.ofNat 4 op) with
  | .ok t, .ok o => if ty < 32 && op < 16 && atomTy o t then some ⟨o, t, false, false, true, 0⟩ else none
  | .ok t, .error _ => if ty < 32 && op = 15 && isB t then some ⟨.exch, t, true, false, true, 0⟩ else none
  | _, _ => none

/-- Bytes of a type that a message names; 1 where it names none. -/
def peerBytes (ty : Nat) : Nat := match tyOf (BitVec.ofNat 5 ty) with | .ok t => if ty < 32 then tyBytes t else 1 | .error _ => 1

/-- PEER_ATOMIC: one indivisible step at the home unit; a poisoned location stays as it is (R315, R336). -/
def peerStep (s : State) (h : MsgHdr) (addr op ty : Nat) (x y : Word) : State :=
  let n := peerBytes ty
  if !heard s h 10 32 || 2 ^ 52 ≤ addr || addr % n ≠ 0 || (op ≠ 15 && y ≠ 0) then dropMessage s
  else
    let s1 := noteHeard s h.src
    match peerKind op ty with
    | none => respond (s1.takeFree 8).2 h 3 (s1.takeFree 8).1
    | some k =>
      if outside addr n then respond s1 h 1 (List.replicate 8 0xFF)
      else if poisoned s1 addr n then respond (s1.takeFree 8).2 h 2 (s1.takeFree 8).1
      else
        let old := readNat s1.mem addr n
        let a := x.toNat % 2 ^ tyBits k.ty
        let hit := !k.cas || old = a
        let new := if k.cas then y.toNat % 2 ^ tyBits k.ty else newValue k.op k.ty old a
        let s2 := if hit then writeHome s1 none true addr (leBytes n new) else s1
        respond (quiesce s2) h 0 (leBytes 8 old)

def execPeerAtomic (h : MsgHdr) (addr op ty : Nat) (x y : Word) (s : State) : Host.Outcome State Fault Refusal :=
  .next (peerStep s h addr op ty x y)

-- responses to the device (R295, R296)

def dropRemote (s : State) (r : Remote) : State := { s with remotes := s.remotes.filter (· ≠ r) }

/-- The access of an operation that a message carries, or carries a part of. -/
def accOfRemote (o : Op) (r : Remote) : Option Acc :=
  (accsIn o o.lanes).find? fun a => accLane a = r.lane && a.addr ≤ r.addr && decide (r.addr < a.addr + max a.len 1)

/-- The old value of an atomic's lane, with `.ra` of all lanes of its location, or the ticket of an RPUT; a reduce-copy takes none (R161,
R162, R169, R204). -/
def atomReturns (s : State) (x : ExecId) (o : Op) (lane v : Nat) : State :=
  match atomKind o.item.instr, o.item.instr with
  | some k, _ =>
    let ls := if k.ra then sameLoc x.core o lane else [lane]
    lanesDone (oldValues s x o.id k (ls.map (·, v))) x o.id (laneSet ls)
  | none, .rput _ => s.updOp x o.id fun o => { o with tag := v + 1 }
  | none, _ => s

/-- A read has returned bytes, `bad` the domain of an error that the endpoint has reported. -/
def readReturns (s : State) (x : ExecId) (o : Op) (r : Remote) (bs : List Byte) (bad : Nat) : State :=
  if r.lane = 64 then s.updOp x o.id fun o => { o with got := o.got ++ [{ addr := r.addr, bytes := bs, bad }] }
  else match o.item.instr with
    | .waita w => waitaReturns s x o w (leNat bs)
    | i =>
      -- every lane that the request serves (R146)
      let mine := (accsIn o o.lanes).filter fun a => decide (r.addr ≤ a.addr) && decide (a.addr + a.len ≤ r.addr + bs.length)
      let s1 := mine.foldl (fun s a => accDone (takeValue s x o a ((bs.drop (a.addr - r.addr)).take a.len)) x o.id a) s
      (match i with
       | .lda w => if ((s1.exec x).bind (opOf · o.id)).any (·.performed) then acquireL1 s1 x.core w.scope else s1
       | _ => s1)

/-- A write has been acknowledged: an access is performed once none of its messages is outstanding. -/
def writeReturns (s : State) (x : ExecId) (o : Op) (r : Remote) : State :=
  if r.lane = 64 then s
  else match accOfRemote o r with
    | some a => if underWay s x o.id a then s else accDone s x o.id a
    | none => s

/-- Bytes that a clause's fetch or commit waited for have come, or a commit's have been taken (R295). An error that the endpoint reported is
met; it ends a run-ahead (R287, R336). -/
def farReturns (s : State) (r : Remote) (bs : List Byte) (bad : Nat) : State :=
  let g : Got := { addr := r.addr, bytes := if r.kind = 1 then bs else [], bad }
  let s1 := s.updExec r.x fun e => { e with far := e.far ++ [g] }
  if bad = 0 then s1
  else if ((s.exec r.x).bind (·.shadow)).isSome then failFar s r.x r.ep
  else meetPoison s1 r.x bad r.pa

/-- An access completes failed (R296). -/
def failRemote (s : State) (r : Remote) : State :=
  let s0 := dropRemote s r
  if r.lane = 65 then failFar s0 r.x r.ep
  else match opAt s0 r.x r.op with
  | none => s0
  | some (_, _, o) =>
    let s1 := failEntry s0 r.x r.ep
    let s2 := if r.lane = 64 then s1.updOp r.x o.id fun o => { o with failed := true } else s1
    settle (
      if r.kind = 1 then readReturns (s2.takeFree r.len).2 r.x o r (s2.takeFree r.len).1 0
      else if r.kind = 0 then writeReturns s2 r.x o r
      else atomReturns (s2.takeFree 8).2 r.x o r.lane (leNat (s2.takeFree 8).1)) r.x

/-- Length of the data of a response to a message (R315). -/
def answerLen (r : Remote) : Nat := if r.kind = 1 then r.len else if r.kind = 0 then 0 else 8

/-- REMOTE_RESPONSE: a done access takes its data; a rejected one completes failed; poisoned data is an uncorrectable error of its
reader (R295, R296, R315, R336). Data of a wrong length breaks the layout. -/
def responseStep (s : State) (h : MsgHdr) (status : Nat) (data : List Byte) : State :=
  if !heard s h 2 (8 + data.length) || 3 < status then dropMessage s
  else match s.remotes.find? fun r => r.tag = h.tag && r.ep = h.src with
    | none => s
    | some r =>
      if data.length ≠ answerLen r then dropMessage s
      else if status = 1 || status = 3 then failRemote s r
      else
        let s0 := dropRemote s r
        let bad := if status = 2 then 6 else 0
        let (bs, s1) := if status = 2 then s0.takeFree (answerLen r) else (data, s0)
        if r.lane = 65 then quiesce (farReturns s1 r bs bad)
        else match opAt s1 r.x r.op with
          | none => s0
          | some (_, _, o) =>
            let s2 := if status = 2 && !(r.lane = 64 && r.kind = 1) then opPoison s1 r.x o.id 6 r.pa else s1
            settle (
              if r.kind = 1 then readReturns s2 r.x o r bs bad
              else if r.kind = 0 then writeReturns s2 r.x o r
              else atomReturns s2 r.x o r.lane (leNat bs)) r.x

def execRemoteResponse (h : MsgHdr) (status : Nat) (data : List Byte) (s : State) : Host.Outcome State Fault Refusal :=
  .next (responseStep s h status data)

-- link epochs (R295)

/-- Bump the link epoch of an endpoint: its translations are void, and what is in flight completes failed (R295, R296, R321). -/
def bumpLink (s : State) (ep : Nat) : State :=
  let s1 := { s with epochs := mapPut 0 ep (mapGet 0 s.epochs ep + 1) s.epochs }.raise 4
  (s1.remotes.filter (·.ep = ep)).foldl failRemote s1

/-- EPOCH_NOTICE: an endpoint reports its reset or power-down (R295, R315). -/
def noticeStep (s : State) (h : MsgHdr) (ep reason : Nat) : State :=
  if !heard s h 11 8 || 4096 ≤ ep || reason < 1 || 2 < reason then dropMessage s else bumpLink (noteHeard s h.src) ep

def execEpochNotice (h : MsgHdr) (ep reason : Nat) (s : State) : Host.Outcome State Fault Refusal := .next (noticeStep s h ep reason)

/-- ROUTE_LOST: the fabric reports the route to an endpoint lost (R295). -/
def routeLostStep (s : State) (ep : Nat) : State :=
  bumpLink { s with unreachable := if s.unreachable.contains ep then s.unreachable else ep :: s.unreachable } ep

def execRouteLost (ep : Nat) (s : State) : Host.Outcome State Fault Refusal := .next (routeLostStep s ep)

-- ports (R318, R319, R346)

def setPort (s : State) (p : Nat) (x : Port) : State := { s with ports := mapPut Port.up p x s.ports }
def portAt (s : State) (p : Nat) : Port := mapGet Port.up s.ports p

/-- Endpoints whose traffic a port carries (R318, R319). -/
def reachedBy (s : State) (port : Nat) : List Nat := (upto 4096).filter fun ep => portOf s ep = some port

/-- An endpoint's traffic takes the port that it is found to have now (R319). -/
def setRoute (s : State) (ep : Nat) : State :=
  match portOf s ep with
  | none => s
  | some p => { s with routes := mapPut none ep (if p = homePort ep then none else some p) s.routes }

/-- The PHY that a port belongs to is up (R343): ports 0 to 11 lie on field 0, 12 to 23 on field 5. -/
def phyUp (s : State) (port : Nat) : Bool := islandUp s (.phy (if port < 12 then 0 else 5))

/-- LINK_DOWN: the port is down, the link epoch of every endpoint that it reached is bumped, and their traffic takes other ports (R318,
R319, R321). -/
def linkDownStep (s : State) (port : Nat) : State :=
  if 24 ≤ port || (portAt s port).down || !phyUp s port then s
  else
    let v := mapGet IntVec.idle s.ints 4
    let s1 : State := { setPort s port { portAt s port with down := true, failed := 0, since := s.time } with
      ints := mapPut IntVec.idle 4 { v with pending := v.pending + 1 } s.ints }
    (reachedBy s port).foldl (fun s ep => setRoute (bumpLink s ep) ep) s1

def execLinkDown (port : Nat) (s : State) : Host.Outcome State Fault Refusal := .next (linkDownStep s port)

/-- FLIT_REPLAY: the controller counts it; the eighth failure of one flit in a row takes the link down (R318). -/
def replayStep (s : State) (port : Nat) (ok : Bool) : State :=
  if 24 ≤ port || !phyUp s port then s
  else
    let p := portAt s port
    let s1 := setPort s port { p with replays := p.replays + 1, failed := if ok then 0 else p.failed + 1 }
    if !ok && 8 ≤ p.failed + 1 then linkDownStep s1 port else s1

def execFlitReplay (r : Replay) (s : State) : Host.Outcome State Fault Refusal := .next (replayStep s r.port r.ok)

/-- Is a port owed a retry: it is down, and a second has passed since it went down or was last tried (R346)? One that went down while the
device runs is retried like one that failed its training (log 75). -/
def retryDue (s : State) (port : Nat) : Bool :=
  port < 24 && phyUp s port && (portAt s port).down && decide ((portAt s port).since + 4 * 10 ^ 9 ≤ s.time)

/-- PORT_RETRY: once a second a port that is down is tried again; endpoints that no port carried take it (R319, R346). -/
def retryStep (s : State) (port : Nat) (ok : Bool) : State :=
  if !retryDue s port then s
  else if !ok then setPort s port { portAt s port with since := s.time }
  else
    let s1 := setPort s port { portAt s port with down := false, since := 0 }
    if (upto 24).all fun p => (portAt s p).down then (upto 4096).foldl setRoute s1 else s1

def execPortRetry (port : Nat) (ok : Bool) (s : State) : Host.Outcome State Fault Refusal := .next (retryStep s port ok)

/-- MESSAGE_DROPPED: a kind or channel that is none (R313, R314). -/
def execMessageDropped (_src : Nat) (s : State) : Host.Outcome State Fault Refusal := .next (dropMessage s)

-- interrupts (R321)

/-- Count that an interrupt of a vector carries. -/
def interruptCount (s : State) (v : Nat) (e : IntVec) : Nat :=
  if v = 0 then e.pending else if v = 1 then s.requests.length else e.total

/-- INTERRUPT: while the device runs, at least 1 µs after the last one of its vector; the events between are folded into the count. -/
def interruptStep (s : State) (vector : Nat) : State :=
  let e := mapGet IntVec.idle s.ints vector
  let early := match e.last with | some t => decide (s.time < t + 4000) | none => false
  if s.startState ≠ 2 || 6 ≤ vector || e.pending = 0 || early then s
  else
    { s with ints := mapPut IntVec.idle vector { e with pending := 0, last := some s.time } s.ints }.send s.hostId 9 0
      (leBytes 2 vector ++ leBytes 6 (interruptCount s vector e))

def execInterrupt (vector : Nat) (s : State) : Host.Outcome State Fault Refusal := .next (interruptStep s vector)

end Sys2Proof.Machine
end

