-- ==== Sys2Proof/Machine/Manage.lean ====
section
/-! DEFINITION. The management commands of the host (spec/24 R312, R316 and R317, spec/19 R278, spec/25 R325, spec/26 R340). -/

namespace Sys2Proof.Machine

/-- A management response: the code, the status, and results (R316). -/
def manageAnswer (s : State) (h : MsgHdr) (code status : Nat) (results : List Byte) : State :=
  s.send h.src 13 h.tag (leBytes 2 code ++ leBytes 2 status ++ leBytes 4 0 ++ results)

/-- Bytes of a command's layout (R316). -/
def commandLen (code : Nat) : Nat :=
  if code = 4 then 20 else if code ≤ 3 then 16 else if code ≤ 9 then 10 else if code = 10 then 12 else if code = 11 then 10
  else if code = 12 then 9 else 8

/-- Is a command dropped and counted: from any but the host, or of a length or padding that does not fit (R315, R316)? -/
def commandDropped (s : State) (h : MsgHdr) (len : Nat) : Bool := h.src ≠ s.hostId || !fits h 12 len

/-- One command: dropped, refused outside state 2, malformed where its zero bytes are not zero, or performed and answered (R316). -/
def manage (s : State) (h : MsgHdr) (code : Nat) (f : State → Nat × List Byte × State) : State :=
  if commandDropped s h (commandLen code) then dropMessage s
  else if s.startState ≠ 2 then manageAnswer s h code 1 []
  else if !h.zero then manageAnswer s h code 2 []
  else
    let (status, results, s1) := f s
    manageAnswer s1 h code status results

/-- A table's address: aligned, and the whole table in memory. -/
def tableOk (addr align : Nat) : Bool := addr % align = 0 && addr < Config.dramEnd

/-- Is the queue table in use: a level runs, or a taken record is not finished (R316)? -/
def queuesInUse (s : State) : Bool := (s.levels.any fun p => p.2.elim false (·.running)) || !s.taken.isEmpty

/-- SET_QUEUE_TABLE: every level whose state byte is 1 starts (R316, R317). -/
def setQueues (addr : Nat) (s : State) : Nat × List Byte × State :=
  if !tableOk addr 0x8000 then (3, [], s)
  else if queuesInUse s then (1, [], s)
  else
    let s1 := { s with queueTable := some addr, levels := [] }
    (0, [], (upto 512).foldl (fun s k =>
      if readNat s.mem (levelAddr addr k + 9) 1 = 1 || poisoned s (levelAddr addr k) 64 then (startLevelAt s k true).2 else s) s1)

def execSetQueueTable (h : MsgHdr) (addr : Nat) (s : State) : Host.Outcome State Fault Refusal := .next (manage s h 1 (setQueues addr))

/-- SET_CONTEXT_TABLE (R280, R316). -/
def setContexts (addr : Nat) (s : State) : Nat × List Byte × State :=
  if !tableOk addr 0x20000 then (3, [], s)
  else if (upto 4096).any fun c => ((ctxDesc s c).map CtxDesc.live).getD false then (1, [], s)
  else (0, [], { s with contextTable := some addr })

def execSetContextTable (h : MsgHdr) (addr : Nat) (s : State) : Host.Outcome State Fault Refusal := .next (manage s h 2 (setContexts addr))

/-- SET_GOVERNOR_TABLE: each governor whose enable bit is set starts; a broken descriptor leaves its governor off, and the status tells
the host (R278, R316; log 13). -/
def setGovernors (addr : Nat) (s : State) : Nat × List Byte × State :=
  if !tableOk addr 0x800 then (3, [], s)
  else if s.governors.any fun p => p.2.isSome then (1, [], s)
  else
    let read (c : Nat) : Option Governor × Bool :=
      if poisoned s (governorAddr addr c) 64 then (none, true) else parseGovernor (readBytes s.mem (governorAddr addr c) 64)
    let bad := (upto 26).any fun c => (read c).2
    (if bad then 3 else 0, [], { s with governorTable := some addr
                                        governors := (upto 26).foldl (fun m c => mapPut none c (read c).1 m) [] })

def execSetGovernorTable (h : MsgHdr) (addr : Nat) (s : State) : Host.Outcome State Fault Refusal := .next (manage s h 3 (setGovernors addr))

/-- A trace descriptor: none when it leaves tracing off (R325). -/
def parseTrace (desc ctx : Nat) (b : List Byte) : Option Trace :=
  let num (o n : Nat) : Nat := leNat ((b.drop o).take n)
  if num 0 8 % 4096 ≠ 0 || num 8 1 < 6 || 20 < num 8 1 || num 9 7 ≠ 0 || num 52 12 ≠ 0 ||
      (num 48 4 ≠ 0 && (num 48 4 < 1024 || 2 ^ 24 < num 48 4)) then none
  else some { desc, ctx, base := num 0 8, lgsize := num 8 1, tail := num 16 8, drops := num 32 8, qmask := num 40 8, period := num 48 4 }

/-- SET_TRACE_DESCRIPTOR: a descriptor that leaves tracing off is told by the status (R316, R325; log 13). -/
def setTrace (addr ctx : Nat) (s : State) : Nat × List Byte × State :=
  if !tableOk addr 64 || 4096 ≤ ctx then (3, [], s)
  else if addr = 0 then (0, [], { s with trace := none })
  else
    let t := if poisoned s addr 64 then none else parseTrace addr ctx (readBytes s.mem addr 64)
    (if t.isNone then 3 else 0, [], { s with trace := t })

def execSetTraceDescriptor (h : MsgHdr) (addr ctx : Nat) (s : State) : Host.Outcome State Fault Refusal :=
  .next (manage s h 4 (setTrace addr ctx))

/-- SET_HOST_ENDPOINT: the response goes to the old host endpoint. -/
def execSetHostEndpoint (h : MsgHdr) (ep : Nat) (s : State) : Host.Outcome State Fault Refusal :=
  .next (manage s h 5 fun s => if 4096 ≤ ep then (3, [], s) else (0, [], { s with hostId := ep }))

def execPermitPeer (h : MsgHdr) (ep : Nat) (s : State) : Host.Outcome State Fault Refusal :=
  .next (manage s h 6 fun s =>
    if 4096 ≤ ep then (3, [], s) else (0, [], { s with peers := if s.peers.contains ep then s.peers else ep :: s.peers }))

def execRevokePeer (h : MsgHdr) (ep : Nat) (s : State) : Host.Outcome State Fault Refusal :=
  .next (manage s h 7 fun s =>
    if 4096 ≤ ep || ep = s.hostId then (3, [], s) else (0, [], { s with peers := s.peers.filter (· ≠ ep) }))

/-- START_LEVEL (R317). -/
def startOne (q l : Nat) (s : State) : Nat × List Byte × State :=
  if s.queueTable.isNone then (1, [], s)
  else if 64 ≤ q || 8 ≤ l then (3, [], s)
  else ((startLevelAt s (8 * q + l) false).1, [], (startLevelAt s (8 * q + l) false).2)

def execStartLevel (h : MsgHdr) (q l : Nat) (s : State) : Host.Outcome State Fault Refusal := .next (manage s h 8 (startOne q l))

/-- STOP_LEVEL (R317). -/
def stopOne (q l : Nat) (s : State) : Nat × List Byte × State :=
  if s.queueTable.isNone then (1, [], s)
  else if 64 ≤ q || 8 ≤ l then (3, [], s)
  else (0, [], stopLevel s (8 * q + l) 0)

def execStopLevel (h : MsgHdr) (q l : Nat) (s : State) : Host.Outcome State Fault Refusal := .next (manage s h 9 (stopOne q l))

/-- KILL_CONTEXT: reason 7 (R294). -/
def execKillContext (h : MsgHdr) (ctx : Nat) (s : State) : Host.Outcome State Fault Refusal :=
  .next (manage s h 10 fun s => if 4096 ≤ ctx then (3, [], s) else (0, [], quiesce (killCtx s ctx 7 {})))

def execBumpEpoch (h : MsgHdr) (ep : Nat) (s : State) : Host.Outcome State Fault Refusal :=
  .next (manage s h 11 fun s => if 4096 ≤ ep then (3, [], s) else (0, [], bumpLink s ep))

/-- The 32 bytes of an error-log entry (R340). -/
def logBytes (e : LogEntry) : List Byte :=
  leBytes 1 e.kind ++ leBytes 1 e.domain ++ leBytes 1 e.fromDom ++ leBytes 1 e.field ++ leBytes 4 e.engine ++ leBytes 8 e.count ++
    leBytes 8 e.unit ++ leBytes 8 e.lgen

/-- READ_ERROR_LOG: index 0 is the newest. -/
def execReadErrorLog (h : MsgHdr) (index : Nat) (s : State) : Host.Outcome State Fault Refusal :=
  .next (manage s h 12 fun s =>
    if 256 ≤ index then (3, [], s) else (0, (match s.log[index]? with | some e => logBytes e | none => leBytes 32 0), s))

/-- READ_COUNTS (R316). -/
def countBytes (s : State) : List Byte :=
  leBytes 8 s.lateAnswers ++ leBytes 8 s.dropped ++ leBytes 8 s.doorbellsDropped ++ leBytes 8 s.traceDrops ++
    (upto 24).flatMap fun p => leBytes 8 (portAt s p).replays

def execReadCounts (h : MsgHdr) (s : State) : Host.Outcome State Fault Refusal := .next (manage s h 13 fun s => (0, countBytes s, s))

/-- UNKNOWN_MANAGEMENT_COMMAND: status 2 (R316). No layout gives its length, so its nflit is not checked. A code that the table lists is
none of these. -/
def unknownCommand (s : State) (h : MsgHdr) (code : Nat) : State :=
  if 1 ≤ code && code ≤ 13 then s
  else if commandDropped s h (52 * h.nflit + 52) then dropMessage s
  else manageAnswer s h code (if s.startState ≠ 2 then 1 else 2) []

def execUnknownManagementCommand (h : MsgHdr) (code : Nat) (s : State) : Host.Outcome State Fault Refusal := .next (unknownCommand s h code)

end Sys2Proof.Machine
end

