-- ==== Sys2Proof/Machine/Power.lean ====
section
/-! DEFINITION. Starts and power down, repairs, the limiter, and the patrol (spec/27 R343 to R349, spec/26 R334, R335, R341 and R342,
spec/24 R323). -/

namespace Sys2Proof.Machine

-- I3C commands (R344, R345)

/-- What a core keeps over a start: its counts since cold start (R232, R339). -/
def keptCore (c : Core) : Core := { Core.idle with corrected := c.corrected, parityTraps := c.parityTraps, failedRows := c.failedRows }
def keepCores (cores : SMap Core) : SMap Core :=
  (cores.map fun p => (p.1, keptCore p.2)).filter fun (p : Nat × Core) => p.2 ≠ Core.idle

/-- Work is abandoned, neither saved nor reported; under preserve the dirty L1 bytes are written back first (R345). -/
def abandon (s : State) (preserve : Bool) : State :=
  let s1 := if preserve then (s.coresIn fun _ => true).foldl wbAll s else s
  { s1 with
    cores := keepCores s1.cores
    taken := [], saved := [], reservations := [], requests := [], shoots := [], gangBars := [], headsDone := [], remotes := []
    watches := [], marks := [], eventRels := [], turns := [], served := [], cur := none, ints := [], trace := none
    levels := s1.levels.map fun p => (p.1, p.2.map fun l => { l with running := false }) }

/-- The epoch notice to every permitted peer: 1 reset, 2 power-down (R345). -/
def noticePeers (s : State) (reason : Nat) : State :=
  s.peers.foldl (fun s ep => s.send ep 11 0 (leBytes 2 s.ownId ++ leBytes 1 reason ++ leBytes 5 0)) s

/-- What memory holds where a test keeps it, and nothing elsewhere: the island of the rest has gone off. -/
def keepMemory (s : State) (keep : Nat → Bool) : State :=
  { s with mem := s.mem.filter fun c => keep c.1, poison := s.poison.filter fun u => keep u.1 }
/-- Every memory and every table address as a start that keeps nothing finds them (R348). -/
def clearMemory (s : State) : State := { keepMemory s (fun _ => false) with regions := [] }

/-- A start begins: the field islands go down, since each start locks them anew (R346). -/
def beginStart (s : State) (kind : Nat) : State := { s with startState := 1, startKind := kind, startNext := 1, fieldsUp := 0, fields := [] }

/-- COLD_START: allowed in states 0 and 3; else refused (R344). -/
def coldStartStep (s : State) : State := if s.startState = 0 || s.startState = 3 then beginStart s 0 else s
def execColdStart (s : State) : Host.Outcome State Fault Refusal := .next (coldStartStep s)

/-- WARM_START: from state 3 it runs as a cold start (R344, R345). -/
def warmStartStep (s : State) : State :=
  if s.startState = 3 then beginStart s 0
  else if s.startState = 2 then beginStart (clearMemory (abandon (noticePeers s 1) false)) 1
  else s
def execWarmStart (s : State) : Host.Outcome State Fault Refusal := .next (warmStartStep s)

/-- WARM_START_PRESERVE: DRAM and vaults are kept (R345, R348). -/
def preserveStep (s : State) : State := if s.startState = 2 then beginStart (abandon (noticePeers s 1) true) 2 else s
def execWarmStartPreserve (s : State) : Host.Outcome State Fault Refusal := .next (preserveStep s)

/-- Turn every island off at once but the management island, and halt (R347). -/
def islandsOff (s : State) : State := { clearMemory (abandon s false) with startState := 3, startNext := 0, fieldsUp := 0, fields := [] }

/-- POWER_DOWN: from state 2 the islands go off one by one in state 4; in state 3 they are off already (R344, R345). -/
def powerDownStep (s : State) : State :=
  if s.startState = 2 then { abandon (noticePeers s 2) false with startState := 4, startNext := 8 }
  else if s.startState = 3 then { s with startState := 0 }
  else s
def execPowerDown (s : State) : Host.Outcome State Fault Refusal := .next (powerDownStep s)

/-- The next islands of a power down go off, in the reverse of a start's order: DRAM, vault dies, fields 5 to 0, fabric PHYs (R345). -/
def offStep (s : State) : State :=
  if s.startNext = 8 then { keepMemory s (fun h => !isDramHome h) with regions := [], startNext := 7 }
  else if s.startNext = 7 then { keepMemory s isSpadHome with startNext := 4 }
  else if s.startNext = 4 && 0 < s.fieldsUp then
    { keepMemory s (fun h => isSpadHome h && fieldOf (spadCore h) < s.fieldsUp - 1) with
      fieldsUp := s.fieldsUp - 1, fields := mapPut Field.locked (s.fieldsUp - 1) Field.locked s.fields }
  else if s.startNext = 4 then { s with startNext := 3 }
  else { s with startState := 0, startNext := 0 }

/-- THROTTLE: byte n in 0x10 to 0x1F sets the acting limit to (n - 0x10 + 9) sixteenths (R344). -/
def throttleStep (s : State) (n : Nat) : State :=
  if s.startState = 2 && 0x10 ≤ n && n ≤ 0x1F then { s with throttle := some (n - 0x10 + 9) } else s
def execThrottle (n : Nat) (s : State) : Host.Outcome State Fault Refusal := .next (throttleStep s n)

/-- I3C_REGISTER_WRITE: a byte to register 0x10 is a command (R344); a write to any other is refused with a target NACK (R323). -/
def registerWrite (s : State) (reg : Nat) (value : Byte) : State :=
  if reg ≠ 0x10 then s
  else match value.toNat with
    | 1 => coldStartStep s
    | 2 => warmStartStep s
    | 3 => preserveStep s
    | 4 => powerDownStep s
    | n => throttleStep s n
def execI3cRegisterWrite (reg : Nat) (value : Byte) (s : State) : Host.Outcome State Fault Refusal := .next (registerWrite s reg value)

-- the registers of the board management bus (R323)

/-- What a register of the I3C target holds: text, a number, or bytes where the spec gives their layout. -/
inductive I3cValue where
  | text (t : String)
  | num (n : Nat)
  | bytes (b : List Byte)
  deriving DecidableEq, Repr

/-- Register 0x01: the start state, and the code and unit of the last failed start (R344). -/
def startRegister (s : State) : List Byte := [s.startState, s.failCode, s.failUnit].map (BitVec.ofNat 8)
/-- Register 0x06: the count of the fenced cores, and the first sixteen (R323, R342). -/
def fencedRegister (s : State) : List Byte :=
  let ns := s.fenced.take 16
  BitVec.ofNat 8 s.fenced.length :: (ns.map (BitVec.ofNat 8) ++ List.replicate (16 - ns.length) 0xFF)
/-- Register 0x07: the ids in force (R312, R323). -/
def idRegister (s : State) : List Byte := leBytes 4 (s.ownId % 4096 + s.hostId % 4096 * 2 ^ 16)

/-- Where a measured value stands: register 0x02 holds the inlet and the outlet temperature, 0x03 the power of the 21 islands in the order of
R343's table, each kind by ascending field (log 86). -/
def measuredKey (reg index : Nat) : Nat := reg * 256 + index

/-- What a read of an I3C register returns; none for a register that there is not. Where the spec names values and no layout, they stand
in the spec's order (log 86). -/
def i3cRead (s : State) (reg : Nat) : Option (List I3cValue) :=
  match reg with
  | 0x00 => some [.text Config.partNumber, .text Config.stepping, .num Config.generation]
  | 0x01 => some [.bytes (startRegister s)]
  | 0x02 => some ((upto 2).map fun i => .num (mapGet 0 s.measured (measuredKey 2 i)))
  | 0x03 => some ((upto 21).map fun i => .num (mapGet 0 s.measured (measuredKey 3 i)))
  | 0x04 => some [.num s.corrected, .num s.uncorrectable]
  | 0x05 => some ((upto 24).flatMap fun p => [.num (portAt s p).replays, .num ((portAt s p).down || !phyUp s p).toNat])
  | 0x06 => some [.bytes (fencedRegister s)]
  | 0x07 => some [.bytes (idRegister s)]
  | 0x10 => some [.bytes [0]]
  | _ => none

-- repairs (R339, R341, R342); a cluster's spare has number 208 + cluster in the record

/-- Numbers of a cluster whose core the record names as failed (R342). -/
def failedOf (record : List Repair) (cluster : Nat) : List Nat := (span (8 * cluster) 8).filter fun n => record.contains (.core n)
/-- Has the cluster's spare failed, under its number of the record (log 82)? -/
def spareFailed (record : List Repair) (cluster : Nat) : Bool := record.contains (.core (208 + cluster))

/-- The number that a cluster's healthy spare takes: the one that it has held, else the lowest of the failed set (R17, R342). -/
def spareOf (record : List Repair) (held : Option Nat) (cluster : Nat) : Option Nat :=
  if spareFailed record cluster then none
  else match held with
    | some n => if (failedOf record cluster).contains n then some n else (failedOf record cluster).head?
    | none => (failedOf record cluster).head?

/-- Numbers of a cluster that the spare does not take: they are fenced (R342). -/
def fencedOf (record : List Repair) (held : Option Nat) (cluster : Nat) : List Nat :=
  (failedOf record cluster).filter fun n => spareOf record held cluster ≠ some n

/-- A cold start settles the cores of every cluster (R342). -/
def applyRepairs (s : State) : State :=
  let record := s.factory ++ s.inService
  { s with fenced := (upto 26).flatMap fun c => fencedOf record (mapGet none s.spares c) c
           spares := (upto 26).foldl (fun m c => mapPut none c (spareOf record (mapGet none s.spares c) c) m) s.spares }

-- the bring-up steps (R346 to R348)

/-- Does the start under way leave a step out or keep its island up? -/
def skips (kind step : Nat) : Bool := (kind ≠ 0 && (step = 3 || step = 6)) || (kind = 2 && step = 7)

/-- Failure codes of a step. -/
def failCodes (step : Nat) : List Nat :=
  match step with
  | 1 => [1, 2, 3] | 2 => [4] | 3 => [5] | 4 => [6] | 5 => [6] | 6 => [7] | 7 => [8] | 8 => [9] | 9 => [10] | 10 => [11] | _ => []

/-- A sync record of every field at the end of a start (R346). -/
def startRecords (s : State) : State := (upto 6).foldl (fun s f => traceWrite s (syncRecord f (s.field f) s.time)) s

/-- Step 10: state as a start leaves it (R348). The sync records find no trace ring, and step 9's events go out as interrupts. -/
def clearState (s : State) : State :=
  let keep := s.startKind = 2
  let s1 := keepMemory s fun h => decide keep && !isSpadHome h
  let s2 : State := { s1 with
    regions := if keep then s.regions else [], marks := [], watches := [], events := [], endEvents := [], eventRels := [], turns := []
    served := [], queueTable := none, levels := [], contextTable := none, governorTable := none, governors := [], trace := none, taken := []
    reservations := [], saved := [], requests := [], shoots := [], gangBars := [], headsDone := [], codeObjs := [], peers := []
    unreachable := [], remotes := [], throttle := none, coolant := none, startState := 2, startNext := 0
    cores := if s.startKind = 0 then [] else keepCores s.cores }
  startRecords (if s.startKind = 0 then
    { s2 with log := [], lateAnswers := 0, dropped := 0, doorbellsDropped := 0, traceDrops := 0, corrected := 0, uncorrectable := 0 }
  else s2)

/-- Step 9: a cold start trains every link, a warm one those that went down; a port that fails counts as a link down (R318, R346). -/
def trainLinks (s : State) (downPorts : List Nat) : State :=
  let all := (upto 24).all fun p => (portAt s p).down
  let stays (keep : Bool) (p : Nat × Port) : Port := 
    if keep && p.2.down && downPorts.contains p.1 then p.2 else { p.2 with down := false, since := 0 }
  let up (keep : Bool) : State := { s with ports := (s.ports.map fun p => (p.1, stays keep p)).filter fun (p : Nat × Port) => p.2 ≠ Port.up }
  if s.startKind = 0 then downPorts.foldl linkDownStep { up false with routes := [] }
  else if all then (upto 4096).foldl setRoute (up true) else up true

/-- What a bring-up step does when it succeeds. -/
def doStep (s : State) (step : Nat) (downPorts : List Nat) : State :=
  match step with
  | 1 =>
    let s1 : State := { s with ownId := Config.recordOwn, hostId := Config.recordHost }
    if s.startKind = 0 then { s1 with inService := s1.inService ++ s1.pendingRepairs, pendingRepairs := [] } else s1
  | 4 => { s with fieldsUp := s.fieldsUp + 1, fields := mapPut Field.locked s.fieldsUp Field.locked s.fields }
  | 6 => if s.startKind = 0 then applyRepairs s else s
  | 9 => trainLinks s downPorts
  | 10 => clearState s
  | _ => s

/-- A failed step records its code and unit, turns the islands off and halts (R347). -/
def failStep (s : State) (code unit : Nat) : State := { islandsOff s with failCode := code, failUnit := unit }

/-- The unit that a failing step names: the field that step 4 powers, the higher field of a crossing, a field, a stack, or 0xFF where the
step has no single unit (R344, R346). None: the step has no such unit. -/
def failUnitOf (s : State) (unit : Nat) : Option Nat :=
  match s.startNext with
  | 4 => some s.fieldsUp
  | 5 => if 1 ≤ unit && unit < 6 then some unit else none
  | 6 | 7 => if unit < 6 then some unit else none
  | 8 => if unit < 12 then some unit else none
  | _ => some 0xFF

/-- The step after a bring-up step: step 4 is over with the sixth field. -/
def nextStep (s : State) (n : Nat) : State := if n = 10 || (n = 4 && s.fieldsUp < 6) then s else { s with startNext := n + 1 }

/-- START_STEP: the next step of the start under way, or of a power down. `fail` names one of the step's failure codes; at step 1 code 0 says
that the in-service part of the repair record fails its check value, which is logged and cleared (R341, R346, R347). -/
def startStepOf (s : State) (fail : Option Nat) (unit : Nat) (downPorts : List Nat) : State :=
  let n := s.startNext
  if s.startState = 4 then offStep s
  else if s.startState ≠ 1 then s
  else if skips s.startKind n then nextStep s n
  else match fail with
    | some c =>
      if n = 1 && c = 0 then nextStep (doStep { (logError s 1 11 0 208 0 0) with inService := [] } n downPorts) n
      else if (failCodes n).contains c then ((failUnitOf s unit).map (failStep s c)).getD s
      else s
    | none =>
      let s1 := doStep s n downPorts
      if n = 9 && (portOf s1 s1.hostId).isNone then failStep s 10 0xFF else nextStep s1 n

def execStartStep (fail : Option Nat) (unit : Nat) (downPorts : List Nat) (s : State) : Host.Outcome State Fault Refusal :=
  .next (startStepOf s fail unit downPorts)

-- the limiter (R349)

/-- The current at which a field's limiter acts, in sixteenths of a mA. -/
def actingLimit (s : State) (f : Nat) : Nat := fieldLimit f * s.throttle.getD 16

/-- LIMITER_COMPARE: every 4,096 cycles; above the acting limit the clock drops one step. A cycle whose sync packet is out changes no clock
any more (R329). -/
def compareStep (s : State) (f current : Nat) : State :=
  let x := s.field f
  if s.fieldsUp ≤ f || x.count % 4096 ≠ 0 || x.compared = some x.count || packetOut x then s
  else
    let low := current * 16 * 10 < actingLimit s f * 9
    let below := if low then (match x.below with | some t => some t | none => some s.time) else none
    let s1 := s.setField f { x with current, below, compared := some x.count }
    if actingLimit s f < current * 16 then setClock s1 f (max (x.step - 1) 4) else s1

def execLimiterCompare (field : Nat) (current : Nat) (s : State) : Host.Outcome State Fault Refusal := .next (compareStep s field current)

/-- LIMITER_RISE: below 90 % of the acting limit for 64 µs, the clock rises one step. -/
def riseStep (s : State) (f : Nat) : State :=
  match (s.field f).below with
  | none => s
  | some t =>
    if s.fieldsUp ≤ f || s.time < t + 256000 || packetOut (s.field f) then s
    else setClock (s.setField f { s.field f with below := some s.time }) f (min ((s.field f).step + 1) 16)

def execLimiterRise (field : Nat) (s : State) : Host.Outcome State Fault Refusal := .next (riseStep s field)

/-- The power down of an overheated module, without preserve (R345, R349). While a start is under way nothing runs and no peer is told (log 18):
the islands that are up go off, each in its turn. -/
def overheat (s : State) : State :=
  if s.startState = 1 then
    let last := if islandUp s (.dram 0) then 8 else if islandUp s (.vaultDie 0) then 7 else if s.fieldsUp ≠ 0 then 4 else 3
    { abandon s false with startState := 4, startNext := last }
  else powerDownStep s

/-- COOLANT_STEP: over the outlet limit every field that is up drops one step each 64 µs; 5.0 °C over it, the device powers down with code 12.
The value stands in register 0x02 (R323). -/
def coolantStepOf (s : State) (tenths : Nat) : State :=
  let early := match s.coolant with | some t => decide (s.time < t + 256000) | none => false
  let s1 : State := { s with measured := mapPut 0 (measuredKey 2 1) tenths s.measured }
  if s.startState = 0 || s.startState = 4 then s1
  else if Config.outletLimit + 50 ≤ tenths then { overheat s1 with failCode := 12, failUnit := 0xFF }
  else if Config.outletLimit < tenths && !early && (upto s.fieldsUp).all fun f => !packetOut (s.field f) then
    (upto s.fieldsUp).foldl (fun s f => setClock s f (max ((s.field f).step - 1) 4)) { s1 with coolant := some s.time }
  else s1

def execCoolantStep (tenths : Nat) (s : State) : Host.Outcome State Fault Refusal := .next (coolantStepOf s tenths)

-- the patrol (R335)

/-- PATROL_READ: a unit of a vault, a slice or DRAM, named by its home address, while its island is up. -/
def patrolStep (s : State) (unit : Nat) (ecc : Ecc) : State :=
  let marked (t : State) (domain : Nat) : State := logError t 3 domain 0 208 (whereOf unit) 0
  if isSpadHome unit || !homeUp s unit then s
  else match ecc with
    | .good | .span => s
    | .corrected => { s with corrected := s.corrected + 1 }
    | .uncorrectable => marked (addPoison s unit 1) (domainOf unit)
    | .block => if isDramHome unit then marked (addBlock s unit) 7 else s

def execPatrolRead (unit : Nat) (ecc : Ecc) (s : State) : Host.Outcome State Fault Refusal := .next (patrolStep s unit ecc)

end Sys2Proof.Machine
end

