-- ==== Sys2Proof/Machine/Debug.lean ====
section
/-! DEFINITION. The debugger's stops, engine freezes and breakpoints, and the PC samples (spec/09 R158, spec/14 R223, spec/18 R262,
spec/23 R311, spec/25 R330 to R332). -/

namespace Sys2Proof.Machine

-- stops (R158, R223, R262, R311)

/-- A stop of one executor is asked for: it stands at its next clause start, and one that stands there, or sleeps, at once (R262). -/
def askStop (c : Core) (ctx : Nat) (e : Exec) : Exec :=
  if e.stop.stopped || e.retired then e else stopAt c ctx { e with stop := { e.stop with pending := true } }

/-- OCX_INTERRUPT of an executor, or of its whole workgroup (R175, R262). -/
def interruptExec (s : State) (x : ExecId) (whole : Bool) : State :=
  if whole then s.updWg x.core fun w => { w with execs := w.execs.map fun p => (p.1, p.2.map (askStop (s.core x.core) p.1)) }
  else s.updExec x (askStop (s.core x.core) x.ctx)

def execOcxInterrupt (t : StopTarget) (s : State) : Host.Outcome State Fault Refusal := .next (interruptExec s t.x t.whole)

/-- OCX_RESUME: the executor goes on from its clause (R158). The breakpoint at that clause does not stop it again, nor a sleeper that was stopped
there when it wakes (R262; DESIGN CHOICE, log 70). -/
def resumeExec (s : State) (x : ExecId) : State :=
  s.updExec x fun e =>
    if e.stop.stopped then
      { e with stop := { e.stop with stopped := false, pending := false, step := false, pass := some e.pc, rptBy := none }
               readyAt := max e.readyAt (s.now x.core) }
    else e

def execOcxResume (x : ExecId) (s : State) : Host.Outcome State Fault Refusal := .next (resumeExec s x)

/-- SINGLE_STEP: one clause runs, and the executor stops at the clause that runs next (R223). -/
def stepExec (s : State) (x : ExecId) : State :=
  s.updExec x fun e =>
    if e.stop.stopped then
      { e with stop := { e.stop with stopped := false, pending := false, step := true, pass := some e.pc, rptBy := none }
               readyAt := max e.readyAt (s.now x.core) }
    else e

def execSingleStep (x : ExecId) (s : State) : Host.Outcome State Fault Refusal := .next (stepExec s x)

/-- ENGINE_FREEZE and ENGINE_THAW (R332). -/
def execEngineFreeze (core : Nat) (e : Engine) (s : State) : Host.Outcome State Fault Refusal :=
  .next (s.updCore core fun c => { c with frozen := if c.frozen.contains e then c.frozen else e :: c.frozen })
def execEngineThaw (core : Nat) (e : Engine) (s : State) : Host.Outcome State Fault Refusal :=
  .next (s.updCore core fun c => { c with frozen := c.frozen.filter (· ≠ e) })

/-- BREAKPOINT_ARM: arm or delete one of a core's four breakpoints, with "stop workgroup" or without (R308, R331). -/
def armStep (s : State) (core index : Nat) (addr : Word) (filter : StopFilter) (arm : Bool) : State :=
  if index < 4 then
    s.updCore core fun c =>
      { c with breaks := mapPut none index (if arm then some { addr := addr.toNat, ctx := filter.ctx, whole := filter.whole } else none) c.breaks }
  else s
def execBreakpointArm (core : Nat) (index : Nat) (addr : Word) (filter : StopFilter) (arm : Bool) (s : State) :
    Host.Outcome State Fault Refusal := .next (armStep s core index addr filter arm)

-- the x command (R308)

/-- What `x` shows of a byte: that of its home slice or vault, a dirty L1 byte of some core not among them. None where no home holds it. -/
def ocxByte (s : State) (core ctx root : Nat) (space : Space) (addr : Nat) : Option Byte :=
  match space with
  | .gl => match walk s ctx root addr with
    | .ok xl => if xl.remote.isSome then none else some (readByte s.mem (xl.pfn * 4096 + addr % 4096))
    | .miss _ => none
  | _ => match locOf core [] space addr with
    | .home h => some (readByte s.mem h)
    | .remote _ _ => none
/-- What `x` shows of n bytes. -/
def ocxRead (s : State) (core ctx root : Nat) (space : Space) (addr n : Nat) : Option (List Byte) :=
  (span addr n).mapM (ocxByte s core ctx root space)

-- PC samples (R330)

/-- First class whose header wait or WAIT threshold is not met. -/
def unmetClass (ctx : Nat) (e : Exec) (f : Fetched) : Option Nat :=
  let byHeader := (upto 5).find? fun i => match (headerWaits f.header)[i]? with
    | some p => p.2 ≠ 15 && p.2 < seenCount e p.1
    | none => false
  match byHeader with
  | some i => some i
  | none =>
    match (clauseInstrs f).head? with
    | some (.wait w) => if !guarded ctx e w.ctl || waitMet w e then none else (upto 5).find? fun i =>
        ([(Cls.l, w.l), (.s, w.s), (.c, w.c), (.t, w.t), (.x, w.x)][i]?).elim false fun p => p.2.toNat < counterOf e p.1
    | _ => none

/-- State code, clause and counter class of a sample: the lowest code that applies (R330). An executor whose next clause nothing holds but its
end gap has 6 as a member of an apply, else 3 (log 19). -/
def sampleOf (s : State) (x : ExecId) (w : Workgroup) (e : Exec) : Nat × Nat × Nat :=
  let next := e.fetched.filter fun f => f.addr = e.pc
  let parked := e.waiting.contains .parked
  let clause := match e.shadow with | some h => h.pc | none => e.pc
  let member := w.apply.elim false fun a => isHome x.ctx && (memberWarps a.members).contains x.ctx
  if e.slot.isSome then (0, match e.shadow with | some h => h.pc | none => (e.clauses.getLast?.map fun c => c.code.addr).getD e.pc, 0)
  else if ready s x w e then (1, clause, 0)
  else match if present w x.ctx e && e.waiting.isEmpty && !e.stop.stopped then next.bind (unmetClass x.ctx e) else none with
    | some cls => (2, clause, cls)
    | none =>
      let held := present w x.ctx e && e.waiting.isEmpty && !e.stop.stopped && e.shadow.isNone &&
        next.elim false fun f => !wordsAllow s x w e (clauseInstrs f)
      if held || (!e.retired && !e.exiting && (e.waiting.any (· ≠ .parked))) then (3, clause, 0)
      else if e.retired || e.exiting then (7, clause, 0)
      else if parked then (5, clause, 0)
      else if next.isNone then (4, clause, 0)
      else if member then (6, clause, 0)
      else (3, clause, 0)

/-- The 64 bytes of a sample. -/
def sampleRecord (s : State) (x : ExecId) (w : Workgroup) (e : Exec) : List Byte :=
  let (state, clause, cls) := sampleOf s x w e
  let mode := e.handler.toNat + 2 * e.shadow.isSome.toNat + 4 * e.stop.stopped.toNat + 8 * (e.waits.any sleeps).toNat
  coreHead 4 0 x.core w.launch ++ leBytes 8 (s.now x.core) ++ leBytes 8 clause ++ leBytes 1 x.ctx ++ leBytes 1 state ++ leBytes 1 cls ++
    leBytes 1 mode ++ leBytes 4 w.wgid ++ leBytes 24 0

/-- PC_SAMPLE: each period, one executor of the core, in rotation over its contexts. The samples fall at multiples of the period
(log 19). -/
def sampleStep (s : State) (core : Nat) : State :=
  match s.trace, s.wg core with
  | some t, some w =>
    if t.period = 0 || !traced s w.launch || s.now core % t.period ≠ 0 || (s.core core).sampledAt = some (s.now core) then s
    else
      let live := w.all
      match (match live.find? fun p => (s.core core).sampled ≤ p.1 with | some p => some p | none => live.head?) with
      | none => s
      | some p => (traceWrite s (sampleRecord s ⟨core, p.1⟩ w p.2)).updCore core fun c => { c with sampled := p.1 + 1, sampledAt := some (s.now core) }
  | _, _ => s

def execPcSample (core : Nat) (s : State) : Host.Outcome State Fault Refusal := .next (sampleStep s core)

end Sys2Proof.Machine
end

