-- ==== Sys2Proof/Machine/Floats.lean ====
section
/-! DEFINITION. Floating-point words, conversions and packing (spec/06 R102 to R108). -/

namespace Sys2Proof.Machine

def execFadd (w : Alu2) (s : State) : Host.Outcome State Fault Refusal :=
  issueWord (.fadd w) w.ctl (alu2 w w.ty 4 (float2 w.ty w.rnd (addX w.rnd))) s
def execFsub (w : Alu2) (s : State) : Host.Outcome State Fault Refusal :=
  issueWord (.fsub w) w.ctl (alu2 w w.ty 4 (float2 w.ty w.rnd fun a b => addX w.rnd a (negF b))) s
def execFmul (w : Alu2) (s : State) : Host.Outcome State Fault Refusal :=
  issueWord (.fmul w) w.ctl (alu2 w w.ty 4 (float2 w.ty w.rnd fun a b => XReal.ofF (mulF a b))) s
def execFma (w : Alu3) (s : State) : Host.Outcome State Fault Refusal :=
  issueWord (.fma w) w.ctl (alu3 w w.ty (float3 w.ty w.rnd (fmaX w.rnd))) s
def execFmin (w : Alu2) (s : State) : Host.Outcome State Fault Refusal :=
  issueWord (.fmin w) w.ctl (alu2 w w.ty 4 (float2 w.ty .rne fun a b => XReal.ofF (minF a b))) s
def execFmax (w : Alu2) (s : State) : Host.Outcome State Fault Refusal :=
  issueWord (.fmax w) w.ctl (alu2 w w.ty 4 (float2 w.ty .rne fun a b => XReal.ofF (maxF a b))) s
def execFdiv (w : Alu2) (s : State) : Host.Outcome State Fault Refusal :=
  issueWord (.fdiv w) w.ctl (alu2 w w.ty 16 (float2 w.ty w.rnd divX)) s
def execFsqrt (w : Alu1) (s : State) : Host.Outcome State Fault Refusal :=
  issueWord (.fsqrt w) w.ctl (alu1 w w.ty 16 (float1 w.ty w.rnd sqrtX)) s
def execFrcp (w : Alu1) (s : State) : Host.Outcome State Fault Refusal :=
  issueWord (.frcp w) w.ctl (alu1 w w.ty 16 (float1 w.ty w.rnd (divX (.fin false 1 0)))) s
def execRcpa (w : Alu1) (s : State) : Host.Outcome State Fault Refusal :=
  issueWord (.rcpa w) w.ctl (alu1 w w.ty 16 (elem1 .f32 fun x => rcpaBits (unpackF fmtF32 x))) s
def execRsqa (w : Alu1) (s : State) : Host.Outcome State Fault Refusal :=
  issueWord (.rsqa w) w.ctl (alu1 w w.ty 16 (elem1 .f32 fun x => rsqaBits (unpackF fmtF32 x))) s
def execFexp2 (w : Alu1) (s : State) : Host.Outcome State Fault Refusal :=
  issueWord (.fexp2 w) w.ctl (alu1 w w.ty 16 (elem1 w.ty (transBits 0 (fmtOf w.ty)))) s
def execFlog2 (w : Alu1) (s : State) : Host.Outcome State Fault Refusal :=
  issueWord (.flog2 w) w.ctl (alu1 w w.ty 16 (elem1 w.ty (transBits 1 (fmtOf w.ty)))) s
def execFsinpi (w : Alu1) (s : State) : Host.Outcome State Fault Refusal :=
  issueWord (.fsinpi w) w.ctl (alu1 w w.ty 16 (elem1 w.ty (transBits 2 (fmtOf w.ty)))) s
def execFcospi (w : Alu1) (s : State) : Host.Outcome State Fault Refusal :=
  issueWord (.fcospi w) w.ctl (alu1 w w.ty 16 (elem1 w.ty (transBits 3 (fmtOf w.ty)))) s
def execFclass (w : Alu1) (s : State) : Host.Outcome State Fault Refusal :=
  issueWord (.fclass w) w.ctl (alu1 w .b32 4 fun a => BitVec.ofNat 64 (fclass (fmtOf w.ty) a.toNat)) s
def execFrnd (w : Alu1) (s : State) : Host.Outcome State Fault Refusal :=
  issueWord (.frnd w) w.ctl (alu1 w w.ty 4 (float1 w.ty w.rnd (frndX w.rnd))) s

/-- The i32 count of FSCALE, held to ±5000: beyond it every finite non-zero operand of these formats overflows or lies below
every non-zero number alike. -/
def scaleCount (b : Word) : Int := max (-5000) (min (sext 32 b.toNat) 5000)
def execFscale (w : Alu2) (s : State) : Host.Outcome State Fault Refusal :=
  issueWord (.fscale w) w.ctl (alu2 w .b32 4 fun a b => float1 w.ty w.rnd (scaleX (scaleCount b)) a) s

/-- CVT of one value (R107). -/
def cvtBits (td ts : Ty) (rm : Rnd) (sat : Bool) (a : Word) : Word :=
  let z := toInt (tySigned ts) (tyBits ts) a.toNat
  BitVec.ofNat 64 (
    if tyFloat ts then
      let r := XReal.ofF (unpackF (fmtOf ts) (a.toNat % 2 ^ tyBits ts))
      if tyFloat td then packF (fmtOf td) rm sat r else packI (tySigned td) (tyBits td) rm r
    else if tyFloat td then packF (fmtOf td) rm sat (XReal.ofInt z 0 false)
    else fitI sat (tySigned td) (tyBits td) z)
def execCvt (w : CvtW) (s : State) : Host.Outcome State Fault Refusal :=
  issueWord (.cvt w) w.ctl (fun v =>
    { writes := laneWrites v w.u w.ty w.d fun l => cvtBits w.ty w.src w.rnd w.sat (v.e.src w.u w.src w.a l) }) s

/-- One element of PACK from a 32-bit register, and of UNPK to one (R108). -/
def packElem (t : Ty) (rm : Rnd) (sat : Bool) (x : Nat) : Nat :=
  if t == .i8x4 then fitI sat true 8 (sext 32 x) else packF (fmtOf t) rm sat (XReal.ofF (unpackF fmtF32 x))
def unpkElem (t : Ty) (x : Nat) : Nat :=
  if t == .i8x4 then wrap 32 (sext 8 x) else packF fmtF32 .rne false (XReal.ofF (unpackF (fmtOf t) x))

def execPack (w : PackW) (s : State) : Host.Outcome State Fault Refusal :=
  issueWord (.pack w) w.ctl (fun v =>
    { writes := laneWrites v false .b32 w.d fun l =>
        BitVec.ofNat 64 (elemJoin (elemBits w.ty) ((upto (packCount w.ty)).map fun j =>
          packElem w.ty w.rnd w.sat (v.e.rv (w.a.toNat + j) l).toNat)) }) s
def execUnpk (w : PackW) (s : State) : Host.Outcome State Fault Refusal :=
  issueWord (.unpk w) w.ctl (fun v =>
    { writes := (lanesOf v.g).flatMap fun l => (upto (packCount w.ty)).map fun j =>
        .v (w.d.toNat + j) l (BitVec.ofNat 32 (unpkElem w.ty (elemAt (elemBits w.ty) ((v.e.rv w.a.toNat l).setWidth 64) j))) }) s

end Sys2Proof.Machine
end

