-- ==== Sys2Proof/Machine/Integer.lean ====
section
/-! DEFINITION. Integer arithmetic and logic (spec/06 R98 to R101). -/

namespace Sys2Proof.Machine

def execAdd (w : Alu2) (s : State) : Host.Outcome State Fault Refusal :=
  issueWord (.add w) w.ctl (alu2 w w.ty 4 (int2 w.ty w.sat fun a b => a + b)) s
def execSub (w : Alu2) (s : State) : Host.Outcome State Fault Refusal :=
  issueWord (.sub w) w.ctl (alu2 w w.ty 4 (int2 w.ty w.sat fun a b => a - b)) s
def execMul (w : Alu2) (s : State) : Host.Outcome State Fault Refusal :=
  issueWord (.mul w) w.ctl (alu2 w w.ty 4 (int2 w.ty w.sat fun a b => a * b)) s
/-- The high half of the exact product. -/
def execMulh (w : Alu2) (s : State) : Host.Outcome State Fault Refusal :=
  issueWord (.mulh w) w.ctl (alu2 w w.ty 4 (int2 w.ty false fun a b => a * b / (2 ^ tyBits w.ty : Nat))) s
def execMad (w : Alu3) (s : State) : Host.Outcome State Fault Refusal :=
  issueWord (.mad w) w.ctl (alu3 w w.ty (int3 w.ty w.sat fun a b c => a * b + c)) s
def execAdd3 (w : Alu3) (s : State) : Host.Outcome State Fault Refusal :=
  issueWord (.add3 w) w.ctl (alu3 w w.ty (int3 w.ty w.sat fun a b c => a + b + c)) s
def execDiv (w : Alu2) (s : State) : Host.Outcome State Fault Refusal :=
  issueWord (.div w) w.ctl (alu2 w w.ty 16 (int2 w.ty false quotI)) s
def execRem (w : Alu2) (s : State) : Host.Outcome State Fault Refusal :=
  issueWord (.rem w) w.ctl (alu2 w w.ty 16 (int2 w.ty false remI)) s
def execMin (w : Alu2) (s : State) : Host.Outcome State Fault Refusal :=
  issueWord (.min w) w.ctl (alu2 w w.ty 4 (int2 w.ty false fun a b => if a ≤ b then a else b)) s
def execMax (w : Alu2) (s : State) : Host.Outcome State Fault Refusal :=
  issueWord (.max w) w.ctl (alu2 w w.ty 4 (int2 w.ty false fun a b => if a ≤ b then b else a)) s
def execAbs (w : Alu1) (s : State) : Host.Outcome State Fault Refusal :=
  issueWord (.abs w) w.ctl (alu1 w w.ty 4 (int1 w.ty w.sat fun a => (a.natAbs : Int))) s
def execNeg (w : Alu1) (s : State) : Host.Outcome State Fault Refusal :=
  issueWord (.neg w) w.ctl (alu1 w w.ty 4 (int1 w.ty w.sat fun a => -a)) s

def execAnd (w : Alu2) (s : State) : Host.Outcome State Fault Refusal :=
  issueWord (.and w) w.ctl (alu2 w w.ty 4 fun a b => a &&& b) s
def execOr (w : Alu2) (s : State) : Host.Outcome State Fault Refusal :=
  issueWord (.or w) w.ctl (alu2 w w.ty 4 fun a b => a ||| b) s
def execXor (w : Alu2) (s : State) : Host.Outcome State Fault Refusal :=
  issueWord (.xor w) w.ctl (alu2 w w.ty 4 fun a b => a ^^^ b) s
def execNot (w : Alu1) (s : State) : Host.Outcome State Fault Refusal :=
  issueWord (.not w) w.ctl (alu1 w w.ty 4 fun a => lowBits (tyBits w.ty) (~~~ a)) s

/-- The shifts of R100 on a value of n bits; the count is below 2^32. -/
def shlBits (n : Nat) (a cnt : Word) : Word := if n ≤ cnt.toNat then 0 else lowBits n (a <<< cnt.toNat)
def shrBits (n : Nat) (a cnt : Word) : Word := if n ≤ cnt.toNat then 0 else lowBits n a >>> cnt.toNat
def shaBits (n : Nat) (a cnt : Word) : Word :=
  BitVec.ofNat 64 (wrap n (sext n a.toNat / (2 ^ min cnt.toNat (n - 1) : Nat)))
def rotBits (n : Nat) (a cnt : Word) : Word :=
  let c := cnt.toNat % n
  lowBits n (a <<< c) ||| (lowBits n a >>> (n - c))

def execShl (w : Alu2) (s : State) : Host.Outcome State Fault Refusal :=
  issueWord (.shl w) w.ctl (alu2 w .b32 4 (shlBits (tyBits w.ty))) s
def execShr (w : Alu2) (s : State) : Host.Outcome State Fault Refusal :=
  issueWord (.shr w) w.ctl (alu2 w .b32 4 (shrBits (tyBits w.ty))) s
def execSha (w : Alu2) (s : State) : Host.Outcome State Fault Refusal :=
  issueWord (.sha w) w.ctl (alu2 w .b32 4 (shaBits (tyBits w.ty))) s
def execRot (w : Alu2) (s : State) : Host.Outcome State Fault Refusal :=
  issueWord (.rot w) w.ctl (alu2 w .b32 4 (rotBits (tyBits w.ty))) s

/-- Bits of a value of n bits, the lowest first. -/
def bitList (n : Nat) (a : Word) : List Bool := (upto n).map a.getLsbD

def execPopc (w : Alu1) (s : State) : Host.Outcome State Fault Refusal :=
  issueWord (.popc w) w.ctl (alu1 w .b32 4 fun a => BitVec.ofNat 64 ((bitList (tyBits w.ty) a).countP id)) s
/-- Leading zeros; the width for 0. -/
def execClz (w : Alu1) (s : State) : Host.Outcome State Fault Refusal :=
  issueWord (.clz w) w.ctl (alu1 w .b32 4 fun a =>
    BitVec.ofNat 64 ((bitList (tyBits w.ty) a).reverse.takeWhile fun b => !b).length) s
def execBrev (w : Alu1) (s : State) : Host.Outcome State Fault Refusal :=
  issueWord (.brev w) w.ctl (alu1 w w.ty 4 fun a =>
    BitVec.ofNat 64 (elemJoin 1 ((bitList (tyBits w.ty) a).reverse.map Bool.toNat))) s

/-- BFX of R100. -/
def bfxBits (signed : Bool) (n : Nat) (a pos len : Word) : Word :=
  let len' := min len.toNat n
  if len' = 0 || n ≤ pos.toNat then 0
  else
    let f := (a.toNat % 2 ^ n) / 2 ^ pos.toNat % 2 ^ len'
    BitVec.ofNat 64 (if signed then wrap n (sext len' f) else f)

/-- BFI of R100: bits pos to min(pos + len, n) - 1 of d take the low bits of a. -/
def bfiBits (n : Nat) (d a pos len : Word) : Word :=
  if n ≤ pos.toNat then d
  else
    let mask : Word := BitVec.ofNat 64 (2 ^ min (pos.toNat + len.toNat) n - 2 ^ pos.toNat)
    (d &&& ~~~ mask) ||| ((a <<< pos.toNat) &&& mask)

def execBfx (w : Alu3) (s : State) : Host.Outcome State Fault Refusal :=
  issueWord (.bfx w) w.ctl (alu3 w .b32 (bfxBits (tySigned w.ty) (tyBits w.ty))) s
def execBfi (w : Alu3) (s : State) : Host.Outcome State Fault Refusal :=
  issueWord (.bfi w) w.ctl (fun v =>
    { writes := laneWrites v w.u w.ty w.d fun l =>
        bfiBits (tyBits w.ty) (v.e.src w.u w.ty w.d l) (v.e.src w.u w.ty w.a l) (v.e.src w.u .b32 w.b l)
          (v.e.src w.u .b32 w.c l) }) s

/-- LEA: a + (ext(b) << sh) (R98). -/
def leaBits (n : Nat) (sx : Bool) (sh : Nat) (a b : Word) : Word :=
  BitVec.ofNat 64 (wrap n (a.toNat + toInt sx 32 b.toNat * (2 ^ sh : Nat)))
def execLea (w : LeaW) (s : State) : Host.Outcome State Fault Refusal :=
  issueWord (.lea w) w.ctl (fun v =>
    { writes := laneWrites v w.u w.ty w.d fun l =>
        leaBits (tyBits w.ty) w.sx w.sh.toNat (v.e.src w.u w.ty w.a l) (v.e.src w.u .b32 w.b l) }) s

def execAddi (w : ImmW) (s : State) : Host.Outcome State Fault Refusal :=
  issueWord (.addi w) w.ctl (immWord w fun a => lowBits (tyBits w.ty) (a + immBits w.imm)) s
def execAndi (w : ImmW) (s : State) : Host.Outcome State Fault Refusal :=
  issueWord (.andi w) w.ctl (immWord w fun a => lowBits (tyBits w.ty) (a &&& immBits w.imm)) s
def execOri (w : ImmW) (s : State) : Host.Outcome State Fault Refusal :=
  issueWord (.ori w) w.ctl (immWord w fun a => lowBits (tyBits w.ty) (a ||| immBits w.imm)) s
def execShli (w : ImmW) (s : State) : Host.Outcome State Fault Refusal :=
  issueWord (.shli w) w.ctl (immWord w fun a => lowBits (tyBits w.ty) (a <<< w.imm.toNat)) s

end Sys2Proof.Machine
end

