-- ==== Sys2Proof/Machine/Moves.lean ====
section
/-! DEFINITION. Moves and special registers (spec/06 R97, spec/03 R48). -/

namespace Sys2Proof.Machine

def execMov (w : Alu1) (s : State) : Host.Outcome State Fault Refusal := issueWord (.mov w) w.ctl (alu1 w w.ty 4 id) s

def execMovi (w : MoviW) (s : State) : Host.Outcome State Fault Refusal :=
  issueWord (.movi w) w.ctl (fun v => { writes := laneWrites v (isHead v.x.ctx) w.ty w.d fun _ => immBits w.imm }) s

def execMovl (w : MovlW) (s : State) : Host.Outcome State Fault Refusal :=
  issueWord (.movl w) w.ctl (fun v => { writes := laneWrites v w.u w.ty w.d fun _ => w.lit }) s

def ones32 : Nat := 2 ^ 32 - 1

/-- A special register as a lane reads it (R16, R48). -/
def srValue (s : State) (x : ExecId) (w : Workgroup) (e : Exec) (sr lane : Nat) : Word :=
  let f := s.field (fieldOf x.core)
  BitVec.ofNat 64 (match sr with
    | 0x00 => if isHead x.ctx then 0 else lane
    | 0x01 => if isHead x.ctx then ones32 else x.ctx
    | 0x02 => if isHead x.ctx then ones32 else if isSlot x.ctx then mapGet 0 e.origin lane else x.ctx * 32 + lane
    | 0x03 => w.wgid
    | 0x04 => x.core
    | 0x05 => clusterOf x.core
    | 0x06 => fieldOf x.core
    | 0x07 => if coreE x.core then 1 else 0
    | 0x08 => f.count
    | 0x09 => e.tmask.toNat
    | 0x0A => fieldLimit (fieldOf x.core) * 2 ^ 32 + (fieldLimit (fieldOf x.core) - f.committed)
    | 0x0B => w.launch.window
    | 0x0C => w.launch.nwarps
    | 0x0D => if isSlot x.ctx then x.ctx - 32 else ones32
    | 0x0E => w.launch.gen
    | _ => 0)

/-- MOVS: each lane its own value; the uniform form that of the lowest lane of G (R97). -/
def execMovs (w : MovsW) (s : State) : Host.Outcome State Fault Refusal :=
  issueWord (.movs w) w.ctl (fun v =>
    { writes := laneWrites v w.u w.ty w.d fun l =>
        srValue v.s v.x v.w v.e w.sr.toNat (if w.u then lowestLane v.g % 32 else l) }) s

def execBck (w : BckW) (s : State) : Host.Outcome State Fault Refusal :=
  issueWord (.bck w) w.ctl (fun v => { writes := laneWrites v false w.ty w.d fun _ => v.e.rk w.a.toNat }) s

def execLanek (w : LanekW) (s : State) : Host.Outcome State Fault Refusal :=
  issueWord (.lanek w) w.ctl (fun v =>
    { writes := if v.on then [.k w.d.toNat (v.e.src false w.ty w.a (lowestLane v.g))] else [] }) s

end Sys2Proof.Machine
end

