-- ==== Sys2Proof/Machine/Dispatch.lean ====
section
/-! DEFINITION. One arm for each constructor of Instr: a direct call of its meaning. -/

namespace Sys2Proof.Machine

def exec (i : Instr) (s : State) : Host.Outcome State Fault Refusal :=
  match i with
  | .mov w => Sys2Proof.Machine.execMov w s
  | .movi w => Sys2Proof.Machine.execMovi w s
  | .movl w => Sys2Proof.Machine.execMovl w s
  | .movs w => Sys2Proof.Machine.execMovs w s
  | .bck w => Sys2Proof.Machine.execBck w s
  | .lanek w => Sys2Proof.Machine.execLanek w s
  | .add w => Sys2Proof.Machine.execAdd w s
  | .sub w => Sys2Proof.Machine.execSub w s
  | .mul w => Sys2Proof.Machine.execMul w s
  | .mulh w => Sys2Proof.Machine.execMulh w s
  | .mad w => Sys2Proof.Machine.execMad w s
  | .add3 w => Sys2Proof.Machine.execAdd3 w s
  | .div w => Sys2Proof.Machine.execDiv w s
  | .rem w => Sys2Proof.Machine.execRem w s
  | .min w => Sys2Proof.Machine.execMin w s
  | .max w => Sys2Proof.Machine.execMax w s
  | .abs w => Sys2Proof.Machine.execAbs w s
  | .neg w => Sys2Proof.Machine.execNeg w s
  | .and w => Sys2Proof.Machine.execAnd w s
  | .or w => Sys2Proof.Machine.execOr w s
  | .xor w => Sys2Proof.Machine.execXor w s
  | .not w => Sys2Proof.Machine.execNot w s
  | .shl w => Sys2Proof.Machine.execShl w s
  | .shr w => Sys2Proof.Machine.execShr w s
  | .sha w => Sys2Proof.Machine.execSha w s
  | .rot w => Sys2Proof.Machine.execRot w s
  | .popc w => Sys2Proof.Machine.execPopc w s
  | .clz w => Sys2Proof.Machine.execClz w s
  | .brev w => Sys2Proof.Machine.execBrev w s
  | .bfx w => Sys2Proof.Machine.execBfx w s
  | .bfi w => Sys2Proof.Machine.execBfi w s
  | .lea w => Sys2Proof.Machine.execLea w s
  | .addi w => Sys2Proof.Machine.execAddi w s
  | .andi w => Sys2Proof.Machine.execAndi w s
  | .ori w => Sys2Proof.Machine.execOri w s
  | .shli w => Sys2Proof.Machine.execShli w s
  | .fadd w => Sys2Proof.Machine.execFadd w s
  | .fsub w => Sys2Proof.Machine.execFsub w s
  | .fmul w => Sys2Proof.Machine.execFmul w s
  | .fma w => Sys2Proof.Machine.execFma w s
  | .fmin w => Sys2Proof.Machine.execFmin w s
  | .fmax w => Sys2Proof.Machine.execFmax w s
  | .fdiv w => Sys2Proof.Machine.execFdiv w s
  | .fsqrt w => Sys2Proof.Machine.execFsqrt w s
  | .rcpa w => Sys2Proof.Machine.execRcpa w s
  | .rsqa w => Sys2Proof.Machine.execRsqa w s
  | .fexp2 w => Sys2Proof.Machine.execFexp2 w s
  | .flog2 w => Sys2Proof.Machine.execFlog2 w s
  | .fsinpi w => Sys2Proof.Machine.execFsinpi w s
  | .fcospi w => Sys2Proof.Machine.execFcospi w s
  | .fclass w => Sys2Proof.Machine.execFclass w s
  | .frnd w => Sys2Proof.Machine.execFrnd w s
  | .fscale w => Sys2Proof.Machine.execFscale w s
  | .frcp w => Sys2Proof.Machine.execFrcp w s
  | .cvt w => Sys2Proof.Machine.execCvt w s
  | .pack w => Sys2Proof.Machine.execPack w s
  | .unpk w => Sys2Proof.Machine.execUnpk w s
  | .cmp w => Sys2Proof.Machine.execCmp w s
  | .fcmp w => Sys2Proof.Machine.execFcmp w s
  | .sel w => Sys2Proof.Machine.execSel w s
  | .aop w => Sys2Proof.Machine.execAop w s
  | .acnt w => Sys2Proof.Machine.execAcnt w s
  | .afirst w => Sys2Proof.Machine.execAfirst w s
  | .amovk w => Sys2Proof.Machine.execAmovk w s
  | .shfl w => Sys2Proof.Machine.execShfl w s
  | .bcast w => Sys2Proof.Machine.execBcast w s
  | .scan w => Sys2Proof.Machine.execScan w s
  | .reduce w => Sys2Proof.Machine.execReduce w s
  | .shflx w => Sys2Proof.Machine.execShflx w s
  | .pdep w => Sys2Proof.Machine.execPdep w s
  | .pext w => Sys2Proof.Machine.execPext w s
  | .poolop w => Sys2Proof.Machine.execPoolop w s
  | .pcnt w => Sys2Proof.Machine.execPcnt w s
  | .pfirst w => Sys2Proof.Machine.execPfirst w s
  | .pclr w => Sys2Proof.Machine.execPclr w s
  | .pfill w => Sys2Proof.Machine.execPfill w s
  | .pst w => Sys2Proof.Machine.execPst w s
  | .pld w => Sys2Proof.Machine.execPld w s
  | .apply w => Sys2Proof.Machine.execApply w s
  | .applyw w => Sys2Proof.Machine.execApplyw w s
  | .yieldh w => Sys2Proof.Machine.execYieldh w s
  | .release w => Sys2Proof.Machine.execRelease w s
  | .bra w => Sys2Proof.Machine.execBra w s
  | .bany w => Sys2Proof.Machine.execBany w s
  | .ball w => Sys2Proof.Machine.execBall w s
  | .bnone w => Sys2Proof.Machine.execBnone w s
  | .bk w => Sys2Proof.Machine.execBk w s
  | .call w => Sys2Proof.Machine.execCall w s
  | .calli w => Sys2Proof.Machine.execCalli w s
  | .ret w => Sys2Proof.Machine.execRet w s
  | .exit w => Sys2Proof.Machine.execExit w s
  | .loop w => Sys2Proof.Machine.execLoop w s
  | .take w => Sys2Proof.Machine.execTake w s
  | .give w => Sys2Proof.Machine.execGive w s
  | .nop w => Sys2Proof.Machine.execNop w s
  | .stall w => Sys2Proof.Machine.execStall w s
  | .yield w => Sys2Proof.Machine.execYield w s
  | .ld w => Sys2Proof.Machine.execLd w s
  | .st w => Sys2Proof.Machine.execSt w s
  | .ldx w => Sys2Proof.Machine.execLdx w s
  | .stx w => Sys2Proof.Machine.execStx w s
  | .lds w => Sys2Proof.Machine.execLds w s
  | .sts w => Sys2Proof.Machine.execSts w s
  | .ldsx w => Sys2Proof.Machine.execLdsx w s
  | .stsx w => Sys2Proof.Machine.execStsx w s
  | .ldv w => Sys2Proof.Machine.execLdv w s
  | .stv w => Sys2Proof.Machine.execStv w s
  | .ldk w => Sys2Proof.Machine.execLdk w s
  | .stk w => Sys2Proof.Machine.execStk w s
  | .lda w => Sys2Proof.Machine.execLda w s
  | .stl w => Sys2Proof.Machine.execStl w s
  | .waita w => Sys2Proof.Machine.execWaita w s
  | .pref w => Sys2Proof.Machine.execPref w s
  | .wait w => Sys2Proof.Machine.execWait w s
  | .fence w => Sys2Proof.Machine.execFence w s
  | .cwb w => Sys2Proof.Machine.execCwb w s
  | .cinv w => Sys2Proof.Machine.execCinv w s
  | .atom w => Sys2Proof.Machine.execAtom w s
  | .atomn w => Sys2Proof.Machine.execAtomn w s
  | .cas w => Sys2Proof.Machine.execCas w s
  | .atoms w => Sys2Proof.Machine.execAtoms w s
  | .cass w => Sys2Proof.Machine.execCass w s
  | .atomv w => Sys2Proof.Machine.execAtomv w s
  | .casv w => Sys2Proof.Machine.execCasv w s
  | .bar w => Sys2Proof.Machine.execBar w s
  | .gbar w => Sys2Proof.Machine.execGbar w s
  | .evset w => Sys2Proof.Machine.execEvset w s
  | .evclr w => Sys2Proof.Machine.execEvclr w s
  | .evwait w => Sys2Proof.Machine.execEvwait w s
  | .evtest w => Sys2Proof.Machine.execEvtest w s
  | .rput w => Sys2Proof.Machine.execRput w s
  | .rget w => Sys2Proof.Machine.execRget w s
  | .rcur w => Sys2Proof.Machine.execRcur w s
  | .wlsort w => Sys2Proof.Machine.execWlsort w s
  | .wlpush w => Sys2Proof.Machine.execWlpush w s
  | .wlpop w => Sys2Proof.Machine.execWlpop w s
  | .wlins w => Sys2Proof.Machine.execWlins w s
  | .wlcnt w => Sys2Proof.Machine.execWlcnt w s
  | .setshape w => Sys2Proof.Machine.execSetshape w s
  | .getshape w => Sys2Proof.Machine.execGetshape w s
  | .wload w => Sys2Proof.Machine.execWload w s
  | .wdrop w => Sys2Proof.Machine.execWdrop w s
  | .opfence w => Sys2Proof.Machine.execOpfence w s
  | .mma w => Sys2Proof.Machine.execMma w s
  | .mmas w => Sys2Proof.Machine.execMmas w s
  | .tacq w => Sys2Proof.Machine.execTacq w s
  | .trel w => Sys2Proof.Machine.execTrel w s
  | .tzero w => Sys2Proof.Machine.execTzero w s
  | .tld w => Sys2Proof.Machine.execTld w s
  | .tst w => Sys2Proof.Machine.execTst w s
  | .sighash w => Sys2Proof.Machine.execSighash w s
  | .sigrep w => Sys2Proof.Machine.execSigrep w s
  | .sigscat w => Sys2Proof.Machine.execSigscat w s
  | .sigbwd w => Sys2Proof.Machine.execSigbwd w s
  | .qhist w => Sys2Proof.Machine.execQhist w s
  | .qscale w => Sys2Proof.Machine.execQscale w s
  | .qcvt w => Sys2Proof.Machine.execQcvt w s
  | .cpy w => Sys2Proof.Machine.execCpy w s
  | .cpyt w => Sys2Proof.Machine.execCpyt w s
  | .cpyg w => Sys2Proof.Machine.execCpyg w s
  | .cpys w => Sys2Proof.Machine.execCpys w s
  | .cpyr w => Sys2Proof.Machine.execCpyr w s
  | .cpyq w => Sys2Proof.Machine.execCpyq w s
  | .xld w => Sys2Proof.Machine.execXld w s
  | .xst w => Sys2Proof.Machine.execXst w s
  | .xadd w => Sys2Proof.Machine.execXadd w s
  | .xcur w => Sys2Proof.Machine.execXcur w s
  | .xnext w => Sys2Proof.Machine.execXnext w s
  | .xcnt w => Sys2Proof.Machine.execXcnt w s
  | .xdense w => Sys2Proof.Machine.execXdense w s
  | .xrange w => Sys2Proof.Machine.execXrange w s
  | .merge w => Sys2Proof.Machine.execMerge w s
  | .trap w => Sys2Proof.Machine.execTrap w s
  | .bkpt w => Sys2Proof.Machine.execBkpt w s
  | .rft w => Sys2Proof.Machine.execRft w s
  | .movp w => Sys2Proof.Machine.execMovp w s
  | .icinv w => Sys2Proof.Machine.execIcinv w s
  | .tlbinv w => Sys2Proof.Machine.execTlbinv w s
  | .stamp w => Sys2Proof.Machine.execStamp w s
  | .sleep w => Sys2Proof.Machine.execSleep w s
  | .clauseFetch x fresh ecc => Sys2Proof.Machine.execClauseFetch x fresh ecc s
  | .issueSlotAward core => Sys2Proof.Machine.execIssueSlotAward core s
  | .resultLanding x => Sys2Proof.Machine.execResultLanding x s
  | .clauseCommit x => Sys2Proof.Machine.execClauseCommit x s
  | .runAheadEnd x => Sys2Proof.Machine.execRunAheadEnd x s
  | .workgroupSave core => Sys2Proof.Machine.execWorkgroupSave core s
  | .handlerEntry x => Sys2Proof.Machine.execHandlerEntry x s
  | .loadComplete x op part regs ecc => Sys2Proof.Machine.execLoadComplete x op part regs ecc s
  | .storePerformed x op part => Sys2Proof.Machine.execStorePerformed x op part s
  | .waitaTimeout x => Sys2Proof.Machine.execWaitaTimeout x s
  | .sleepTimeout x => Sys2Proof.Machine.execSleepTimeout x s
  | .atomicPerformed x op order ecc => Sys2Proof.Machine.execAtomicPerformed x op order ecc s
  | .l1Writeback core ctx line drop => Sys2Proof.Machine.execL1Writeback core ctx line drop s
  | .markEviction sector => Sys2Proof.Machine.execMarkEviction sector s
  | .copyComplete x op ecc => Sys2Proof.Machine.execCopyComplete x op ecc s
  | .matrixCommandPerformed x op badRow ecc => Sys2Proof.Machine.execMatrixCommandPerformed x op badRow ecc s
  | .tacqHold x => Sys2Proof.Machine.execTacqHold x s
  | .indexStep x op ecc => Sys2Proof.Machine.execIndexStep x op ecc s
  | .mergePerformed x op ecc => Sys2Proof.Machine.execMergePerformed x op ecc s
  | .ringPublish x op => Sys2Proof.Machine.execRingPublish x op s
  | .ringReceive x op => Sys2Proof.Machine.execRingReceive x op s
  | .workListPerform core => Sys2Proof.Machine.execWorkListPerform core s
  | .workListSpill core n refill => Sys2Proof.Machine.execWorkListSpill core n refill s
  | .applyRoundStart core => Sys2Proof.Machine.execApplyRoundStart core s
  | .applyRoundEnd core => Sys2Proof.Machine.execApplyRoundEnd core s
  | .applywBlockEnd x => Sys2Proof.Machine.execApplywBlockEnd x s
  | .coreFreed core => Sys2Proof.Machine.execCoreFreed core s
  | .doorbell h offset tail => Sys2Proof.Machine.execDoorbell h offset tail s
  | .recordTake q l => Sys2Proof.Machine.execRecordTake q l s
  | .launchRelease cluster => Sys2Proof.Machine.execLaunchRelease cluster s
  | .gangPlace cluster => Sys2Proof.Machine.execGangPlace cluster s
  | .launchRetire gen => Sys2Proof.Machine.execLaunchRetire gen s
  | .targetReservation gen => Sys2Proof.Machine.execTargetReservation gen s
  | .reservationTimerExpiry gen => Sys2Proof.Machine.execReservationTimerExpiry gen s
  | .watchdogExpiry core => Sys2Proof.Machine.execWatchdogExpiry core s
  | .governorTick cluster => Sys2Proof.Machine.execGovernorTick cluster s
  | .pageAnswer h ctx reqid gen status => Sys2Proof.Machine.execPageAnswer h ctx reqid gen status s
  | .workgroupRestore reqid core => Sys2Proof.Machine.execWorkgroupRestore reqid core s
  | .shootdown h ctx number addr len => Sys2Proof.Machine.execShootdown h ctx number addr len s
  | .shootdownAck number => Sys2Proof.Machine.execShootdownAck number s
  | .startStep fail unit downPorts => Sys2Proof.Machine.execStartStep fail unit downPorts s
  | .syncPacket field => Sys2Proof.Machine.execSyncPacket field s
  | .pcSample core => Sys2Proof.Machine.execPcSample core s
  | .hostMemoryWrite h addr data => Sys2Proof.Machine.execHostMemoryWrite h addr data s
  | .hostMemoryRead h addr len => Sys2Proof.Machine.execHostMemoryRead h addr len s
  | .peerAtomic h addr op ty x y => Sys2Proof.Machine.execPeerAtomic h addr op ty x y s
  | .remoteResponse h status data => Sys2Proof.Machine.execRemoteResponse h status data s
  | .epochNotice h ep reason => Sys2Proof.Machine.execEpochNotice h ep reason s
  | .flitReplay r => Sys2Proof.Machine.execFlitReplay r s
  | .linkDown port => Sys2Proof.Machine.execLinkDown port s
  | .portRetry port ok => Sys2Proof.Machine.execPortRetry port ok s
  | .interrupt vector => Sys2Proof.Machine.execInterrupt vector s
  | .setQueueTable h addr => Sys2Proof.Machine.execSetQueueTable h addr s
  | .setContextTable h addr => Sys2Proof.Machine.execSetContextTable h addr s
  | .setGovernorTable h addr => Sys2Proof.Machine.execSetGovernorTable h addr s
  | .setTraceDescriptor h addr ctx => Sys2Proof.Machine.execSetTraceDescriptor h addr ctx s
  | .setHostEndpoint h ep => Sys2Proof.Machine.execSetHostEndpoint h ep s
  | .permitPeer h ep => Sys2Proof.Machine.execPermitPeer h ep s
  | .revokePeer h ep => Sys2Proof.Machine.execRevokePeer h ep s
  | .startLevel h q l => Sys2Proof.Machine.execStartLevel h q l s
  | .stopLevel h q l => Sys2Proof.Machine.execStopLevel h q l s
  | .killContext h ctx => Sys2Proof.Machine.execKillContext h ctx s
  | .bumpEpoch h ep => Sys2Proof.Machine.execBumpEpoch h ep s
  | .readErrorLog h index => Sys2Proof.Machine.execReadErrorLog h index s
  | .readCounts h => Sys2Proof.Machine.execReadCounts h s
  | .unknownManagementCommand h code => Sys2Proof.Machine.execUnknownManagementCommand h code s
  | .coldStart => Sys2Proof.Machine.execColdStart s
  | .warmStart => Sys2Proof.Machine.execWarmStart s
  | .warmStartPreserve => Sys2Proof.Machine.execWarmStartPreserve s
  | .powerDown => Sys2Proof.Machine.execPowerDown s
  | .throttle n => Sys2Proof.Machine.execThrottle n s
  | .i3cRegisterWrite reg value => Sys2Proof.Machine.execI3cRegisterWrite reg value s
  | .limiterCompare field current => Sys2Proof.Machine.execLimiterCompare field current s
  | .limiterRise field => Sys2Proof.Machine.execLimiterRise field s
  | .coolantStep tenths => Sys2Proof.Machine.execCoolantStep tenths s
  | .patrolRead unit ecc => Sys2Proof.Machine.execPatrolRead unit ecc s
  | .ocxInterrupt t => Sys2Proof.Machine.execOcxInterrupt t s
  | .ocxResume x => Sys2Proof.Machine.execOcxResume x s
  | .singleStep x => Sys2Proof.Machine.execSingleStep x s
  | .engineFreeze core e => Sys2Proof.Machine.execEngineFreeze core e s
  | .engineThaw core e => Sys2Proof.Machine.execEngineThaw core e s
  | .routeLost ep => Sys2Proof.Machine.execRouteLost ep s
  | .messageDropped src => Sys2Proof.Machine.execMessageDropped src s
  | .breakpointArm core index addr filter arm => Sys2Proof.Machine.execBreakpointArm core index addr filter arm s

end Sys2Proof.Machine
end

