-- ==== Sys2Proof/Machine/Auto.lean ====
section
/-! DEFINITION. Time, what a cycle makes due, and the moves that the machine makes by itself when the agenda names none (log 1). -/

namespace Sys2Proof.Machine

/-- One field passes a tick of 0.25 ns: a cycle is over when its phase reaches sixteen sixteenths (R326, R349). -/
def tickField (f : Field) : Field :=
  if 16 ≤ f.phase + f.step then { f with count := f.count + 1, phase := f.phase + f.step - 16 }
  else { f with phase := f.phase + f.step }

/-- Does an executor wait on C: its next clause is held by its header wait, or by a WAIT as its first word, or a later WAIT of its clause
holds the slot (R70, R154)? A word that its guard keeps from acting, a stopped executor and a shadow wait on nothing (R74, R158, R286). -/
def waitsOnC (w : Workgroup) (ctx : Nat) (e : Exec) : Bool :=
  let held (i : Option Instr) : Bool := match i with
    | some (.wait i) => guarded ctx e i.ctl && decide (i.c.toNat < e.cC)
    | _ => false
  let next (f : Fetched) : Bool := f.addr = e.pc &&
    (((headerWaits f.header).any fun p => p.1 == .c && p.2 ≠ 15 && p.2 < seenCount e .c) || held (clauseInstrs f).head?)
  let current (c : Clause) : Bool := c.next ≠ 0 && c.next < c.code.words.length &&
    held (match decode (c.code.words.getD c.next 0) c.code.words[c.next + 1]? with | .ok i => some i | .error _ => none)
  present w ctx e && !e.stop.stopped && e.shadow.isNone && e.waiting.isEmpty &&
    ((clausesClear e && e.fetched.elim false next) || e.clauses.getLast?.elim false current)

/-- A workgroup at the end of a cycle: the first cycle in which an executor waits on C (R327). -/
def noteWaits (now : Nat) (w : Workgroup) : Workgroup :=
  if w.stamps.owait.isNone && w.all.any (fun p => waitsOnC w p.1 p.2) then { w with stamps := { w.stamps with owait := some now } } else w

/-- What a field's cycle leaves as it ends: the event bits that the schedulers read, and the stamp phase owait (R243, R327). -/
def endCycle (s : State) (f : Nat) : State :=
  let s1 : State := { s with endEvents := (span (fieldFirst f) (fieldSize f)).foldl (fun m c => mapPut 0 c (mapGet 0 s.events c) m) s.endEvents }
  (s1.busy.filter fun p => fieldOf p.1 = f).foldl (fun s p => s.updWg p.1 (noteWaits (s.field f).count)) s1

/-- One field's tick, while its island is up (R343). -/
def tickOne (s : State) (f : Nat) : State :=
  let x := tickField (s.field f)
  (if x.count = (s.field f).count then s else endCycle s f).setField f x

/-- A tick of 0.25 ns: the clock of every field that is up, fabric time, and the watchdogs (R275). -/
def tick (s : State) : State :=
  let s1 := (upto s.fieldsUp).foldl tickOne { s with time := s.time + 1 }
  s1.busy.foldl (fun s p => s.updWg p.1 fun w => { w with wdogLeft := w.wdogLeft - 1 }) s1

/-- The loader's table takes an object (R300). -/
def loadObject (s : State) (o : CodeObj) : State := { s with codeObjs := s.codeObjs.filter (·.id ≠ o.id) ++ [o] }

/-- A measured value of the board management (R323). -/
def measure (s : State) (reg index value : Nat) : State := { s with measured := mapPut 0 (measuredKey reg index) value s.measured }

/-- A soft error: the cell, pool, shape register, queue entry or tile element holds one until it is written whole, or a unit of a store of
domain 3, 5 or 6 is bad; or the code of domain 1 or 2 corrects one (R333, R334, R337). -/
def flipStep (s : State) (f : Flip) : State :=
  let add {α : Type} [BEq α] (x : α) (xs : List α) : List α := if xs.contains x then xs else x :: xs
  match f with
  | .cell x key => s.updExec x fun e => { e with badCells := add key e.badCells }
  | .pool core p => s.updWg core fun w => { w with badPools := add p w.badPools }
  | .shape core n => s.updWg core fun w => { w with badShapes := add n w.badShapes }
  | .entry x index half => s.updExec x fun e =>
    let bit := 2 ^ (half % 2)
    { e with queue := e.queue.zipIdx.map fun q =>
        if q.2 = index && q.1.bad / bit % 2 = 0 then { q.1 with bad := q.1.bad + bit } else q.1 }
  | .tile core n => if islandUp s (.field (fieldOf core)) then s.updCore core fun c => { c with badTiles := add n c.badTiles } else s
  | .stored home => if homeUp s home then addPoison s home 1 else s
  | .crossing c => { s with crossings := s.crossings ++ [c] }
  | .corrected core => if !islandUp s (.field (fieldOf core)) then s else { s.updCore core fun c => { c with corrected := c.corrected + 1 } with corrected := s.corrected + 1 }

/-- Does a device step change the state? -/
def changes (s : State) (i : Instr) : Bool :=
  match exec i s with
  | .next t => decide (t ≠ s)
  | _ => false

-- what executors and engines do by themselves

/-- The steps that perform an operation and land what it returns. -/
def opStep (x : ExecId) (o : Op) : List Instr :=
  let all : LaneSet := BitVec.allOnes 32
  let land : Instr := .loadComplete x o.id ⟨all, 3⟩ 0xF .good
  match o.item.instr with
  | .ld _ | .ldx _ | .lds _ | .ldsx _ | .ldv _ | .ldk _ | .lda _ | .pld _ | .pref _ | .wlpop _ => [land]
  | .st _ | .stx _ | .stl _ | .sts _ | .stsx _ | .stv _ | .stk _ | .pst _ | .cwb _ | .cinv _ => [.storePerformed x o.id ⟨all, 3⟩]
  | .atom _ | .atomn _ | .cas _ | .atoms _ | .cass _ | .atomv _ | .casv _ => [.atomicPerformed x o.id [] .good, land]
  | .cpy _ | .cpyt _ | .cpyg _ | .cpys _ | .cpyr _ => [.copyComplete x o.id .good]
  | .wload _ | .wdrop _ | .mma _ | .mmas _ | .tzero _ | .tld _ | .tst _ | .sighash _ | .sigrep _ | .sigscat _ | .sigbwd _ | .qhist _ | .qscale _
  | .qcvt _ => [.matrixCommandPerformed x o.id none .good]
  | .xld _ | .xst _ | .xadd _ | .xcur _ | .xnext _ | .xcnt _ | .xdense _ | .xrange _ => [.indexStep x o.id .good]
  | .merge _ => [.mergePerformed x o.id .good, land]
  | .rput _ => [.ringPublish x o.id]
  | .rget _ => [.ringReceive x o.id]
  | _ => []

/-- Steps of executors and engines of some cores that the spec promises within finite time (R244, R245), all data good. -/
def coreSteps (s : State) (here : Nat → Bool) : List Instr :=
  ((executors s).filter fun p => here p.1.core).flatMap (fun p =>
    (if p.2.shadow.isSome then [.runAheadEnd p.1] else []) ++
    p.2.ops.flatMap (opStep p.1) ++
    p.2.waits.flatMap (fun w => match w with
     | .tacq _ _ _ => [.tacqHold p.1]
     | .waita _ _ _ _ _ _ _ => [.waitaTimeout p.1]
     | .sleep _ => [.sleepTimeout p.1]
     | _ => []) ++
    (if p.2.aside.isSome then [.applywBlockEnd p.1] else [])) ++
  (s.busy.filter fun p => here p.1).flatMap (fun p =>
    (if p.2.worklist.isSome then [.workListPerform p.1] else []) ++
    (if p.2.apply.isSome then [.applyRoundStart p.1, .applyRoundEnd p.1] else []) ++ [.coreFreed p.1])

/-- Fetches of the clauses that executors of some cores run next (R69). -/
def fetchSteps (s : State) (here : Nat → Bool) : List Instr :=
  ((executors s).filter fun p => here p.1.core && p.2.fetched.isNone).map fun p => .clauseFetch p.1 false .good

/-- Is a core's workgroup on its way to its save area? What it has begun drains within the bound of its evacuation (R276, R288). -/
def draining (s : State) (core : Nat) : Bool := match (s.wg core).map Workgroup.phase with | some (.saving _) => true | _ => false

-- what a cycle makes due

/-- Executors with a result that lands now (R49). -/
def landsNow (s : State) (x : ExecId) : Bool := ((s.exec x).map fun e => e.pend.any fun r => decide (r.land ≤ s.now x.core)).getD false
def dueLandings (s : State) : List ExecId := ((executors s).map (·.1)).filter (landsNow s)

/-- Words that are due now. A run-ahead that has met its end issues none (R287). -/
def dueWords (s : State) : List ExecId :=
  ((executors s).filter fun p => (dueClause s p.1).isSome && !(p.2.shadow.elim false (·.ended))).map (·.1)

/-- Clauses that commit now (R50), in the order of a cycle's commits: each core's lower contexts first (R172, R243). -/
def dueCommits (s : State) : List ExecId := ((executors s).filter fun p => (committable s p.1).isSome).map (·.1)

def withWorkgroup (s : State) (f : Nat → Workgroup → Bool) (mk : Nat → Instr) : List Instr :=
  (s.busy.filter fun p => f p.1 p.2).map fun p => mk p.1

/-- What the scheduler of a cluster places now (R270, R292). -/
def placeStepsOf (s : State) (c : Nat) : List Instr :=
  .gangPlace c :: (match nextFor s c with
    | some (.restore v, [n]) => [.workgroupRestore v.reqid n]
    | _ => [])

/-- The schedulers' steps of a cycle: release, placement and restore, reservations and their timers, and the retirement of launches (R269 to
R277, R292). -/
def dueSchedules (s : State) : List Instr :=
  (if s.taken.isEmpty && s.saved.isEmpty then [] else
    (upto 26).flatMap fun c => .launchRelease c :: placeStepsOf s c) ++
  s.taken.flatMap (fun t => [.targetReservation t.launch.gen, .reservationTimerExpiry t.launch.gen]) ++
  withWorkgroup s (fun _ w => w.phase ≠ .running) .workgroupSave

/-- Steps of the limiter that a cycle may make due, before its sync packets: the comparison and the rise of each field, at the current last
measured, and the drop of an outlet that is still too hot (R349). -/
def limiterSteps (s : State) : List Instr :=
  ((upto s.fieldsUp).flatMap fun f => [.limiterCompare f (s.field f).current, .limiterRise f]) ++
  (let outlet := mapGet 0 s.measured (measuredKey 2 1)
   if Config.outletLimit < outlet then [.coolantStep outlet] else [])

/-- Steps that belong to this cycle: exceptions at clause starts, the award of slots, commits, sync packets, the watchdog's bound, the
governor and the PC samples, the schedulers' steps, and the drain of what is saved (R50, R225, R239, R275, R276, R279, R329, R330). -/
def dueSteps (s : State) : List Instr :=
  (((executors s).filter fun p => !p.2.entries.isEmpty || p.2.cause.isSome).map fun p => .handlerEntry p.1) ++
  withWorkgroup s (fun _ _ => true) .issueSlotAward ++
  (dueCommits s).map .clauseCommit ++
  limiterSteps s ++ (((upto 6).filter fun f => syncDue (s.field f)).map .syncPacket) ++
  withWorkgroup s (fun _ w => w.wdogLeft = 0) .watchdogExpiry ++
  ((s.governors.filter fun p => p.2.isSome).map fun p => .governorTick p.1) ++
  ((upto 24).filter (retryDue s)).map (fun p => .portRetry p false) ++
  (if s.trace.isSome then withWorkgroup s (fun _ w => traced s w.launch) .pcSample else []) ++
  dueSchedules s ++ fetchSteps s (draining s) ++ coreSteps s (draining s)

/-- Results that land and words that issue in this cycle, in this order. -/
def dueNow (s : State) : Option Move :=
  match dueLandings s with
  | x :: _ => some (.event (.resultLanding x))
  | [] => (dueWords s).head?.map .word

/-- What must happen before time passes. -/
def dueMove (s : State) : Option Move :=
  match dueNow s with
  | some m => some m
  | none => ((dueSteps s).find? (changes s)).map .event

-- the order of a cycle (R49, R50, R94, R118, R172, R243)

/-- Clusters that a move belongs to in its cycle's order, and its place there: landings, awards, words, then commits and event updates by
their turns. None: it has no place. -/
def placeOf (s : State) (m : Move) : Option (List Nat × Nat) :=
  match m with
  | .event (.resultLanding x) => some ([clusterOf x.core], 0)
  | .event (.issueSlotAward core) => some ([clusterOf core], 1)
  | .word x => some ([clusterOf x.core], 2)
  | .event (.clauseCommit x) => some ([clusterOf x.core], 3 + turnOf x.core x.ctx)
  | .event (.applyRoundStart core) => some ([clusterOf core], 3 + applyTurn core)
  | .event (.applyRoundEnd core) => some ([clusterOf core], 3 + applyTurn core)
  | .event (.applywBlockEnd x) => some ([clusterOf x.core], 3 + applyTurn x.core)
  | .event (.launchRelease c) => some ([c], 3 + lastTurn)
  | .event (.launchRetire gen) =>
    let t := s.taken.find? (·.launch.gen = gen)
    some (t.elim [] (·.clusters), 4 + lastTurn + t.elim 0 (·.ended))
  | _ => none

/-- Moves of a cycle's order that are due in some clusters, in that order; the set masks come in the order in which their launches finished
retiring (R167). -/
def dueIn (s : State) (cs : List Nat) : List Move :=
  let here (x : ExecId) : Bool := cs.contains (clusterOf x.core)
  ((dueLandings s).filter here).map (fun x => .event (.resultLanding x)) ++
  ((withWorkgroup s (fun core _ => cs.contains (clusterOf core)) .issueSlotAward).filter (changes s)).map .event ++
  ((dueWords s).filter here).map .word ++
  ((((dueCommits s).filter here).map .clauseCommit).filter (changes s)).map .event ++
  (((cs.filter fun _ => !s.taken.isEmpty).map .launchRelease).filter (changes s)).map .event ++
  (((s.taken.filter fun t => t.launch.nwg ≤ t.retired && t.clusters.any cs.contains).map fun t => .launchRetire t.launch.gen).filter (changes s)).map .event

/-- A move that has to come before this one in its cycle. -/
def earlier (s : State) (m : Move) : Option Move :=
  match placeOf s m with
  | none => none
  | some (cs, n) => (dueIn s cs).find? fun d => (placeOf s d).elim false fun p => decide (p.2 < n)

/-- The schedulers of a field place in ascending cluster order (R270). -/
def lowerPlacement (s : State) (c : Nat) : Option Move :=
  (((upto c).filter fun n => fieldOfCluster n = fieldOfCluster c).flatMap (placeStepsOf s)).find? (changes s) |>.map .event

-- the rotation of shared units (R247)

/-- Shared units that an operation's request goes to. -/
def requestUnits (s : State) (core : Nat) (o : Op) (ls : LaneSet) : List Nat :=
  if o.performed then []
  else if (indexInfo o.item.instr).isSome then [indexEngine (regionHome o)]
  else match copyW o.item.instr, o.item.instr with
    | some w, _ => copyUnits core o w
    | none, .merge w => mergeUnits core o w
    | none, .rput _ => ringUnits core o
    | none, .rget _ => ringUnits core o
    | none, i => if isMatrixI i then drainUnits core o else unitsOfAccs s core o (accsIn o (ls &&& o.lanes))

/-- The operation that an event performs, and the lanes of it. -/
def performs (i : Instr) : Option (ExecId × Nat × LaneSet) :=
  let whole (x : ExecId) (op : Nat) : Option (ExecId × Nat × LaneSet) := some (x, op, BitVec.allOnes 32)
  match i with
  | .loadComplete x op part _ _ => some (x, op, part.lanes)
  | .storePerformed x op part => some (x, op, part.lanes)
  | .atomicPerformed x op order _ => some (x, op, if order.isEmpty then BitVec.allOnes 32 else laneSet order)
  | .indexStep x op _ => whole x op
  | .copyComplete x op _ => whole x op
  | .matrixCommandPerformed x op _ _ => whole x op
  | .mergePerformed x op _ => whole x op
  | .ringPublish x op => whole x op
  | .ringReceive x op => whole x op
  | _ => none

/-- Operations of other cores that wait at a unit and that the unit has passed over for this core. -/
def passedOver (s : State) (core unit : Nat) : List (ExecId × Op) :=
  (executors s).flatMap fun p =>
    if p.1.core = core then []
    else (p.2.ops.filter fun o => decide (o.id < mapGet 0 s.served (unit * 256 + core)) &&
      (requestUnits s p.1.core o o.lanes).contains unit).map fun o => (p.1, o)

/-- A request of another core whose turn comes before an event's (R247). -/
def otherTurn (s : State) (i : Instr) : Option Move :=
  match performs i with
  | none => none
  | some (x, op, ls) =>
    match (s.exec x).bind (opOf · op) with
    | none => none
    | some o =>
      (((requestUnits s x.core o ls).flatMap (passedOver s x.core)).flatMap fun p => opStep p.1 p.2).find? (changes s) |>.map .event

/-- Has the cycle's sync packet of a field gone out whose clock an event may change (R329)? The event comes after the next tick. -/
def afterPacket (s : State) (i : Instr) : Bool :=
  match i with
  | .limiterCompare f _ => packetOut (s.field f)
  | .limiterRise f => packetOut (s.field f)
  | .coolantStep _ => (upto s.fieldsUp).any fun f => packetOut (s.field f)
  | _ => false

/-- The move made for the agenda's: time does not pass what is due in this cycle, a cycle's moves keep their order, and shared units their
rotation. -/
def allowed (s : State) (m : Move) : Move :=
  match earlier s m with
  | some d => d
  | none =>
    match m with
    | .tick => (dueMove s).getD .tick
    | .event (.gangPlace c) => (lowerPlacement s c).getD m
    | .event (.workgroupRestore _ core) => (lowerPlacement s (clusterOf core)).getD m
    | .event (.syncPacket _) => (((limiterSteps s).find? (changes s)).map .event).getD m
    | .event i => if afterPacket s i then (dueMove s).getD .tick else (otherTurn s i).getD m
    | m => m

-- what the machine does by itself

/-- Steps of the schedulers, the interrupts, and a start or power down under way. -/
def deviceSteps (s : State) : List Instr :=
  ((s.levels.filter fun p => p.2.elim false (·.running)).map fun p => .recordTake (p.1 / 8) (p.1 % 8)) ++
  (s.taken.map fun t => .launchRetire t.launch.gen) ++
  (s.shoots.map fun t => .shootdownAck t.number) ++
  ((s.ints.filter fun p => p.2.pending ≠ 0).map fun p => .interrupt p.1) ++
  (if s.startState = 1 || s.startState = 4 then [.startStep none 0 []] else [])

/-- The move with an empty agenda: what lands or issues now, the fetches, the cycle's steps, the first other step that does something,
else a tick. -/
def autoMove (s : State) : Move :=
  match dueNow s with
  | some m => m
  | none => (((fetchSteps s (fun _ => true) ++ dueSteps s ++ coreSteps s (fun _ => true) ++ deviceSteps s).find? (changes s)).map Move.event).getD .tick

end Sys2Proof.Machine
end

