-- ==== Sys2Proof/Machine/Step.lean ====
section
/-! DEFINITION. One step of the machine: the next move of the agenda, or with an empty agenda the move that is due (log 1). -/

namespace Sys2Proof.Machine

/-- Make one move. A word that is not due and an event with no device step leave the state as it is. -/
def makeMove (m : Move) (s : State) : Host.Outcome State Fault Refusal :=
  match m with
  | .word x =>
    match nextInstr s x with
    | none => .next s
    | some (.ok i) => exec i { s with cur := some x }
    | some (.error _) => .next (illegalWord s x)
  | .event i => if isWord i then .next s else exec i s
  | .tick => .next (tick s)
  | .load o => .next (loadObject s o)
  | .measure reg index value => .next (measure s reg index value)
  | .flip f => .next (flipStep s f)

/-- One step. -/
def step (s : State) : Host.Outcome State Fault Refusal :=
  match s.agenda with
  | [] => makeMove (allowed s (autoMove s)) s
  | m :: rest => makeMove (allowed s m) { s with agenda := if allowed s m = m then rest else m :: rest }

/-- The state with an instruction's bits placed as the next word that an executor issues. -/
def State.withFetchWord (s : State) (nbits w : Nat) : State :=
  let v := w % 2 ^ nbits
  placeWords s (if isLForm (BitVec.ofNat 64 v) then [BitVec.ofNat 64 v, BitVec.ofNat 64 (v / 2 ^ 64)] else [BitVec.ofNat 64 v])

end Sys2Proof.Machine
end

