-- ==== Sys2Proof/Safety.lean ====
section
/-! DEFINITION. Safe runs, and the terms that statements about issuing words use: an executor at a word, a word that its executor
accepts, and what the issue leaves behind (spec/03 R49 to R51, spec/05 R73 to R76 and R90). -/

namespace Sys2Proof.Machine

/-- n steps from s all answer a next state. -/
def safeRun : Nat → State → Bool
  | 0, _ => true
  | n + 1, s =>
    match step s with
    | .next t => safeRun n t
    | _ => false

/-- No cell that the word of an executor may read holds an error that the code of its store can only detect (R337). -/
abbrev Sound (w : Workgroup) (e : Exec) : Prop :=
  e.badCells = [] ∧ w.badPools = [] ∧ w.badShapes = [] ∧ e.queue.any (·.bad ≠ 0) = false

/-- Executor x of the workgroup w on its core has the registers e and issues the next word of its newest clause c, outside a
run-ahead. -/
abbrev Issuing (s : State) (x : ExecId) (w : Workgroup) (e : Exec) (c : Clause) : Prop :=
  s.cur = some x ∧ s.wg x.core = some w ∧ w.exec x.ctx = some e ∧ e.clauses.getLast? = some c ∧ e.shadow = none ∧ Sound w e

/-- The same in a run-ahead that has not met its end (R286). -/
abbrev Ahead (s : State) (x : ExecId) (w : Workgroup) (e : Exec) (c : Clause) (h : Shadow) : Prop :=
  s.cur = some x ∧ s.wg x.core = some w ∧ w.exec x.ctx = some e ∧ e.clauses.getLast? = some c ∧ e.shadow = some h ∧ h.ended = false

/-- The executor accepts the word: a well-formed word whose fields, guard and executor agree (R74 to R76, R89, R95, R116). -/
abbrev Accepted (x : ExecId) (i : Instr) (ctl : Ctl) : Prop :=
  formOk i = true ∧ iFormOk (isHead x.ctx) i = true ∧ accepts x.ctx i = true ∧ (isHead x.ctx = true → ctl.g = 0 ∧ ctl.n = false)

/-- The v registers that a warp's word names lie below the window (R40). -/
abbrev InWindow (x : ExecId) (w : Workgroup) (i : Instr) : Prop := isHead x.ctx = false → windowBad w.launch.window i = none

abbrev Legal (x : ExecId) (w : Workgroup) (i : Instr) (ctl : Ctl) : Prop := Accepted x i ctl ∧ InWindow x w i

/-- The guard set G of a word; the headspring has no lanes (R74, R95). -/
def guardOf (x : ExecId) (e : Exec) (ctl : Ctl) : LaneSet := if isHead x.ctx then 0 else guardSet e ctl

/-- The word executes: its G is not empty, or the headspring issues it (R95, R117). -/
def executes (x : ExecId) (e : Exec) (ctl : Ctl) : Bool := isHead x.ctx || guardOf x e ctl ≠ 0

/-- Words that an instruction takes: MOVL has a literal (R80). -/
def lengthOf : Instr → Nat
  | .movl _ => 2
  | _ => 1

/-- What the word of x sees as it issues. -/
def viewOf (s : State) (x : ExecId) (w : Workgroup) (e : Exec) (c : Clause) (ctl : Ctl) : View :=
  { s, x, w, e, c, g := guardOf x e ctl, on := executes x e ctl }

/-- Between s and t only the executor x has changed, in its results on their way, its clauses, slot, next issue cycle, next header, a0
and partition stack; on its core also the slots' marks. Every byte of memory reads as before. -/
def OnlyIssued (s t : State) (x : ExecId) (w w' : Workgroup) (e e' : Exec) : Prop :=
  { t with cores := s.cores } = s ∧ (∀ a, readByte t.mem a = readByte s.mem a) ∧
  (∀ n, n ≠ x.core → t.core n = s.core n) ∧
  { t.core x.core with wg := some w, away := (s.core x.core).away, slotFree := (s.core x.core).slotFree } = s.core x.core ∧
  { w' with execs := w.execs } = w ∧ (∀ n, n ≠ x.ctx → w'.exec n = w.exec n) ∧
  { e' with pend := e.pend, clauses := e.clauses, slot := e.slot, readyAt := e.readyAt, pc := e.pc, a0 := e.a0, parts := e.parts } = e

/-- The word i has issued with the effect f and left t: its results are on their way and land f.lat cycles from now (R49), the operands
it captured are in its clause (R50), a taken transfer has set the next clause, its successor is due after its gap (R73, R96), and
nothing else has changed. -/
def Issued (s t : State) (x : ExecId) (w : Workgroup) (e : Exec) (c : Clause) (i : Instr) (ctl : Ctl) (f : Eff) : Prop :=
  ∃ w' e' c', t.wg x.core = some w' ∧ w'.exec x.ctx = some e' ∧ e'.clauses = e.clauses.dropLast ++ [c'] ∧
    e'.pend = e.pend ++ f.writes.map (fun r => { land := s.now x.core + f.lat, seq := c.seq, idx := c.next, val := r }) ∧
    c'.items = c.items ++ (f.item.map fun p =>
      { instr := i, idx := c.next, g := guardOf x e ctl, on := executes x e ctl, kv := p.1, lv := p.2, clock := s.now x.core
        xl := [] : Item }).toList ∧
    e'.pc = f.target.getD e.pc ∧ c'.target = f.target.or c.target ∧
    e'.a0 = (f.part.map (·.a0)).getD e.a0 ∧ e'.parts = (f.part.map (·.stack)).getD e.parts ∧
    c'.next = c.next + lengthOf i ∧ c'.due = s.now x.core + 1 + ctl.gap.toNat + f.extra + (if f64Vector i then 1 else 0) ∧
    c'.takes = c.takes + f.takes ∧ c'.gives = c.gives ++ f.gives.toList ∧ c'.cause = c.cause ∧ c'.seq = c.seq ∧ c'.code = c.code ∧
    OnlyIssued s t x w w' e e'

/-- The word i issues in s with the effect f. -/
def Completes (s : State) (x : ExecId) (w : Workgroup) (e : Exec) (c : Clause) (i : Instr) (ctl : Ctl) (f : Eff) : Prop :=
  ∃ t, exec i s = .next t ∧ Issued s t x w e c i ctl f

/-- A cause found at the word's issue: the clause issues no more words and keeps the cause, with the index of its word (R51, R90); it
has no other effect. -/
def Trapped (s t : State) (x : ExecId) (w : Workgroup) (e : Exec) (c : Clause) (cause : Cause) : Prop :=
  ∃ w' e' c', t.wg x.core = some w' ∧ w'.exec x.ctx = some e' ∧ e'.clauses = e.clauses.dropLast ++ [c'] ∧
    c' = { c with next := c.code.words.length, cause := some cause } ∧ e'.pend = e.pend ∧ e'.pc = e.pc ∧ e'.a0 = e.a0 ∧
    e'.parts = e.parts ∧ OnlyIssued s t x w w' e e'

/-- The word waits at its place and issues again in the next cycle: nothing else changes (R138, R154). -/
def Waits (s t : State) (x : ExecId) (w : Workgroup) (e : Exec) (c : Clause) : Prop :=
  ∃ w' e', t.wg x.core = some w' ∧ w'.exec x.ctx = some e' ∧
    e' = { e with clauses := e.clauses.dropLast ++ [{ c with due := s.now x.core + 1 }] } ∧
    { t with cores := s.cores } = s ∧ (∀ a, readByte t.mem a = readByte s.mem a) ∧ (∀ n, n ≠ x.core → t.core n = s.core n) ∧
    { t.core x.core with wg := some w } = s.core x.core ∧ { w' with execs := w.execs, stamps := w.stamps } = w ∧
    (∀ n, n ≠ x.ctx → w'.exec n = w.exec n)

/-- The word i issues in s and its result, a value of type td for each lane of G (or one in the uniform form), is r and lands after lat
cycles (R49, R94, R95). -/
def Results (s : State) (x : ExecId) (w : Workgroup) (e : Exec) (c : Clause) (i : Instr) (ctl : Ctl) (lat : Nat) (u : Bool) (td : Ty)
    (d : VReg) (r : Nat → Word) : Prop :=
  Completes s x w e c i ctl { lat, writes := laneWrites (viewOf s x w e c ctl) u td d r }

/-- The word i issues in s and captures k values and lane values for its commit (R50). -/
def Captures (s : State) (x : ExecId) (w : Workgroup) (e : Exec) (c : Clause) (i : Instr) (ctl : Ctl) (kv : List Word)
    (lv : List (List Lane)) : Prop := Completes s x w e c i ctl { item := some (kv, lv) }

/-- The same for a word that does nothing with an empty guard. -/
def CapturesIfOn (s : State) (x : ExecId) (w : Workgroup) (e : Exec) (c : Clause) (i : Instr) (ctl : Ctl) (kv : List Word) : Prop :=
  Completes s x w e c i ctl { item := if executes x e ctl then some (kv, []) else none }

/-- The word i stops its clause in s with the cause. -/
def Traps (s : State) (x : ExecId) (w : Workgroup) (e : Exec) (c : Clause) (i : Instr) (cause : Cause) : Prop :=
  ∃ t, exec i s = .next t ∧ Trapped s t x w e c cause

/-- The word i waits at its place in s. -/
def Stays (s : State) (x : ExecId) (w : Workgroup) (e : Exec) (c : Clause) (i : Instr) : Prop :=
  ∃ t, exec i s = .next t ∧ Waits s t x w e c

/-- A cause of a word: its code and info, no faulting address, the lanes of its guard, and the word's index (R225). -/
def wordCause (x : ExecId) (e : Exec) (c : Clause) (ctl : Ctl) (code info : Nat) : Cause :=
  { code, info, tmask := guardOf x e ctl, faddr := 0, word := c.next }

-- values

/-- Element j of a value of a type as an integer (R54). -/
def elemInt (t : Ty) (a : Word) (j : Nat) : Int := toInt (elemSigned t) (elemBits t) (elemAt (elemBits t) a j)

/-- An exact result in the range of a type's elements: wrapped, or clamped under `.sat` (R60, R99). -/
def narrowed (t : Ty) (sat : Bool) (z : Int) : Int :=
  let lo : Int := if elemSigned t then -(2 ^ (elemBits t - 1) : Nat) else 0
  let hi : Int := lo + (2 ^ elemBits t : Nat) - 1
  if sat then max lo (min z hi) else lo + (z - lo) % (2 ^ elemBits t : Nat)

/-- Each element of r is the exact result z of that element, narrowed. -/
def IntResult (t : Ty) (sat : Bool) (r : Word) (z : Nat → Int) : Prop := ∀ j, j < elemCount t → elemInt t r j = narrowed t sat (z j)

/-- The low n bits of r are those that b gives. -/
def BitsAre (n : Nat) (r : Word) (b : Nat → Bool) : Prop := ∀ i, i < n → r.getLsbD i = b i

/-- The low n bits of r are the number z modulo 2^n. -/
def IsMod (n : Nat) (r : Word) (z : Int) : Prop := ((r.toNat % 2 ^ n : Nat) : Int) = z % (2 ^ n : Nat)

-- addresses

/-- Effective address of lane l of an M-form word: k[a] plus the index plus the offset times the element size, modulo 2^64 (R143). -/
def laneAddress (e : Exec) (a : KReg) (size : Nat) (idx : Index) (off : Int) (l : Nat) : Word :=
  let index : Word := match idx with
    | .lane => BitVec.ofNat 64 (l * size)
    | .reg b iw sgn sc =>
      let v : Word :=
        if iw = 3 then (e.rv (b.toNat + 1) l ++ e.rv b.toNat l : BitVec 64)
        else
          let part := (e.rv b.toNat l).extractLsb' 0 (8 * 2 ^ iw.toNat)
          if sgn then part.signExtend 64 else part.setWidth 64
      v <<< sc.toNat
  e.rk a.toNat + index + BitVec.ofInt 64 (off * size)

/-- The addresses of the lanes of g, with 0 for every other lane. -/
def laneAddresses (e : Exec) (g : LaneSet) (a : KReg) (size : Nat) (idx : Index) (off : Int) : List Word :=
  (upto 32).map fun l => if g.getLsbD l then laneAddress e a size idx off l else 0

/-- Where a B-form word transfers to: the clause's header plus 8 times the signed offset (R81). -/
def transferTo (c : Clause) (off : BitVec 27) : Nat := (BitVec.ofNat 64 c.code.addr + BitVec.ofInt 64 (8 * off.toInt)).toNat

-- events

/-- No executor sleeps in a WAITA, has a wake read to make, or has a waiting word or an acquire to settle: an event has no effect beyond its
own. -/
abbrev Quiet (s : State) : Prop := sleepers s = [] ∧ woken s = [] ∧ unsettled s = []

/-- The executor x has one operation o, which is not performed; it waits for nothing else and does not run ahead, no engine has asked
for a page for it, the machine is quiet, and no data is poisoned or in error on its way. -/
abbrev Alone (s : State) (x : ExecId) (w : Workgroup) (e : Exec) (o : Op) : Prop :=
  s.wg x.core = some w ∧ w.exec x.ctx = some e ∧ e.ops = [o] ∧ e.waits = [] ∧ e.holds = [] ∧ e.shadow = none ∧ o.performed = false ∧ Quiet s ∧
  s.poison = [] ∧ s.crossings = [] ∧ ∀ r ∈ s.requests, ∀ eng id, r.who ≠ .op x eng id

/-- z is what two-at-a-time combination leaves of the numbers of a list, in some order and grouping (R162). -/
inductive Combined (f : Nat → Nat → Nat) : List Nat → Nat → Prop where
  | one (z : Nat) : Combined f [z] z
  | two (l rest : List Nat) (a b z : Nat) (perm : l.Perm (a :: b :: rest)) (h : Combined f (f a b :: rest) z) : Combined f l z

/-- A floating-point operation on each element of two values of a type, rounded once to the nearest (R56, R161). -/
def floatEach (t : Ty) (f : FVal → FVal → XReal) (m y : Nat) : Nat :=
  let datum (z j : Nat) : FVal := unpackF (fmtOf t) (z / 2 ^ (elemBits t * j) % 2 ^ elemBits t)
  ((List.range (elemCount t)).map fun j =>
    packF (fmtOf t) .rne false (f (datum m j) (datum y j)) % 2 ^ elemBits t * 2 ^ (elemBits t * j)).sum

/-- The sum that `.add` leaves of two values of a type: integers wrap, floats are rounded to the nearest (R60, R161). -/
def plus (t : Ty) (m y : Nat) : Nat := if tyFp t then floatEach t (addX .rne) m y else (m + y) % 2 ^ tyBits t

/-- Memory after a write of the bytes bs at home address h. -/
def Stored (s t : State) (h : Nat) (bs : List Byte) : Prop :=
  ∀ a, readByte t.mem a = if h ≤ a ∧ a < h + bs.length then bs.getD (a - h) 0 else readByte s.mem a

/-- Memory after writes of n bytes each, for the numbers i of `on`: those at `at' i` are `val i`, and no other byte has changed. -/
def Ranges (s t : State) (on : Nat → Prop) (n : Nat) (at' : Nat → Nat) (val : Nat → List Byte) : Prop :=
  (∀ i, on i → readBytes t.mem (at' i) n = val i) ∧
  ∀ a, (∀ i, on i → a < at' i ∨ at' i + n ≤ a) → readByte t.mem a = readByte s.mem a

/-- The registers of e' are those of e but for the cells that p names, which hold the values it gives. -/
def OnlyCells (e e' : Exec) (v : Nat → Nat → Option Lane) (k : Nat → Option Word) (a : Nat → Option LaneSet) : Prop :=
  (∀ r l, l < 32 → e'.rv r l = (v r l).getD (e.rv r l)) ∧ (∀ r, e'.rk r = (k r).getD (e.rk r)) ∧ (∀ r, e'.ra r = (a r).getD (e.ra r))

/-- The operation of x is performed: it has left, its counter has fallen by one, and x's registers changed in the named cells alone. -/
def Performed (t : State) (x : ExecId) (e : Exec) (o : Op) (v : Nat → Nat → Option Lane) (k : Nat → Option Word)
    (a : Nat → Option LaneSet) : Prop :=
  ∃ e', t.exec x = some e' ∧ e'.ops = [] ∧ OnlyCells e e' v k a ∧
    (∀ cls, counterOf e' cls = if cls = o.cls then counterOf e cls - 1 else counterOf e cls)

-- words

/-- The guard and gap fields of an instruction word; a device step has none (R74). -/
def ctlOf : Instr → Option Ctl
  | .yieldh q | .exit q | .nop q | .wdrop q | .opfence q => some q
  | .mov q | .abs q | .neg q | .not q | .popc q | .clz q | .brev q | .fsqrt q | .rcpa q | .rsqa q | .fexp2 q | .flog2 q
  | .fsinpi q | .fcospi q | .fclass q | .frnd q | .frcp q => some q.ctl
  | .movi q => some q.ctl
  | .movl q => some q.ctl
  | .movs q => some q.ctl
  | .bck q => some q.ctl
  | .lanek q => some q.ctl
  | .add q | .sub q | .mul q | .mulh q | .div q | .rem q | .min q | .max q | .and q | .or q | .xor q | .shl q | .shr q | .sha q
  | .rot q | .fadd q | .fsub q | .fmul q | .fmin q | .fmax q | .fdiv q | .fscale q => some q.ctl
  | .mad q | .add3 q | .bfx q | .bfi q | .fma q => some q.ctl
  | .lea q => some q.ctl
  | .addi q | .andi q | .ori q | .shli q => some q.ctl
  | .cvt q => some q.ctl
  | .pack q | .unpk q => some q.ctl
  | .cmp q | .fcmp q => some q.ctl
  | .sel q => some q.ctl
  | .aop q => some q.ctl
  | .acnt q | .afirst q => some q.ctl
  | .amovk q => some q.ctl
  | .shfl q => some q.ctl
  | .bcast q => some q.ctl
  | .scan q | .reduce q => some q.ctl
  | .shflx q => some q.ctl
  | .pdep q => some q.ctl
  | .pext q => some q.ctl
  | .poolop q => some q.ctl
  | .pcnt q | .pfirst q => some q.ctl
  | .pclr q | .pfill q => some q.ctl
  | .pst q | .pld q => some q.ctl
  | .apply q => some q.ctl
  | .applyw q => some q.ctl
  | .release q => some q.ctl
  | .bra q => some q.ctl
  | .bany q | .ball q | .bnone q => some q.ctl
  | .bk q => some q.ctl
  | .call q | .loop q => some q.ctl
  | .calli q => some q.ctl
  | .ret q => some q.ctl
  | .take q => some q.ctl
  | .give q => some q.ctl
  | .stall q | .yield q => some q.ctl
  | .ld q | .st q | .ldx q | .stx q | .lds q | .sts q | .ldsx q | .stsx q | .ldv q | .stv q | .lda q | .stl q => some q.ctl
  | .ldk q | .stk q => some q.ctl
  | .waita q => some q.ctl
  | .pref q => some q.ctl
  | .wait q => some q.ctl
  | .fence q => some q.ctl
  | .cwb q | .cinv q => some q.ctl
  | .atom q | .atomn q | .atoms q | .atomv q => some q.ctl
  | .cas q | .cass q | .casv q => some q.ctl
  | .bar q => some q.ctl
  | .gbar q => some q.ctl
  | .evset q => some q.ctl
  | .evclr q => some q.ctl
  | .evwait q => some q.ctl
  | .evtest q => some q.ctl
  | .rput q | .rget q | .rcur q => some q.ctl
  | .wlsort q | .stamp q | .sleep q => some q.ctl
  | .wlpush q | .wlins q => some q.ctl
  | .wlpop q => some q.ctl
  | .wlcnt q | .cpyq q | .xcnt q => some q.ctl
  | .setshape q => some q.ctl
  | .getshape q => some q.ctl
  | .wload q => some q.ctl
  | .mma q | .mmas q => some q.ctl
  | .tacq q | .trel q | .tzero q => some q.ctl
  | .tld q | .tst q => some q.ctl
  | .sighash q => some q.ctl
  | .sigrep q => some q.ctl
  | .sigscat q => some q.ctl
  | .sigbwd q => some q.ctl
  | .qhist q => some q.ctl
  | .qscale q => some q.ctl
  | .qcvt q => some q.ctl
  | .cpy q | .cpyt q | .cpyg q | .cpys q | .cpyr q => some q.ctl
  | .xld q | .xst q | .xadd q => some q.ctl
  | .xcur q | .xnext q | .xrange q => some q.ctl
  | .xdense q => some q.ctl
  | .merge q => some q.ctl
  | .trap q | .bkpt q => some q.ctl
  | .rft q => some q.ctl
  | .movp q => some q.ctl
  | .icinv q | .tlbinv q => some q.ctl
  | _ => none

end Sys2Proof.Machine
end

