-- ==== Sys2Proof/Certificates/Slice0/Obligations.lean ====
section
/-! DEFINITION. The statements for the provers, from the numbered rules of spec/. -/

open Sys2Proof
open Sys2Proof.Machine

/-- R98, R99, R60: integer arithmetic is formed exactly for each element and then wrapped, or clamped under `.sat`. -/
def Obligations.IntegerArithmeticIsExactThenNarrowed : Prop :=
  ∀ (s : State) (x : ExecId) (w : Workgroup) (e : Exec) (c : Clause), Issuing s x w e c →
    let two (i : Alu2 → Instr) (f : Ty → Int → Int → Int) (sat : Alu2 → Bool) (lat : Nat) : Prop :=
      ∀ q : Alu2, Legal x w (i q) q.ctl → ∃ r : Nat → Word,
        (∀ l, IntResult q.ty (sat q) (r l) fun j => f q.ty (elemInt q.ty (e.src q.u q.ty q.a l) j) (elemInt q.ty (e.src q.u q.ty q.b l) j)) ∧
        Results s x w e c (i q) q.ctl lat q.u q.ty q.d r
    let three (i : Alu3 → Instr) (f : Int → Int → Int → Int) : Prop :=
      ∀ q : Alu3, Legal x w (i q) q.ctl → ∃ r : Nat → Word,
        (∀ l, IntResult q.ty q.sat (r l) fun j =>
          f (elemInt q.ty (e.src q.u q.ty q.a l) j) (elemInt q.ty (e.src q.u q.ty q.b l) j) (elemInt q.ty (e.src q.u q.ty q.c l) j)) ∧
        Results s x w e c (i q) q.ctl 4 q.u q.ty q.d r
    let one (i : Alu1 → Instr) (f : Int → Int) : Prop :=
      ∀ q : Alu1, Legal x w (i q) q.ctl → ∃ r : Nat → Word,
        (∀ l, IntResult q.ty q.sat (r l) fun j => f (elemInt q.ty (e.src q.u q.ty q.a l) j)) ∧
        Results s x w e c (i q) q.ctl 4 q.u q.ty q.d r
    two .add (fun _ a b => a + b) (·.sat) 4 ∧ two .sub (fun _ a b => a - b) (·.sat) 4 ∧ two .mul (fun _ a b => a * b) (·.sat) 4 ∧
    two .mulh (fun t a b => a * b / (2 ^ tyBits t : Nat)) (fun _ => false) 4 ∧
    three .mad (fun a b c => a * b + c) ∧ three .add3 (fun a b c => a + b + c) ∧
    two .div (fun _ a b => if b = 0 then -1 else a.tdiv b) (fun _ => false) 16 ∧
    two .rem (fun _ a b => if b = 0 then a else a.tmod b) (fun _ => false) 16 ∧
    two .min (fun _ a b => min a b) (fun _ => false) 4 ∧ two .max (fun _ a b => max a b) (fun _ => false) 4 ∧
    one .abs (fun a => (a.natAbs : Int)) ∧ one .neg (fun a => -a)

/-- R98, R100: logic acts bit by bit; shifts, rotations, counts and bit reversal act on the low bits of the type's width. -/
def Obligations.LogicAndShifts : Prop :=
  ∀ (s : State) (x : ExecId) (w : Workgroup) (e : Exec) (c : Clause), Issuing s x w e c →
    let two (i : Alu2 → Instr) (tb : Alu2 → Ty) (ok : Nat → Word → Word → Word → Prop) : Prop :=
      ∀ q : Alu2, Legal x w (i q) q.ctl → ∃ r : Nat → Word,
        (∀ l, ok (tyBits q.ty) (e.src q.u q.ty q.a l) (e.src q.u (tb q) q.b l) (r l)) ∧ Results s x w e c (i q) q.ctl 4 q.u q.ty q.d r
    let one (i : Alu1 → Instr) (td : Alu1 → Ty) (ok : Nat → Word → Word → Prop) : Prop :=
      ∀ q : Alu1, Legal x w (i q) q.ctl → ∃ r : Nat → Word,
        (∀ l, ok (tyBits q.ty) (e.src q.u q.ty q.a l) (r l)) ∧ Results s x w e c (i q) q.ctl 4 q.u (td q) q.d r
    two .and (·.ty) (fun n a b r => BitsAre n r fun i => a.getLsbD i && b.getLsbD i) ∧
    two .or (·.ty) (fun n a b r => BitsAre n r fun i => a.getLsbD i || b.getLsbD i) ∧
    two .xor (·.ty) (fun n a b r => BitsAre n r fun i => a.getLsbD i != b.getLsbD i) ∧
    one .not (·.ty) (fun n a r => BitsAre n r fun i => !a.getLsbD i) ∧
    two .shl (fun _ => .b32) (fun n a b r => IsMod n r (if n ≤ b.toNat then 0 else a.toNat * 2 ^ b.toNat)) ∧
    two .shr (fun _ => .b32) (fun n a b r => IsMod n r (if n ≤ b.toNat then 0 else (a.toNat / 2 ^ b.toNat : Nat))) ∧
    two .sha (fun _ => .b32) (fun n a b r => IsMod n r (sext n a.toNat / (2 ^ min b.toNat (n - 1) : Nat))) ∧
    two .rot (fun _ => .b32) (fun n a b r => BitsAre n r fun i => a.getLsbD ((i + n - b.toNat % n) % n)) ∧
    one .popc (fun _ => .b32) (fun n a r => r.toNat = (List.range n).countP fun i => a.getLsbD i) ∧
    one .clz (fun _ => .b32) (fun n a r => r.toNat ≤ n ∧ (∀ i, n - r.toNat ≤ i → i < n → a.getLsbD i = false) ∧
      (r.toNat < n → a.getLsbD (n - 1 - r.toNat) = true)) ∧
    one .brev (·.ty) (fun n a r => BitsAre n r fun i => a.getLsbD (n - 1 - i))

/-- R98, R100: bit-field extraction and insertion, and address formation. -/
def Obligations.BitFieldsAndAddresses : Prop :=
  ∀ (s : State) (x : ExecId) (w : Workgroup) (e : Exec) (c : Clause), Issuing s x w e c →
    (∀ q : Alu3, Legal x w (.bfx q) q.ctl → ∃ r : Nat → Word,
      (∀ l, let n := tyBits q.ty
            let a := e.src q.u q.ty q.a l
            let pos := (e.src q.u .b32 q.b l).toNat
            let len := min (e.src q.u .b32 q.c l).toNat n
            let f (i : Nat) : Bool := decide (pos + i < n) && a.getLsbD (pos + i)
            BitsAre n (r l) fun i => if i < len then f i else tySigned q.ty && decide (0 < len) && f (len - 1)) ∧
      Results s x w e c (.bfx q) q.ctl 4 q.u q.ty q.d r) ∧
    (∀ q : Alu3, Legal x w (.bfi q) q.ctl → ∃ r : Nat → Word,
      (∀ l, let n := tyBits q.ty
            let pos := (e.src q.u .b32 q.b l).toNat
            let len := min (e.src q.u .b32 q.c l).toNat n
            BitsAre n (r l) fun i =>
              if pos ≤ i ∧ i < min (pos + len) n then (e.src q.u q.ty q.a l).getLsbD (i - pos) else (e.src q.u q.ty q.d l).getLsbD i) ∧
      Results s x w e c (.bfi q) q.ctl 4 q.u q.ty q.d r) ∧
    (∀ q : LeaW, Legal x w (.lea q) q.ctl → ∃ r : Nat → Word,
      (∀ l, let b := (e.src q.u .b32 q.b l).toNat
            IsMod (tyBits q.ty) (r l) ((e.src q.u q.ty q.a l).toNat + (if q.sx then sext 32 b else b) * 2 ^ q.sh.toNat)) ∧
      Results s x w e c (.lea q) q.ctl 4 q.u q.ty q.d r)

/-- R79, R97, R101: I-form words take the sign-extended immediate; in the headspring their registers are k registers (R95). -/
def Obligations.ImmediateWords : Prop :=
  ∀ (s : State) (x : ExecId) (w : Workgroup) (e : Exec) (c : Clause), Issuing s x w e c →
    let imm (i : ImmW → Instr) (ok : Nat → Word → BitVec 27 → Word → Prop) : Prop :=
      ∀ q : ImmW, Legal x w (i q) q.ctl → ∃ r : Nat → Word,
        (∀ l, ok (tyBits q.ty) (e.src (isHead x.ctx) q.ty q.a l) q.imm (r l)) ∧
        Results s x w e c (i q) q.ctl 4 (isHead x.ctx) q.ty q.d r
    imm .addi (fun n a m r => IsMod n r (a.toNat + m.toInt)) ∧
    imm .andi (fun n a m r => BitsAre n r fun i => a.getLsbD i && (m.signExtend 64).getLsbD i) ∧
    imm .ori (fun n a m r => BitsAre n r fun i => a.getLsbD i || (m.signExtend 64).getLsbD i) ∧
    imm .shli (fun n a m r => IsMod n r (a.toNat * 2 ^ m.toNat)) ∧
    (∀ q : MoviW, Legal x w (.movi q) q.ctl → ∃ r : Nat → Word,
      (∀ l, IsMod (tyBits q.ty) (r l) q.imm.toInt) ∧ Results s x w e c (.movi q) q.ctl 4 (isHead x.ctx) q.ty q.d r)

/-- R97, R48: moves, and the special registers as a lane, a slot or the headspring reads them. -/
def Obligations.MovesAndSpecialRegisters : Prop :=
  ∀ (s : State) (x : ExecId) (w : Workgroup) (e : Exec) (c : Clause), Issuing s x w e c →
    (∀ q : Alu1, Legal x w (.mov q) q.ctl → Results s x w e c (.mov q) q.ctl 4 q.u q.ty q.d (e.src q.u q.ty q.a)) ∧
    (∀ q : MovlW, Legal x w (.movl q) q.ctl → Results s x w e c (.movl q) q.ctl 4 q.u q.ty q.d fun _ => q.lit) ∧
    (∀ q : BckW, Legal x w (.bck q) q.ctl → Results s x w e c (.bck q) q.ctl 4 false q.ty q.d fun _ => e.rk q.a.toNat) ∧
    (∀ q : LanekW, Legal x w (.lanek q) q.ctl → Completes s x w e c (.lanek q) q.ctl
      { writes := if guardOf x e q.ctl = 0 then [] else [.k q.d.toNat (e.src false q.ty q.a (lowestLane (guardOf x e q.ctl)))] }) ∧
    (∀ q : MovsW, Legal x w (.movs q) q.ctl → ∃ r : Nat → Word, Results s x w e c (.movs q) q.ctl 4 q.u q.ty q.d r ∧
      ∀ l, let at' := if q.u then lowestLane (guardOf x e q.ctl) % 32 else l
        let is (sr : BitVec 8) (n : Nat) : Prop := q.sr = sr → r l = BitVec.ofNat 64 n
        (isHead x.ctx = false → is 0x00 at' ∧ is 0x01 x.ctx) ∧ (isHome x.ctx = true → is 0x02 (32 * x.ctx + at') ∧ is 0x0D 0xFFFFFFFF) ∧
        (isSlot x.ctx = true → is 0x02 (mapGet 0 e.origin at') ∧ is 0x0D (x.ctx - 32)) ∧
        (isHead x.ctx = true → is 0x00 0 ∧ is 0x01 0xFFFFFFFF ∧ is 0x02 0xFFFFFFFF ∧ is 0x0D 0xFFFFFFFF) ∧
        is 0x03 w.wgid ∧ is 0x04 x.core ∧ is 0x05 (x.core / 8) ∧ is 0x06 (fieldOfCluster (x.core / 8)) ∧
        is 0x07 (if fieldOfCluster (x.core / 8) = 0 ∨ fieldOfCluster (x.core / 8) = 5 then 1 else 0) ∧ is 0x08 (s.now x.core) ∧
        is 0x09 e.tmask.toNat ∧
        is 0x0A (fieldLimit (fieldOf x.core) * 2 ^ 32 + (fieldLimit (fieldOf x.core) - (s.field (fieldOf x.core)).committed)) ∧
        is 0x0B w.launch.window ∧ is 0x0C w.launch.nwarps ∧ is 0x0E w.launch.gen)

/-- R102, R103: each element of a floating-point result is the exact result rounded once in the word's mode; FMIN and FMAX round nothing. -/
def Obligations.FloatArithmeticRoundsOnce : Prop :=
  ∀ (s : State) (x : ExecId) (w : Workgroup) (e : Exec) (c : Clause), Issuing s x w e c →
    let datum (t : Ty) (a : Word) (j : Nat) : FVal := unpackF (fmtOf t) (elemAt (elemBits t) a j)
    let is (t : Ty) (rm : Rnd) (r : Word) (z : Nat → XReal) : Prop :=
      ∀ j, j < elemCount t → elemAt (elemBits t) r j = packF (fmtOf t) rm false (z j) % 2 ^ elemBits t
    let two (i : Alu2 → Instr) (f : Rnd → FVal → FVal → XReal) (lat : Nat) : Prop :=
      ∀ q : Alu2, Legal x w (i q) q.ctl → ∃ r : Nat → Word,
        (∀ l, is q.ty q.rnd (r l) fun j => f q.rnd (datum q.ty (e.src q.u q.ty q.a l) j) (datum q.ty (e.src q.u q.ty q.b l) j)) ∧
        Results s x w e c (i q) q.ctl lat q.u q.ty q.d r
    let one (i : Alu1 → Instr) (f : Rnd → FVal → XReal) (lat : Nat) : Prop :=
      ∀ q : Alu1, Legal x w (i q) q.ctl → ∃ r : Nat → Word,
        (∀ l, is q.ty q.rnd (r l) fun j => f q.rnd (datum q.ty (e.src q.u q.ty q.a l) j)) ∧
        Results s x w e c (i q) q.ctl lat q.u q.ty q.d r
    two .fadd (fun rm a b => addX rm a b) 4 ∧ two .fsub (fun rm a b => addX rm a (negF b)) 4 ∧
    two .fmul (fun _ a b => XReal.ofF (mulF a b)) 4 ∧ two .fdiv (fun _ a b => divX a b) 16 ∧
    two .fmin (fun _ a b => XReal.ofF (minF a b)) 4 ∧ two .fmax (fun _ a b => XReal.ofF (maxF a b)) 4 ∧
    (∀ q : Alu3, Legal x w (.fma q) q.ctl → ∃ r : Nat → Word,
      (∀ l, is q.ty q.rnd (r l) fun j => addX q.rnd (mulF (datum q.ty (e.src q.u q.ty q.a l) j) (datum q.ty (e.src q.u q.ty q.b l) j))
        (datum q.ty (e.src q.u q.ty q.c l) j)) ∧ Results s x w e c (.fma q) q.ctl 4 q.u q.ty q.d r) ∧
    one .fsqrt (fun _ a => sqrtX a) 16 ∧ one .frcp (fun _ a => divX (.fin false 1 0) a) 16 ∧ one .frnd (fun rm a => frndX rm a) 4 ∧
    (∀ q : Alu2, Legal x w (.fscale q) q.ctl → ∃ r : Nat → Word,
      (∀ l, is q.ty q.rnd (r l) fun j => scaleX (max (-5000) (min (sext 32 (e.src q.u .b32 q.b l).toNat) 5000))
        (datum q.ty (e.src q.u q.ty q.a l) j)) ∧ Results s x w e c (.fscale q) q.ctl 4 q.u q.ty q.d r)

/-- R104 to R106: the transcendentals give the result rounded to nearest, in f32 one of the two values that bracket it, and the special
values of R105; an FEXP2 result below the least normal number is rounded to nearest (R56; that this is judged before rounding is the model's
reading, log 90); RCPA and RSQA truncate the exact value, with R106's values at zero, infinity and NaN; FCLASS sets the bit of the class. -/
def Obligations.FloatFunctions : Prop :=
  ∀ (s : State) (x : ExecId) (w : Workgroup) (e : Exec) (c : Clause), Issuing s x w e c →
    let special (f : Fmt) (zero inf : Bool → Nat) (a : FVal) (r : Word) : Prop :=
      match a with
      | .nan => r.toNat = f.nanBits
      | .inf neg => r.toNat = inf neg
      | .fin neg m _ => m = 0 → r.toNat = zero neg
    let fn (i : Alu1 → Instr) (n : Nat) (zero inf : Fmt → Bool → Nat) : Prop :=
      ∀ q : Alu1, Legal x w (i q) q.ctl → ∃ r : Nat → Word, Results s x w e c (i q) q.ctl 16 q.u q.ty q.d r ∧
        ∀ l, let f := fmtOf q.ty
          let a := unpackF f (e.src q.u q.ty q.a l).toNat
          let packed (rm : Rnd) : Nat := packF f rm false (transReal n a) % 2 ^ tyBits q.ty
          (q.ty ≠ .f32 → (r l).toNat = packed .rne) ∧ (q.ty = .f32 → (r l).toNat = packed .rdn ∨ (r l).toNat = packed .rup) ∧
          (n = 0 → q.ty = .f32 → packed .rdn < 2 ^ 23 → (r l).toNat = packed .rne) ∧
          special f (zero f) (inf f) a (r l)
    let approx (i : Alu1 → Instr) (z : FVal → Nat) (zero inf : Fmt → Bool → Nat) : Prop :=
      ∀ q : Alu1, Legal x w (i q) q.ctl → ∃ r : Nat → Word, Results s x w e c (i q) q.ctl 16 q.u q.ty q.d r ∧
        ∀ l, let a := unpackF fmtF32 (e.src q.u q.ty q.a l).toNat
          (r l).toNat = z a % 2 ^ 32 ∧ special fmtF32 (zero fmtF32) (inf fmtF32) a (r l)
    let one (f : Fmt) (_ : Bool) : Nat := f.bias * 2 ^ f.fb
    fn .fexp2 0 one (fun f neg => if neg then 0 else f.infBits) ∧
    fn .flog2 1 (fun f _ => f.withSign true f.infBits) (fun f neg => if neg then f.nanBits else f.infBits) ∧
    fn .fsinpi 2 (fun f neg => f.withSign neg 0) (fun f _ => f.nanBits) ∧ fn .fcospi 3 one (fun f _ => f.nanBits) ∧
    approx .rcpa (fun a => approx12 (divX (.fin false 1 0) a)) (fun f neg => f.withSign neg f.infBits) (fun f neg => f.withSign neg 0) ∧
    approx .rsqa rsqaBits (fun f neg => f.withSign neg f.infBits) (fun f neg => if neg then f.nanBits else 0) ∧
    (∀ q : Alu1, Legal x w (.fclass q) q.ctl → ∃ r : Nat → Word, Results s x w e c (.fclass q) q.ctl 4 q.u .b32 q.d r ∧
      ∀ l, let f := fmtOf q.ty
        let a := (e.src q.u q.ty q.a l).toNat
        (r l).toNat = match unpackF f a with
          | .nan => if a / 2 ^ (f.fb - 1) % 2 = 1 then 2 ^ 9 else 2 ^ 8
          | .inf neg => if neg then 2 ^ 0 else 2 ^ 7
          | .fin neg m _ =>
            if m = 0 then (if neg then 2 ^ 3 else 2 ^ 4) else if m < 2 ^ f.fb then (if neg then 2 ^ 2 else 2 ^ 5)
            else if neg then 2 ^ 1 else 2 ^ 6)

/-- R107, R108, R58 to R60: conversions of one value, and the elements of PACK and UNPK. -/
def Obligations.ConversionsAndPacking : Prop :=
  ∀ (s : State) (x : ExecId) (w : Workgroup) (e : Exec) (c : Clause), Issuing s x w e c →
    (∀ q : CvtW, Legal x w (.cvt q) q.ctl → ∃ r : Nat → Word, Results s x w e c (.cvt q) q.ctl 4 q.u q.ty q.d r ∧
      ∀ l, let a := (e.src q.u q.src q.a l).toNat
        let z := toInt (tySigned q.src) (tyBits q.src) a
        let real : XReal := if tyFloat q.src then XReal.ofF (unpackF (fmtOf q.src) a) else XReal.ofInt z 0 false
        (tyFloat q.ty = true → (r l).toNat = packF (fmtOf q.ty) q.rnd q.sat real % 2 ^ 64) ∧
        (tyFloat q.ty = false → tyFloat q.src = true → (r l).toNat = packI (tySigned q.ty) (tyBits q.ty) q.rnd real % 2 ^ 64) ∧
        (tyFloat q.ty = false → tyFloat q.src = false →
          toInt (tySigned q.ty) (tyBits q.ty) ((r l).toNat % 2 ^ tyBits q.ty) = narrowed q.ty q.sat z)) ∧
    (∀ q : PackW, Legal x w (.pack q) q.ctl → ∃ r : Nat → Word, Results s x w e c (.pack q) q.ctl 4 false .b32 q.d r ∧
      ∀ l j, j < packCount q.ty → let a := (e.rv (q.a.toNat + j) l).toNat
        (q.ty ≠ .i8x4 → elemAt (elemBits q.ty) (r l) j = packF (fmtOf q.ty) q.rnd q.sat (XReal.ofF (unpackF fmtF32 a)) % 2 ^ elemBits q.ty) ∧
        (q.ty = .i8x4 → elemInt .i8x4 (r l) j = narrowed .i8x4 q.sat (sext 32 a))) ∧
    (∀ q : PackW, Legal x w (.unpk q) q.ctl → ∃ r : Nat → Nat → Lane,
      Completes s x w e c (.unpk q) q.ctl
        { writes := (lanesOf (guardOf x e q.ctl)).flatMap fun l => (upto (packCount q.ty)).map fun j => .v (q.d.toNat + j) l (r l j) } ∧
      ∀ l j, j < packCount q.ty → let a := elemAt (elemBits q.ty) ((e.rv q.a.toNat l).setWidth 64) j
        (q.ty ≠ .i8x4 → (r l j).toNat = packF fmtF32 .rne false (XReal.ofF (unpackF (fmtOf q.ty) a)) % 2 ^ 32) ∧
        (q.ty = .i8x4 → (r l j).toInt = sext 8 a))

/-- R109 to R111: a compare splits G; SEL, and the words over whole apertures, which execute once if G is not empty. -/
def Obligations.ComparesAndApertures : Prop :=
  ∀ (s : State) (x : ExecId) (w : Workgroup) (e : Exec) (c : Clause), Issuing s x w e c →
    let split (i : CmpW → Instr) (holds : CmpW → Word → Word → Bool) : Prop :=
      ∀ q : CmpW, Legal x w (i q) q.ctl → let g := guardOf x e q.ctl
        ∃ t : LaneSet, (∀ l, l < 32 → t.getLsbD l =
            (g.getLsbD l && holds q (e.src q.u q.ty q.a (if q.u then 0 else l)) (e.src q.u q.ty q.b (if q.u then 0 else l)))) ∧
          Completes s x w e c (i q) q.ctl
            { writes := if q.u && g = 0 then [] else [.a q.t.toNat t, .a q.f.toNat (g &&& ~~~ t)] }
    let ints (q : CmpW) (a b : Word) : Bool :=
      let a := toInt (tySigned q.ty) (tyBits q.ty) a.toNat
      let b := toInt (tySigned q.ty) (tyBits q.ty) b.toNat
      match q.cond with
      | .eq => a = b | .ne => a ≠ b | .lt => a < b | .le => a ≤ b | .gt => a > b | .ge => a ≥ b | _ => false
    let floats (q : CmpW) (a b : Word) : Bool :=
      let a := unpackF (fmtOf q.ty) a.toNat
      let b := unpackF (fmtOf q.ty) b.toNat
      match q.cond with
      | .eq => eqF a b | .ne => !eqF a b | .lt => ltF a b | .le => ltF a b || eqF a b | .gt => ltF b a | .ge => ltF b a || eqF a b
      | .ord => !(isNan a || isNan b) | .uno => isNan a || isNan b
    let once (i : Instr) (ctl : Ctl) (r : RegVal) : Prop :=
      Legal x w i ctl → Completes s x w e c i ctl { writes := if guardOf x e ctl = 0 then [] else [r] }
    split .cmp ints ∧ split .fcmp floats ∧
    (∀ q : SelW, Legal x w (.sel q) q.ctl → Results s x w e c (.sel q) q.ctl 4 false q.ty q.d fun l =>
      e.src false q.ty (if (e.ra q.sel.toNat).getLsbD l then q.a else q.b) l) ∧
    (∀ q : AopW, ∃ r : LaneSet, once (.aop q) q.ctl (.a q.d.toNat r) ∧
      ∀ l, l < 32 → r.getLsbD l = q.tt.getLsbD (2 * ((e.ra q.a.toNat).getLsbD l).toNat + ((e.ra q.b.toNat).getLsbD l).toNat)) ∧
    (∀ q : AkW, once (.acnt q) q.ctl (.k q.d.toNat (BitVec.ofNat 64 ((List.range 32).countP fun l => (e.ra q.a.toNat).getLsbD l)))) ∧
    (∀ q : AkW, ∃ n, once (.afirst q) q.ctl (.k q.d.toNat (BitVec.ofNat 64 n)) ∧ n ≤ 32 ∧
      (∀ l, l < n → (e.ra q.a.toNat).getLsbD l = false) ∧ (n < 32 → (e.ra q.a.toNat).getLsbD n = true)) ∧
    (∀ q : AmovkW, once (.amovk q) q.ctl
      (if q.toA then .a q.ap.toNat ((e.rk q.k.toNat).setWidth 32) else .k q.k.toNat ((e.ra q.ap.toNat).setWidth 64)))

/-- R112 to R115, R67: cross-lane words read their sources of other lanes at issue; SCAN and REDUCE combine the lanes of G in rising
order. -/
def Obligations.CrossLaneWords : Prop :=
  ∀ (s : State) (x : ExecId) (w : Workgroup) (e : Exec) (c : Clause), Issuing s x w e c →
    (∀ q : ShflW, Legal x w (.shfl q) q.ctl → Results s x w e c (.shfl q) q.ctl 8 false q.ty q.d fun l =>
      let src : Int := match q.mode with
        | .idx => (e.rv q.b.toNat l).toNat | .up => (l : Int) - q.delta.toNat | .down => (l : Int) + q.delta.toNat
        | .xor => ((l ^^^ q.delta.toNat : Nat) : Int)
      e.src false q.ty q.a (if 0 ≤ src ∧ src ≤ 31 ∧ (guardOf x e q.ctl).getLsbD src.toNat then src.toNat else l)) ∧
    (∀ q : BcastW, Legal x w (.bcast q) q.ctl → Results s x w e c (.bcast q) q.ctl 8 false q.ty q.d fun _ =>
      let i := (e.rk q.k.toNat).toNat
      if i < 32 ∧ e.a0.getLsbD i then e.src false q.ty q.a i else 0) ∧
    (∀ q : ShflxW, Legal x w (.shflx q) q.ctl → Results s x w e c (.shflx q) q.ctl 8 false .b32 q.d fun l =>
      let i := (e.rv q.b.toNat l).toNat % 64
      if e.a0.getLsbD (i % 32) then (e.rv (if i < 32 then q.a.toNat else q.a.toNat + 1) (i % 32)).setWidth 64 else 0) ∧
    let through (i : ScanW → Instr) (val : ScanW → Word → List Word → Nat → Word) : Prop :=
      ∀ q : ScanW, Legal x w (i q) q.ctl → let ls := lanesOf (guardOf x e q.ctl)
        Completes s x w e c (i q) q.ctl
          { lat := 8, writes := match ls.map fun l => e.src false q.ty q.a l with
              | [] => []
              | y :: ys => (ls.zip (upto ls.length)).flatMap fun p => dst false q.ty q.d p.1 (val q y ys p.2) }
    through .scan (fun q y ys n =>
      if q.excl then (if n = 0 then identity q.ty q.op q.rnd else (ys.take (n - 1)).foldl (combine q.ty q.op q.rnd q.sat) y)
      else (ys.take n).foldl (combine q.ty q.op q.rnd q.sat) y) ∧
    through .reduce (fun q y ys _ => ys.foldl (combine q.ty q.op q.rnd q.sat) y)

/-- R118: PEXT, PCNT and PFIRST read a pool at their issue; the words that write a pool do it at their clause's commit, each in one step
over the pools as they stand then, and a word that writes a pool sets its tag (R119). -/
def Obligations.PoolWords : Prop :=
  (∀ (s : State) (x : ExecId) (w : Workgroup) (e : Exec) (c : Clause), Issuing s x w e c →
    let bit (p : PoolReg) (i : Nat) : Bool := (poolOf w p.toNat).getLsbD i
    let home (l : Nat) : Nat := if isSlot x.ctx then mapGet 0 e.origin l else 32 * x.ctx + l
    (∀ q : PextW, Legal x w (.pext q) q.ctl → ∃ r : LaneSet,
      Completes s x w e c (.pext q) q.ctl { writes := if guardOf x e q.ctl = 0 then [] else [.a q.ad.toNat r] } ∧
      ∀ l, l < 32 → r.getLsbD l = ((!isSlot x.ctx || e.base.getLsbD l) && bit q.pa (home l))) ∧
    (∀ q : PkW, Legal x w (.pcnt q) q.ctl → Completes s x w e c (.pcnt q) q.ctl
      { writes := if executes x e q.ctl then [.k q.kd.toNat (BitVec.ofNat 64 ((List.range 1024).countP (bit q.pa)))] else [] }) ∧
    (∀ q : PkW, Legal x w (.pfirst q) q.ctl → ∃ n, n ≤ 1024 ∧ (∀ i, i < n → bit q.pa i = false) ∧ (n < 1024 → bit q.pa n = true) ∧
      Completes s x w e c (.pfirst q) q.ctl { writes := if executes x e q.ctl then [.k q.kd.toNat (BitVec.ofNat 64 n)] else [] }) ∧
    (∀ q : PdepW, Legal x w (.pdep q) q.ctl → CapturesIfOn s x w e c (.pdep q) q.ctl [(e.ra q.ae.toNat &&& e.a0).setWidth 64]) ∧
    (∀ q : PoolopW, Legal x w (.poolop q) q.ctl → CapturesIfOn s x w e c (.poolop q) q.ctl []) ∧
    (∀ q : PdW, Legal x w (.pclr q) q.ctl → CapturesIfOn s x w e c (.pclr q) q.ctl []) ∧
    (∀ q : PdW, Legal x w (.pfill q) q.ctl → CapturesIfOn s x w e c (.pfill q) q.ctl [])) ∧
  (∀ (s : State) (x : ExecId) (w : Workgroup) (e : Exec) (c : Clause) (it : Item), s.wg x.core = some w → w.exec x.ctx = some e →
    mapWf (0 : BitVec 1024) w.pools = true → mapWf none w.tags = true →
    let own : Nat × Nat := (w.wgid, w.launch.gen)
    let becomes (p : PoolReg) (b : Nat → Bool) (tag : Nat × Nat) : Prop :=
      ∃ t w', commitItem s x c it = .ok t ∧ t.wg x.core = some w' ∧ (∀ i, i < 1024 → (poolOf w' p.toNat).getLsbD i = b i) ∧
        tagOf w' p.toNat = tag ∧ (∀ r, r ≠ p.toNat → poolOf w' r = poolOf w r ∧ tagOf w' r = tagOf w r) ∧ t.mem = s.mem
    (∀ q : PoolopW, it.instr = .poolop q → becomes q.pd
      (fun i => let a := (poolOf w q.pa.toNat).getLsbD i
        let b := (poolOf w q.pb.toNat).getLsbD i
        match q.fn with | .or => a || b | .and => a && b | .andn => a && !b | .xor => a != b)
      (if tagOf w q.pa.toNat = own then tagOf w q.pb.toNat else tagOf w q.pa.toNat)) ∧
    (∀ q : PdW, it.instr = .pclr q → becomes q.pd (fun _ => false) own) ∧
    (∀ q : PdepW, it.instr = .pdep q → isSlot x.ctx = false → x.ctx < 32 → becomes q.pd
      (fun i => if i / 32 = x.ctx then ((it.kv.getD 0 0).setWidth 32 : LaneSet).getLsbD (i % 32) else (poolOf w q.pd.toNat).getLsbD i)
      (tagOf w q.pd.toNat)) ∧
    (∀ q : PdepW, it.instr = .pdep q → isSlot x.ctx = true → becomes q.pd
      (fun i =>
        let homes : List Nat := (List.range 32).filter fun l => e.base.getLsbD l && decide (mapGet 0 e.origin l = i)
        if homes = [] then (poolOf w q.pd.toNat).getLsbD i
        else homes.any fun l => ((it.kv.getD 0 0).setWidth 32 : LaneSet).getLsbD l)
      (tagOf w q.pd.toNat)) ∧
    (∀ q : PdW, it.instr = .pfill q → mapWf none w.execs = true → (∀ n p, w.exec n = some p → ∀ c ∈ p.clauses, c.parts = none) → becomes q.pd
      (fun i => match w.exec (i / 32) with | some p => p.a0.getLsbD (i % 32) | none => false) own))

/-- R121 to R125: pool records, applies, parking and release capture what their commit needs. At its commit YIELDH parks its executor, and
RELEASE ends the parking of every parked home warp with a bit in the pool, or of all: each goes on, an acquire that pairs with the word; a
member of an apply in progress is released when that ends. PST keeps the record of the pool as it stands at the commit, and writes it; PLD
replaces pool and tag in one step. -/
def Obligations.PoolRecordsAppliesAndParking : Prop :=
  (∀ (s : State) (x : ExecId) (w : Workgroup) (e : Exec) (c : Clause), Issuing s x w e c →
    let record (q : PmemW) : Word := e.rk q.kB.toNat + BitVec.ofInt 64 (16 * q.off.toInt)
    (∀ q : PmemW, Legal x w (.pst q) q.ctl → Captures s x w e c (.pst q) q.ctl [record q] []) ∧
    (∀ q : PmemW, Legal x w (.pld q) q.ctl → Captures s x w e c (.pld q) q.ctl [record q] []) ∧
    (∀ q : ApplyW, Legal x w (.apply q) q.ctl → CapturesIfOn s x w e c (.apply q) q.ctl [e.rk q.kt.toNat]) ∧
    (∀ q : ApplywW, Legal x w (.applyw q) q.ctl → CapturesIfOn s x w e c (.applyw q) q.ctl [e.rk q.kt.toNat]) ∧
    (∀ q : Ctl, Legal x w (.yieldh q) q → CapturesIfOn s x w e c (.yieldh q) q []) ∧
    (∀ q : ReleaseW, Legal x w (.release q) q.ctl → CapturesIfOn s x w e c (.release q) q.ctl [])) ∧
  (∀ (s : State) (x : ExecId) (w : Workgroup) (e : Exec) (c : Clause) (it : Item), s.wg x.core = some w → w.exec x.ctx = some e →
    let rel : Rel := ⟨x, s.fresh⟩
    let record (p : PoolReg) : List Byte :=
      leBytes 128 (poolOf w p.toNat).toNat ++ leBytes 4 (tagOf w p.toNat).1 ++ leBytes 4 0 ++ leBytes 8 (tagOf w p.toNat).2
    (∀ q : Ctl, it.instr = .yieldh q → ∃ e', commitItem s x c it = .ok (s.setExec x e') ∧ { e' with waits := e.waits } = e ∧
      e'.waits = if .parked ∈ e.waiting then e.waits else e.waits ++ [.parked]) ∧
    (∀ q : ReleaseW, it.instr = .release q → mapWf none w.execs = true →
      let named (n : Nat) : Prop := n < 32 ∧ (q.all = true ∨ ∃ i, i < 1024 ∧ i / 32 = n ∧ (poolOf w q.pa.toNat).getLsbD i = true)
      let member (n : Nat) : Prop := n < 32 ∧ ∃ a, w.apply = some a ∧ ∃ m ∈ a.members, m / 32 = n
      ∃ t w', commitItem s x c it = .ok t ∧ t.wg x.core = some w' ∧ t.mem = s.mem ∧ t.events = s.events ∧
        (∀ n d, w.exec n = some d → ∃ d', w'.exec n = some d' ∧ d'.pc = d.pc ∧ d'.clauses = d.clauses ∧ (∀ r l, d'.rv r l = d.rv r l) ∧
          (∀ r, d'.rk r = d.rk r) ∧ (∀ r, d'.ra r = d.ra r) ∧
          (named n ∧ ¬ member n ∧ .parked ∈ d.waits → d'.waits = d.waits.erase .parked ∧ s.now x.core < d'.readyAt ∧
            ∃ h, d'.holds = d.holds ++ [h] ∧ h.on = [rel] ∧ h.scope = .wg ∧ h.key = none) ∧
          (¬ (named n ∧ ¬ member n ∧ .parked ∈ d.waits) → d'.waits = d.waits ∧ d'.readyAt = d.readyAt ∧ d'.holds = d.holds)) ∧
        (w.apply = none → w'.apply = none) ∧
        ∀ a, w.apply = some a → ∃ late, w'.apply = some { a with released := a.released ++ late } ∧
          ∀ p, p ∈ late ↔ p.2 = rel ∧ named p.1 ∧ member p.1 ∧ ∃ d, w.exec p.1 = some d ∧ (.parked ∈ d.waits ∨ p.1 ∈ a.active)) ∧
    (∀ (q : PmemW) (addr : Word), it.instr = .pst q → it.on = true → it.kv = [addr] → q.sp = .sp → addr.toNat % 16 = 0 →
      addr.toNat + 144 ≤ w.launch.spsize → ∃ t e' o, commitItem s x c it = .ok t ∧ t.exec x = some e' ∧ e'.ops = e.ops ++ [o] ∧
        o.cls = .s ∧ o.performed = false ∧ o.vals = [] ∧ o.item.instr = .pst q ∧ o.item.kv.head? = some addr ∧
        o.item.kv.tail.flatMap (fun k => leBytes 8 k.toNat) = record q.p ∧ e'.cS = e.cS + 1 ∧ t.mem = s.mem) ∧
    (∀ (q : PmemW) (addr : Word), it.instr = .pld q → it.on = true → it.kv = [addr] → q.sp = .sp → addr.toNat % 16 = 0 →
      addr.toNat + 144 ≤ w.launch.spsize → ∃ t e' o, commitItem s x c it = .ok t ∧ t.exec x = some e' ∧ e'.ops = e.ops ++ [o] ∧
        o.cls = .l ∧ o.performed = false ∧ o.item.instr = .pld q ∧ o.item.kv = [addr] ∧ e'.cL = e.cL + 1 ∧ t.mem = s.mem)) ∧
  (∀ (s : State) (x : ExecId) (w : Workgroup) (e : Exec) (o : Op) (addr : Word) (h : Nat) (space : Space), Alone s x w e o →
    Memory.wf s.mem = true → (s.core x.core).l1 = [] → s.marks = [] → s.regions = [] → o.item.on = true → o.item.kv.head? = some addr →
    o.lanes = laneSet ((accsOf o.item).map accLane) → o.vals = [] → o.got = [] → o.due = [] → o.low = 0 → o.high = 0 → o.tag = 0 ∨ 6 ≤ o.tag →
    (∀ p ∈ o.item.xl, p.2.remote = none) → addr.toNat % 16 = 0 →
    (∀ j, j < 144 → locOf x.core o.item.xl space (addr.toNat + j) = .home (h + j)) →
    let all : LanePart := ⟨BitVec.allOnes 32, 3⟩
    let none0 (_ _ : Nat) : Option Lane := none
    (∀ q : PmemW, o.item.instr = .pst q → formOk (.pst q) = true → q.sp = space → o.cls = .s → (space = .gl → 3 ≤ scopeNum q.scope) →
      o.item.kv.length = 19 → ∃ t, exec (.storePerformed x o.id all) s = .next t ∧
        Stored s t h (o.item.kv.tail.flatMap fun k => leBytes 8 k.toNat) ∧ Performed t x e o none0 (fun _ => none) fun _ => none) ∧
    (∀ q : PmemW, o.item.instr = .pld q → formOk (.pld q) = true → q.sp = space → o.cls = .l → mapWf 0 w.pools = true →
      mapWf none w.tags = true → ∃ t w', exec (.loadComplete x o.id all 0xF .good) s = .next t ∧ t.mem = s.mem ∧ t.wg x.core = some w' ∧
        (∀ i, i < 1024 → (poolOf w' q.p.toNat).getLsbD i =
          ((BitVec.ofNat 1024 (readNat s.mem h 128)).getLsbD i && decide (i < 32 * w.launch.nwarps))) ∧
        tagOf w' q.p.toNat = (readNat s.mem (h + 128) 8, readNat s.mem (h + 136) 8) ∧
        (∀ r, r ≠ q.p.toNat → poolOf w' r = poolOf w r ∧ tagOf w' r = tagOf w r) ∧
        Performed t x e o none0 (fun _ => none) fun _ => none))

/-- R81, R133, R134: a branch whose word executes and whose condition holds transfers to the clause's header plus 8 times its offset;
LOOP counts its register down and branches while it is not zero. -/
def Obligations.Branches : Prop :=
  ∀ (s : State) (x : ExecId) (w : Workgroup) (e : Exec) (c : Clause), Issuing s x w e c →
    let jump (off : BitVec 27) (taken : Bool) (ws : List RegVal) : Eff :=
      if taken then { writes := ws, target := some (transferTo c off), item := some ([BitVec.ofNat 64 (transferTo c off)], []) }
      else { writes := ws }
    (∀ q : BraW, Legal x w (.bra q) q.ctl → Completes s x w e c (.bra q) q.ctl (jump q.off (executes x e q.ctl) [])) ∧
    (∀ q : BapW, Legal x w (.bany q) q.ctl → Completes s x w e c (.bany q) q.ctl
      (jump q.off (decide (guardOf x e q.ctl &&& e.ra q.ap.toNat ≠ 0)) [])) ∧
    (∀ q : BapW, Legal x w (.ball q) q.ctl → Completes s x w e c (.ball q) q.ctl
      (jump q.off (decide (guardOf x e q.ctl ≠ 0) && decide (guardOf x e q.ctl &&& ~~~ e.ra q.ap.toNat = 0)) [])) ∧
    (∀ q : BapW, Legal x w (.bnone q) q.ctl → Completes s x w e c (.bnone q) q.ctl
      (jump q.off (decide (guardOf x e q.ctl ≠ 0) && decide (guardOf x e q.ctl &&& e.ra q.ap.toNat = 0)) [])) ∧
    (∀ q : BkW, Legal x w (.bk q) q.ctl →
      let k := (e.rk q.k.toNat).toInt
      let holds : Bool := match q.cc with
        | .eq => k = 0 | .ne => k ≠ 0 | .lt => k < 0 | .le => k ≤ 0 | .gt => k > 0 | .ge => k ≥ 0 | _ => false
      Completes s x w e c (.bk q) q.ctl (jump q.off (executes x e q.ctl && holds) [])) ∧
    (∀ q : CallW, Legal x w (.loop q) q.ctl →
      let k := e.rk q.d.toNat - 1
      Completes s x w e c (.loop q) q.ctl
        (jump q.off (executes x e q.ctl && decide (k ≠ 0)) (if executes x e q.ctl then [.k q.d.toNat k] else [])))

/-- R135 to R137: calls leave the fall-through header in their link register; a CALLI with several targets runs the lanes of the lowest
first and stacks the rest; RET at a partition's return address goes on to the next partition, or restores the lanes. -/
def Obligations.CallsAndReturns : Prop :=
  ∀ (s : State) (x : ExecId) (w : Workgroup) (e : Exec) (c : Clause), Issuing s x w e c →
    let link (d : KReg) : RegVal := .k d.toNat (BitVec.ofNat 64 ((c.code.addr + 8 * (c.code.words.length + 1)) % 2 ^ 64))
    (∀ q : CallW, Legal x w (.call q) q.ctl → Completes s x w e c (.call q) q.ctl
      (if executes x e q.ctl then
        { writes := [link q.d], target := some (transferTo c q.off), item := some ([BitVec.ofNat 64 (transferTo c q.off)], []) } else {})) ∧
    (∀ q : CalliW, Legal x w (.calli q) q.ctl →
      let g := guardOf x e q.ctl
      let goal (l : Nat) : Nat := if q.u then (e.rk q.a.toNat).toNat else (e.rv (q.a.toNat + 1) l).toNat * 2 ^ 32 + (e.rv q.a.toNat l).toNat
      (executes x e q.ctl = false → Completes s x w e c (.calli q) q.ctl {}) ∧
      (∀ n, executes x e q.ctl = true → (q.u = true ∨ ∀ l, l < 32 → g.getLsbD l = true → goal l = n) → (q.u = true → goal 0 = n) →
        Completes s x w e c (.calli q) q.ctl
          { writes := [link q.d], target := some n, item := some ([0, BitVec.ofNat 64 n, g.setWidth 64], []) }) ∧
      (∀ l m, q.u = false → l < 32 → m < 32 → g.getLsbD l = true → g.getLsbD m = true → goal l ≠ goal m →
        ∃ (p : Part) (rest : List Part) (kv : List Word),
          (p :: rest).Pairwise (fun a b => a.target < b.target) ∧
          (∀ a ∈ p :: rest, ∀ i, i < 32 → a.lanes.getLsbD i = (g.getLsbD i && decide (goal i = a.target))) ∧
          (∀ i, i < 32 → g.getLsbD i = true → ∃ a ∈ p :: rest, a.target = goal i) ∧
          Completes s x w e c (.calli q) q.ctl
            { writes := [link q.d], target := some p.target, item := some (kv, [])
              part := some { a0 := p.lanes, stack :=
                { a0 := e.a0, rest, ret := (c.code.addr + 8 * (c.code.words.length + 1)) % 2 ^ 64 } :: e.parts } })) ∧
    (∀ q : RetW, Legal x w (.ret q) q.ctl →
      let n := (e.rk q.a.toNat).toNat
      let go (n : Nat) (p : Option PartSave) : Eff := { target := some n, item := some ([BitVec.ofNat 64 n], []), part := p }
      Completes s x w e c (.ret q) q.ctl
        (if executes x e q.ctl = false then {} else match e.parts with
          | [] => go n none
          | top :: stack =>
            if top.ret ≠ n then go n none else match top.rest with
              | [] => go n (some { a0 := top.a0, stack })
              | p :: rest => go p.target (some { a0 := p.lanes, stack := { top with rest } :: stack })))

/-- R137, R139, R73: words that end an executor or only take time. STALL holds the next word n cycles longer; YIELD marks its clause. -/
def Obligations.TimeAndExitWords : Prop :=
  ∀ (s : State) (x : ExecId) (w : Workgroup) (e : Exec) (c : Clause), Issuing s x w e c →
    (∀ q : Ctl, Legal x w (.nop q) q → Completes s x w e c (.nop q) q {}) ∧
    (∀ q : TrapW, Legal x w (.bkpt q) q.ctl → Completes s x w e c (.bkpt q) q.ctl {}) ∧
    (∀ q : StallW, Legal x w (.stall q) q.ctl →
      Completes s x w e c (.stall q) q.ctl { extra := if executes x e q.ctl then q.n.toNat else 0 }) ∧
    (∀ q : StallW, Legal x w (.yield q) q.ctl → CapturesIfOn s x w e c (.yield q) q.ctl []) ∧
    (∀ q : Ctl, Legal x w (.exit q) q → CapturesIfOn s x w e c (.exit q) q [])

/-- R138: TAKE receives the oldest decision not yet taken, or the empty aperture from a closed queue, else it waits at its place; GIVE
reserves an entry of the home warp it names, waits while that queue is full, and traps on a warp that is not launched. -/
def Obligations.TakeAndGive : Prop :=
  ∀ (s : State) (x : ExecId) (w : Workgroup) (e : Exec) (c : Clause), Issuing s x w e c →
    (∀ q : TakeW, Legal x w (.take q) q.ctl →
      let entry := e.queue[(e.clauses.map (·.takes)).sum]?
      (executes x e q.ctl = false → Completes s x w e c (.take q) q.ctl {}) ∧
      (∀ k, executes x e q.ctl = true → entry = some k →
        Completes s x w e c (.take q) q.ctl { writes := [.k q.d.toNat k.value, .a q.ap.toNat e.a0], takes := 1, item := some ([], []) }) ∧
      (executes x e q.ctl = true → entry = none → e.queueClosed = true →
        Completes s x w e c (.take q) q.ctl { writes := [.a q.ap.toNat 0] }) ∧
      (executes x e q.ctl = true → entry = none → e.queueClosed = false → Stays s x w e c (.take q))) ∧
    (∀ q : GiveW, Legal x w (.give q) q.ctl →
      let n := (e.rk q.b.toNat).toNat
      let full (r : Exec) : Prop := r.retired = false ∧ 16 ≤ r.queue.length + r.queueHeld
      (w.launch.nwarps ≤ n → Traps s x w e c (.give q) (wordCause x e c q.ctl 0x02 0)) ∧
      (∀ r, n < w.launch.nwarps → w.exec n = some r → full r → Stays s x w e c (.give q)) ∧
      (∀ r, n < w.launch.nwarps → w.exec n = some r → ¬ full r →
        ∃ u, exec (.give q) s = .next (u.updExec ⟨x.core, n⟩ fun r => { r with queueHeld := r.queueHeld + 1 }) ∧
          Issued s u x w e c (.give q) q.ctl { item := some ([e.rk q.a.toNat, BitVec.ofNat 64 n], []), gives := some n }))

/-- R140 to R143: a load, store or atomic reads its addresses at issue, and a store or atomic its data registers too; their effects come
after the commit. The element is the type's size in bytes, 16 in the wide forms. -/
def Obligations.LoadsStoresAndAtomicsCapture : Prop :=
  ∀ (s : State) (x : ExecId) (w : Workgroup) (e : Exec) (c : Clause), Issuing s x w e c →
    let rows (first n : Nat) : List (List Lane) := (span first n).map fun r => (upto 32).map fun l => e.rv r l
    let regs (wide : Bool) (t : Ty) : Nat := if wide then 4 else if tyIs64 t then 2 else 1
    let size (wide : Bool) (t : Ty) : Nat := if wide then 16 else tyBytes t
    let load (i : MemW → Instr) (wide : Bool) : Prop := ∀ q : MemW, Legal x w (i q) q.ctl →
      Captures s x w e c (i q) q.ctl (laneAddresses e (guardOf x e q.ctl) q.a (size wide q.ty) q.idx q.off.toInt) []
    let store (i : MemW → Instr) (wide : Bool) : Prop := ∀ q : MemW, Legal x w (i q) q.ctl →
      Captures s x w e c (i q) q.ctl (laneAddresses e (guardOf x e q.ctl) q.a (size wide q.ty) q.idx q.off.toInt)
        (rows q.d.toNat (regs wide q.ty))
    let atom (i : AtomW → Instr) : Prop := ∀ q : AtomW, Legal x w (i q) q.ctl →
      Captures s x w e c (i q) q.ctl (laneAddresses e (guardOf x e q.ctl) q.a (tyBytes q.ty) q.idx q.off.toInt)
        (rows q.d.toNat (regs false q.ty))
    let cas (i : CasW → Instr) : Prop := ∀ q : CasW, Legal x w (i q) q.ctl →
      Captures s x w e c (i q) q.ctl (laneAddresses e (guardOf x e q.ctl) q.a (tyBytes q.ty) q.idx q.off.toInt)
        (rows q.d.toNat (2 * regs false q.ty))
    load .ld false ∧ load .ldx true ∧ load .lds false ∧ load .ldsx true ∧ load .ldv false ∧ load .lda false ∧
    store .st false ∧ store .stx true ∧ store .sts false ∧ store .stsx true ∧ store .stv false ∧ store .stl false ∧
    atom .atom ∧ atom .atomn ∧ atom .atoms ∧ atom .atomv ∧ cas .cas ∧ cas .cass ∧ cas .casv ∧
    (∀ q : PrefW, Legal x w (.pref q) q.ctl →
      Captures s x w e c (.pref q) q.ctl (laneAddresses e (guardOf x e q.ctl) q.a (tyBytes q.ty) q.idx q.off.toInt) [])

/-- R141, R143, R149, R153 to R155: uniform accesses, WAITA, fences and cache words; WAIT completes once every counter is at or below
its threshold and waits at its place until then. -/
def Obligations.UniformAccessesWaitsAndFences : Prop :=
  ∀ (s : State) (x : ExecId) (w : Workgroup) (e : Exec) (c : Clause), Issuing s x w e c →
    let addr (a : KReg) (size : Nat) (off : BitVec 9) : Word := e.rk a.toNat + BitVec.ofInt 64 (off.toInt * size)
    (∀ q : UmemW, Legal x w (.ldk q) q.ctl → Captures s x w e c (.ldk q) q.ctl [addr q.a (tyBytes q.ty) q.off] []) ∧
    (∀ q : UmemW, Legal x w (.stk q) q.ctl →
      Captures s x w e c (.stk q) q.ctl [addr q.a (tyBytes q.ty) q.off, e.rk q.d.toNat] []) ∧
    (∀ q : WaitaW, Legal x w (.waita q) q.ctl → CapturesIfOn s x w e c (.waita q) q.ctl [addr q.a 4 q.off, e.rk q.b.toNat]) ∧
    (∀ q : FenceW, Legal x w (.fence q) q.ctl → CapturesIfOn s x w e c (.fence q) q.ctl []) ∧
    (∀ q : CacheW, Legal x w (.cwb q) q.ctl → Captures s x w e c (.cwb q) q.ctl [e.rk q.a.toNat, e.rk q.b.toNat] []) ∧
    (∀ q : CacheW, Legal x w (.cinv q) q.ctl → Captures s x w e c (.cinv q) q.ctl [e.rk q.a.toNat, e.rk q.b.toNat] []) ∧
    (∀ q : WaitW, Legal x w (.wait q) q.ctl →
      let met : Prop := e.cL ≤ q.l.toNat ∧ e.cS ≤ q.s.toNat ∧ e.cC ≤ q.c.toNat ∧ e.cT ≤ q.t.toNat ∧ e.cX ≤ q.x.toNat
      (met → Completes s x w e c (.wait q) q.ctl {}) ∧ (executes x e q.ctl = false → Completes s x w e c (.wait q) q.ctl {}) ∧
      (¬ met → executes x e q.ctl = true → Stays s x w e c (.wait q)))

/-- R164 to R173: barriers, event words, rings and work-lists capture their operands; EVWAIT and EVTEST with `.any` and an empty mask are
illegal instructions (R167). At their commits EVSET and EVCLR set and clear bits of their cluster, and the one waiter that an EVSET
satisfies goes on; EVTEST gives its answer, EVWAIT waits unless its condition holds, and with `.clr` one that holds clears its bits. BAR
arrives, and the last arrival lets every executor of the barrier go on; one with another count traps. GBAR does the same for a gang's
headsprings. -/
def Obligations.SynchronisingWords : Prop :=
  (∀ (s : State) (x : ExecId) (w : Workgroup) (e : Exec) (c : Clause), Issuing s x w e c →
    let ks (n : KReg) (m : Nat) : List Word := (span n.toNat m).map e.rk
    let row (r : VReg) : List Lane := (upto 32).map fun l => e.rv r.toNat l
    let ring (i : RingW → Instr) : Prop := ∀ q : RingW, Legal x w (i q) q.ctl → Completes s x w e c (i q) q.ctl
      { item := some (if executes x e q.ctl then [e.rk q.a.toNat, e.rk q.b.toNat] else [], []) }
    let test (i : Instr) (ctl : Ctl) (a : KReg) (any : Bool) : Prop := Legal x w i ctl →
      let empty : Prop := any = true ∧ ∀ k ∈ ks a 4, k = 0
      (¬ empty → CapturesIfOn s x w e c i ctl (ks a 4)) ∧
      (empty → executes x e ctl = true → Traps s x w e c i (wordCause x e c ctl 0x02 0)) ∧
      (empty → executes x e ctl = false → Completes s x w e c i ctl {})
    (∀ q : BarW, Legal x w (.bar q) q.ctl → CapturesIfOn s x w e c (.bar q) q.ctl []) ∧
    (∀ q : GbarW, Legal x w (.gbar q) q.ctl → CapturesIfOn s x w e c (.gbar q) q.ctl []) ∧
    (∀ q : EvsetW, Legal x w (.evset q) q.ctl → CapturesIfOn s x w e c (.evset q) q.ctl (ks q.a 4)) ∧
    (∀ q : EvclrW, Legal x w (.evclr q) q.ctl → CapturesIfOn s x w e c (.evclr q) q.ctl (ks q.a 4)) ∧
    (∀ q : EvwaitW, test (.evwait q) q.ctl q.a q.any) ∧ (∀ q : EvtestW, test (.evtest q) q.ctl q.a q.any) ∧
    ring .rput ∧ ring .rget ∧
    (∀ q : RingW, Legal x w (.rcur q) q.ctl → CapturesIfOn s x w e c (.rcur q) q.ctl [e.rk q.a.toNat, e.rk q.b.toNat]) ∧
    (∀ q : KaW, Legal x w (.wlsort q) q.ctl → CapturesIfOn s x w e c (.wlsort q) q.ctl [e.rk q.a.toNat]) ∧
    (∀ q : KdaW, Legal x w (.wlcnt q) q.ctl → CapturesIfOn s x w e c (.wlcnt q) q.ctl [e.rk q.a.toNat]) ∧
    (∀ q : WlpushW, Legal x w (.wlpush q) q.ctl → Captures s x w e c (.wlpush q) q.ctl [e.rk q.a.toNat] [row q.b]) ∧
    (∀ q : WlpushW, Legal x w (.wlins q) q.ctl → Captures s x w e c (.wlins q) q.ctl [e.rk q.a.toNat] [row q.b]) ∧
    (∀ q : WlpopW, Legal x w (.wlpop q) q.ctl → Captures s x w e c (.wlpop q) q.ctl [e.rk q.a.toNat] [])) ∧
  (∀ (s : State) (x : ExecId) (w : Workgroup) (e : Exec) (c : Clause) (it : Item), s.wg x.core = some w → w.exec x.ctx = some e →
    e.shadow = none → mapWf 0 s.events = true → mapWf 0 e.k = true → it.kv.length = 4 →
    let cl : Nat := x.core / 8
    let bits : BitVec 256 := mapGet 0 s.events cl
    let mask (i : Nat) : Bool := (it.kv.getD (i / 64) 0).getLsbD (i % 64)
    let holds (any : Bool) (m : Nat → Bool) (b : Nat → Bool) : Prop :=
      if any = true then ∃ i, i < 256 ∧ m i = true ∧ b i = true else ∀ i, i < 256 → m i = true → b i = true
    let events (t : State) (b : Nat → Bool) : Prop := (∀ i, i < 256 → (mapGet 0 t.events cl).getLsbD i = b i) ∧
      ∀ n, n ≠ cl → mapGet 0 t.events n = mapGet 0 s.events n
    let stays (t : State) (e' : Exec) : Prop := t.exec x = some e' ∧ t.mem = s.mem ∧ e'.pc = e.pc ∧ (∀ r l, e'.rv r l = e.rv r l) ∧
      (∀ r, e'.ra r = e.ra r) ∧ ∀ cls, counterOf e' cls = counterOf e cls
    (∀ q : EvsetW, it.instr = .evset q → sleepers s = [] → (∀ p ∈ s.busy, ∀ d ∈ p.2.all, ∀ wt ∈ d.2.waits, ∀ n, wt ≠ .sleep n) →
      (eventWaiters s cl = [] → ∃ t e', commitItem s x c it = .ok t ∧ stays t e' ∧ (∀ r, e'.rk r = e.rk r) ∧ e'.waits = e.waits ∧
        events t fun i => bits.getLsbD i || mask i) ∧
      (∀ v, eventWaiters s cl = [v] → v.x ≠ x → ∀ d, s.exec v.x = some d → ∃ t d', commitItem s x c it = .ok t ∧ t.exec v.x = some d' ∧
        t.mem = s.mem ∧
        let after (i : Nat) : Bool := bits.getLsbD i || mask i
        (holds v.any v.mask.getLsbD after → d'.waits = d.waits.erase v.wait ∧ s.now v.x.core < d'.readyAt ∧
          events t fun i => after i && !(v.clr && v.mask.getLsbD i)) ∧
        (¬ holds v.any v.mask.getLsbD after → d' = d ∧ events t after))) ∧
    (∀ q : EvclrW, it.instr = .evclr q → eventWaiters s cl = [] → ∃ t e', commitItem s x c it = .ok t ∧ stays t e' ∧
      (∀ r, e'.rk r = e.rk r) ∧ e'.waits = e.waits ∧ events t fun i => bits.getLsbD i && !mask i) ∧
    (∀ q : EvwaitW, it.instr = .evwait q → ∃ t e', commitItem s x c it = .ok t ∧ stays t e' ∧ (∀ r, e'.rk r = e.rk r) ∧
      (holds q.any mask bits.getLsbD → e'.waits = e.waits ∧ events t fun i => bits.getLsbD i && !(q.clr && mask i)) ∧
      (¬ holds q.any mask bits.getLsbD → t.events = s.events ∧ ∃ m order, e'.waits = e.waits ++ [.event m q.any q.clr q.scope order] ∧
        ∀ i, i < 256 → m.getLsbD i = mask i)) ∧
    (∀ q : EvtestW, it.instr = .evtest q → ∃ t e', commitItem s x c it = .ok t ∧ stays t e' ∧ e'.waits = e.waits ∧
      (∀ r, r ≠ q.d.toNat → e'.rk r = e.rk r) ∧
      (holds q.any mask bits.getLsbD → e'.rk q.d.toNat = 1 ∧ events t fun i => bits.getLsbD i && !(q.clr && mask i)) ∧
      (¬ holds q.any mask bits.getLsbD → e'.rk q.d.toNat = 0 ∧ t.events = s.events))) ∧
  (∀ (s : State) (x : ExecId) (w : Workgroup) (e : Exec) (c : Clause) (it : Item), s.wg x.core = some w → w.exec x.ctx = some e →
    (∀ q : BarW, it.instr = .bar q → mapWf none w.barriers = true →
      let n := q.n.toNat
      let id := q.id.toNat
      let here : List (Nat × Scope × Nat) := ((mapGet none w.barriers id).map (·.arrived)).getD []
      let fits : Prop := n ≤ w.launch.nwarps + 1 ∧ ∀ b, mapGet none w.barriers id = some b → b.count = n
      (¬ fits → ∃ cause, commitItem s x c it = .error (.cause cause) ∧ cause.code = 0x0A ∧ cause.word = it.idx) ∧
      (fits → ∃ t w' e', commitItem s x c it = .ok t ∧ t.wg x.core = some w' ∧ w'.exec x.ctx = some e' ∧ t.mem = s.mem ∧ e'.pc = e.pc ∧
        (∀ j, j ≠ id → mapGet none w'.barriers j = mapGet none w.barriers j) ∧
        (here.length + 1 < n → e'.waits = e.waits ++ [.barrier id] ∧ (∀ j, j ≠ x.ctx → w'.exec j = w.exec j) ∧
          mapGet none w'.barriers id = some { count := n, arrived := here ++ [(x.ctx, q.scope, s.fresh)] }) ∧
        (n ≤ here.length + 1 → .barrier id ∉ e.waits → (here.map (·.1)).Nodup → x.ctx ∉ here.map (·.1) →
          mapGet none w'.barriers id = none ∧ e'.waits = e.waits ∧ s.now x.core < e'.readyAt ∧
          (∀ j, j ≠ x.ctx → j ∉ here.map (·.1) → w'.exec j = w.exec j) ∧
          ∀ j d, j ∈ here.map (·.1) → w.exec j = some d → ∃ d', w'.exec j = some d' ∧ d'.waits = d.waits.erase (.barrier id) ∧
            s.now x.core < d'.readyAt))) ∧
    (∀ q : GbarW, it.instr = .gbar q → x.ctx = 40 → (∀ k sc op, .gbar k sc op ∉ e.waits) →
      let id := q.id.toNat
      let gang := w.wgid / w.launch.gsize
      let mine (a : GangArrival) : Prop := a.gen = w.launch.gen ∧ a.gang = gang ∧ a.id = id
      let complete : Prop := ∀ g, g / w.launch.gsize = gang → g ≠ w.wgid →
        (∃ a ∈ s.gangBars, mine a ∧ a.wgid = g) ∨ (w.launch.gen, g) ∈ s.headsDone
      1 ≤ w.launch.gsize → (s.gangBars.map (·.core)).Nodup → x.core ∉ s.gangBars.map (·.core) →
      ∃ t e', commitItem s x c it = .ok t ∧ t.exec x = some e' ∧ t.mem = s.mem ∧ e'.pc = e.pc ∧
        (complete → e'.waits = e.waits ∧ s.now x.core < e'.readyAt ∧ (∀ a, a ∈ t.gangBars ↔ a ∈ s.gangBars ∧ ¬ mine a) ∧
          ∀ a ∈ s.gangBars, mine a → ∀ d, s.exec ⟨a.core, 40⟩ = some d → ∃ d', t.exec ⟨a.core, 40⟩ = some d' ∧
            d'.waits = d.waits.erase (.gbar id a.scope a.op)) ∧
        (¬ complete → (∃ op, e'.waits = e.waits ++ [.gbar id q.scope op]) ∧ ∃ a, t.gangBars = s.gangBars ++ [a] ∧ mine a ∧
          a.wgid = w.wgid ∧ a.core = x.core ∧ a.scope = q.scope)))

/-- R44, R177 to R179, R208: shape, matrix, Lens and quantising words capture their k operands; one whose format slot its opcode may not
name is an illegal instruction (R61, R178); that it is one whatever the guard is the model's reading (log 41). R180, R183: at its commit
SETSHAPE writes its register with the grant; a request out of range is a shape fault, and a twin span of a core that may not lead one a twin
fault. -/
def Obligations.MatrixWords : Prop :=
  (∀ (s : State) (x : ExecId) (w : Workgroup) (e : Exec) (c : Clause), Issuing s x w e c →
    let ks (l : List KReg) : List Word := l.map fun k => e.rk k.toNat
    let slot (f : SlotReg) : Word := w.launch.slotsF.getD f.toNat 0
    let efmt (f : SlotReg) : Nat := ((slot f).extractLsb' 16 4).toNat
    let geom (f : SlotReg) : Nat := ((slot f).extractLsb' 20 4).toNat
    let sparse (f : SlotReg) : Nat := let n := ((slot f).extractLsb' 26 3).toNat; if n ≤ 4 then n else 0
    let named (f : SlotReg) : Prop := efmt f < 6 ∧ (sparse f = 0 ∨ efmt f ≤ 2)
    let unit (i : Instr) (ctl : Ctl) (l : List KReg) (ok : Prop) : Prop := Legal x w i ctl →
      (ok → Captures s x w e c i ctl (ks l) []) ∧ (¬ ok → Traps s x w e c i (wordCause x e c ctl 0x02 0))
    (∀ q : SetshapeW, Legal x w (.setshape q) q.ctl → CapturesIfOn s x w e c (.setshape q) q.ctl (ks [q.a, q.b, q.c])) ∧
    (∀ q : GetshapeW, Legal x w (.getshape q) q.ctl → Completes s x w e c (.getshape q) q.ctl
      { writes := if executes x e q.ctl then
          (upto 4).map fun n => .k (q.a.toNat + n) ((shapeOf w q.s.toNat).extractLsb' (64 * n) 64) else [] }) ∧
    (∀ q : WloadW, unit (.wload q) q.ctl [q.a, q.b, q.c] (named q.fs ∧ (geom q.fs ≠ 0 ∨ q.b = 0) ∧ (sparse q.fs ≠ 0 ∨ q.c = 0))) ∧
    (∀ q : MmaW, unit (.mma q) q.ctl [q.a, q.b] (named q.fs ∧ (geom q.fs ≠ 0 ∨ q.b = 0) ∧ sparse q.fs = 0)) ∧
    (∀ q : MmaW, unit (.mmas q) q.ctl [q.a, q.b] (named q.fs ∧ (geom q.fs ≠ 0 ∨ q.b = 0) ∧ sparse q.fs ≠ 0)) ∧
    (∀ q : SighashW, unit (.sighash q) q.ctl [q.a, q.b, q.c] (named q.fs)) ∧
    (∀ q : SigrepW, unit (.sigrep q) q.ctl [q.a, q.a + 1, q.a + 2, q.b] (named q.fs)) ∧
    (∀ q : TmemW, unit (.tld q) q.ctl [q.a, q.b] True) ∧ (∀ q : TmemW, unit (.tst q) q.ctl [q.a, q.b] True) ∧
    (∀ q : SigscatW, unit (.sigscat q) q.ctl [q.a, q.b] True) ∧ (∀ q : SigbwdW, unit (.sigbwd q) q.ctl [q.a, q.b, q.c] True) ∧
    (∀ q : QhistW, unit (.qhist q) q.ctl [q.a, q.b] True) ∧ (∀ q : QscaleW, unit (.qscale q) q.ctl [q.a, q.b, q.c] True) ∧
    (∀ q : QcvtW, unit (.qcvt q) q.ctl [q.a, q.b, q.c] True) ∧ (∀ q : TileW, unit (.tzero q) q.ctl [] True) ∧
    (∀ q : TileW, Legal x w (.tacq q) q.ctl → CapturesIfOn s x w e c (.tacq q) q.ctl []) ∧
    (∀ q : TileW, Legal x w (.trel q) q.ctl → CapturesIfOn s x w e c (.trel q) q.ctl []) ∧
    (∀ q : Ctl, Legal x w (.wdrop q) q → CapturesIfOn s x w e c (.wdrop q) q []) ∧
    (∀ q : Ctl, Legal x w (.opfence q) q → CapturesIfOn s x w e c (.opfence q) q [])) ∧
  (∀ (s : State) (x : ExecId) (w : Workgroup) (c : Clause) (it : Item) (q : SetshapeW), s.wg x.core = some w → it.instr = .setshape q →
    mapWf 0 w.shapes = true →
    let ask (j : Nat) : Nat := (it.kv.getD j 0).toNat
    let slot : Word := w.launch.slotsF.getD q.fs.toNat 0
    let spn : Nat := [0, 2, 3, 4, 6].getD (slot.extractLsb' 26 3).toNat 0
    let classE : Bool := decide (fieldOf x.core = 0 ∨ fieldOf x.core = 5)
    let depth : Nat := if classE = true then 128 else 384
    let up (n g : Nat) : Nat := (n + g - 1) / g * g
    let cap : Nat := if spn = 0 then depth else depth * 12 / spn / 384 * 384
    let lawful : Prop := (∀ j, j < 3 → 0 < ask j ∧ ask j < 2 ^ 32) ∧ 0 < cap
    let leads : Prop := x.core % 2 = 0 ∧ w.launch.twin = true ∧ ∃ v, s.wg (x.core + 1) = some v ∧ v.launch.gen = w.launch.gen ∧
      v.wgid / v.launch.gsize = w.wgid / w.launch.gsize
    (¬ lawful → ∃ cause, commitItem s x c it = .error (.cause cause) ∧ cause.code = 0x0D ∧ cause.word = it.idx) ∧
    (lawful → q.twin = true → ¬ leads → ∃ cause, commitItem s x c it = .error (.cause cause) ∧ cause.code = 0x0E ∧ cause.word = it.idx) ∧
    (lawful → (q.twin = true → leads) → ∃ t w', commitItem s x c it = .ok t ∧ t.wg x.core = some w' ∧ t.mem = s.mem ∧
      (∀ r, r ≠ q.s.toNat → shapeOf w' r = shapeOf w r) ∧
      let part (lo n : Nat) : Nat := ((shapeOf w' q.s.toNat).extractLsb' lo n).toNat
      let grM := min (up (ask 0) 8) 64
      let grN := if q.twin = true then 512 else 256
      let grK := min (up (ask 2) (if spn = 0 then 128 else 384)) cap
      part 224 32 = ask 0 ∧ part 192 32 = ask 1 ∧ part 160 32 = ask 2 ∧ part 144 16 = grM ∧ part 128 16 = grN ∧ part 112 16 = grK ∧
      part 96 16 = ask 0 % grM ∧ part 80 16 = ask 1 % grN ∧ part 64 16 = ask 2 % grK ∧ part 60 4 = q.fs.toNat ∧
      part 59 1 = q.twin.toNat ∧ part 58 1 = classE.toNat ∧ part 57 1 = 1 ∧ part 0 57 = 0))

/-- R200, R201, R214, R220: copies, index words and MERGE capture their runs of registers; with an empty guard they capture nothing. -/
def Obligations.CopyIndexAndMergeWords : Prop :=
  ∀ (s : State) (x : ExecId) (w : Workgroup) (e : Exec) (c : Clause), Issuing s x w e c →
    let takes (i : Instr) (ctl : Ctl) (l : List Nat) : Prop := Legal x w i ctl → Completes s x w e c i ctl
      { item := some (if executes x e ctl then l.map e.rk else [], []) }
    let copy (i : CopyW → Instr) (n : Nat) : Prop := ∀ q : CopyW, takes (i q) q.ctl (q.a.toNat :: q.b.toNat :: span q.c.toNat n)
    let list (i : XlistW → Instr) : Prop := ∀ q : XlistW, takes (i q) q.ctl [q.a.toNat, q.b.toNat, q.b.toNat + 1, q.c.toNat]
    let pair (i : XpairW → Instr) : Prop := ∀ q : XpairW, takes (i q) q.ctl [q.a.toNat, q.b.toNat, q.b.toNat + 1]
    copy .cpy 2 ∧ copy .cpyt 2 ∧ copy .cpyr 2 ∧ copy .cpyg 3 ∧ copy .cpys 3 ∧ list .xld ∧ list .xst ∧ list .xadd ∧
    pair .xcur ∧ pair .xnext ∧ pair .xrange ∧ (∀ q : KdaW, takes (.xcnt q) q.ctl [q.a.toNat]) ∧
    (∀ q : XdenseW, takes (.xdense q) q.ctl [q.a.toNat, q.b.toNat, q.c.toNat]) ∧
    (∀ q : KdaW, Legal x w (.cpyq q) q.ctl → CapturesIfOn s x w e c (.cpyq q) q.ctl [e.rk q.a.toNat]) ∧
    (∀ q : MergeW, Legal x w (.merge q) q.ctl → Completes s x w e c (.merge q) q.ctl
      { item := some (if executes x e q.ctl then (span q.a.toNat 6).map e.rk else [],
          if executes x e q.ctl then
            [q.b.toNat, q.b.toNat + 1, q.c.toNat, q.c.toNat + 1, q.c.toNat + 2].map fun r => (upto 32).map fun l => e.rv r l else []) })

/-- R224, R226, R231 to R234, R275: the system words. RFT and MOVP are illegal instructions outside handler state; with an empty guard they
change nothing there, by the model's reading (log 22). MOVP reads the privileged registers in handler state; the cycles left of the watchdog
bound are cycles of the nominal clock (R6). SLEEP's bits above the count must be zero. -/
def Obligations.SystemWords : Prop :=
  ∀ (s : State) (x : ExecId) (w : Workgroup) (e : Exec) (c : Clause), Issuing s x w e c →
    let illegal (i : Instr) (ctl : Ctl) : Prop := Traps s x w e c i (wordCause x e c ctl 0x02 0)
    (∀ q : TrapW, Legal x w (.trap q) q.ctl → CapturesIfOn s x w e c (.trap q) q.ctl []) ∧
    (∀ q : RftW, Legal x w (.rft q) q.ctl →
      (e.handler = true ∨ executes x e q.ctl = false → CapturesIfOn s x w e c (.rft q) q.ctl []) ∧
      (e.handler = false → executes x e q.ctl = true → illegal (.rft q) q.ctl)) ∧
    (∀ q : MovpW, Legal x w (.movp q) q.ctl →
      (executes x e q.ctl = false → Completes s x w e c (.movp q) q.ctl {}) ∧
      (e.handler = false → executes x e q.ctl = true → illegal (.movp q) q.ctl) ∧
      (e.handler = true → executes x e q.ctl = true → ∃ r : Word, Completes s x w e c (.movp q) q.ctl { writes := [.k q.d.toNat r] } ∧
        (q.sr = 0x80 → r = BitVec.ofNat 64 (w.launch.ctxbase + 4 * 2 ^ 20 * w.wgid)) ∧
        (q.sr = 0x81 → r = BitVec.ofNat 64 w.launch.handler) ∧
        (q.sr = 0x82 → r = BitVec.ofNat 64 (w.launch.ctxbase + 4 * 2 ^ 20 * w.wgid + 4096 * x.ctx)) ∧
        (q.sr = 0x83 → r = BitVec.ofNat 64 (s.core x.core).corrected) ∧
        (q.sr = 0x84 → r = BitVec.ofNat 64 w.wdogLeft) ∧ (q.sr = 0x85 → ∀ n, n < 64 → r.getLsbD n = e.entries.any (·.code = n)))) ∧
    (∀ q : InvW, Legal x w (.icinv q) q.ctl → CapturesIfOn s x w e c (.icinv q) q.ctl [e.rk q.a.toNat, e.rk q.b.toNat]) ∧
    (∀ q : InvW, Legal x w (.tlbinv q) q.ctl → CapturesIfOn s x w e c (.tlbinv q) q.ctl [e.rk q.a.toNat, e.rk q.b.toNat]) ∧
    (∀ q : KaW, Legal x w (.stamp q) q.ctl → CapturesIfOn s x w e c (.stamp q) q.ctl [e.rk q.a.toNat]) ∧
    (∀ q : KaW, Legal x w (.sleep q) q.ctl →
      ((e.rk q.a.toNat).toNat < 2 ^ 32 → CapturesIfOn s x w e c (.sleep q) q.ctl [e.rk q.a.toNat]) ∧
      (2 ^ 32 ≤ (e.rk q.a.toNat).toNat → executes x e q.ctl = true → illegal (.sleep q) q.ctl) ∧
      (2 ^ 32 ≤ (e.rk q.a.toNat).toNat → executes x e q.ctl = false → Completes s x w e c (.sleep q) q.ctl {}))

/-- R331, R332: ocx arms and deletes breakpoints; a freeze changes nothing but what the engine may begin: the commands of a frozen engine
that have not begun wait. R158, R223, R262, R331: an interrupt stops an executor that stands at a clause start or sleeps, and pends on any
other; of a whole workgroup it asks a stop of every executor; resuming lets it go on past the breakpoint at its pc, a single step for one
clause. A stopped executor begins no clause. That an interrupt stops at once only an executor with no uncommitted clause, one that still
waits among them, and else pends is the model's reading (log 61), and so is that the context filter of a breakpoint is an executor context
(log 70). -/
def Obligations.BreakpointsFreezesAndStops : Prop :=
  (∀ (s : State) (n : Nat),
    (∀ g, ∃ f, exec (.engineFreeze n g) s = .next (s.setCore n { s.core n with frozen := f }) ∧ ∀ h, h ∈ f ↔ h = g ∨ h ∈ (s.core n).frozen) ∧
    (∀ g, ∃ f, exec (.engineThaw n g) s = .next (s.setCore n { s.core n with frozen := f }) ∧ ∀ h, h ∈ f ↔ h ≠ g ∧ h ∈ (s.core n).frozen) ∧
    (∀ (i : Nat) (addr : Word) (filter : StopFilter) (arm : Bool), i < 4 → mapWf none (s.core n).breaks = true →
      ∃ b, exec (.breakpointArm n i addr filter arm) s = .next (s.setCore n { s.core n with breaks := b }) ∧
        mapGet none b i = (if arm then some { addr := addr.toNat, ctx := filter.ctx, whole := filter.whole } else none) ∧
        ∀ j, j ≠ i → mapGet none b j = mapGet none (s.core n).breaks j) ∧
    (∀ (x : ExecId) (id : Nat) (ecc : Ecc), x.core = n →
      (∀ w e o, opAt s x id = some (w, e, o) → begun s x o = false ∧ o.failed = false ∧ o.tag = 0 ∧ o.low = 0) →
      (.copy ∈ (s.core n).frozen → exec (.copyComplete x id ecc) s = .next s) ∧
      (.index ∈ (s.core n).frozen → exec (.indexStep x id ecc) s = .next s ∧ exec (.mergePerformed x id ecc) s = .next s) ∧
      (.matrix ∈ (s.core n).frozen → ∀ row, exec (.matrixCommandPerformed x id row ecc) s = .next s) ∧
      (.ring ∈ (s.core n).frozen → exec (.ringPublish x id) s = .next s ∧ exec (.ringReceive x id) s = .next s)) ∧
    (.workList ∈ (s.core n).frozen → (∀ k r, exec (.workListSpill n k r) s = .next s) ∧
      ((∀ w q, s.wg n = some w → (listOps w).head? = some q → q.2.sent = false) → exec (.workListPerform n) s = .next s))) ∧
  (∀ (s : State) (x : ExecId) (w : Workgroup) (e : Exec), s.wg x.core = some w → w.exec x.ctx = some e →
    let goes (i : Instr) (st : Stop) (ready : Nat) : Prop := exec i s = .next (s.setExec x { e with stop := st, readyAt := ready })
    let standing : Prop := e.exiting = false ∧ e.clauses = [] ∧ e.shadow = none ∧ (asleep e = true ∨ (e.cause = none ∧ takeable e = []))
    (e.stop.stopped = false → e.retired = false → standing → goes (.ocxInterrupt ⟨x, false⟩)
      { e.stop with stopped := true, pending := false, rptBy := none, counters := [e.cL, e.cS, e.cC, e.cT, e.cX] } e.readyAt) ∧
    (e.stop.stopped = false → e.retired = false → ¬ standing → goes (.ocxInterrupt ⟨x, false⟩) { e.stop with pending := true } e.readyAt) ∧
    (∃ t, exec (.ocxInterrupt ⟨x, true⟩) s = .next t ∧ ∀ n d, w.exec n = some d → ∃ st, t.exec ⟨x.core, n⟩ = some { d with stop := st } ∧
      (d.retired = false → st.stopped = true ∨ st.pending = true)) ∧
    (e.stop.stopped = true →
      goes (.ocxResume x) { e.stop with stopped := false, pending := false, step := false, pass := some e.pc, rptBy := none }
        (max e.readyAt (s.now x.core)) ∧
      goes (.singleStep x) { e.stop with stopped := false, pending := false, step := true, pass := some e.pc, rptBy := none }
        (max e.readyAt (s.now x.core)) ∧
      ready s x w e = false))

/-- R313, R318, R319, R321, R346: what the fabric's events leave. A dropped message is counted; a replay is counted at its port, and the
eighth failed one of a flit in a row takes the link down; a port that is down and is tried again with success is up; an interrupt of a
vector that owes one goes out while the device runs, 1 µs after the last of its vector or later, with the count of R321. R295, R315, R318:
the link epoch of an endpoint rises by one when its route is lost and when it reports its reset or power-down, and a link that goes down
raises that of every endpoint whose traffic its port carries; here with no access to the endpoint under way. R343: a port whose PHY is off
does none of this. R346: a retry comes a second or more after the port went down or was last tried. That a port that went down while the
device runs is retried so, and that a link that goes down raises the epoch of the endpoints whose traffic it carried is the model's choice
(log 75), the port that carries an endpoint's traffic is too (log 9), and that a message heard from an endpoint makes it reachable again
(log 17) and one on another channel is dropped (log 66) are its readings. -/
def Obligations.FabricEventsAndLinkEpochs : Prop :=
  (∀ (s : State),
    let port (t : State) (p : Nat) : Port := mapGet Port.up t.ports p
    (∀ p, (s.startState = 2 → phyUp s p = true) ∧ (s.startState = 0 ∨ s.startState = 3 → phyUp s p = false)) ∧
    (∀ ep, exec (.messageDropped ep) s = .next { s with dropped := s.dropped + 1 }) ∧
    (∀ p ok, p < 24 → phyUp s p = true → ∃ m, let u : State := { s with ports := m }
      port u p = { port s p with replays := (port s p).replays + 1, failed := if ok = true then 0 else (port s p).failed + 1 } ∧
      (∀ q, q ≠ p → port u q = port s q) ∧
      exec (.flitReplay ⟨p, ok⟩) s = if ok = false ∧ 7 ≤ (port s p).failed then exec (.linkDown p) u else .next u) ∧
    (∀ p ok, 24 ≤ p ∨ phyUp s p = false → exec (.flitReplay ⟨p, ok⟩) s = .next s) ∧
    (∀ p ok, let due : Prop := p < 24 ∧ phyUp s p = true ∧ (port s p).down = true ∧ (port s p).since + 4 * 10 ^ 9 ≤ s.time
      (¬ due → exec (.portRetry p ok) s = .next s) ∧
      (due → mapWf Port.up s.ports = true → ∃ t, exec (.portRetry p ok) s = .next t ∧
        port t p = (if ok = true then { port s p with down := false, since := 0 } else { port s p with since := s.time }) ∧
        (∀ q, q ≠ p → port t q = port s q) ∧ { t with ports := s.ports, routes := s.routes } = s ∧ (ok = false → t.routes = s.routes))) ∧
    (∀ v, v < 6 → mapWf IntVec.idle s.ints = true →
      let e := mapGet IntVec.idle s.ints v
      let due : Prop := s.startState = 2 ∧ e.pending ≠ 0 ∧ ∀ t, e.last = some t → t + 4000 ≤ s.time
      (due → ∃ m, exec (.interrupt v) s = .next ({ s with ints := m }.send s.hostId 9 0 (leBytes 2 v ++ leBytes 6
          (if v = 0 then e.pending else if v = 1 then s.requests.length else e.total))) ∧
        mapGet IntVec.idle m v = { e with pending := 0, last := some s.time } ∧ ∀ q, q ≠ v → mapGet IntVec.idle m q = mapGet IntVec.idle s.ints q) ∧
      (¬ due → exec (.interrupt v) s = .next s))) ∧
  (∀ (s : State),
    let epoch (t : State) (ep : Nat) : Nat := mapGet 0 t.epochs ep
    let bumped (i : Instr) (ep : Nat) (P : State → Prop) : Prop := ∃ t, exec i s = .next t ∧ epoch t ep = epoch s ep + 1 ∧
      (∀ q, q ≠ ep → epoch t q = epoch s q) ∧ { t with epochs := s.epochs, ints := s.ints, unreachable := s.unreachable } = s ∧ P t
    (∀ ep, (∀ r ∈ s.remotes, r.ep ≠ ep) → bumped (.routeLost ep) ep fun t => ∀ q, q ∈ t.unreachable ↔ q = ep ∨ q ∈ s.unreachable) ∧
    (∀ (h : MsgHdr) (ep reason : Nat),
      (heard s h 11 8 = true → ep < 4096 → reason = 1 ∨ reason = 2 → (∀ r ∈ s.remotes, r.ep ≠ ep) → bumped (.epochNotice h ep reason) ep
        fun t => ∀ q, q ∈ t.unreachable ↔ q ≠ h.src ∧ q ∈ s.unreachable) ∧
      (heard s h 11 8 = false ∨ 4096 ≤ ep ∨ (reason ≠ 1 ∧ reason ≠ 2) →
        exec (.epochNotice h ep reason) s = .next { s with dropped := s.dropped + 1 })) ∧
    (∀ p, p < 24 → phyUp s p = true → (mapGet Port.up s.ports p).down = false → s.remotes = [] → ∃ t, exec (.linkDown p) s = .next t ∧
      mapGet Port.up t.ports p = { mapGet Port.up s.ports p with down := true, failed := 0, since := s.time } ∧
      (∀ q, q ≠ p → mapGet Port.up t.ports q = mapGet Port.up s.ports q) ∧
      (∀ ep, epoch t ep = epoch s ep + (if ep < 4096 ∧ portOf s ep = some p then 1 else 0)) ∧
      { t with ports := s.ports, routes := s.routes, epochs := s.epochs, ints := s.ints } = s) ∧
    (∀ p, 24 ≤ p ∨ phyUp s p = false ∨ (mapGet Port.up s.ports p).down = true → exec (.linkDown p) s = .next s))

/-- R315, R316: a command from another endpoint than the host, or with a header or padding that its layout does not fit, is dropped and
counted; else one in another state than 2 is answered with status 1, and one whose zero bytes are not zero or whose code is unknown with
status 2. R316, R340: otherwise the commands below are performed and answered: the host endpoint, peers permitted and revoked, a link epoch
bumped with no access to it under way, the error log and the counts read; an endpoint or context number that is none has status 3. R264,
R278, R316, R317, R325: the host names the tables; a misaligned address is answered with status 3, a table in use with status 1. Every level
whose state byte is 1 starts with its queue table, and every governor that is on with its table. That the zero bytes are looked at before
the values (log 67), that a message on another channel is dropped (log 66) and that the trace mask and period are read at the naming (log
46) are the model's readings; that status 3 tells of a broken descriptor, of a governor that is off too, is its choice (log 13). -/
def Obligations.ManagementCommandsAndTables : Prop :=
  (∀ (s : State) (h : MsgHdr),
    let answer (t : State) (code status : Nat) (results : List Byte) : State :=
      t.send h.src 13 h.tag (leBytes 2 code ++ leBytes 2 status ++ leBytes 4 0 ++ results)
    let drops (i : Instr) : Prop := exec i s = .next { s with dropped := s.dropped + 1 }
    let heeded (len : Nat) : Prop := h.src = s.hostId ∧ fits h 12 len = true
    let taken (len : Nat) : Prop := heeded len ∧ s.startState = 2 ∧ h.zero = true
    let command (i : Instr) (code len : Nat) : Prop := (¬ heeded len → drops i) ∧
      (heeded len → s.startState ≠ 2 → exec i s = .next (answer s code 1 [])) ∧
      (heeded len → s.startState = 2 → h.zero = false → exec i s = .next (answer s code 2 []))
    (∀ a, command (.setQueueTable h a) 1 16) ∧ (∀ a, command (.setContextTable h a) 2 16) ∧ (∀ a, command (.setGovernorTable h a) 3 16) ∧
    (∀ a c, command (.setTraceDescriptor h a c) 4 20) ∧ (∀ ep, command (.setHostEndpoint h ep) 5 10) ∧ (∀ ep, command (.permitPeer h ep) 6 10) ∧
    (∀ ep, command (.revokePeer h ep) 7 10) ∧ (∀ q l, command (.startLevel h q l) 8 10) ∧ (∀ q l, command (.stopLevel h q l) 9 10) ∧
    (∀ c, command (.killContext h c) 10 12) ∧ (∀ ep, command (.bumpEpoch h ep) 11 10) ∧ (∀ n, command (.readErrorLog h n) 12 9) ∧
    command (.readCounts h) 13 8 ∧
    (∀ n, (1 ≤ n ∧ n ≤ 13 → exec (.unknownManagementCommand h n) s = .next s) ∧
      (¬ (1 ≤ n ∧ n ≤ 13) → (h.src ≠ s.hostId ∨ h.vc ≠ 2 ∨ h.pad = false → drops (.unknownManagementCommand h n)) ∧
        (h.src = s.hostId → h.vc = 2 → h.pad = true →
          exec (.unknownManagementCommand h n) s = .next (answer s n (if s.startState ≠ 2 then 1 else 2) [])))) ∧
    (taken 10 →
      (∀ ep, ep < 4096 → exec (.setHostEndpoint h ep) s = .next (answer { s with hostId := ep } 5 0 [])) ∧
      (∀ ep, ep < 4096 → ∃ ps, exec (.permitPeer h ep) s = .next (answer { s with peers := ps } 6 0 []) ∧
        ∀ q, q ∈ ps ↔ q = ep ∨ q ∈ s.peers) ∧
      (∀ ep, ep < 4096 → ep ≠ s.hostId → ∃ ps, exec (.revokePeer h ep) s = .next (answer { s with peers := ps } 7 0 []) ∧
        ∀ q, q ∈ ps ↔ q ≠ ep ∧ q ∈ s.peers) ∧
      (∀ ep, ep < 4096 → (∀ r ∈ s.remotes, r.ep ≠ ep) → ∃ m is, exec (.bumpEpoch h ep) s =
          .next (answer { s with epochs := m, ints := is } 11 0 []) ∧
        mapGet 0 m ep = mapGet 0 s.epochs ep + 1 ∧ ∀ q, q ≠ ep → mapGet 0 m q = mapGet 0 s.epochs q) ∧
      (∀ ep, 4096 ≤ ep → exec (.setHostEndpoint h ep) s = .next (answer s 5 3 []) ∧ exec (.permitPeer h ep) s = .next (answer s 6 3 []) ∧
        exec (.revokePeer h ep) s = .next (answer s 7 3 []) ∧ exec (.bumpEpoch h ep) s = .next (answer s 11 3 []))) ∧
    (taken 12 → ∀ c, 4096 ≤ c → exec (.killContext h c) s = .next (answer s 10 3 [])) ∧
    (taken 9 →
      (∀ n e, n < 256 → s.log[n]? = some e → exec (.readErrorLog h n) s = .next (answer s 12 0
        (leBytes 1 e.kind ++ leBytes 1 e.domain ++ leBytes 1 e.fromDom ++ leBytes 1 e.field ++ leBytes 4 e.engine ++ leBytes 8 e.count ++
          leBytes 8 e.unit ++ leBytes 8 e.lgen))) ∧
      (∀ n, n < 256 → s.log[n]? = none → exec (.readErrorLog h n) s = .next (answer s 12 0 (leBytes 32 0)))) ∧
    (taken 8 → exec (.readCounts h) s = .next (answer s 13 0 (leBytes 8 s.lateAnswers ++ leBytes 8 s.dropped ++ leBytes 8 s.doorbellsDropped ++
      leBytes 8 s.traceDrops ++ (List.range 24).flatMap fun p => leBytes 8 (mapGet Port.up s.ports p).replays)))) ∧
  (∀ (s : State) (h : MsgHdr) (addr : Nat), h.src = s.hostId → fits h 12 16 = true → s.startState = 2 → h.zero = true →
    let answer (t : State) (code status : Nat) : State := t.send h.src 13 h.tag (leBytes 2 code ++ leBytes 2 status ++ leBytes 4 0)
    let sits (align : Nat) : Prop := addr % align = 0 ∧ addr < 0x12000000000
    (¬ sits 0x8000 → exec (.setQueueTable h addr) s = .next (answer s 1 3)) ∧
    (¬ sits 0x20000 → exec (.setContextTable h addr) s = .next (answer s 2 3)) ∧
    (¬ sits 0x800 → exec (.setGovernorTable h addr) s = .next (answer s 3 3)) ∧
    (∀ k l, sits 0x8000 → mapGet none s.levels k = some l → l.running = true → exec (.setQueueTable h addr) s = .next (answer s 1 1)) ∧
    (sits 0x8000 → s.taken ≠ [] → exec (.setQueueTable h addr) s = .next (answer s 1 1)) ∧
    (sits 0x8000 → (∀ p ∈ s.levels, ∀ l, p.2 = some l → l.running = false) → s.taken = [] → s.poison = [] → Quiet s →
      Memory.wf s.mem = true → ∃ t, exec (.setQueueTable h addr) s = .next (answer t 1 0) ∧ t.queueTable = some addr ∧ t.taken = [] ∧
        t.cores = s.cores ∧ t.outbox = s.outbox ∧ (∀ k, 512 ≤ k → mapGet none t.levels k = none) ∧
        (∀ a, (a < addr ∨ addr + 0x8000 ≤ a) → readByte t.mem a = readByte s.mem a) ∧
        ∀ k, k < 512 → let d := addr + 64 * k
          let num (o n : Nat) : Nat := readNat s.mem (d + o) n
          let l : Level := { base := num 0 8, lgsize := num 8 1, ctx := num 12 4, tail := num 16 8, head := num 24 8, doneN := num 32 8
                             running := true, took := false, finished := [] }
          let fit : Prop := num 10 2 = 0 ∧ num 48 16 = 0 ∧ l.base % 4096 = 0 ∧ 1 ≤ l.lgsize ∧ l.lgsize ≤ 16 ∧ l.ctx < 4096 ∧
            l.doneN ≤ l.head ∧ l.head ≤ l.tail ∧ l.tail ≤ l.doneN + 2 ^ l.lgsize
          (num 9 1 ≠ 1 → mapGet none t.levels k = none ∧ readBytes t.mem d 64 = readBytes s.mem d 64) ∧
          (num 9 1 = 1 → fit → mapGet none t.levels k = some l ∧ readBytes t.mem d 64 = readBytes s.mem d 64) ∧
          (num 9 1 = 1 → ¬ fit → mapGet none t.levels k = some { l with running := false } ∧ readByte t.mem (d + 9) = 0 ∧
            readBytes t.mem (d + 40) 8 = leBytes 1 9 ++ leBytes 7 l.head)) ∧
    (sits 0x20000 → s.contextTable = none → exec (.setContextTable h addr) s = .next (answer { s with contextTable := some addr } 2 0)) ∧
    (∀ t c, sits 0x20000 → s.contextTable = some t → c < 4096 → readNat s.mem (t + 32 * c + 16) 8 = 1 →
      exec (.setContextTable h addr) s = .next (answer s 2 1)) ∧
    (∀ p g, sits 0x800 → p ∈ s.governors → p.2 = some g → exec (.setGovernorTable h addr) s = .next (answer s 3 1)) ∧
    (sits 0x800 → (∀ p ∈ s.governors, p.2 = none) → s.poison = [] →
      let num (c o n : Nat) : Nat := readNat s.mem (addr + 64 * c + o) n
      let sound (c : Nat) : Prop := num c 20 4 < num c 16 4 ∧ num c 16 4 ≤ 65536 ∧ num c 28 4 < num c 24 4 ∧ num c 24 4 ≤ 65536 ∧
        num c 32 1 < 64 ∧ num c 33 1 < 64 ∧ num c 34 1 < 64 ∧ num c 35 1 < 2 ∧ num c 36 4 < 4096 ∧ 1 ≤ num c 40 1 ∧ 1 ≤ num c 41 1 ∧
        1 ≤ num c 42 1 ∧ num c 40 1 + num c 41 1 + num c 42 1 ≤ 4 ∧ num c 43 21 = 0
      let stage (c i : Nat) : Nat :=
        if i < num c 40 1 then 0 else if i < num c 40 1 + num c 41 1 then 1 else if i < num c 40 1 + num c 41 1 + num c 42 1 then 2 else 3
      ∃ gs status, exec (.setGovernorTable h addr) s = .next (answer { s with governorTable := some addr, governors := gs } 3 status) ∧
        ((∀ c, c < 26 → sound c) → status = 0) ∧ (∀ c, c < 26 → ¬ sound c → status = 3) ∧
        ∀ c, (26 ≤ c ∨ ¬ sound c ∨ num c 35 1 = 0 → mapGet none gs c = none) ∧
          (c < 26 → sound c → num c 35 1 = 1 → mapGet none gs c = some {
            ringA := num c 0 8, ringB := num c 8 8, hiA := num c 16 4, loA := num c 20 4, hiB := num c 24 4, loB := num c 28 4
            qload := num c 32 1, qcomp := num c 33 1, qstore := num c 34 1, ctx := num c 36 4, moving := none, ticked := none
            request := none, again := false, stages := [stage c 0, stage c 1, stage c 2, stage c 3] }))) ∧
  (∀ (s : State) (h : MsgHdr) (addr c : Nat), h.src = s.hostId → fits h 12 20 = true → s.startState = 2 → h.zero = true →
    let answers (t : State) (status : Nat) : Prop :=
      exec (.setTraceDescriptor h addr c) s = .next (t.send h.src 13 h.tag (leBytes 2 4 ++ leBytes 2 status ++ leBytes 4 0))
    (addr % 64 ≠ 0 ∨ 0x12000000000 ≤ addr ∨ 4096 ≤ c → answers s 3) ∧
    (addr = 0 → c < 4096 → answers { s with trace := none } 0) ∧
    (addr ≠ 0 → addr % 64 = 0 → addr < 0x12000000000 → c < 4096 → s.poison = [] →
      let num (o n : Nat) : Nat := readNat s.mem (addr + o) n
      num 0 8 % 4096 = 0 → 6 ≤ num 8 1 → num 8 1 ≤ 20 → num 9 7 = 0 → num 52 12 = 0 →
      (num 48 4 = 0 ∨ (1024 ≤ num 48 4 ∧ num 48 4 ≤ 2 ^ 24)) →
      answers { s with trace := some { desc := addr, ctx := c, base := num 0 8, lgsize := num 8 1, tail := num 16 8, drops := num 32 8
                                       qmask := num 40 8, period := num 48 4 } } 0))

/-- R344, R345: the start and power commands, each in the states that allow it; elsewhere they change nothing; a byte written to register
0x10 is the command that it names, and any other write changes nothing (R323). A warm start and a power down tell every permitted peer and
abandon all work; under preserve memory stands where no L1 byte is dirty. A power down then turns its islands off in the reverse of a
start's order and ends in state 0. R349: every 4,096 cycles a field above its acting limit drops one step of its clock, down to 1.00 GHz;
after 64 µs below 90 % of it the clock rises one step, up to 4.00 GHz; a hot coolant drops every field, and 5.0 °C over its limit the device
powers down with code 12. A change of clock is noted for its sync record. That a clock does not change any more in a cycle whose sync packet
is out is the model's choice (log 24), and so is that an overheated module tells no peer while it starts (log 18). The registers of the
board bus read as R323 and R344 name them; the layout of their values is the model's choice (log 86). -/
def Obligations.StartsPowerDownAndTheLimiter : Prop :=
  (∀ (s : State),
    let begun (kind : Nat) : State := { s with startState := 1, startKind := kind, startNext := 1, fieldsUp := 0, fields := [] }
    let gone (t : State) : Prop := (∀ n, t.wg n = none) ∧ t.taken = [] ∧ t.saved = [] ∧ t.requests = [] ∧ t.remotes = []
    let told (t : State) (reason : Nat) : Prop := t.outbox = s.outbox ++ s.peers.map fun ep =>
      { dst := ep, src := s.ownId, kind := 11, tag := 0, payload := leBytes 2 s.ownId ++ leBytes 1 reason ++ leBytes 5 0 }
    let starts (i : Instr) (P : State → Prop) : Prop := ∃ t, exec i s = .next t ∧ t.startState = 1 ∧ t.startNext = 1 ∧ P t
    let off (P : State → Prop) : Prop := ∀ f u d, ∃ t, exec (.startStep f u d) s = .next t ∧ P t
    let keeps (t : State) (p : Nat → Prop) : Prop := ∀ a, (p a → readByte t.mem a = readByte s.mem a) ∧ (¬ p a → readByte t.mem a = 0)
    (s.startState = 0 ∨ s.startState = 3 → exec .coldStart s = .next (begun 0)) ∧
    (s.startState ≠ 0 → s.startState ≠ 3 → exec .coldStart s = .next s) ∧
    (s.startState = 3 → exec .warmStart s = .next (begun 0)) ∧
    (s.startState = 2 → starts .warmStart fun t => t.startKind = 1 ∧ gone t ∧ told t 1 ∧ t.mem = []) ∧
    (s.startState ≠ 2 → s.startState ≠ 3 → exec .warmStart s = .next s) ∧
    (s.startState = 2 → starts .warmStartPreserve fun t => t.startKind = 2 ∧ gone t ∧ told t 1 ∧
      ((∀ n, ∀ l ∈ (s.core n).l1, dirtyBytes l 0 128 = []) → ∀ a, readByte t.mem a = readByte s.mem a)) ∧
    (s.startState ≠ 2 → exec .warmStartPreserve s = .next s) ∧
    (s.startState = 2 → ∃ t, exec .powerDown s = .next t ∧ t.startState = 4 ∧ t.startNext = 8 ∧ gone t ∧ told t 2 ∧ t.mem = s.mem) ∧
    (s.startState = 3 → exec .powerDown s = .next { s with startState := 0 }) ∧
    (s.startState ≠ 2 → s.startState ≠ 3 → exec .powerDown s = .next s) ∧
    (s.startState = 4 →
      (s.startNext = 8 → off fun t => t.startState = 4 ∧ t.startNext = 7 ∧ keeps t (2 ^ 52 ≤ ·)) ∧
      (s.startNext = 7 → off fun t => t.startState = 4 ∧ t.startNext = 4 ∧ keeps t (2 ^ 53 ≤ ·)) ∧
      (s.startNext = 4 → s.fieldsUp ≠ 0 → off fun t => t.startState = 4 ∧ t.startNext = 4 ∧ t.fieldsUp = s.fieldsUp - 1 ∧
        keeps t fun a => 2 ^ 53 ≤ a ∧ fieldOf ((a - 2 ^ 53) / 2 ^ 20) < t.fieldsUp) ∧
      (s.startNext = 4 → s.fieldsUp = 0 → off fun t => t = { s with startNext := 3 }) ∧
      (s.startNext = 3 → off fun t => t = { s with startState := 0, startNext := 0 })) ∧
    (∀ n, s.startState = 2 → 0x10 ≤ n → n ≤ 0x1F → exec (.throttle n) s = .next { s with throttle := some (n - 0x10 + 9) }) ∧
    (∀ n, s.startState ≠ 2 ∨ n < 0x10 ∨ 0x1F < n → exec (.throttle n) s = .next s) ∧
    (∀ reg value, reg ≠ 0x10 → exec (.i3cRegisterWrite reg value) s = .next s) ∧
    (∀ value, exec (.i3cRegisterWrite 0x10 value) s =
      if value = 1 then exec .coldStart s else if value = 2 then exec .warmStart s else if value = 3 then exec .warmStartPreserve s
      else if value = 4 then exec .powerDown s else exec (.throttle value.toNat) s)) ∧
  (∀ (s : State),
    let out (f : Nat) : Prop := (s.field f).synced = (s.field f).count
    let stepped (t : State) (f n : Nat) : Prop := (t.field f).step = n ∧
      (t.field f).changed = ((s.field f).changed || decide (n ≠ (s.field f).step)) ∧ (t.field f).count = (s.field f).count
    (∀ f current, f < 6 → f < s.fieldsUp → (s.field f).count % 4096 = 0 → (s.field f).compared ≠ some (s.field f).count → ¬ out f →
      let limit : Nat := (if f = 0 ∨ f = 5 then 400000 else 720000) * s.throttle.getD 16
      ∃ t, exec (.limiterCompare f current) s = .next t ∧ { t with fields := s.fields } = s ∧ (∀ g, g ≠ f → t.field g = s.field g) ∧
        stepped t f (if limit < 16 * current then max ((s.field f).step - 1) 4 else (s.field f).step) ∧
        (t.field f).below = if 160 * current < 9 * limit then some ((s.field f).below.getD s.time) else none) ∧
    (∀ f start, f < s.fieldsUp → (s.field f).below = some start →
      (s.time < start + 256000 → exec (.limiterRise f) s = .next s) ∧
      (start + 256000 ≤ s.time → ¬ out f → ∃ t, exec (.limiterRise f) s = .next t ∧ { t with fields := s.fields } = s ∧
        (∀ g, g ≠ f → t.field g = s.field g) ∧ stepped t f (min ((s.field f).step + 1) 16))) ∧
    (∀ f current, out f ∨ s.fieldsUp ≤ f → exec (.limiterCompare f current) s = .next s ∧ exec (.limiterRise f) s = .next s) ∧
    (∀ tenths,
      let noted : State := { s with measured := mapPut 0 513 tenths s.measured }
      let limit : Nat := Config.outletLimit
      let early : Prop := ∃ t, s.coolant = some t ∧ s.time < t + 256000
      (s.startState = 0 ∨ s.startState = 4 ∨ tenths ≤ limit → exec (.coolantStep tenths) s = .next noted) ∧
      (s.startState ≠ 0 → s.startState ≠ 4 → limit < tenths → tenths < limit + 50 →
        (early ∨ (∃ f, f < s.fieldsUp ∧ out f) → exec (.coolantStep tenths) s = .next noted) ∧
        (¬ early → (∀ f, f < s.fieldsUp → ¬ out f) → ∃ t, exec (.coolantStep tenths) s = .next t ∧ t.coolant = some s.time ∧
          { t with fields := s.fields, coolant := s.coolant } = noted ∧
          ∀ f, (f < s.fieldsUp → stepped t f (max ((s.field f).step - 1) 4)) ∧ (s.fieldsUp ≤ f → t.field f = s.field f))) ∧
      (limit + 50 ≤ tenths →
        (s.startState = 2 ∨ s.startState = 3 → ∃ t, exec .powerDown noted = .next t ∧
          exec (.coolantStep tenths) s = .next { t with failCode := 12, failUnit := 0xFF }) ∧
        (s.startState = 1 → ∃ t, exec (.coolantStep tenths) s = .next t ∧ t.startState = 4 ∧ t.failCode = 12 ∧ t.failUnit = 0xFF ∧
          t.startNext = (if s.startKind = 2 ∨ 8 < s.startNext then 8 else if 7 < s.startNext then 7 else if s.fieldsUp ≠ 0 then 4 else 3) ∧
          t.outbox = s.outbox ∧ t.mem = s.mem ∧ t.fieldsUp = s.fieldsUp ∧ t.measured = noted.measured))) ∧
    (let value (reg i : Nat) : Nat := mapGet 0 s.measured (256 * reg + i)
     let bytes (reg : Nat) (P : List Byte → Prop) : Prop := ∃ b, i3cRead s reg = some [.bytes b] ∧ P b
     (∃ part stepping gen, i3cRead s 0 = some [.text part, .text stepping, .num gen]) ∧
     bytes 1 (fun b => b = [BitVec.ofNat 8 s.startState, BitVec.ofNat 8 s.failCode, BitVec.ofNat 8 s.failUnit]) ∧
     i3cRead s 2 = some [.num (value 2 0), .num (value 2 1)] ∧
     i3cRead s 3 = some ((List.range 21).map fun i => .num (value 3 i)) ∧
     i3cRead s 4 = some [.num s.corrected, .num s.uncorrectable] ∧
     i3cRead s 5 = some ((List.range 24).flatMap fun p => [.num (mapGet Port.up s.ports p).replays,
       .num (if (mapGet Port.up s.ports p).down = true ∨ phyUp s p = false then 1 else 0)]) ∧
     bytes 6 (fun b => b.length = 17 ∧ b.head? = some (BitVec.ofNat 8 s.fenced.length) ∧
       ∀ i, i < 16 → b.getD (i + 1) 0 = (match s.fenced[i]? with | some n => BitVec.ofNat 8 n | none => 0xFF)) ∧
     bytes 7 (fun b => b.length = 4 ∧ leNat b = s.ownId % 4096 + 2 ^ 16 * (s.hostId % 4096)) ∧
     bytes 0x10 (fun b => b = [0]) ∧ (∀ reg, 7 < reg → reg ≠ 0x10 → i3cRead s reg = none) ∧
     ∀ reg i n rest, s.agenda = .measure reg i n :: rest → allowed s (.measure reg i n) = .measure reg i n →
       mapWf 0 s.measured = true → ∃ t, step s = .next t ∧ { t with measured := s.measured } = { s with agenda := rest } ∧ mapGet 0 t.measured (256 * reg + i) = n ∧
       ∀ k, k ≠ 256 * reg + i → mapGet 0 t.measured k = mapGet 0 s.measured k))

/-- R346, R347: bring-up steps one after another, step 4 one field island after another; a warm start leaves steps 3 and 6 out, and under
preserve step 7; a failed step records its code and unit, loses memory and halts. R341: a start clears an in-service record that fails its
check and logs it; a cold start appends the pending repairs. R342: step 6 gives each cluster's healthy spare core the number that it has
held, else the lowest failed one, and fences every other failed number. Step 9 trains the ports and fails when the host cannot be reached.
R348: what a start leaves after its last step: memory by its kind, nothing placed, no table addresses, no event bit set. The device then
takes no launch. The configuration record's own id and host id are the model's choice (log 8), so is the number 208 + cluster under which
the record names a spare core (log 82), and so is what a start leaves where R348 is silent (log 18). -/
def Obligations.BringUpAndWhatItLeaves : Prop :=
  (∀ (s : State) (fail : Option Nat) (unit : Nat) (down : List Nat),
    let n := s.startNext
    let left : Prop := s.startKind ≠ 0 ∧ (n = 3 ∨ n = 6) ∨ s.startKind = 2 ∧ n = 7
    let code (c : Nat) : Prop := n = 1 ∧ 1 ≤ c ∧ c ≤ 3 ∨ 2 ≤ n ∧ n ≤ 4 ∧ c = n + 2 ∨ 5 ≤ n ∧ n ≤ 10 ∧ c = n + 1
    let unitOk : Prop := (n = 5 → 1 ≤ unit ∧ unit < 6) ∧ (n = 6 ∨ n = 7 → unit < 6) ∧ (n = 8 → unit < 12)
    let halts (c u : Nat) : Prop := ∃ t, exec (.startStep fail unit down) s = .next t ∧ t.startState = 3 ∧ t.failCode = c ∧ t.failUnit = u ∧
      t.mem = [] ∧ t.fieldsUp = 0 ∧ ∀ k, t.wg k = none
    let goesTo (m : Nat) (P : State → Prop) : Prop := ∃ t, exec (.startStep fail unit down) s = .next t ∧ t.startState = 1 ∧ t.startNext = m ∧ P t
    let goesOn : (State → Prop) → Prop := goesTo (n + 1)
    (s.startState ≠ 1 → s.startState ≠ 4 → exec (.startStep fail unit down) s = .next s) ∧
    (s.startState = 1 →
      (left → goesOn fun t => { t with startNext := n } = s) ∧
      (∀ c, ¬ left → fail = some c → code c → unitOk → halts c (if n = 4 then s.fieldsUp else if 5 ≤ n ∧ n ≤ 8 then unit else 0xFF)) ∧
      (∀ c, ¬ left → fail = some c → ¬ (code c ∧ unitOk) → ¬ (n = 1 ∧ c = 0) → exec (.startStep fail unit down) s = .next s) ∧
      (fail = some 0 → n = 1 → goesOn fun t => t.log.head?.map (fun e => (e.kind, e.domain)) = some (1, 11) ∧
        t.inService = (if s.startKind = 0 then s.pendingRepairs else []) ∧
        t.pendingRepairs = if s.startKind = 0 then [] else s.pendingRepairs) ∧
      (¬ left → fail = none → n ≤ 8 → n ≠ 4 → goesOn fun t => t.mem = s.mem ∧
        (n = 1 → t.ownId = Config.recordOwn ∧ t.hostId = Config.recordHost) ∧
        (n = 1 → s.startKind = 0 → t.inService = s.inService ++ s.pendingRepairs ∧ t.pendingRepairs = []) ∧
        (n = 6 → s.startKind = 0 → mapWf none s.spares = true →
          let failed (m : Nat) : Prop := Repair.core m ∈ s.factory ++ s.inService
          ∀ k, k < 26 →
            (failed (208 + k) ∨ (∀ m, m / 8 = k → ¬ failed m) → mapGet none t.spares k = none) ∧
            (¬ failed (208 + k) → ∀ m, m / 8 = k → failed m → (mapGet none t.spares k = some m ↔
              mapGet none s.spares k = some m ∨ ((∀ h, mapGet none s.spares k = some h → h / 8 ≠ k ∨ ¬ failed h) ∧
                ∀ j, j / 8 = k → failed j → m ≤ j))) ∧
            ∀ m, m / 8 = k → (m ∈ t.fenced ↔ failed m ∧ mapGet none t.spares k ≠ some m))) ∧
      (fail = none → n = 4 → mapWf Field.locked s.fields = true → goesTo (if s.fieldsUp < 5 then 4 else 5) fun t =>
        t.fieldsUp = s.fieldsUp + 1 ∧ t.field s.fieldsUp = Field.locked ∧ { t with startNext := n, fieldsUp := s.fieldsUp, fields := s.fields } = s) ∧
      (fail = none → n = 9 → s.startKind = 0 → s.remotes = [] → mapWf Port.up s.ports = true →
        ((∃ p, p < 24 ∧ p ∉ down) → goesOn fun t => ∀ p, p < 24 → ((mapGet Port.up t.ports p).down = true ↔ p ∈ down)) ∧
        ((∀ p, p < 24 → p ∈ down) → halts 10 0xFF)))) ∧
  (∀ (s : State) (unit : Nat) (down : List Nat), s.startState = 1 → s.startNext = 10 →
    ∃ t, exec (.startStep none unit down) s = .next t ∧ t.startState = 2 ∧
      (s.startKind = 0 ∨ s.startKind = 1 → t.mem = [] ∧ t.poison = []) ∧
      (s.startKind = 2 → (∀ a, a < 2 ^ 53 → readByte t.mem a = readByte s.mem a ∧ mapGet 0 t.poison a = mapGet 0 s.poison a) ∧
        ∀ a, 2 ^ 53 ≤ a → readByte t.mem a = 0 ∧ mapGet 0 t.poison a = 0) ∧
      (∀ n, { t.core n with corrected := 0, parityTraps := 0, failedRows := [] } = Core.idle) ∧
      (∀ n b, (mapGet 0 t.events n).getLsbD b = false) ∧
      t.queueTable = none ∧ t.contextTable = none ∧ t.governorTable = none ∧ t.trace = none ∧
      (∀ k, mapGet none t.levels k = none) ∧ (∀ c, mapGet none t.governors c = none) ∧ t.taken = [] ∧ t.saved = [] ∧ t.fenced = s.fenced ∧
      (s.startKind = 0 → t.log = [] ∧ t.lateAnswers = 0 ∧ t.dropped = 0 ∧ t.doorbellsDropped = 0 ∧ t.traceDrops = 0) ∧
      (s.startKind ≠ 0 → t.log = s.log ∧ t.lateAnswers = s.lateAnswers ∧ t.dropped = s.dropped ∧ t.doorbellsDropped = s.doorbellsDropped ∧
        t.traceDrops = s.traceDrops) ∧
      (∀ q l, exec (.recordTake q l) t = .next t))

/-- R325, R329, R330: a field that is up and whose clock changes or whose count reaches a multiple of 2^20 gets one sync record, appended to
the trace ring when there is one; PC samples take the contexts of a core in rotation. R334, R335, R340: a patrol read that finds an
uncorrectable unit, or DRAM block, marks it poisoned and logs it; one that corrects counts; no executor notices. Samples at multiples of the
period are the model's choice (log 19). -/
def Obligations.SyncRecordsSamplesAndPatrolReads : Prop :=
  ((∀ (s : State) (n : Nat), n < 6 → mapWf Field.locked s.fields = true →
    let f := s.field n
    let periodic : Bool := f.count ≠ 0 && f.count % 2 ^ 20 = 0
    let due : Prop := n < s.fieldsUp ∧ (f.changed = true ∨ (periodic = true ∧ f.synced ≠ f.count))
    let record : List Byte := leBytes 1 3 ++ leBytes 1 n ++ leBytes 2 (2 * periodic.toNat + 4 * f.changed.toNat) ++ leBytes 4 0xFFFFFFFF ++
      leBytes 8 0 ++ leBytes 8 f.count ++ leBytes 8 (s.time / 4) ++ leBytes 4 (f.step * 250000) ++ leBytes 28 0
    (¬ due → exec (.syncPacket n) s = .next s) ∧
    (due → ∃ t, exec (.syncPacket n) s = .next t ∧ (t.field n).changed = false ∧ (t.field n).synced = f.count ∧ (t.field n).step = f.step ∧ (t.field n).count = f.count ∧
      (∀ g, g ≠ n → t.field g = s.field g) ∧ (s.trace = none → { t with fields := s.fields } = s) ∧
      ∀ tr d xl, s.trace = some tr → ctxDesc s tr.ctx = some d → Memory.wf s.mem = true →
        let va := tr.base + 64 * (tr.tail % 2 ^ tr.lgsize)
        let pa := xl.pfn * 4096 + va % 4096
        walk s tr.ctx d.root va = .ok xl → xl.wr = true → xl.remote = none →
        (2 ^ tr.lgsize + readNat s.mem (tr.desc + 24) 8 < tr.tail + 1 → t.trace = some { tr with drops := tr.drops + 1 }) ∧
        (tr.tail + 1 ≤ 2 ^ tr.lgsize + readNat s.mem (tr.desc + 24) 8 → t.trace = some { tr with tail := tr.tail + 1 } ∧
          ∀ j, j < 64 → (pa + j < tr.desc + 16 ∨ tr.desc + 24 ≤ pa + j) → readByte t.mem (pa + j) = record.getD j 0))) ∧
  (∀ (s : State) (n : Nat) (w : Workgroup) (tr : Trace), s.wg n = some w → s.trace = some tr → mapWf none w.execs = true →
    let live (c : Nat) : Prop := ∃ e, w.exec c = some e
    (tr.period = 0 → exec (.pcSample n) s = .next s) ∧
    (∀ c, tr.period ≠ 0 → tr.qmask / 2 ^ w.launch.queue % 2 = 1 → s.now n % tr.period = 0 → (s.core n).sampledAt ≠ some (s.now n) → live c →
      ∃ t c', exec (.pcSample n) s = .next t ∧ live c' ∧ (t.core n).sampled = c' + 1 ∧ (t.core n).sampledAt = some (s.now n) ∧
        ((s.core n).sampled ≤ c → (s.core n).sampled ≤ c' ∧ c' ≤ c) ∧ (c < (s.core n).sampled → c' < (s.core n).sampled → c' ≤ c)))) ∧
  (∀ (s : State) (unit : Nat), unit < 2 ^ 53 → s.startState = 2 →
    let finds (ecc : Ecc) (bad : Nat → Prop) (domain : Nat) : Prop := ∃ t, exec (.patrolRead unit ecc) s = .next t ∧ t.mem = s.mem ∧
      t.cores = s.cores ∧ (∀ u, (bad u → mapGet 0 t.poison u = domain) ∧ (¬ bad u → mapGet 0 t.poison u = mapGet 0 s.poison u)) ∧
      t.uncorrectable = s.uncorrectable + 1 ∧ ∃ e rest, t.log = e :: rest ∧ e.kind = 3 ∧ e.domain = domain ∧
        e.unit = if unit < 2 ^ 52 then unit else unit - 2 ^ 52
    exec (.patrolRead unit .good) s = .next s ∧
    exec (.patrolRead unit .corrected) s = .next { s with corrected := s.corrected + 1 } ∧
    finds .uncorrectable (fun u => u = unit / 8 * 8) (if unit < 2 ^ 52 then 6 else 5) ∧
    (unit < 2 ^ 52 → finds .block (fun u => u % 8 = 0 ∧ unit / 64 * 64 ≤ u ∧ u < unit / 64 * 64 + 64) 7))

/-- R142, R146, R147, R151: loads, stores and atomics as they are performed. A load's values land in its lanes; of lanes that write one byte
the highest one's value enters; the lanes of an atomic that name one location are one indivisible step, in some order of theirs, ascending
for a compare-and-swap and a floating-point add, and the old values land after it; under `.ra` the operands are combined first (R161, R162).
The L1 holds nothing here, no narrow release is marked, there is no region, and no register cell was written in the cycle; plain global
stores below scope 3 go to the L1 (next statement). A failed compare-and-swap leaves memory as it was by the model's reading (log 30). -/
def Obligations.AccessesArePerformed : Prop :=
  ∀ (s : State) (x : ExecId) (w : Workgroup) (e : Exec) (o : Op) (h : Nat → Nat), Alone s x w e o → Memory.wf s.mem = true →
    mapWf 0 e.v = true → (s.core x.core).l1 = [] → s.marks = [] → s.regions = [] → e.written = [] → (∀ p ∈ o.item.xl, p.2.remote = none) →
    o.item.g ≠ 0 → o.lanes = o.item.g → o.vals = [] → o.low = 0 → o.high = 0 → o.tag = 0 ∨ 6 ≤ o.tag →
    let all : LanePart := ⟨BitVec.allOnes 32, 3⟩
    let on (l : Nat) : Bool := decide (l < 32) && o.item.g.getLsbD l
    let regs (wide : Bool) (t : Ty) : Nat := if wide then 4 else if tyIs64 t then 2 else 1
    let size (wide : Bool) (t : Ty) : Nat := if wide then 16 else tyBytes t
    let placed (space : Space) (n : Nat) : Prop := ∀ l, on l = true → (o.item.kv.getD l 0).toNat % n = 0 ∧
      locOf x.core o.item.xl space (o.item.kv.getD l 0).toNat = .home (h l)
    let fills (d : VReg) (n : Nat) : Prop := ∀ k ∈ o.due, ∃ l j, on l = true ∧ j < n ∧ k = .v (d.toNat + j) l
    let none1 (_ : Nat) : Option Word := none
    let none2 (_ : Nat) : Option LaneSet := none
    let load (i : MemW → Instr) (wide : Bool) (space : Space) : Prop := ∀ q : MemW, o.item.instr = i q → formOk (i q) = true → o.cls = .l →
      placed space (size wide q.ty) → fills q.d (regs wide q.ty) →
      ∃ t, exec (.loadComplete x o.id all 0xF .good) s = .next t ∧ t.mem = s.mem ∧
        Performed t x e o (fun r l =>
          let z := readNat s.mem (h l) (size wide q.ty)
          if on l = true ∧ q.d.toNat ≤ r ∧ r < q.d.toNat + regs wide q.ty then
            some (if wide = false ∧ tySigned q.ty = true ∧ tyIs64 q.ty = false then BitVec.ofInt 32 (sext (tyBits q.ty) z)
              else BitVec.ofNat 32 (z / 2 ^ (32 * (r - q.d.toNat))))
          else none) none1 none2
    let store (i : MemW → Instr) (wide : Bool) (space : Space) : Prop := ∀ q : MemW, o.item.instr = i q → formOk (i q) = true → o.cls = .s →
      (space = .gl → 3 ≤ scopeNum q.scope) → o.due = [] → placed space (size wide q.ty) →
      ∃ t, exec (.storePerformed x o.id all) s = .next t ∧ Performed t x e o (fun _ _ => none) none1 none2 ∧
        let covers (l a : Nat) : Prop := on l = true ∧ h l ≤ a ∧ a < h l + size wide q.ty
        ∀ a, ((∀ l, ¬ covers l a) → readByte t.mem a = readByte s.mem a) ∧
          ∀ l, covers l a → (∀ m, l < m → ¬ covers m a) →
            readByte t.mem a = ((o.item.lv.getD ((a - h l) / 4) []).getD l 0).extractLsb' (8 * ((a - h l) % 4)) 8
    let atomic (i : Instr) (space : Space) (t : Ty) (d : VReg) (ret : Bool)
        (what : (final before : Nat → Nat) → Prop) : Prop := o.item.instr = i → formOk i = true →
      o.cls = (if ret then .l else .s) → placed space (tyBytes t) → (if ret then fills d (regs false t) else o.due = []) →
      ∀ order : List Nat, (order = [] ∨ ∀ l, on l = true → l ∈ order) →
      ∃ u v, ∃ final before : Nat → Nat, exec (.atomicPerformed x o.id order .good) s = .next u ∧ what final before ∧
        (∀ l, on l = true → readNat u.mem (h l) (tyBytes t) = final l) ∧
        (∀ a, (∀ l, on l = true → a < h l ∨ h l + tyBytes t ≤ a) → readByte u.mem a = readByte s.mem a) ∧
        (if ret then exec (.loadComplete x o.id all 0xF .good) u = .next v ∧ v.mem = u.mem else v = u) ∧
        Performed v x e o (fun r m => if ret = true ∧ on m = true ∧ d.toNat ≤ r ∧ r < d.toNat + regs false t then
          some (BitVec.ofNat 32 (before m / 2 ^ (32 * (r - d.toNat)))) else none) none1 none2
    let serial (t : Ty) (rising : Bool) (f : Nat → Nat → Nat) (final before : Nat → Nat) : Prop :=
      ∃ q : Nat → List Nat, (∀ a, (q a).Nodup ∧ (rising = true → (q a).Pairwise (· < ·)) ∧ ∀ l, l ∈ q a ↔ on l = true ∧ h l = a) ∧
        ∀ l, on l = true → let run (ls : List Nat) : Nat := ls.foldl (fun m k => f k m) (readNat s.mem (h l) (tyBytes t))
          final l = run (q (h l)) ∧ before l = run ((q (h l)).takeWhile (· ≠ l))
    let word (r l : Nat) : Nat := ((o.item.lv.getD r []).getD l 0).toNat
    let pair (t : Ty) (r l : Nat) : Nat := if tyIs64 t then word r l + 2 ^ 32 * word (r + 1) l else word r l
    let op (q : AtomW) (l m : Nat) : Nat :=
      let n := tyBits q.ty
      let y := pair q.ty 0 l
      let less : Bool := toInt (tySigned q.ty) n m ≤ toInt (tySigned q.ty) n y
      match q.op, tyFp q.ty with
      | .add, true => floatEach q.ty (addX .rne) m y
      | .min, true => floatEach q.ty (fun a b => XReal.ofF (minF a b)) m y
      | .max, true => floatEach q.ty (fun a b => XReal.ofF (maxF a b)) m y
      | .add, _ => (m + y) % 2 ^ n | .min, _ => if less then m else y | .max, _ => if less then y else m
      | .and, _ => m &&& y | .or, _ => m ||| y | .xor, _ => m ^^^ y | .exch, _ => y
      | .inc, _ => if y ≤ m then 0 else m + 1 | .dec, _ => if m = 0 ∨ y < m then y else m - 1
    let atom (i : AtomW → Instr) (space : Space) (ret : Bool) : Prop := ∀ q : AtomW, o.item.lv.length = regs false q.ty →
      (q.ra = false → atomic (i q) space q.ty q.d ret (serial q.ty (q.op == .add && tyFp q.ty) (op q))) ∧
      (q.ra = true → atomic (i q) space q.ty q.d ret fun final before => ∀ l, on l = true →
        let old := readNat s.mem (h l) (tyBytes q.ty)
        before l = old ∧ ∃ sum, final l = floatEach q.ty (addX .rne) old sum ∧ Combined (floatEach q.ty (addX .rne))
          (((List.range 32).filter fun k => on k && decide (h k = h l)).map (pair q.ty 0)) sum)
    let cas (i : CasW → Instr) (space : Space) : Prop := ∀ q : CasW, o.item.lv.length = 2 * regs false q.ty →
      atomic (i q) space q.ty q.d true (serial q.ty true fun l m => if m = pair q.ty 0 l then pair q.ty (regs false q.ty) l else m)
    load .ld false .gl ∧ load .ldx true .gl ∧ load .lda false .gl ∧ load .lds false .sp ∧ load .ldsx true .sp ∧ load .ldv false .vt ∧
    store .st false .gl ∧ store .stx true .gl ∧ store .stl false .gl ∧ store .sts false .sp ∧ store .stsx true .sp ∧ store .stv false .vt ∧
    atom .atom .gl true ∧ atom .atomn .gl false ∧ atom .atoms .sp true ∧ atom .atomv .vt true ∧
    cas .cas .gl ∧ cas .cass .sp ∧ cas .casv .vt

/-- R148, R149, R256, R257: a global ST, STX or STL below scope 3 leaves its bytes dirty in the core's L1, which holds nothing before, and
memory as it was; of an STL, a narrow release, the line keeps the scope until it is written back; the L1 writes a line's dirty bytes back of
its own accord, or drops the line with it; the eviction of a sector that has one mark promotes it once the marked core's earlier stores are
performed, and with a mark that is not ready changes nothing. -/
def Obligations.TheL1AndItsMarks : Prop :=
  (∀ (s : State) (x : ExecId) (w : Workgroup) (e : Exec) (o : Op) (q : MemW) (l h : Nat), Alone s x w e o → (s.core x.core).l1 = [] →
    (∀ p ∈ o.item.xl, p.2.remote = none) → formOk o.item.instr = true → scopeNum q.scope < 3 → q.nt = false → o.cls = .s →
    o.due = [] → o.vals = [] → o.low = 0 → o.high = 0 → l < 32 → o.item.g = 1 <<< l → o.lanes = o.item.g →
    let a := (o.item.kv.getD l 0).toNat
    let stores (i : MemW → Instr) (size : Nat) (release : Bool) : Prop := o.item.instr = i q →
      o.tag = (if release then scopeNum q.scope + 1 else 0) → a % size = 0 → locOf x.core o.item.xl .gl a = .home h →
      ∃ t line, exec (.storePerformed x o.id ⟨BitVec.allOnes 32, 3⟩) s = .next t ∧ t.mem = s.mem ∧ (t.core x.core).l1 = [line] ∧
        line.ctx = w.launch.ctx ∧ line.va = a / 128 ∧ line.pa = h / 128 ∧
        line.rel = (if release then [(a % 128 / 32, q.scope, o.id)] else []) ∧
        (∀ j, j < 128 → mapGet none line.bytes j = if a % 128 ≤ j ∧ j < a % 128 + size then
          some (((o.item.lv.getD ((j - a % 128) / 4) []).getD l 0).extractLsb' (8 * ((j - a % 128) % 4)) 8, true) else none) ∧
        Performed t x e o (fun _ _ => none) (fun _ => none) fun _ => none
    stores .st (tyBytes q.ty) false ∧ stores .stx 16 false ∧ stores .stl (tyBytes q.ty) true) ∧
  (∀ (s : State) (core ctx va : Nat) (line : Line) (drop : Bool), Quiet s → Memory.wf s.mem = true → mapWf none line.bytes = true →
    (s.core core).l1.filter (fun m => m.ctx = ctx && m.va = va) = [line] →
    ∃ t, exec (.l1Writeback core ctx va drop) s = .next t ∧
      (∀ a, readByte t.mem a = match (if line.pa * 128 ≤ a ∧ a < line.pa * 128 + 128 then mapGet none line.bytes (a - line.pa * 128) else none) with
        | some (b, true) => b | _ => readByte s.mem a) ∧
      (∀ m ∈ (t.core core).l1, m.ctx = ctx → m.va = va → drop = false ∧ dirtyBytes m 0 128 = []) ∧
      ∀ m, ¬ (m.ctx = ctx ∧ m.va = va) → (m ∈ (t.core core).l1 ↔ m ∈ (s.core core).l1)) ∧
  (∀ (s : State) (core ctx va : Nat) (drop : Bool), Quiet s → (s.core core).l1.filter (fun m => m.ctx = ctx && m.va = va) = [] →
    exec (.l1Writeback core ctx va drop) s = .next s) ∧
  (∀ (s : State) (m : Mark), Quiet s → s.crossings = [] → s.marks.filter (·.sector = m.sector) = [m] →
    (promotionReady s m = true → ∃ t, exec (.markEviction m.sector) s = .next t ∧ m ∉ t.marks ∧
      (((s.core m.core).l1.map fun l => (l.ctx, l.va)).Nodup → ∀ l ∈ (t.core m.core).l1, dirtyBytes l 0 128 = []) ∧ { t with
      mem := s.mem, poison := s.poison, marks := s.marks, watches := s.watches, cores := s.cores, regions := s.regions } = s) ∧
    (promotionReady s m = false → exec (.markEviction m.sector) s = .next s)) ∧
  (∀ (s : State) (sector : Nat), s.marks.filter (·.sector = sector) = [] → exec (.markEviction sector) s = .next s)

/-- R244 and the model's agenda (log 1): an event of the agenda whose turn it is runs as its row; the machine's tick passes once nothing is
due: fabric time, the clock of every field that is up and the watchdog of every workgroup advance (R275, R326, R349). R155, R234: the
timeout of a SLEEP ends the wait, and that of a sleeping WAITA, which is an acquire, gives its destination the word with cause 2. That the
machine runs by an agenda is the model's choice (log 1). -/
def Obligations.EventsTimeAndTimeouts : Prop :=
  (∀ (s : State) (rest : List Move),
    (∀ i, s.agenda = .event i :: rest → isWord i = false → allowed s (.event i) = .event i → step s = exec i { s with agenda := rest }) ∧
    (s.agenda = .tick :: rest → dueMove s = none → mapWf Field.locked s.fields = true → mapWf Core.idle s.cores = true →
      ∃ t, step s = .next t ∧ t.time = s.time + 1 ∧ t.mem = s.mem ∧ t.agenda = rest ∧
        (∀ f, f < s.fieldsUp → (t.field f).count = (s.field f).count + (if 16 ≤ (s.field f).phase + (s.field f).step then 1 else 0) ∧
          (t.field f).phase = (if 16 ≤ (s.field f).phase + (s.field f).step then (s.field f).phase + (s.field f).step - 16
            else (s.field f).phase + (s.field f).step) ∧ (t.field f).step = (s.field f).step) ∧
        (∀ f, s.fieldsUp ≤ f → t.field f = s.field f) ∧
        ∀ n w, s.wg n = some w → ∃ w', t.wg n = some w' ∧ w'.wdogLeft = w.wdogLeft - 1 ∧ w'.execs = w.execs)) ∧
  (∀ (s : State) (x : ExecId) (w : Workgroup) (e : Exec) (d : Nat), s.wg x.core = some w → w.exec x.ctx = some e → e.shadow = none →
    (e.waits = [.sleep (some d)] →
      (d ≤ s.now x.core → exec (.sleepTimeout x) s =
        .next (s.setExec x { e with waits := [], readyAt := max e.readyAt (s.now x.core + 1) })) ∧
      (s.now x.core < d → exec (.sleepTimeout x) s = .next s)) ∧
    (∀ home space near kd scope key start, e.waits = [.waita home space near kd scope (some d) key] → d ≤ s.now x.core →
      e.holds = [{ start, key := some key, on := [], scope }] → e.ops = [] → sleepers s = [(x, home)] → woken s = [] → unsettled s = [x] →
      s.poison = [] → s.marks = [] → (s.core x.core).l1 = [] →
      ∃ t e', exec (.waitaTimeout x) s = .next t ∧ t.exec x = some e' ∧ e'.waits = [] ∧ e'.holds = [] ∧ t.mem = s.mem ∧
        OnlyCells e e' (fun _ _ => none) (fun r => if r = kd then some (BitVec.ofNat 64 (2 * 2 ^ 32 + readNat s.mem home 4)) else none)
          fun _ => none))

/-- R204 to R206: what a copy within the device leaves at each byte of its destination, its tag and its completion word. R184, R187, R191,
R194 to R198, R209 to R211: what the matrix, Lens and quantising commands leave in the macros, the tiles and scratchpad. R213, R215, R219:
what the index commands leave of a region, in their lists, at an XDENSE's destination and in their result word; an insertion that finds no
room stops the list. R221: a one-sided MERGE copies its entries; a malformed lane gives length 0 and its status bit. The executor has the
command alone, whose data is good, and its destination lies apart from its source. -/
def Obligations.EngineCommands : Prop :=
  ∀ (s : State) (x : ExecId) (w : Workgroup) (e : Exec) (o : Op), Alone s x w e o → Memory.wf s.mem = true → mapWf 0 e.v = true →
    mapWf 0 e.k = true → mapWf 0 e.a = true → (s.core x.core).frozen = [] → begun s x o = false → o.failed = false → o.vals = [] → e.written = [] →
    let f (i : Nat) : Nat := (o.item.kv.getD i 0).toNat
    let pad (a : Nat) : Nat := 2 ^ 53 + x.core * 2 ^ 20 + a
    let apart (a n b m : Nat) : Prop := a + n ≤ b ∨ b + m ≤ a
    let nothing (_ _ : Nat) : Option Lane := none
    let plain (space : Space) : Prop := s.regions = [] ∧ (space = .gl → (s.core x.core).l1 = [])
    let unhit : Prop := ∀ v ∈ s.watches, v.x = x → v.op = o.id → v.hits = []
    let prod (n : Nat) (g : Nat → Nat) : Nat := ((List.range n).map g).foldl (· * ·) 1
    -- copies: byte j of n goes from an address to an address
    (let copies (q : CopyW) (last n : Nat) (from' to' : Nat → Nat) (what : (hs hd : Nat → Nat) → State → Prop) : Prop :=
        ∀ hs hd : Nat → Nat, o.cls = .c → o.due = [] → plain q.src → plain q.dst → unhit →
        (∀ j, j < n → locOf x.core o.item.xl q.src (from' j) = .home (hs j) ∧ locOf x.core o.item.xl q.dst (to' j) = .home (hd j)) →
        (∀ j k, j < n → k < n → hs j ≠ hd k) →
        ∃ t u w', exec (.copyComplete x o.id .good) s = .next t ∧ what hs hd u ∧
          (∀ a, (∀ j, j < n → a ≠ hd j) → readByte u.mem a = readByte s.mem a) ∧
          (q.cw = false → t.mem = u.mem) ∧ (q.cw = true → Stored u t (pad (f last % 2 ^ 20)) (leBytes 4 (f last / 2 ^ 32))) ∧
          t.wg x.core = some w' ∧ o.tag ∈ w'.copiesDone ∧ Performed t x e o nothing (fun _ => none) fun _ => none
     let moved (n : Nat) (hs hd : Nat → Nat) (u : State) : Prop :=
        ∀ j, j < n → (∀ k, j < k → k < n → hd k ≠ hd j) → readByte u.mem (hd j) = readByte s.mem (hs j)
     ∀ q : CopyW,
      (o.item.instr = .cpy q → copies q 3 (f 2) (fun j => f 0 + j) (fun j => f 1 + j) (moved (f 2))) ∧
      (o.item.instr = .cpyr q → formOk (.cpyr q) = true → let b := tyBytes q.ty
        f 0 % b = 0 → f 1 % b = 0 → f 2 % b = 0 → copies q 3 (f 2) (fun j => f 0 + j) (fun j => f 1 + j) fun hs hd u =>
          (∀ j k, j < f 2 → k < f 2 → hd j = hd k → j = k) → ∀ m, b * m < f 2 →
            readNat u.mem (hd (b * m)) b = plus q.ty (readNat s.mem (hd (b * m)) b) (readNat s.mem (hs (b * m)) b)) ∧
      (let rows := o.item.kv.drop 5
       let len := f 3 % 2 ^ 32
       let n := len * rows.length
       let strided (base j : Nat) : Nat := (base + (rows.getD (j / len) 0).toNat * (f 3 / 2 ^ 32)) % 2 ^ 64 + j % len
       (o.item.instr = .cpyg q → copies q 4 n (strided (f 0)) (fun j => f 1 + j) (moved n)) ∧
       (o.item.instr = .cpys q → copies q 4 n (fun j => f 0 + j) (strided (f 1)) (moved n))) ∧
      (let dims := (o.item.kv.length - 5) / 2
       let ext (d : Nat) : Nat := f (5 + 2 * d)
       let n := f 4 * prod dims ext
       let off (m : Nat) : Int := ((List.range dims).map fun d => ((m / prod d ext % ext d : Nat) : Int) * sext 64 (f (6 + 2 * d))).sum
       let strided (base j : Nat) : Nat := wrap 64 (base + off (j / f 4)) + j % f 4
       (o.item.instr = .cpyt q → q.out = false → copies q 3 n (strided (f 0)) (fun j => f 1 + j) (moved n)) ∧
       (o.item.instr = .cpyt q → q.out = true → copies q 3 n (fun j => f 0 + j) (strided (f 1)) (moved n)))) ∧
    -- the matrix unit
    (let c := s.core x.core
     let sh := opShape o
     let fm := slotOf (opSlot o)
     let ty := efmtTy fm.efmt
     let ez := tyBytes ty
     let flat (i : Nat) : Nat := f i % 2 ^ 20
     let row (i len r : Nat) : Nat := flat i + r * (if f i / 2 ^ 20 % 2 ^ 20 = 0 then len else f i / 2 ^ 20 % 2 ^ 20)
     let num (a n : Nat) : Nat := readNat s.mem (pad a) n
     let cells : Nat := (cellsOf fm.geom sh.grM sh.grK).1 * (cellsOf fm.geom sh.grM sh.grK).2
     let elem (ty : Ty) (a : Nat) : FVal := elemVal ty (num a (tyBytes ty))
     let tile (t : State) (n r col : Nat) : BitVec 80 := mapGet 0 (t.core x.core).tiles ((n * 64 + r) * 256 + col)
     let ready : Prop := unitOps s x.core = [(x.ctx, o)] ∧ c.fills = [] ∧ c.badTiles = [] ∧ mapWf 0 c.tiles = true
     let done (t : State) : Prop := exec (.matrixCommandPerformed x o.id none .good) s = .next t ∧ Performed t x e o nothing (fun _ => none) fun _ => none
     let tilesAre (t : State) (P : Nat → Nat → Nat → Prop) (v : Nat → Nat → Nat → Nat) : Prop := ∀ n r col, r < 64 → col < 256 →
        (P n r col → tile t n r col = BitVec.ofNat 80 (v n r col)) ∧ (¬ P n r col → tile t n r col = tile s n r col)
     let frees (t : State) : Prop := (s.core (x.core + 1)).slavedBy = some x.core →
        (t.core (x.core + 1)).slavedBy = none ∧ (t.core (x.core + 1)).macroRec = none
     (∀ q : TileW, o.item.instr = .tzero q → o.cls = .t → o.due = [] → unitOps s x.core = [(x.ctx, o)] →
      ∃ t, exec (.matrixCommandPerformed x o.id none .good) s = .next t ∧ t.mem = s.mem ∧
        (∀ tile row col, row < 64 → col < 256 → let i := (tile * 64 + row) * 256 + col
          mapGet 0 (t.core x.core).tiles i = if tile = q.t.toNat then 0 else mapGet 0 (s.core x.core).tiles i) ∧
        Performed t x e o nothing (fun _ => none) fun _ => none) ∧
     (∀ q : Ctl, o.item.instr = .wdrop q → o.cls = .none → o.due = [] → ready →
      ∃ t, done t ∧ t.mem = s.mem ∧ (t.core x.core).weights = [] ∧ (t.core x.core).bscales = [] ∧ (t.core x.core).tiles = c.tiles ∧ frees t) ∧
     (o.cls = .t → ready →
      (∀ q : WloadW, o.item.instr = .wload q → o.due = [] → (q.twin = true → unitOps s (x.core + 1) = []) → sh.grN ≤ 512 →
        let nibble (n : Nat) : Nat := num (flat 2 + n / 2) 1 / 16 ^ (n % 2) % 16
        let kept (j k : Nat) : Option Nat := if fm.spn = 0 then some k else keptRow fm.spn nibble (sh.grK / 12) j k
        let n := (cellsOf fm.geom sh.grN sh.grK).1 * (cellsOf fm.geom sh.grN sh.grK).2
        ∃ t, done t ∧ t.mem = s.mem ∧ (t.core x.core).tiles = c.tiles ∧
          (∀ k j, j < 512 → mapGet 0 (t.core x.core).weights (k * 512 + j) =
            if k < kdepth sh q.lk ∧ j < min (spanOf sh q.ln) sh.grN then
              ((kept j k).map fun r => BitVec.ofNat 64 (num (row 0 (sh.grN * ez) r + j * ez) ez)).getD 0 else 0) ∧
          (∀ i, mapGet 0 (t.core x.core).bscales i = if fm.geom ≠ 0 ∧ i < n then BitVec.ofNat 32 (num (flat 1 + 4 * i) 4) else 0) ∧
          (q.twin = true → (t.core (x.core + 1)).weights = [] ∧ (t.core (x.core + 1)).bscales = []) ∧ (q.twin = false → frees t)) ∧
      (∀ q : MmaW, o.item.instr = .mma q ∨ o.item.instr = .mmas q → o.due = [] → rowsOf sh q.lm ≤ 64 → f 7 ≤ 512 →
        let depth := kdepth sh q.lk
        let scale (cell : Nat → Nat) (i depth k : Nat) : FVal := if fm.geom = 0 ∨ depth ≤ k / cellCols fm.geom * cellCols fm.geom then
          .fin false 1 0 else unpackF fmtF32 (cell (cellAt fm.geom sh.grK i k))
        let term (r j b : Nat) : FVal :=
          let ks := (List.range (min 32 (sh.grK - 32 * b))).map (32 * b + ·)
          blockTerm (fm.efmt = 2 || fm.efmt = 3) (if fm.efmt ≤ 1 then 12 else 24)
            (ks.map fun k => if k < depth then elem ty (row 0 (sh.grK * ez) r + k * ez) else .fin false 0 0)
            (ks.map fun k => elemVal ty (mapGet 0 c.weights (k * 512 + j)).toNat)
            (ks.map (scale (fun n => num (flat 1 + 4 * n) 4) r depth)) (ks.map (scale (fun n => (mapGet 0 c.bscales n).toNat) j sh.grK))
        ∃ t, done t ∧ t.mem = s.mem ∧
          tilesAre t (fun n r col => r < rowsOf sh q.lm ∧ q.t.toNat ≤ n ∧ (n - q.t.toNat) * 256 + col < f 7) fun n r col =>
            ((List.range ((sh.grK + 31) / 32)).map (term r ((n - q.t.toNat) * 256 + col))).foldl accAdd (tile s n r col).toNat) ∧
      (∀ (q : TmemW) (h : Nat → Nat), o.due = [] → plain q.sp →
        let rows := rowsOf sh q.lm
        let cols := colsOf sh q.t.toNat q.ln
        let b := tyBytes q.ty
        rows ≤ 64 → cols ≤ 256 → (∀ i, i < rows * cols → let a := (f 0 + i / cols * f 1) % 2 ^ 64
          a % b = 0 ∧ locOf x.core o.item.xl q.sp (a + i % cols * b) = .home (h i)) →
        (o.item.instr = .tld q → ∃ t, done t ∧ t.mem = s.mem ∧
          tilesAre t (fun n r col => n = q.t.toNat ∧ r < rows ∧ col < cols) fun _ r col => toX80 q.ty (readNat s.mem (h (r * cols + col)) b)) ∧
        (o.item.instr = .tst q → (∀ i j, i < rows * cols → j < rows * cols → i ≠ j → apart (h i) b (h j) b) →
          ∃ t, done t ∧ (t.core x.core).tiles = c.tiles ∧ Ranges s t (· < rows * cols) b h fun i =>
            let v := (tile s q.t.toNat (i / cols) (i % cols)).toNat
            if q.add then addBytes q.ty fm (readNat s.mem (h i) b) v else drainBytes q.ty fm v)) ∧
      (∀ q : SighashW, o.item.instr = .sighash q → o.due = [] →
        let m := rowsOf sh q.lm
        let len := sh.reqK * ez
        let vals (i r : Nat) : List FVal := (List.range sh.reqK).map fun k => elem ty (row i len r + k * ez)
        let code (r : Nat) : Nat := (List.range (q.h.toNat + 1)).foldl (fun n h => 2 * n + (dotPositive (vals 0 r) (vals 1 h)).toNat) 0
        (∀ r, r < m → apart (flat 2) (2 * m) (row 0 len r) len) → (∀ h, h ≤ q.h.toNat → apart (flat 2) (2 * m) (row 1 len h) len) →
        ∃ t, done t ∧ (t.core x.core).tiles = c.tiles ∧
          Ranges s t (· < m) 2 (fun r => pad (flat 2 + 2 * r)) fun r => leBytes 2 (code r / 2 ^ (q.h.toNat - q.p.toNat))) ∧
      (∀ q : SigrepW, o.item.instr = .sigrep q →
        let m := rowsOf sh q.lm
        let len := sh.reqK * ez
        let src := opnd (o.item.kv.getD 0 0) m len ez
        let ids : List Nat := (List.range m).map fun r => num (flat 1 + 2 * r) 2
        let firsts : List Nat := ids.eraseDups
        let rep (r : Nat) : Nat := firsts.findIdx (· = ids.getD r 0)
        let members (n : Nat) : List Nat := (List.range m).filter fun r => rep r = n
        m ≤ 64 → (∀ i j, i < m → j < m → i ≠ j → apart (row 2 len i) len (row 2 len j) len) →
        (∀ i, i < m → apart (row 2 len i) len (flat 3) 512) →
        ∃ t u, exec (.matrixCommandPerformed x o.id none .good) s = .next t ∧ (t.core x.core).tiles = c.tiles ∧
          Ranges s u (· < firsts.length) len (fun n => pad (row 2 len n)) (fun n => repRow s x.core src fm sh.reqK q.rule (members n)) ∧
          Stored u t (pad (flat 3)) (((List.range 64).flatMap fun r => leBytes 2 (if r < m then rep r else 0xFFFF)) ++
            ((List.range 64).flatMap fun n => leBytes 2 (if n < firsts.length then (members n).length else 0)) ++
            (List.range 64).flatMap fun r => leBytes 4 (if r < m then repWeight s x.core src fm sh.reqK q.rule (members (rep r)) r else 0)) ∧
          Performed t x e o nothing (fun r => if r = q.c.toNat then some (BitVec.ofNat 64 firsts.length) else none) fun _ => none) ∧
      (∀ q : SigscatW, o.item.instr = .sigscat q → o.due = [] →
        let m := rowsOf sh q.lm
        let cols := colsOf sh q.t.toNat q.ln
        let len := cols * tyBytes q.ty
        let rep (r : Nat) : Nat := num (flat 1 + 2 * r) 2
        (∀ i j, i < m → j < m → i ≠ j → apart (row 0 len i) len (row 0 len j) len) → (∀ i, i < m → apart (row 0 len i) len (flat 1) (2 * m)) →
        ∃ t, done t ∧ (t.core x.core).tiles = c.tiles ∧ Ranges s t (fun r => r < m ∧ rep r < sh.grM) len (fun r => pad (row 0 len r)) fun r =>
          (List.range cols).flatMap fun col => drainBytes q.ty fm (tile s q.t.toNat (rep r) col).toNat) ∧
      (∀ q : SigbwdW, o.item.instr = .sigbwd q → o.due = [] →
        let m := rowsOf sh q.lm
        let n := if q.spread then sh.reqK else sh.reqN
        let b := tyBytes q.ty
        let rep (r : Nat) : Nat := num (flat 2 + 2 * r) 2
        let val (r k : Nat) : Nat := f32Of (elem q.ty (row 0 (n * b) r + k * b))
        let bytes (g : Nat → Nat) : List Byte := (List.range n).flatMap fun k => leBytes b (convTo q.ty .rne false (XReal.ofF (unpackF fmtF32 (g k))))
        (∀ i j, i < max m 64 → j < max m 64 → apart (row 1 (n * b) i) (n * b) (row 0 (n * b) j) (n * b) ∧
          (i ≠ j → apart (row 1 (n * b) i) (n * b) (row 1 (n * b) j) (n * b))) →
        ∃ t, done t ∧ (t.core x.core).tiles = c.tiles ∧ (if q.spread then
            Ranges s t (fun r => r < m ∧ rep r < 64) (n * b) (fun r => pad (row 1 (n * b) r)) fun r =>
              bytes fun k => f32Mul (val (rep r) k) (num (flat 2 + 256 + 4 * r) 4)
          else Ranges s t (fun i => i < 64 ∧ num (flat 2 + 128 + 2 * i) 2 ≠ 0) (n * b) (fun i => pad (row 1 (n * b) i)) fun i =>
              bytes fun k => f32Sum (((List.range m).filter fun r => rep r = i).map fun r => val r k))) ∧
      (∀ q : QhistW, o.item.instr = .qhist q → o.due = [] →
        let m := rowsOf sh q.lm
        let len := kdepth sh q.lk * tyBytes q.ty
        let bins (n : Nat) : List Nat := (cellElems fm.geom (cellsOf fm.geom sh.grM sh.grK).2 m (kdepth sh q.lk) n).filterMap fun p =>
          binOf (elem q.ty (row 0 len p.1 + p.2 * tyBytes q.ty))
        let old (n i : Nat) : Nat := if q.acc then num (flat 1 + 1024 * n + 4 * i) 4 else 0
        (∀ r, r < m → apart (flat 1) (1024 * cells) (row 0 len r) len) →
        ∃ t, done t ∧ (t.core x.core).tiles = c.tiles ∧ Ranges s t (· < cells) 1024 (fun n => pad (flat 1 + 1024 * n)) fun n =>
          ((List.range 254).flatMap fun i => leBytes 4 (min (((bins n).filter (· = i)).length + old n i) 0xFFFFFFFF)) ++
            leBytes 4 (min ((bins n).length + old n 254) 0xFFFFFFFF) ++ leBytes 4 0) ∧
      (∀ q : QscaleW, o.item.instr = .qscale q → o.due = [] → apart (flat 1) (4 * cells) (flat 0) (1024 * cells) →
        ∃ t, done t ∧ (t.core x.core).tiles = c.tiles ∧ Ranges s t (· < cells) 4 (fun n => pad (flat 1 + 4 * n)) fun n =>
          leBytes 4 (qscale ((List.range 254).map fun i => num (flat 0 + 1024 * n + 4 * i) 4)
            (if q.p then max 1 (min 1024 (f 2 % 2 ^ 11)) else fm.pctl) ty)) ∧
      (∀ q : QcvtW, o.item.instr = .qcvt q → o.due = [] →
        let m := rowsOf sh q.lm
        let depth := kdepth sh q.lk
        let b := tyBytes q.ty
        let out (i : Nat) : Nat := row 1 (depth * ez) (i / depth) + i % depth * ez
        (∀ i j, i < m * depth → j < m → apart (out i) ez (row 0 (depth * b) j) (depth * b)) →
        (∀ i, i < m * depth → apart (out i) ez (flat 2) (4 * cells)) →
        (∀ i j, i < m * depth → j < m * depth → i ≠ j → apart (out i) ez (out j) ez) →
        (∀ i, i < m * depth → cellAt fm.geom sh.grK (i / depth) (i % depth) < cells) →
        ∃ t, done t ∧ (t.core x.core).tiles = c.tiles ∧ Ranges s t (· < m * depth) ez (fun i => pad (out i)) fun i =>
          leBytes ez (convTo ty fm.rnd fm.sat (divX (elem q.ty (row 0 (depth * b) (i / depth) + i % depth * b))
            (unpackF fmtF32 (num (flat 2 + 4 * cellAt fm.geom sh.grK (i / depth) (i % depth)) 4))))))) ∧
    -- the index engine: home is that of the word's descriptor
    (let done (t : State) (d : KReg) (n : Nat) : Prop := exec (.indexStep x o.id .good) s = .next t ∧
        Performed t x e o nothing (fun r => if r = d.toNat then some (BitVec.ofNat 64 n) else none) fun _ => none
     let page (p : Nat) (t : TlbEntry) : Prop :=
        (s.core x.core).tlb.find? (fun t => t.ctx = w.launch.ctx && t.page = p && xlCurrent s t.xl) = some t
     let pool (d : RegionDesc) (p : Nat) : Prop := d.pool / 4096 ≤ p ∧ p * 4096 < d.pool + 256 * d.pcount
     let region (home : Nat) (d : RegionDesc) (r : Region) : Prop := o.cls = .x ∧ regionNow s home = r ∧ r.bad = false ∧
        parseRegion (readBytes s.mem home 64) = some d ∧ mapWf 0 r.entries = true ∧ r.entries.length + 4096 < 2 ^ 64 ∧ home + 64 ≤ 2 ^ 52 ∧
        d.pool % 256 = 0 ∧ (∀ l ∈ r.levels, ∀ t ∈ l, t.n < d.pcount) ∧ (∀ n ∈ r.free, n < d.pcount) ∧ r.unused ≤ d.pcount ∧
        ∀ p, pool d p → ∃ t, page p t ∧ t.xl.rd = true ∧ t.xl.wr = true ∧ t.xl.remote = none ∧ t.xl.pfn * 4096 + 4096 ≤ 2 ^ 52
     let value (r : Region) (k : Nat) : Nat := (mapGet 0 r.entries k).toNat
     (∀ (q : XlistW) (d : RegionDesc) (r : Region), o.item.instr = .xld q → region (f 4) d r →
      let old (i : Nat) : Nat := value r (f (5 + i))
      ∃ t, done t q.d ((List.range (f 2)).filter fun i => old i ≠ 0).length ∧
        Stored s t (pad (f 3)) ((List.range (f 2)).flatMap fun i => leBytes (tyBytes d.ty) (old i))) ∧
     (∀ (q : XlistW) (d : RegionDesc) (r : Region) (add : Bool), o.item.instr = (if add then .xadd q else .xst q) → region (f 4) d r → f 2 ≤ 4096 →
      let new (m : Nat → Word) (i : Nat) : Nat := if add then plus d.ty (m (f (5 + i))).toNat (f (5 + f 2 + i)) else f (5 + f 2 + i)
      let zero (v : Nat) : Bool := if tyFloat d.ty then v % 2 ^ (tyBits d.ty - 1) = 0 else v = 0
      let after (n : Nat) : Nat → Word := (List.range n).foldl (fun m i k =>
        if k = f (5 + i) then (if zero (new m i) then 0 else BitVec.ofNat 64 (new m i)) else m k) (mapGet 0 r.entries)
      let es := if add then tyBytes d.ty else 0
      ∃ t n, n ≤ f 2 ∧ done t q.d (regionNow t (f 4)).entries.length ∧ (∀ k, mapGet 0 (regionNow t (f 4)).entries k = after n k) ∧
        (regionNow t (f 4)).bad = false ∧
        (n < f 2 → after n (f (5 + n)) = 0 ∧ zero (new (after n) n) = false ∧
          ∃ e', t.exec x = some e' ∧ ∃ c ∈ e'.entries, c.code = 0x12 ∧ c.info = n ∧ c.faddr = o.clause) ∧
        ((∀ i, i < f 2 → after i (f (5 + i)) ≠ 0 ∨ zero (new (after i) i) = true) ∨
          (f 2 = 1 ∧ r.levels.length + 1 ≤ r.free.length + d.pcount - r.unused) → n = f 2) ∧
        (add = true → readBytes t.mem (pad (f 3)) (es * n) = (List.range n).flatMap fun i => leBytes es (after i (f (5 + i))).toNat) ∧
        ∀ a, (∀ p t, page p t → pool d p → a / 4096 ≠ t.xl.pfn) → ¬ (f 4 + 32 ≤ a ∧ a < f 4 + 60) → ¬ (pad (f 3) ≤ a ∧ a < pad (f 3) + es * n) →
          readByte t.mem a = readByte s.mem a) ∧
     (∀ (q : XpairW) (d : RegionDesc) (r : Region), o.item.instr = .xcur q → region (f 3) d r →
      ∃ t, done t q.d 0 ∧ Stored s t (pad (f 1)) (leBytes 8 (f 0) ++ leBytes 8 (f 2) ++ leBytes 16 0)) ∧
     (∀ (q : XpairW) (d : RegionDesc) (r : Region), o.item.instr = .xnext q → region (f 3) d r → unhit →
      let last := readNat s.mem (pad (f 0 + 8)) 8
      let started : Bool := readNat s.mem (pad (f 0 + 16)) 1 % 2 = 1
      let out := (r.entries.filter fun p => decide (if started then last < p.1 else last ≤ p.1)).take (f 2)
      let last' := (out.getLast?.map (·.1)).getD last
      let fin : Bool := out.isEmpty || r.entries.all fun p => decide (p.1 ≤ last')
      ∃ t u, done t q.d out.length ∧ Stored s u (pad (f 1)) (out.flatMap fun p => leBytes 8 p.1 ++ leBytes 8 p.2.toNat) ∧
        Stored u t (pad (f 0 + 8)) (leBytes 8 last' ++ leBytes 1 ((started || !out.isEmpty).toNat + 2 * fin.toNat))) ∧
     (∀ q : KdaW, o.item.instr = .xcnt q → o.cls = .x → (regionNow s (f 1)).bad = false → (parseRegion (readBytes s.mem (f 1) 64)).isSome →
      ∃ t, done t q.d (regionNow s (f 1)).entries.length ∧ t.mem = s.mem) ∧
     (∀ (q : XpairW) (d : RegionDesc) (r : Region), o.item.instr = .xrange q → region (f 3) d r →
      ∃ t, done t q.d (r.entries.filter fun p => decide (f 1 ≤ p.1 ∧ p.1 ≤ f 2)).length ∧ t.mem = s.mem) ∧
     (∀ (q : XdenseW) (d : RegionDesc) (r : Region) (hd : Nat → Nat), o.item.instr = .xdense q → region (f 3) d r →
      (q.sp = .gl → (s.core x.core).l1 = []) →
      let size (i : Nat) : Nat := f (8 + i)
      let n := prod d.ndims size
      let at' (m i : Nat) : Nat := f (4 + i) + m / prod (d.ndims - 1 - i) (fun j => size (i + 1 + j)) % size i
      let key (m : Nat) : Nat := (List.range d.ndims).foldl (fun k i => k * d.exts.getD i 0 + at' m i) 0
      let es := tyBytes d.ty
      (∀ j, j < n * es → locOf x.core o.item.xl q.sp (f 2 + j) = .home (hd j)) → (∀ i j, i < n * es → j < n * es → hd i = hd j → i = j) →
      ∃ t, done t q.d ((List.range n).filter fun m => value r (key m) ≠ 0).length ∧
        Ranges s t (· < n * es) 1 hd fun j => [BitVec.ofNat 8 (value r (key (j / es)) / 2 ^ (8 * (j % es)))])) ∧
    (∀ (q : MergeW) (l : Nat), o.item.instr = .merge q → o.cls = .x → q.sp = .sp → l < 32 → o.item.g = 1 <<< l → q.st ≠ 0 →
      s.regions = [] → (∀ k ∈ o.due, k = .k q.d.toNat ∨ k = .a q.st.toNat ∨ k = .v (q.c.toNat + 2) l) →
      let row (i : Nat) : Nat := ((o.item.lv.getD i []).getD l 0).toNat
      let ends (n : Nat) (bad : Bool) (u : State) : Prop := ∃ t, exec (.mergePerformed x o.id .good) s = .next u ∧
        exec (.loadComplete x o.id ⟨BitVec.allOnes 32, 3⟩ 0xF .good) u = .next t ∧ t.mem = u.mem ∧ Performed t x e o (fun r m => if m = l ∧ r = q.c.toNat + 2 then some (BitVec.ofNat 32 n) else none)
          (fun r => if r = q.d.toNat then some (BitVec.ofNat 64 n) else none)
          fun r => if r = q.st.toNat then some (if bad then 1 <<< l else 0) else none
      (row 1 < row 0 ∨ row 3 < row 2 → ∃ t, ends 0 true t ∧ t.mem = s.mem) ∧
      (row 0 ≤ row 1 → row 2 = row 3 →
        let n := row 1 - row 0
        let col := f 0 + 4 * row 0
        let val := f 1 + 4 * row 0
        let oc := f 4 + 4 * row 4
        let ov := f 5 + 4 * row 4
        (∀ a ∈ [col, val, oc, ov], a % 4 = 0 ∧ a + 4 * n ≤ 2 ^ 20) →
        apart oc (4 * n) col (4 * n) → apart oc (4 * n) val (4 * n) → apart ov (4 * n) col (4 * n) → apart ov (4 * n) val (4 * n) →
        apart oc (4 * n) ov (4 * n) →
        ∃ t u, ends n false t ∧ Stored s u (pad oc) (readBytes s.mem (pad col) (4 * n)) ∧
          Stored u t (pad ov) (readBytes s.mem (pad val) (4 * n))))

/-- R168 to R173, R190: an RPUT that has its ticket t publishes once every consumer's cursor leaves its slot free; an RGET takes the payload
of a published ticket; of a ring in a vault, or in global memory whose pages are cached. The work-list keeps its order: a push appends, a
pop takes the oldest for its lanes in order, and what the hardware moves to its spill area stays in place. TACQ holds its tile once the
commands on it are performed. -/
def Obligations.RingsWorkListsAndTokens : Prop :=
  (∀ (s : State) (x : ExecId) (w : Workgroup) (e : Exec) (o : Op) (q : RingW) (t : Nat) (near : Nat → Nat), Alone s x w e o →
    Memory.wf s.mem = true → mapWf 0 e.k = true → (s.core x.core).frozen = [] → (s.core x.core).l1 = [] → s.marks = [] → s.regions = [] →
    o.vals = [] → o.tag = t + 1 → begun s x o = false → o.failed = false → o.low = 0 → o.high = 0 →
    (∀ v ∈ s.watches, v.x = x → v.op = o.id → v.hits = []) →
    let f (i : Nat) : Nat := (o.item.kv.getD i 0).toNat
    let pad : Nat := 2 ^ 53 + x.core * 2 ^ 20 + f 1
    let slot : Nat := f 2 + t % f 5 * f 4
    let mark : Nat := f 3 + 8 * (t % f 5)
    let cursor (c : Nat) : Nat := f 0 + 64 + 8 * c
    let homed (a n : Nat) : Prop := if q.vt then a % 2 ^ 26 + n ≤ 2 ^ 26
      else a % 4096 + n ≤ 4096 ∧ ∃ p, (s.core x.core).tlb.find? (fun p => p.ctx = w.launch.ctx && p.page = a / 4096 && xlCurrent s p.xl) = some p ∧
        p.xl.rd = true ∧ p.xl.wr = true ∧ p.xl.remote = none ∧ near a = p.xl.pfn * 4096 + a % 4096
    (q.vt = true → ∀ a, near a = 2 ^ 52 + (if a / 2 ^ 26 % 64 = 63 then x.core / 8 else a / 2 ^ 26 % 64) * 2 ^ 26 + a % 2 ^ 26) →
    homed slot (f 4) → homed mark 8 →
    (o.item.instr = .rput q → o.cls = .s → f 6 ≤ 8 → (∀ c, c < f 6 → t + 1 ≤ readNat s.mem (near (cursor c)) 8 + f 5) →
      (q.vt = true → ∀ c, c < f 6 → cursor c % 2 ^ 26 + 8 ≤ 2 ^ 26) →
      (q.vt = false → (f 0 + 64) % 4096 + 64 ≤ 4096 ∧ ∀ c, c < f 6 → locOf x.core o.item.xl .gl (cursor c) = .home (near (cursor c))) →
      ∃ u v, exec (.ringPublish x o.id) s = .next v ∧ Stored s u (near slot) (readBytes s.mem pad (f 4)) ∧
        Stored u v (near mark) (leBytes 8 (t + 1)) ∧
        Performed v x e o (fun _ _ => none) (fun r => if r = q.d.toNat then some (BitVec.ofNat 64 t) else none) fun _ => none) ∧
    (o.item.instr = .rget q → o.cls = .l → readNat s.mem (near mark) 8 = t + 1 →
      ∃ v, exec (.ringReceive x o.id) s = .next v ∧ Stored s v pad (readBytes s.mem (near slot) (f 4)) ∧
        Performed v x e o (fun _ _ => none) (fun r => if r = q.d.toNat then some (BitVec.ofNat 64 t) else none) fun _ => none)) ∧
  (∀ (s : State) (x : ExecId) (w : Workgroup) (e : Exec) (o : Op) (l : WorkList), Alone s x w e o → (s.core x.core).frozen = [] →
    w.worklist = some l → listOps w = [(x.ctx, o)] →
    let all (l : WorkList) : List Lane := l.store ++ l.spilled
    let lanes : List Nat := (List.range 32).filter fun n => o.item.g.getLsbD n
    let list (t : State) (P : WorkList → Prop) : Prop := ∃ w' l', t.wg x.core = some w' ∧ w'.worklist = some l' ∧ P l'
    (∀ q : WlpushW, o.item.instr = .wlpush q → o.cls = .s → o.due = [] → o.vals = [] → l.spilled = [] → l.store.length + lanes.length ≤ 4096 →
      ∃ t, exec (.workListPerform x.core) s = .next t ∧ t.mem = s.mem ∧
        list t (fun l' => l' = { l with store := l.store ++ lanes.map fun n => (o.item.lv.getD 0 []).getD n 0 }) ∧
        Performed t x e o (fun _ _ => none) (fun _ => none) fun _ => none) ∧
    (∀ q : WlpopW, o.item.instr = .wlpop q → o.cls = .l → l.bitmap = none → lanes.length ≤ l.store.length →
      ∃ t e' o', exec (.workListPerform x.core) s = .next t ∧ t.mem = s.mem ∧
        list t (fun l' => all l' = (all l).drop lanes.length) ∧ t.exec x = some e' ∧ e'.ops = [o'] ∧ o'.performed = true ∧
        o'.vals = .a q.ap.toNat o.item.g :: (lanes.zip l.store).map fun p => .v q.d.toNat p.1 p.2) ∧
    (∀ n refill, ∃ t, exec (.workListSpill x.core n refill) s = .next t ∧ list t fun l' => all l' = all l ∧
      { l' with store := l.store, spilled := l.spilled } = l)) ∧
  (∀ (s : State) (x : ExecId) (w : Workgroup) (e : Exec) (tile below : Nat), s.wg x.core = some w → w.exec x.ctx = some e →
    e.waits = [.tacq tile true below] → unitOps s x.core = [] →
    exec (.tacqHold x) s = .next (s.setExec x { e with waits := [], readyAt := max e.readyAt (s.now x.core + 1) }))

/-- R69 to R71, R304: a clause is fetched whole: with fresh, or with no copy buffered, from memory; in an apply slot, in its round (R242).
An unfit header or a word that its class does not allow leaves the clause-frame fault at the clause's start, taken with the lanes of a0.
Here the page is cached and executable, no L1 holds a line, and no store to the clause is partway through its lanes, which the fetch would
await (log 88). -/
def Obligations.ClausesAreFetched : Prop :=
  ∀ (s : State) (x : ExecId) (w : Workgroup) (e : Exec) (entry : TlbEntry) (fresh : Bool), s.wg x.core = some w → w.exec x.ctx = some e →
    e.fetched = none → e.clauses = [] → e.shadow = none → e.cause = none → e.entries = [] → e.waits = [] → e.retired = false →
    e.exiting = false → (isSlot x.ctx = true → ∃ a, w.apply = some a ∧ a.phase = 1 ∧ x.ctx ∈ a.active) → s.poison = [] →
    (∀ c ∈ s.cores, c.2.l1 = []) → (∀ rs, halfStored s rs = false) → fresh = true ∨ (s.core x.core).code = [] →
    (s.core x.core).tlb.find? (fun t => t.ctx = w.launch.ctx && t.page = e.pc / 4096 && xlCurrent s t.xl) = some entry →
    entry.xl.ex = true → entry.xl.remote = none → e.pc % 8 = 0 → e.pc + 8 ≤ 2 ^ 57 →
    let at' (n : Nat) : Word := BitVec.ofNat 64 (readNat s.mem (entry.xl.pfn * 4096 + e.pc % 4096 + 8 * n) 8)
    let h : Word := at' 0
    let count : Nat := (h.extractLsb' 50 5).toNat
    let fit : Prop := h.extractLsb' 58 6 = 0b101101 ∧ 1 ≤ count ∧ count ≤ 24 ∧ h.extractLsb' 0 26 = 0
    let words : List Word := (List.range count).map fun n => at' (n + 1)
    let fault (info : Nat) : Cause := { code := 0x04, info, faddr := 0, word := 31, tmask := if x.ctx = 40 then 0 else e.a0 }
    let gets (P : Exec → Prop) : Prop := ∃ t e', exec (.clauseFetch x fresh .good) s = .next t ∧ t.exec x = some e' ∧ P e' ∧ t.mem = s.mem ∧
      { t with cores := s.cores } = s
    (¬ fit → gets fun e' => e' = { e with cause := some (fault 1) }) ∧
    (fit → e.pc % 4096 + 8 * (count + 1) ≤ 4096 → e.pc + 8 * (count + 1) ≤ 2 ^ 57 →
      (frameCheck (h.extractLsb' 55 3).toNat words = none →
        gets fun e' => e' = { e with fetched := some { addr := e.pc, header := h, words }, far := [] }) ∧
      (∀ info, frameCheck (h.extractLsb' 55 3).toNat words = some info → gets fun e' => e' = { e with cause := some (fault info) }))

/-- R73, R239: a ready executor alone on its core takes slot 0 in this cycle: its fetched clause begins, the first word due now. Of two
ready executors slot 0 goes to the one awarded least recently, in a tie to the headspring, then to the lower context. That the awards of a
cycle come before its commits is the model's choice (log 26). -/
def Obligations.SlotsAreAwarded : Prop :=
  ∀ (s : State) (core n : Nat) (w : Workgroup) (e : Exec), s.wg core = some w → mapWf Core.idle s.cores = true →
    (s.core core).away = [] → (s.core core).slotFree = [] → turnTaken s (clusterOf core) = false →
    let begun (t : State) (n : Nat) (e : Exec) (f : Fetched) (slot : Nat) : Prop := ∃ e' c, t.exec ⟨core, n⟩ = some e' ∧
      e'.slot = some slot ∧ e'.lastAward = some (s.now core) ∧ e'.clauses = e.clauses ++ [c] ∧ e'.fetched = none ∧
      e'.pc = (f.addr + 8 * (f.words.length + 1)) % 2 ^ 64 ∧ c.code = f ∧ c.next = 0 ∧ c.due = s.now core ∧ c.items = [] ∧
      (∀ r l, e'.rv r l = e.rv r l) ∧ (∀ r, e'.rk r = e.rk r) ∧ ∀ r, e'.ra r = e.ra r
    (∀ f, w.execs = [(n, some e)] → e.fetched = some f → ready s ⟨core, n⟩ w e = true →
      ∃ t, exec (.issueSlotAward core) s = .next t ∧ begun t n e f 0 ∧ t.mem = s.mem) ∧
    (∀ m p f g, w.execs = [(n, some e), (m, some p)] → n < m → m ≤ 40 → e.fetched = some f → p.fetched = some g →
      ready s ⟨core, n⟩ w e = true → ready s ⟨core, m⟩ w p = true →
      let first : Prop := match e.lastAward, p.lastAward with
        | none, some _ => True
        | some _, none => False
        | some a, some b => a < b ∨ (a = b ∧ m ≠ 40)
        | none, none => m ≠ 40
      ∃ t, exec (.issueSlotAward core) s = .next t ∧ (first → begun t n e f 0) ∧ (¬ first → begun t m p g 0))

/-- R49: fixed-latency results land in their registers; of those that land together in one register the later-issued wins; the rest stay on
their way, and nothing else of the executor changes; here no cell was written in the cycle before. R285 to R288: a run-ahead that has met
its end is dropped: the registers are those of the checkpoint, and its pages become the workgroup's batch, which begins its save; on the
in-place path the executor's own request goes to the host, whose id is the low 32 bits of a counter by the model's choice (log 3). One that
has met no end goes on. -/
def Obligations.ResultsLandAndRunAheadsEnd : Prop :=
  (∀ (s : State) (x : ExecId) (e : Exec), s.exec x = some e → e.shadow = none → mapWf 0 e.v = true → mapWf 0 e.k = true → mapWf 0 e.a = true →
    (∀ p ∈ e.pend, ∀ r l, p.val.key = .v r l → l < 32) → e.clauses.length ≤ 1 → (∀ p ∈ e.pend, ∀ c ∈ e.clauses, c.seq ≤ p.seq) →
    e.written = [] → e.pend.Pairwise (fun p q => issueOrder p.seq p.idx ≤ issueOrder q.seq q.idx) →
    ∃ e', exec (.resultLanding x) s = .next (s.setExec x e') ∧ e'.pend = e.pend.filter (fun p => s.now x.core < p.land) ∧
      { e' with v := e.v, k := e.k, a := e.a, pend := e.pend, written := e.written, badCells := e.badCells } = e ∧
      ∀ k, k ≠ .a 0 → (∀ r l, k = .v r l → l < 32) →
        e'.cell k = match e.pend.reverse.find? fun p => p.land ≤ s.now x.core && p.val.key = k with | some p => p.val | none => e.cell k) ∧
  (∀ (s : State) (x : ExecId) (w : Workgroup) (e : Exec) (h : Shadow), s.wg x.core = some w → w.exec x.ctx = some e → e.shadow = some h →
    e.stop.pending = false →
    let pages : List MissPage := (shadowPages s x h e.clauses).getD h.pages
    let dropped (wait : Wait) : Exec :=
      { e with shadow := none, clauses := [], pend := [], slot := none, fetched := none, pc := h.pc, waits := e.waits ++ [wait], far := []
               written := e.written.filter fun c => !c.shadow }
    (h.ended = false → exec (.runAheadEnd x) s = .next s) ∧
    (h.ended = true → w.phase = .ahead x.ctx → ∃ t w' e' id, exec (.runAheadEnd x) s = .next t ∧ t.wg x.core = some w' ∧
      w'.phase = .saving false ∧ w'.batch = pages ∧ w'.exec x.ctx = some e' ∧ e' = dropped (.page id) ∧ t.mem = s.mem ∧
      (∀ n, n ≠ x.ctx → w'.exec n = w.exec n) ∧ t.requests = s.requests) ∧
    (h.ended = true → w.phase = .running → pages.length ≤ 16 → ∃ t e' r, exec (.runAheadEnd x) s = .next t ∧ t.exec x = some e' ∧
      e' = dropped (.page r.reqid) ∧ t.requests = s.requests ++ [r] ∧ r.reqid = s.fresh % 2 ^ 32 ∧ r.ctx = w.launch.ctx ∧
      r.gen = w.launch.ctxGen ∧ r.pages = pages ∧ r.path = 1 ∧ r.wgid = w.wgid ∧ r.who = .exec x ∧ t.mem = s.mem ∧
      ∃ bs, t.outbox = s.outbox ++ [{ dst := s.hostId, src := s.ownId, kind := 4, tag := 0, payload := bs }]))

/-- R50, R51, R138: a clause whose words have issued and whose results have landed commits in one step: the executor's later clauses stay,
the decision that a TAKE took leaves the queue, and a scratchpad store that it holds is released with the operands it captured. A cause
keeps it from committing: it is undone, its registers hold what they held, and the executor stands at its header with the cause. Here its
turn among the commits of its cluster in this cycle has not passed (R167, R172). -/
def Obligations.ClausesCommit : Prop :=
  ∀ (s : State) (x : ExecId) (w : Workgroup) (e : Exec) (c : Clause), s.wg x.core = some w → w.exec x.ctx = some e → Quiet s →
    turnFree s (clusterOf x.core) (turnOf x.core x.ctx) = true → w.phase ≠ .killed →
    e.clauses = [c] → e.shadow = none → e.ops = [] → e.waits = [] → c.next = c.code.words.length → c.settled ≤ s.now x.core →
    (∀ p ∈ e.pend, p.seq ≠ c.seq) → (s.core x.core).l1 = [] → s.marks = [] →
    let leaves (t : State) (e' : Exec) (queue : List Decision) : Prop := t.exec x = some e' ∧ e'.clauses = [] ∧ e'.queue = queue ∧
      e'.pc = e.pc ∧ t.mem = s.mem ∧ (∀ r l, e'.rv r l = e.rv r l) ∧ (∀ r, e'.rk r = e.rk r) ∧ ∀ r, e'.ra r = e.ra r
    let idle (e' : Exec) : Prop := e'.ops = [] ∧ ∀ cls, counterOf e' cls = counterOf e cls
    (c.cause = none → c.items = [] → ∃ t e', exec (.clauseCommit x) s = .next t ∧ leaves t e' e.queue ∧ idle e') ∧
    (∀ (q : TakeW) (it : Item) (d : Decision) (ds : List Decision), c.cause = none → c.items = [it] → it.instr = .take q → e.queue = d :: ds →
      ∃ t e', exec (.clauseCommit x) s = .next t ∧ leaves t e' ds ∧ idle e') ∧
    (∀ (q : MemW) (it : Item), c.cause = none → c.items = [it] → it.instr = .sts q → formOk (.sts q) = true → it.on = true → it.g ≠ 0 →
      e.relScope = none → (∀ l, it.g.getLsbD l = true → (it.kv.getD l 0).toNat + tyBytes q.ty ≤ w.launch.spsize) →
      (∀ l, it.g.getLsbD l = true → (it.kv.getD l 0).toNat % tyBytes q.ty = 0) →
      ∃ t e' o, exec (.clauseCommit x) s = .next t ∧ leaves t e' e.queue ∧ e'.ops = [o] ∧ o.cls = .s ∧ o.performed = false ∧
        o.lanes = it.g ∧ { o.item with xl := it.xl } = it ∧ e'.cS = e.cS + 1 ∧ e'.cL = e.cL ∧ e'.cC = e.cC ∧ e'.cT = e.cT ∧ e'.cX = e.cX) ∧
    (∀ cause, c.cause = some cause → c.items = [] → c.gives = [] → c.parts = none → mapWf 0 e.v = true → mapWf 0 e.k = true →
      mapWf 0 e.a = true → (∀ u ∈ c.undo, ∀ r l, u.key = .v r l → l < 32) → (c.undo.map RegVal.key).Nodup →
      ∃ t e', exec (.clauseCommit x) s = .next t ∧ t.exec x = some e' ∧ e'.clauses = [] ∧ e'.cause = some cause ∧ e'.pc = c.code.addr ∧
        e'.slot = none ∧ e'.queue = e.queue ∧ e'.ops = [] ∧ t.mem = s.mem ∧ (∀ u ∈ c.undo, u.key ≠ .a 0 → e'.cell u.key = u) ∧
        ∀ k, k ∉ c.undo.map RegVal.key → (∀ r l, k = .v r l → l < 32) → e'.cell k = e.cell k)

/-- R225 to R229: taking an exception. An executor at a clause start, an apply slot in its round among them, enters its handler with its
lowest entry cause, which then is no longer pending, or with its clause's cause where none is: the frame holds the cause, the pcs, the
apertures, k63, the pools and their tags; a1 to a15 are empty, a0 holds the launched or packed lanes, k63 the frame's address, the pc is the
handler's, and every other register is as it was. Here the frame's page is cached and may be written, and what the frame takes is sound. -/
def Obligations.HandlersAreEntered : Prop :=
  ∀ (s : State) (x : ExecId) (w : Workgroup) (e : Exec) (cause : Cause) (entry : TlbEntry), s.wg x.core = some w → w.exec x.ctx = some e →
    Quiet s → Memory.wf s.mem = true → mapWf 0 e.k = true → (s.core x.core).l1 = [] →
    ∀ rest : List Entry, (e.cause = some cause ∧ e.entries = [] ∧ rest = []) ∨
      (∃ n pre post, e.entries = pre ++ n :: post ∧ rest = pre ++ post ∧ (∀ m ∈ pre, n.code < m.code) ∧ (∀ m ∈ post, n.code ≤ m.code) ∧ cause =
        { code := n.code, info := n.info, faddr := n.faddr, word := 31
          tmask := if x.ctx = 40 then 0 else if n.code = 0x01 then n.tmask else e.a0 }) →
    e.handler = false → w.launch.handler ≠ 0 → w.phase = .running → e.clauses = [] → e.pend = [] → e.waits = [] → e.shadow = none →
    e.stop.stopped = false → e.retired = false → e.exiting = false → e.badCells = [] → w.badPools = [] → (∀ r ∈ s.requests, r.who ≠ .exec x) →
    (isSlot x.ctx = true → ∃ a, w.apply = some a ∧ a.phase = 1 ∧ x.ctx ∈ a.active) →
    let frame : Nat := w.launch.ctxbase + 4 * 2 ^ 20 * w.wgid + 4096 * x.ctx
    w.launch.ctxbase % 4096 = 0 →
    (s.core x.core).tlb.find? (fun t => t.ctx = w.launch.ctx && t.page = frame / 4096 && xlCurrent s t.xl) = some entry →
    entry.xl.wr = true → entry.xl.remote = none →
    ∃ t e', exec (.handlerEntry x) s = .next t ∧ t.exec x = some e' ∧
      e'.handler = true ∧ e'.pc = w.launch.handler ∧ e'.tmask = cause.tmask ∧ e'.cause = none ∧ e'.entries = rest ∧ e'.a0 = e.base ∧
      (∀ r, e'.ra r = if r = 0 then e.base else 0) ∧ (∀ r, e'.rk r = if r = 63 then BitVec.ofNat 64 frame else e.rk r) ∧
      (∀ r l, e'.rv r l = e.rv r l) ∧ (∀ cls, counterOf e' cls = counterOf e cls) ∧
      (let base := entry.xl.pfn * 4096
       let num (o n : Nat) : Nat := readNat t.mem (base + o) n
       (∀ a, (a < base ∨ base + 2560 ≤ a) → readByte t.mem a = readByte s.mem a) ∧
       num 0 8 = (cause.code + cause.word * 2 ^ 16) % 2 ^ 64 ∧ num 8 8 = e.pc % 2 ^ 64 ∧ num 16 8 = e.pc % 2 ^ 64 ∧
       num 24 8 = cause.faddr % 2 ^ 64 ∧ num 32 8 = cause.info % 2 ^ 64 ∧ num 40 4 = cause.tmask.toNat ∧ num 44 4 = e.a0.toNat ∧
       (∀ r, 1 ≤ r → r < 16 → num (44 + 4 * r) 4 = (e.ra r).toNat) ∧ num 108 4 = 0 ∧ num 112 8 = (e.rk 63).toNat ∧
       (∀ p, p < 16 → num (256 + 128 * p) 128 = (poolOf w p).toNat ∧ num (2304 + 16 * p) 8 = (tagOf w p).1 % 2 ^ 64 ∧
         num (2312 + 16 * p) 8 = (tagOf w p).2 % 2 ^ 64))

/-- R129, R131, R132, R242: a round of an apply starts once every member's home warp is settled: its members are packed in order into slots
from 32 on, with the carry window and the snapshot of k0 to k7, every other register zero. APPLYW runs its block in the member warps. Until
then, and in a workgroup that is being saved, nothing starts. R129, R130, R132: a round ends once every slot has exited and drained: the
carry windows return to their members' home lanes; after the last round the event bit is set, and `.rel` lets the members go on. A block's
warp takes back k0 to k7 and a1 to a15 and waits as it did. Here no other event of the cycle has gone before (R167). -/
def Obligations.AppliesRunInRounds : Prop :=
  (∀ (s : State) (core : Nat) (w : Workgroup) (a : Apply), s.wg core = some w → w.apply = some a → a.phase = 0 →
    (∀ m ∈ a.members, m < 1024) → a.ks.length = 8 → s.turns = [] → (∀ n e, w.exec n = some e → e.badCells = []) →
    let free : Prop := ∀ m ∈ a.members, settled w (m / 32) = true
    let members (n l : Nat) : Prop := 32 * n + l ∈ a.members
    (¬ free → exec (.applyRoundStart core) s = .next s) ∧ (∀ evac, w.phase = .saving evac → exec (.applyRoundStart core) s = .next s) ∧
    (free → w.phase = .running → ∀ q : ApplyW, a.word = .apply q →
      let ms := (a.members.drop (32 * w.launch.slots * a.round)).take (32 * w.launch.slots)
      let used := (ms.length + 31) / 32
      ∃ t w', exec (.applyRoundStart core) s = .next t ∧ t.wg core = some w' ∧ t.mem = s.mem ∧
        w'.apply = some { a with phase := 1, active := (List.range used).map (32 + ·) } ∧
        (∀ n, n < 32 ∨ 32 + used ≤ n → w'.exec n = w.exec n) ∧
        ∀ i, i < used → ∃ e', w'.exec (32 + i) = some e' ∧ e'.pc = a.target ∧ e'.clauses = [] ∧ e'.ops = [] ∧ e'.exiting = false ∧
          (∀ l, l < 32 → e'.a0.getLsbD l = decide (32 * i + l < ms.length)) ∧ (∀ r, r ≠ 0 → e'.ra r = 0) ∧
          (∀ r, e'.rk r = a.ks.getD r 0) ∧
          ∀ l m, l < 32 → ms[32 * i + l]? = some m → mapGet 0 e'.origin l = m ∧ ∀ e, w.exec (m / 32) = some e → ∀ r,
            e'.rv r l = if q.cs.toNat ≤ r ∧ r < q.cs.toNat + q.cn.toNat then e.rv r (m % 32) else 0) ∧
    (free → w.phase = .running → ∀ q : ApplywW, a.word = .applyw q →
      (∃ m ∈ a.members, ∃ e, w.exec (m / 32) = some e ∧ e.retired = false) →
      ∃ t w' b, exec (.applyRoundStart core) s = .next t ∧ t.wg core = some w' ∧ t.mem = s.mem ∧ w'.apply = some b ∧ b.phase = 1 ∧
        (∀ n, n ∈ b.active ↔ (∃ m ∈ a.members, m / 32 = n) ∧ ∃ e, w.exec n = some e ∧ e.retired = false) ∧
        (∀ n, n ∉ b.active → w'.exec n = w.exec n) ∧
        ∀ n ∈ b.active, ∀ e, w.exec n = some e → e.shadow = none → mapWf 0 e.k = true → ∃ e' old, w'.exec n = some e' ∧
          e'.pc = a.target ∧ e'.waiting = [] ∧ e'.waits = e.waits ∧ e'.aside = some old ∧ old.pc = e.pc ∧
          (∀ l, l < 32 → (e'.a0.getLsbD l = true ↔ members n l ∧ e.base.getLsbD l = true)) ∧ (∀ r, r ≠ 0 → e'.ra r = 0) ∧
          (∀ r, e'.rk r = if r < 8 then a.ks.getD r 0 else e.rk r) ∧ (∀ r l, e'.rv r l = e.rv r l) ∧
          old.regs = (List.range 8).map (fun r => .k r (e.rk r)) ++ (List.range 15).map fun r => .a (r + 1) (e.ra (r + 1)))) ∧
  (∀ (s : State) (core : Nat) (w : Workgroup) (a : Apply), s.wg core = some w → w.apply = some a → a.phase = 1 →
    (∀ p ∈ s.busy, ∀ q ∈ p.2.all, ∀ wt ∈ q.2.waits, wt = .parked) → Quiet s → s.turns = [] → w.applies = [] →
    let bit (t : State) (ev : Nat) : Prop := ∀ c b, b < 256 →
      (mapGet 0 t.events c).getLsbD b = ((mapGet 0 s.events c).getLsbD b || decide (c = core / 8 ∧ b = ev))
    let finished (e : Exec) : Prop := e.exiting = true ∧ e.clauses = [] ∧ e.pend = [] ∧ e.ops = [] ∧ e.cL = 0 ∧ e.cS = 0 ∧ e.cC = 0 ∧
      e.cT = 0 ∧ e.cX = 0
    (∀ q : ApplyW, a.word = .apply q → mapWf 0 s.events = true → a.members.Nodup → (∀ m ∈ a.members, m < 1024) →
      (∀ n e, w.exec n = some e → e.shadow = none ∧ mapWf 0 e.v = true) → (∀ n ∈ a.active, 32 ≤ n ∧ ∃ e, w.exec n = some e) →
      let ms := (a.members.drop (32 * w.launch.slots * a.round)).take (32 * w.launch.slots)
      let last : Prop := a.members.length ≤ 32 * w.launch.slots * (a.round + 1)
      ((∃ n ∈ a.active, ∃ e, w.exec n = some e ∧ e.exiting = false) → exec (.applyRoundEnd core) s = .next s) ∧
      ((∀ n ∈ a.active, ∀ e, w.exec n = some e → finished e) → (∀ i, i < ms.length → ∃ e, w.exec (32 + i / 32) = some e) →
        a.released = [] → ∃ t w', exec (.applyRoundEnd core) s = .next t ∧ t.wg core = some w' ∧ t.mem = s.mem ∧
          (last → w'.apply = none ∧ bit t q.ev.toNat) ∧
          (¬ last → w'.apply = some { a with phase := 0, active := [], round := a.round + 1 } ∧ t.events = s.events) ∧
          ∀ n e, n < 32 → w.exec n = some e → ∃ e', w'.exec n = some e' ∧ e'.pc = e.pc ∧
            (e'.waits = if q.rel = true ∧ last ∧ (∃ m ∈ a.members, m / 32 = n) then e.waits.erase .parked else e.waits) ∧
            (∀ r, e'.rk r = e.rk r) ∧ (∀ r, e'.ra r = e.ra r) ∧
            ∀ r l, l < 32 →
              (∀ i p, ms[i]? = some (32 * n + l) → w.exec (32 + i / 32) = some p → q.cs.toNat ≤ r → r < q.cs.toNat + q.cn.toNat →
                e'.rv r l = p.rv r (i % 32)) ∧
              ((32 * n + l ∉ ms ∨ r < q.cs.toNat ∨ q.cs.toNat + q.cn.toNat ≤ r) → e'.rv r l = e.rv r l))) ∧
    (∀ (q : ApplywW) (n : Nat) (e : Exec) (old : Aside), a.word = .applyw q → mapWf 0 s.events = true → w.exec n = some e → e.aside = some old →
      mapWf 0 e.k = true → e.shadow = none →
      (e.exiting = false → exec (.applywBlockEnd ⟨core, n⟩) s = .next s) ∧
      (finished e → e.waiting = [] → q.rel = false → a.released = [] → (old.regs.map RegVal.key).Nodup →
        (∀ u ∈ old.regs, (∃ r, u.key = .k r) ∨ ∃ r, r ≠ 0 ∧ u.key = .a r) →
        ∃ t w' e', exec (.applywBlockEnd ⟨core, n⟩) s = .next t ∧ t.wg core = some w' ∧ w'.exec n = some e' ∧ t.mem = s.mem ∧
          e'.waits = e.waits ∧ e'.a0 = e.base ∧ e'.pc = old.pc ∧ e'.exiting = false ∧ e'.aside = none ∧
          (∀ u ∈ old.regs, e'.cell u.key = u) ∧ (∀ r l, e'.rv r l = e.rv r l) ∧
          (∀ r, .k r ∉ old.regs.map RegVal.key → e'.rk r = e.rk r) ∧ (∀ m, m ≠ n → w'.exec m = w.exec m) ∧
          (a.active.erase n = [] → w'.apply = none ∧ bit t q.ev.toNat) ∧
          (a.active.erase n ≠ [] → w'.apply = some { a with active := a.active.erase n } ∧ t.events = s.events))))

/-- R39, R235, R236, R270 to R272: the gang that a cluster places next takes its cores: each gets a workgroup whose warps begin at warpoff
with the launched lanes in a0 and whose headspring begins at headoff with the argument pointer in k0, every other register zero; the field
commits their estimates. With nothing to place nothing happens. R137, R237, R271: once every executor of a workgroup has retired and its
operations are complete, its core is free and its estimate returns to the field; its record counts it, and the last one gives the record a
place after those of the other records that ended (R167). Until then nothing happens. Here no reservation stands, no gang was tried before,
and nothing waits to return from an evacuation. -/
def Obligations.GangsArePlacedAndCoresFreed : Prop :=
  (∀ (s : State) (cluster : Nat), s.startState = 2 →
    (nextFor s cluster = none → exec (.gangPlace cluster) s = .next s) ∧
    (∀ (u : Taken) (g : Nat) (cores : List Nat), nextFor s cluster = some (.gang u g, cores) → s.taken = [u] → u.returned = [] →
      u.asked = [] → s.reservations = [] → u.launch.slots ≤ 8 → u.launch.menu = [] → cores.Nodup → cores.length = u.launch.gsize → u.launch.nwarps ≤ 32 → mapWf Field.locked s.fields = true →
      (∀ n ∈ cores, fieldOf n = fieldOfCluster cluster) →
      let d := ctxDesc s u.launch.ctx
      let l : Launch := { u.launch with root := (d.map (·.root)).getD 0, ctxGen := (d.map (·.gen)).getD u.launch.ctxGen }
      let f := fieldOfCluster cluster
      ∃ t, exec (.gangPlace cluster) s = .next t ∧ t.mem = s.mem ∧ t.taken = [{ u with next := u.next + 1 }] ∧
        (t.field f).committed = (s.field f).committed + u.launch.est * u.launch.gsize ∧ (∀ n, n ∉ cores → t.core n = s.core n) ∧
        ∀ i n, cores[i]? = some n → ∃ w, t.wg n = some w ∧ w.launch = l ∧ w.wgid = u.next * u.launch.gsize + i ∧ w.phase = .running ∧
          w.pools = [] ∧ w.shapes = [] ∧ w.barriers = [] ∧ (t.core n).tiles = [] ∧ (t.core n).macroRec = none ∧
          (∀ native', nativeOf s u.launch (decide (fieldOf n = 0 ∨ fieldOf n = 5)) = some native' → w.code = native'.1) ∧
          (∀ m, (∃ e, w.exec m = some e) ↔ m < u.launch.nwarps ∨ (32 ≤ m ∧ m < 32 + u.launch.slots) ∨ m = 40) ∧
          (∀ m e, 32 ≤ m → m < 40 → w.exec m = some e → e.exiting = true ∧ e.a0 = 0 ∧ (∀ r j, e.rv r j = 0) ∧ ∀ r, e.rk r = 0) ∧
          (∀ m e, m < u.launch.nwarps → w.exec m = some e → e.pc = w.code + u.launch.warpoff ∧
            (∀ j, j < 32 → e.a0.getLsbD j = decide (j < u.launch.lanes)) ∧ (∀ r j, e.rv r j = 0) ∧ (∀ r, e.rk r = 0) ∧
            ∀ r, r ≠ 0 → e.ra r = 0) ∧
          ∀ e, w.exec 40 = some e → e.pc = w.code + u.launch.headoff ∧ e.a0 = 0 ∧
            ∀ r, e.rk r = if r = 0 then BitVec.ofNat 64 u.launch.argptr else 0)) ∧
  (∀ (s : State) (core : Nat) (w : Workgroup), s.wg core = some w → Quiet s → mapWf Core.idle s.cores = true →
    mapWf Field.locked s.fields = true → mapWf none w.execs = true →
    ((∃ n e, (n < 32 ∨ 40 ≤ n) ∧ w.exec n = some e ∧ e.retired = false) → exec (.coreFreed core) s = .next s) ∧
    (w.apply = none → (∀ n e, n < 32 ∨ 40 ≤ n → w.exec n = some e → e.retired = true) →
      (∀ n e, w.exec n = some e → e.ops = [] ∧ e.clauses = []) → (∀ r ∈ s.remotes, r.x.core ≠ core) → (s.core core).l1 = [] →
      s.trace = none → s.governors = [] → (∀ v ∈ s.saved, v.evac = false) →
      let f := fieldOf core
      ∃ t, exec (.coreFreed core) s = .next t ∧ t.wg core = none ∧ t.mem = s.mem ∧ (∀ n, n ≠ core → t.wg n = s.wg n) ∧
        t.field f = { s.field f with committed := (s.field f).committed - w.launch.est } ∧ (∀ g, g ≠ f → t.field g = s.field g) ∧
        ∀ u rest, s.taken = u :: rest → u.launch.gen = w.launch.gen → ∃ place, t.taken = { u with retired := u.retired + 1, ended := place } :: rest ∧
          (u.retired + 1 < u.launch.nwg → place = u.ended) ∧ (u.launch.nwg ≤ u.retired + 1 → ∀ v ∈ s.taken, v.ended < place)))

/-- R288, R289: a workgroup that is being saved leaves its core once every executor stands at a clause start: its registers, pools and
shapes wait in memory, its estimate returns, and the request for its missing pages goes to the host. Here its save area's pages are all
present and its L1 holds nothing. R292, R293: the restorable workgroup that its cluster places next returns on its core, with the registers,
pools, tiles and scratchpad of its save; its estimate is committed again. With nothing to place nothing happens. Here its save area is as
the save left it. That the area's first page takes 8 bytes of a check code and the pages after it the scratchpad, and that a restore
compares the area with what the save left, is the model's choice (log 14). -/
def Obligations.WorkgroupsAreSavedAndReturn : Prop :=
  (∀ (s : State) (core : Nat) (w : Workgroup) (pfns : List Nat), s.wg core = some w → w.phase = .saving false → Quiet s →
    mapWf Core.idle s.cores = true → mapWf Field.locked s.fields = true → mapWf none w.execs = true → (s.core core).l1 = [] →
    s.trace = none → s.governors = [] → w.launch.spsize ≤ 2 ^ 20 → (∀ p ∈ pfns, p < 2 ^ 40) → areaPages s w.launch (w.launch.ctxbase + 4 * 2 ^ 20 * w.wgid + 164 * 1024) = .ok pfns →
    (∀ r ∈ s.requests, r.who ≠ .core core) →
    (saveReady s core w = false → stilled s core w = false ∨ (∀ n e, w.exec n = some e → e.holds = [] ∧ e.waits = []) →
      exec (.workgroupSave core) s = .next s) ∧
    (saveReady s core w = true → (∀ n e, w.exec n = some e → e.clauses = []) → w.batch.length ≤ 16 →
      ∃ t v, exec (.workgroupSave core) s = .next t ∧ t.wg core = none ∧ t.saved = s.saved ++ [v] ∧ v.core = core ∧ v.evac = false ∧
        v.waiting = !w.batch.isEmpty ∧ v.wg.launch = w.launch ∧ v.wg.wgid = w.wgid ∧ v.wg.pools = w.pools ∧ v.wg.tags = w.tags ∧
        v.wg.shapes = w.shapes ∧ v.wg.apply = w.apply ∧ v.tiles = (s.core core).tiles ∧
        (∀ n e, w.exec n = some e → ∃ e', v.wg.exec n = some e' ∧ e'.pc = e.pc ∧ e'.a0 = e.a0 ∧ (∀ r l, e'.rv r l = e.rv r l) ∧
          (∀ r, e'.rk r = e.rk r) ∧ ∀ r, e'.ra r = e.ra r) ∧
        (t.field (fieldOf core)).committed = (s.field (fieldOf core)).committed - w.launch.est ∧
        (∀ a, a / 4096 ∉ pfns.take (1 + (w.launch.spsize + 4095) / 4096) → readByte t.mem a = readByte s.mem a) ∧
        (pfns.Nodup → ∀ o, o < w.launch.spsize → mapGet 0 v.sp o = readByte s.mem (2 ^ 53 + core * 2 ^ 20 + o) ∧
          readByte t.mem (pfns.getD (1 + o / 4096) 0 * 4096 + o % 4096) = readByte s.mem (2 ^ 53 + core * 2 ^ 20 + o)) ∧
        (w.batch = [] → t.requests = s.requests) ∧
        (w.batch ≠ [] → ∃ r, t.requests = s.requests ++ [r] ∧ r.reqid = v.reqid ∧ r.path = 0 ∧ r.ctx = w.launch.ctx ∧
          r.gen = w.launch.ctxGen ∧ r.wgid = w.wgid ∧ r.pages = w.batch ∧ r.who = .replay w.launch.gen w.wgid))) ∧
  (∀ (s : State) (core : Nat) (v : Saved) (pfns : List Nat), s.startState = 2 → Quiet s → Memory.wf s.mem = true →
    mapWf Field.locked s.fields = true → mapWf none v.wg.execs = true →
    (nextFor s (core / 8) = none → exec (.workgroupRestore v.reqid core) s = .next s) ∧
    (let l : Launch := { v.wg.launch with root := ((ctxDesc s v.wg.launch.ctx).map (·.root)).getD v.wg.launch.root }
     nextFor s (core / 8) = some (.restore v, [core]) → s.gangBars = [] → eventWaiters s (core / 8) = [] →
     areaPages s l (v.wg.launch.ctxbase + 4 * 2 ^ 20 * v.wg.wgid + 164 * 1024) = .ok pfns → areaBytes s pfns = v.area →
     v.macros = none → v.wg.shapes = [] → mapWf 0 v.sp = true → (∀ p ∈ v.sp, p.1 < v.wg.launch.spsize) →
     (∀ n e, v.wg.exec n = some e → e.retired = false ∧ e.holds = [] ∧ syncOps e = [] ∧ (e.waits = [] ∨ ∃ id, e.waits = [.page id])) →
     let pad : Nat := 2 ^ 53 + core * 2 ^ 20
     ∃ t w', exec (.workgroupRestore v.reqid core) s = .next t ∧ t.wg core = some w' ∧ w'.launch = l ∧ w'.wgid = v.wg.wgid ∧
       w'.phase = .running ∧ w'.batch = [] ∧ w'.wdogLeft = l.wdog * 4000 ∧ w'.pools = v.wg.pools ∧ w'.tags = v.wg.tags ∧
       (t.core core).tiles = v.tiles ∧ t.saved = s.saved.filter (fun u => u ≠ v) ∧
       (∀ n e, v.wg.exec n = some e → ∃ e', w'.exec n = some e' ∧ e'.waits = [] ∧ e'.pc = e.pc ∧ e'.a0 = e.a0 ∧
         (∀ r k, e'.rv r k = e.rv r k) ∧ (∀ r, e'.rk r = e.rk r) ∧ ∀ r, e'.ra r = e.ra r) ∧
       (t.field (fieldOf core)).committed = (s.field (fieldOf core)).committed + l.est ∧
       ∀ a, readByte t.mem a = if pad ≤ a ∧ a < pad + l.spsize then mapGet 0 v.sp (a - pad) else readByte s.mem a))

/-- R264, R265, R317: a doorbell on a running level sets its tail, in the device and in the level's descriptor; a tail that falls or runs
past the ring stops the level with err code 9 and an interrupt; on a level that does not run it is dropped and counted, as is a message from
another endpoint than the host or on another channel, by the model's reading of R314 (log 66), or one that does not fit its layout.
START_LEVEL takes the descriptor, STOP_LEVEL ends the level. The sequence number of err on a stop is head by the model's choice (log 15),
and that a start which fails clears state byte 0 is its reading (log 65). -/
def Obligations.DoorbellsAndLevels : Prop :=
  ∀ (s : State) (h : MsgHdr) (q lv base : Nat), s.startState = 2 → q < 64 → lv < 8 →
    s.queueTable = some base → base + 0x8000 ≤ 0x12000000000 → Quiet s → Memory.wf s.mem = true →
    let bell : Prop := heardHost s h 3 16 = true
    let command : Prop := h.src = s.hostId ∧ fits h 12 10 = true ∧ h.zero = true
    let k : Nat := 8 * q + lv
    let d : Nat := base + 64 * k
    let level (t : State) (l : Level) : Prop := mapGet none t.levels k = some l ∧ ∀ j, j ≠ k → mapGet none t.levels j = mapGet none s.levels j
    let kept (t : State) : Prop := t.cores = s.cores ∧ t.taken = s.taken ∧ ∀ a, (a < d ∨ d + 64 ≤ a) → readByte t.mem a = readByte s.mem a
    let told (t : State) (code status : Nat) : Prop := t.outbox = s.outbox ++
      [{ dst := h.src, src := s.ownId, kind := 13, tag := h.tag, payload := leBytes 2 code ++ leBytes 2 status ++ leBytes 4 0 }]
    let num (o n : Nat) : Nat := readNat s.mem (d + o) n
    (∀ l tail, mapGet none s.levels k = some l → l.running = true →
      (bell → l.tail ≤ tail → tail ≤ l.doneN + 2 ^ l.lgsize → ∃ t, exec (.doorbell h (8 * k) tail) s = .next t ∧ level t { l with tail } ∧
        Stored s t (d + 16) (leBytes 8 tail)) ∧
      (bell → (tail < l.tail ∨ l.doneN + 2 ^ l.lgsize < tail) → ∃ t, exec (.doorbell h (8 * k) tail) s = .next t ∧
        level t { l with running := false } ∧ kept t ∧ readByte t.mem (d + 9) = 0 ∧
        readBytes t.mem (d + 40) 8 = leBytes 1 9 ++ leBytes 7 l.head ∧
        (mapGet IntVec.idle t.ints 3).pending = (mapGet IntVec.idle s.ints 3).pending + 1) ∧
      (command → ∃ t, exec (.stopLevel h q lv) s = .next t ∧ level t { l with running := false } ∧ kept t ∧ readByte t.mem (d + 9) = 0 ∧
        told t 9 0 ∧ (mapGet IntVec.idle t.ints 3).pending = (mapGet IntVec.idle s.ints 3).pending + 1)) ∧
    ((∀ l, mapGet none s.levels k = some l → l.running = false) →
      (bell → ∀ tail, exec (.doorbell h (8 * k) tail) s = .next { s with doorbellsDropped := s.doorbellsDropped + 1 }) ∧
      (command → ∃ t, exec (.stopLevel h q lv) s = .next t ∧ { t with outbox := s.outbox } = s ∧ told t 9 0)) ∧
    (∀ offset tail, (¬ bell ∨ offset % 8 ≠ 0 ∨ 4096 ≤ offset) → exec (.doorbell h offset tail) s = .next { s with dropped := s.dropped + 1 }) ∧
    (command → mapGet none s.levels k = none → s.poison = [] →
      let l : Level := { base := num 0 8, lgsize := num 8 1, ctx := num 12 4, tail := num 16 8, head := num 24 8, doneN := num 32 8
                         running := true, took := false, finished := [] }
      let fit : Prop := num 10 2 = 0 ∧ num 48 16 = 0 ∧ l.base % 4096 = 0 ∧ 1 ≤ l.lgsize ∧ l.lgsize ≤ 16 ∧ l.ctx < 4096 ∧ l.doneN ≤ l.head ∧
        l.head ≤ l.tail ∧ l.tail ≤ l.doneN + 2 ^ l.lgsize
      (fit → ∃ t, exec (.startLevel h q lv) s = .next t ∧ level t l ∧ kept t ∧ readByte t.mem (d + 9) = 1 ∧ told t 8 0) ∧
      (¬ fit → ∃ t, exec (.startLevel h q lv) s = .next t ∧ level t { l with running := false } ∧ kept t ∧ readByte t.mem (d + 9) = 0 ∧
        readBytes t.mem (d + 40) 8 = leBytes 1 9 ++ leBytes 7 l.head ∧ told t 8 3))

/-- R264 to R268: the next record of a running level is taken: head passes it, and a record that passes the checks becomes a launch with the
record's fields; one that cannot be read, or has reserved bits set or another level's priority, or register or lane counts out of range, is
rejected with the lowest code that fails, and done passes it. A level with nothing left to take stays as it is. Which code is reported when
several checks fail is the model's reading of R268 (log 62). -/
def Obligations.RecordsAreTaken : Prop :=
  ∀ (s : State) (q lv base : Nat) (l : Level), s.startState = 2 → q < 64 → lv < 8 → s.queueTable = some base →
    base + 0x8000 ≤ 0x12000000000 → Quiet s → Memory.wf s.mem = true → s.poison = [] → mapGet none s.levels (8 * q + lv) = some l →
    let k : Nat := 8 * q + lv
    let addr : Nat := l.base + 256 * (l.head % 2 ^ l.lgsize)
    let num (o n : Nat) : Nat := readNat s.mem (addr + o) n
    let head (t : State) : Prop := readBytes t.mem (base + 64 * k + 24) 8 = leBytes 8 (l.head + 1)
    let rejected (code : Nat) : Prop := ∃ t l', exec (.recordTake q lv) s = .next t ∧ t.taken = s.taken ∧ t.cores = s.cores ∧ head t ∧
      mapGet none t.levels k = some l' ∧ l'.head = l.head + 1 ∧ (l.doneN = l.head → l.finished = [] → l'.doneN = l.head + 1) ∧
      readBytes t.mem (base + 64 * k + 40) 8 = leBytes 1 code ++ leBytes 7 l.head ∧
      ∃ m, t.outbox = s.outbox ++ [m] ∧ m.dst = s.hostId ∧ m.kind = 8 ∧ m.payload.take 2 = leBytes 1 2 ++ leBytes 1 code
    (l.running = false ∨ l.tail ≤ l.head → exec (.recordTake q lv) s = .next s) ∧
    (l.running = true → l.head < l.tail → (s.taken.filter fun t => t.level = k && !t.allPlaced).length < 16 →
      let flags : Prop := num 65 1 / 8 ≠ 0 ∨ num 67 1 / 32 ≠ 0 ∨ num 68 1 / 128 ≠ 0 ∨ num 72 4 / 2 ^ 26 ≠ 0 ∨ num 65 1 % 8 ≠ lv ∨
        ∃ i, i < 4 ∧ num (218 + 12 * i) 2 ≠ 0
      let counts : Prop := num 61 1 = 0 ∨ 32 < num 61 1 ∨ 8 < num 62 1 ∨ num 63 1 = 0 ∨ 16 < num 63 1 ∨ num 69 1 = 0 ∨ 32 < num 69 1 ∨
        512 * 1024 < (num 61 1 + num 62 1) * 32 * (16 * num 63 1) * 4
      (0x12000000000 < addr + 256 → rejected 9) ∧
      (addr + 256 ≤ 0x12000000000 → flags → rejected 1) ∧ (addr + 256 ≤ 0x12000000000 → ¬ flags → counts → rejected 2) ∧
      (addr + 256 ≤ 0x12000000000 → ∀ launch clusters,
        checkRecord { s with mem := writeBytes s.mem (base + 64 * k + 24) (leBytes 8 (l.head + 1)) }
          (parseRecord l k l.head (readBytes s.mem addr 256)) lv (readBytes s.mem addr 256) = .ok (launch, clusters) →
        ∃ t u l', exec (.recordTake q lv) s = .next t ∧ t.taken = s.taken ++ [u] ∧ t.cores = s.cores ∧
          Stored s t (base + 64 * k + 24) (leBytes 8 (l.head + 1)) ∧
          mapGet none t.levels k = some l' ∧ l' = { l with head := l.head + 1, took := true } ∧ u.level = k ∧ u.released = false ∧
          u.next = 0 ∧ u.returned = [] ∧ u.asked = [] ∧ u.retired = 0 ∧ u.clusters = clusters ∧ u.launch.gen = q * 2 ^ 58 + lv * 2 ^ 55 + l.head % 2 ^ 55 ∧
          u.launch.queue = q ∧ u.launch.seq = l.head ∧ u.launch.ctx = l.ctx ∧ u.launch.headoff = num 0 8 ∧ u.launch.warpoff = num 8 8 ∧
          u.launch.codeobj = num 16 8 ∧ u.launch.argptr = num 24 8 ∧ u.launch.handler = num 32 8 ∧ u.launch.ctxbase = num 40 8 ∧
          u.launch.rowcnt = num 48 8 ∧ u.launch.nwg = num 56 4 ∧ u.launch.gsize = num 60 1 ∧ u.launch.nwarps = num 61 1 ∧
          u.launch.slots = num 62 1 ∧ u.launch.window = 16 * num 63 1 ∧ u.launch.spsize = 4096 * num 64 1 ∧ u.launch.prio = lv ∧
          u.launch.cls = num 66 1 ∧ u.launch.lanes = num 69 1 ∧ u.launch.est = num 70 2 ∧ u.launch.affinity = num 72 4 ∧
          u.launch.wdog = num 76 4 ∧ u.launch.wait = BitVec.ofNat 256 (num 144 32) ∧ u.launch.set = BitVec.ofNat 256 (num 176 32)))

/-- R269: a taken record is released on a cluster of its affinity once every bit of its wait mask is set there; clrw clears them. R272: a
launch retires once every workgroup has: its set mask goes to every cluster of its affinity, the host is told under notify, done passes its
record. Until then nothing happens. -/
def Obligations.LaunchesAreReleasedAndRetire : Prop :=
  (∀ (s : State) (cluster : Nat) (u : Taken), s.startState = 2 → cluster < 26 → s.taken = [u] → u.released = false →
    u.launch.affinity / 2 ^ cluster % 2 = 1 → mapWf 0 s.events = true → eventWaiters s cluster = [] → turnFree s cluster lastTurn = true →
    let bits := mapGet 0 s.endEvents cluster
    (bits &&& u.launch.wait ≠ u.launch.wait → exec (.launchRelease cluster) s = .next s) ∧
    (bits &&& u.launch.wait = u.launch.wait → ∃ t since, exec (.launchRelease cluster) s = .next t ∧
      t.taken = [{ u with released := true, since, on := eventRelsOf s cluster u.launch.wait }] ∧ t.cores = s.cores ∧ t.mem = s.mem ∧ ∀ c, mapGet 0 t.events c =
        if u.launch.clrw = true ∧ c = cluster then mapGet 0 s.events c &&& ~~~ u.launch.wait else mapGet 0 s.events c)) ∧
  (∀ (s : State) (u : Taken) (l : Level) (base : Nat), s.taken = [u] → s.queueTable = some base → mapGet none s.levels u.level = some l →
    Quiet s → Memory.wf s.mem = true → mapWf 0 s.events = true → (∀ p ∈ s.busy, ∀ q ∈ p.2.all, q.2.waits = []) →
    (u.retired < u.launch.nwg → exec (.launchRetire u.launch.gen) s = .next s) ∧
    (u.launch.nwg ≤ u.retired → l.doneN = u.launch.seq → l.finished = [] → ∃ t, exec (.launchRetire u.launch.gen) s = .next t ∧
      t.taken = [] ∧ mapGet none t.levels u.level = some { l with doneN := l.doneN + 1 } ∧
      Stored s t (base + 64 * u.level + 32) (leBytes 8 (l.doneN + 1)) ∧
      (∀ c, mapGet 0 t.events c =
        if c < 26 ∧ u.launch.affinity / 2 ^ c % 2 = 1 then mapGet 0 s.events c ||| u.launch.set else mapGet 0 s.events c) ∧
      (u.launch.notify = false → t.outbox = s.outbox) ∧
      (u.launch.notify = true → ∃ m, t.outbox = s.outbox ++ [m] ∧ m.dst = s.hostId ∧ m.kind = 8 ∧ m.tag = 0 ∧
        m.payload = leBytes 1 1 ++ leBytes 7 0 ++ leBytes 8 u.launch.gen ++ leBytes 4 u.launch.ctx ++ leBytes 68 0)))

/-- R274: of a launch's candidates that cannot be placed and have no reservation, the first that a plan helps reserves the allowed cluster
with the fewest victims, the first of those; one that nothing of lower priority blocks waits 65,536 cycles and then reserves the first
window of its lowest cluster. Which window is reserved where lower priorities alone do not free enough is the model's choice (log 85); that
victims count by workgroups of the chosen gangs, and on which field the cycles count, is its reading (log 73). R275, R276: a watchdog whose
bound has passed evacuates a victim's gang, kills the context under wdkill, and else begins its bound anew. -/
def Obligations.ReservationsAndWatchdogs : Prop :=
  (∀ (s : State) (gen : Nat),
    let count (vs : List (Nat × Nat)) : Nat := (gangCores s vs).length
    let plans (c : Cand) : List (Nat × List (Nat × Nat) × List Nat) :=
      let freeing := (plansOf s c).filter fun p => p.2.1 ≠ []
      if freeing = [] then mixedPlans s c else freeing
    let timed (c : Cand) : Prop := plansOf s c = [] ∧ mixedPlans s c = [] ∧ 65536 ≤ waited s c ∧ ∃ k ∈ candClusters s c, openWindows s c k ≠ []
    let reserves (i : Instr) (c : Cand) (k : Nat) (vs : List (Nat × Nat)) (cores : List Nat) : Prop := ∃ t r, exec i s = .next t ∧
      { t with reservations := s.reservations } = s ∧ t.reservations = s.reservations ++ [r] ∧ r.gen = c.launch.gen ∧ r.cluster = k ∧
      r.cores = cores ∧ r.budget = needOf s c ∧ r.field = fieldOfCluster k ∧ r.victims = vs
    ((∀ c ∈ blocked s gen, plans c = []) → exec (.targetReservation gen) s = .next s) ∧
    ((∀ c ∈ blocked s gen, ¬ timed c) → exec (.reservationTimerExpiry gen) s = .next s) ∧
    ∀ before c after, blocked s gen = before ++ c :: after →
      ((∀ b ∈ before, plans b = []) → plans c ≠ [] → ∃ k vs cores pre post, plans c = pre ++ (k, vs, cores) :: post ∧
        (∀ p ∈ pre, count vs < count p.2.1) ∧ (∀ p ∈ post, count vs ≤ count p.2.1) ∧ reserves (.targetReservation gen) c k vs cores) ∧
      ((∀ b ∈ before, ¬ timed b) → timed c → ∃ pre k post cores wins, candClusters s c = pre ++ k :: post ∧
        (∀ j ∈ pre, openWindows s c j = []) ∧ openWindows s c k = cores :: wins ∧ reserves (.reservationTimerExpiry gen) c k [] cores)) ∧
  (∀ (s : State) (core : Nat) (w : Workgroup), s.wg core = some w →
    let gang (v : Workgroup) : Nat × Nat := (v.launch.gen, v.wgid / v.launch.gsize)
    let victim : Prop := ∃ r ∈ s.reservations, gang w ∈ r.victims
    let due : Prop := w.wdogLeft = 0 ∧ w.phase ≠ .saving true ∧ w.phase ≠ .killed
    (¬ due → exec (.watchdogExpiry core) s = .next s) ∧
    (due → ¬ victim → w.launch.wdkill = false →
      exec (.watchdogExpiry core) s = .next (s.setWg core { w with wdogLeft := w.launch.wdog * 4000 })) ∧
    (due → ¬ victim → w.launch.wdkill = true → mapWf Core.idle s.cores = true →
      ∃ t, exec (.watchdogExpiry core) s = .next t ∧ ∀ n v, t.wg n = some v → v.launch.ctx = w.launch.ctx →
        v.phase = .killed ∧ ∃ p ∈ v.all, p.2.clauses ≠ [] ∧ p.2.shadow = none) ∧
    (due → victim → mapWf Core.idle s.cores = true →
      (∀ n v, s.wg n = some v → v.launch.gen = w.launch.gen → v.launch = w.launch ∧ v.phase = .running) → wgRetired w = false →
      ∃ t, exec (.watchdogExpiry core) s = .next t ∧ t.mem = s.mem ∧ t.wg core = some { w with phase := .saving true } ∧
        ∀ n v, s.wg n = some v → t.wg n = some (if gang v = gang w ∧ wgRetired v = false then { v with phase := .saving true } else v)))

/-- R278, R279, R290: every 1,024 cycles, and at once when a page that it asked for has come, a governor compares its rings with its
thresholds; with no move under way the first rule that applies moves the highest twin of one stage to another, at once when both its cores
are free. Here the ring headers can be read. -/
def Obligations.GovernorsMoveTwins : Prop :=
  ∀ (s : State) (cluster : Nat) (g : Governor) (d : CtxDesc) (a b : Nat), s.startState = 2 → mapGet none s.governors cluster = some g →
    g.request = none → g.stages.length = 4 → ctxDesc s g.ctx = some d → occupancy s g.ctx d.root g.ringA = .ok (some a) →
    occupancy s g.ctx d.root g.ringB = .ok (some b) →
    let now := (s.field (fieldOfCluster cluster)).count
    let twins (stage : Nat) : Nat := (g.stages.filter (· = stage)).length
    let rule : Option (Nat × Nat) :=
      if g.moving ≠ none then none
      else if g.hiA ≤ a ∧ 2 ≤ twins 0 then some (0, 1) else if a ≤ g.loA ∧ 2 ≤ twins 1 then some (1, 0)
      else if g.hiB ≤ b ∧ 2 ≤ twins 1 then some (1, 2) else if b ≤ g.loB ∧ 2 ≤ twins 2 then some (2, 1) else none
    let read : Governor := { g with ticked := some now, again := false }
    let leaves (g' : Governor) : Prop := ∃ t, exec (.governorTick cluster) s = .next t ∧ { t with governors := s.governors } = s ∧
      mapGet none t.governors cluster = some g' ∧ ∀ c, c ≠ cluster → mapGet none t.governors c = mapGet none s.governors c
    let due : Prop := g.again = true ∨ (now % 1024 = 0 ∧ g.ticked ≠ some now)
    (¬ due → exec (.governorTick cluster) s = .next s) ∧
    (due →
      (rule = none → leaves read) ∧
      (∀ src dst, rule = some (src, dst) → ∃ i, i < 4 ∧ g.stages.getD i 3 = src ∧ (∀ j, i < j → j < 4 → g.stages.getD j 3 ≠ src) ∧
        ((s.wg (8 * cluster + 2 * i)).isNone = true ∧ (s.wg (8 * cluster + 2 * i + 1)).isNone = true →
          leaves { read with stages := g.stages.set i dst, moving := none }) ∧
        (¬ ((s.wg (8 * cluster + 2 * i)).isNone = true ∧ (s.wg (8 * cluster + 2 * i + 1)).isNone = true) →
          leaves { read with stages := g.stages.set i 3, moving := some (i, dst) })))

/-- R284, R290, R322: an answer to a page request ends it, and its asker goes on: an executor on the in-place path, a saved workgroup, a
launch or a governor. Status 1 kills the context: what remains of its workgroups is killed and runs out a clause (R294). An answer that
matches no request of a live context is counted and dropped, as is one that does not fit its layout, and, by the model's reading, one from
another endpoint than the host or on another channel (log 66). A shootdown drops every translation of its range at once, and is acknowledged
once the accesses that they served are performed. -/
def Obligations.AnswersAndShootdowns : Prop :=
  ∀ (s : State) (h : MsgHdr),
    (∀ ctx id gen status, ¬ heardHost s h 5 24 = true → exec (.pageAnswer h ctx id gen status) s = .next { s with dropped := s.dropped + 1 }) ∧
    (∀ ctx number addr len, ¬ heardHost s h 6 24 = true → exec (.shootdown h ctx number addr len) s = .next { s with dropped := s.dropped + 1 }) ∧
    (∀ ctx id gen status, heardHost s h 5 24 = true → (∀ r ∈ s.requests, ¬ (r.reqid = id ∧ r.ctx = ctx)) → status ≤ 1 →
      exec (.pageAnswer h ctx id gen status) s = .next { s with lateAnswers := s.lateAnswers + 1 }) ∧
    (∀ ctx id gen status, 1 < status → exec (.pageAnswer h ctx id gen status) s = .next { s with dropped := s.dropped + 1 }) ∧
    (∀ (r : PageReq) (d : CtxDesc), heardHost s h 5 24 = true → s.requests = [r] → ctxDesc s r.ctx = some d →
      (∀ gen, (d.live = false ∨ d.gen ≠ gen) →
        exec (.pageAnswer h r.ctx r.reqid gen 0) s = .next { s with lateAnswers := s.lateAnswers + 1 }) ∧
      (d.live = true → d.gen = r.gen →
        (∀ x e, r.who = .exec x → s.exec x = some e → e.waits = [.page r.reqid] → ∃ t e', exec (.pageAnswer h r.ctx r.reqid r.gen 0) s = .next t ∧
          t.requests = [] ∧ t.exec x = some e' ∧ e'.waits = [] ∧ { e' with waits := e.waits, repeats := e.repeats } = e ∧ t.mem = s.mem) ∧
        (∀ v, r.who = .replay v.wg.launch.gen v.wg.wgid → s.saved = [v] → ∃ t v', exec (.pageAnswer h r.ctx r.reqid r.gen 0) s = .next t ∧
          t.requests = [] ∧ t.saved = [v'] ∧ v'.waiting = false ∧ v'.sp = v.sp ∧ v'.wg.launch = v.wg.launch ∧ v'.core = v.core) ∧
        (∀ u gang, r.who = .launch u.launch.gen gang → s.taken = [u] → exec (.pageAnswer h r.ctx r.reqid r.gen 0) s =
          .next { s with requests := [], taken := [{ u with asked := mapPut none gang (some none) u.asked }] }) ∧
        (∀ c g, r.who = .governor c → mapGet none s.governors c = some g → ∃ m, exec (.pageAnswer h r.ctx r.reqid r.gen 0) s =
            .next { s with requests := [], governors := m } ∧ mapGet none m c = some { g with request := none, again := true } ∧
          ∀ j, j ≠ c → mapGet none m j = mapGet none s.governors j) ∧
        (mapWf Core.idle s.cores = true → ∃ t, exec (.pageAnswer h r.ctx r.reqid r.gen 1) s = .next t ∧ t.requests = [] ∧
          (∀ n v, t.wg n = some v → v.launch.ctx = r.ctx → v.phase = .killed ∧ ∃ p ∈ v.all, p.2.clauses ≠ [] ∧ p.2.shadow = none) ∧
          ∀ v ∈ t.saved, v.wg.launch.ctx ≠ r.ctx))) ∧
    (∀ ctx number addr len, 2 ^ 57 ≤ addr → exec (.shootdown h ctx number addr len) s = .next { s with dropped := s.dropped + 1 }) ∧
    (∀ ctx number addr len, heardHost s h 6 24 = true → addr < 2 ^ 57 → Quiet s → mapWf Core.idle s.cores = true → (∀ n, (s.core n).l1 = []) →
      let meets (p : Nat) : Bool := len = 0 || (decide (p * 4096 < addr + len) && decide (addr < p * 4096 + 4096))
      ∃ t sh, exec (.shootdown h ctx number addr len) s = .next t ∧ t.mem = s.mem ∧ t.shoots = s.shoots ++ [sh] ∧ sh.ctx = ctx ∧
        sh.number = number ∧ sh.src = h.src ∧ sh.tag = h.tag ∧
        (∀ n, (t.core n).tlb = (s.core n).tlb.filter fun y => !(y.ctx = ctx && meets y.page)) ∧
        ∀ x e, s.exec x = some e → t.exec x = some { e with lastPage := [] }) ∧
    (∀ sh, s.shoots = [sh] → Quiet s →
      (sh.ops = [] → exec (.shootdownAck sh.number) s = .next ({ s with shoots := [] }.send sh.src 7 sh.tag
        (leBytes 4 sh.ctx ++ leBytes 4 sh.number))) ∧
      (∀ x e o, s.exec x = some e → e.ops = [o] → o.performed = false → (x, o.id) ∈ sh.ops → exec (.shootdownAck sh.number) s = .next s))

/-- R315, R320, R336: accesses from outside are performed at the home and answered: a write with status 0, a read with its bytes, an atomic
with the old value in one indivisible step; an address beyond memory with status 1, poison with status 2, an atomic that is none with status
3. A message of no permitted endpoint, or one that does not fit its layout, is dropped and counted, as is one on another channel by the
model's reading (log 66). The data of an answer with status 1 are the model's choice, and so is that a write which straddles the end of
memory is discarded whole (log 68). -/
def Obligations.AccessesFromOutside : Prop :=
  ∀ (s : State) (h : MsgHdr), s.unreachable = [] → Quiet s → Memory.wf s.mem = true →
    let answers (t : State) (status : Nat) (data : List Byte) : Prop := t.outbox = s.outbox ++
      [{ dst := h.src, src := s.ownId, kind := 2, tag := h.tag, payload := leBytes 4 status ++ leBytes 4 data.length ++ data }]
    let same (t : State) : Prop := t.cores = s.cores ∧ t.taken = s.taken
    let drops (i : Instr) : Prop := exec i s = .next { s with dropped := s.dropped + 1 }
    let failed (i : Instr) (status n : Nat) (P : List Byte → Prop) : Prop := ∃ t data, exec i s = .next t ∧ same t ∧ t.mem = s.mem ∧
      answers t status data ∧ data.length = n ∧ P data
    let top : Nat := 0x12000000000
    (∀ addr data, heard s h 0 (16 + data.length) = true → 0 < data.length → data.length ≤ 3072 →
      (addr + data.length ≤ top → ∃ t, exec (.hostMemoryWrite h addr data) s = .next t ∧ same t ∧ Stored s t addr data ∧ answers t 0 []) ∧
      (top < addr + data.length → addr < 2 ^ 52 → failed (.hostMemoryWrite h addr data) 1 0 fun _ => True)) ∧
    (∀ addr data, (¬ heard s h 0 (16 + data.length) = true ∨ data.length = 0 ∨ 3072 < data.length ∨ 2 ^ 52 ≤ addr) → drops (.hostMemoryWrite h addr data)) ∧
    (∀ addr n, heard s h 1 16 = true → 0 < n → n ≤ 3072 →
      (addr + n ≤ top → poisoned s addr n = false → ∃ t, exec (.hostMemoryRead h addr n) s = .next t ∧ same t ∧ t.mem = s.mem ∧
        answers t 0 (readBytes s.mem addr n)) ∧
      (addr + n ≤ top → poisoned s addr n = true → failed (.hostMemoryRead h addr n) 2 n fun _ => True) ∧
      (top < addr + n → addr < 2 ^ 52 → failed (.hostMemoryRead h addr n) 1 n fun data => data = List.replicate n 0xFF)) ∧
    (∀ addr n, (¬ heard s h 1 16 = true ∨ n = 0 ∨ 3072 < n ∨ 2 ^ 52 ≤ addr) → drops (.hostMemoryRead h addr n)) ∧
    (∀ addr (x y : Word), heard s h 10 32 = true → addr % 8 = 0 → addr + 8 ≤ top → s.poison = [] →
      let old : Nat := readNat s.mem addr 8
      let swaps (op : Nat) (y : Word) (new : Nat) : Prop := ∃ t, exec (.peerAtomic h addr op (tyCode .b64).toNat x y) s = .next t ∧ same t ∧
        Stored s t addr (leBytes 8 new) ∧ answers t 0 (leBytes 8 old)
      swaps (atomCode .and).toNat 0 (old &&& x.toNat) ∧ swaps (atomCode .or).toNat 0 (old ||| x.toNat) ∧
      swaps (atomCode .xor).toNat 0 (old ^^^ x.toNat) ∧ swaps (atomCode .exch).toNat 0 x.toNat ∧
      swaps 15 y (if old = x.toNat then y.toNat else old)) ∧
    (∀ addr op (x y : Word), ¬ heard s h 10 32 = true ∨ addr % 8 ≠ 0 ∨ 2 ^ 52 ≤ addr ∨ (op ≠ 15 ∧ y ≠ 0) → drops (.peerAtomic h addr op (tyCode .b64).toNat x y)) ∧
    (∀ addr (x : Word), heard s h 10 32 = true → addr % 8 = 0 → addr < 2 ^ 52 → top < addr + 8 → failed (.peerAtomic h addr (atomCode .exch).toNat (tyCode .b64).toNat x 0) 1 8
      fun data => data = List.replicate 8 0xFF) ∧
    (∀ addr op (x y : Word), heard s h 10 32 = true → addr < 2 ^ 52 → 16 ≤ op → y = 0 → failed (.peerAtomic h addr op 32 x y) 3 8 fun _ => True)

/-- R295, R296, R315: a response ends the access that waits for it: a store to a remote window is then performed; one that is rejected
completes failed, and its executor has the remote-unreachable trap to take; a read takes the bytes. A response that no access waits for
changes nothing, by the model's choice (log 66). -/
def Obligations.RemoteResponses : Prop :=
  ∀ (s : State) (h : MsgHdr) (data : List Byte), heard s h 2 (8 + data.length) = true →
    ((∀ r ∈ s.remotes, ¬ (r.tag = h.tag ∧ r.ep = h.src)) → ∀ status, status ≤ 3 → exec (.remoteResponse h status data) s = .next s) ∧
    (∀ status, 3 < status → exec (.remoteResponse h status data) s = .next { s with dropped := s.dropped + 1 }) ∧
    (∀ (x : ExecId) (w : Workgroup) (e : Exec) (o : Op) (r : Remote) (q : MemW) (l : Nat), Alone s x w e o → s.remotes = [r] →
      r.tag = h.tag → r.ep = h.src → r.x = x → r.op = o.id → l < 32 → r.lane = l → o.lanes = 1 <<< l → o.item.g = 1 <<< l → o.due = [] →
      o.vals = [] → o.item.instr = .st q → o.cls = .s → r.kind = 0 → r.addr = (o.item.kv.getD l 0).toNat → data = [] →
      (∃ t, exec (.remoteResponse h 0 data) s = .next t ∧ t.remotes = [] ∧ t.mem = s.mem ∧
        Performed t x e o (fun _ _ => none) (fun _ => none) fun _ => none) ∧
      (∀ status, status = 1 ∨ status = 3 → e.entries = [] → ∃ t e' n, exec (.remoteResponse h status data) s = .next t ∧ t.remotes = [] ∧
        t.mem = s.mem ∧ t.exec x = some e' ∧ e'.entries = [n] ∧ n.code = 0x13 ∧ n.tmask = e.a0 ∧
        Performed t x e o (fun _ _ => none) (fun _ => none) fun _ => none)) ∧
    (∀ (x : ExecId) (w : Workgroup) (e : Exec) (o : Op) (r : Remote) (q : MemW) (l : Nat), Alone s x w e o → s.remotes = [r] →
      r.tag = h.tag → r.ep = h.src → r.x = x → r.op = o.id → l < 32 → r.lane = l → o.lanes = 1 <<< l → o.item.g = 1 <<< l →
      o.vals = [] → o.item.instr = .ld q → q.ty = .b32 → o.cls = .l → r.kind = 1 → r.len = 4 → r.addr = (o.item.kv.getD l 0).toNat →
      data.length = 4 → ∃ t e' o', exec (.remoteResponse h 0 data) s = .next t ∧ t.remotes = [] ∧ t.mem = s.mem ∧ t.exec x = some e' ∧
        e'.ops = [o'] ∧ o'.performed = true ∧ o'.vals = [.v q.d.toNat l (BitVec.ofNat 32 (leNat data))] ∧ { e' with ops := e.ops } = e)

/-- R294, R316: KILL_CONTEXT ends a context: its workgroups leave their cores, but for those of which an executor has a clause to run out,
which are killed; its saved workgroups and records are gone, and the command is answered. -/
def Obligations.ContextsAreKilled : Prop :=
  ∀ (s : State) (h : MsgHdr) (ctx : Nat), s.startState = 2 → h.src = s.hostId → fits h 12 12 = true → h.zero = true → mapWf Core.idle s.cores = true → Quiet s →
    ctx < 4096 → ∃ t m, exec (.killContext h ctx) s = .next t ∧ (∀ n w, t.wg n = some w → (∃ v, s.wg n = some v) ∧ (w.launch.ctx = ctx →
        w.phase = .killed ∧ ∃ p ∈ w.all, p.2.clauses ≠ [] ∧ p.2.shadow = none)) ∧
      (∀ v ∈ t.saved, v.wg.launch.ctx ≠ ctx) ∧ (∀ u ∈ t.taken, u.launch.ctx ≠ ctx) ∧ (∀ r ∈ t.requests, r.ctx ≠ ctx) ∧
      (∀ v, v.wg.launch.ctx ≠ ctx → (v ∈ t.saved ↔ v ∈ s.saved)) ∧ (∀ u, u.launch.ctx ≠ ctx → (u ∈ t.taken ↔ u ∈ s.taken)) ∧
      t.outbox.getLast? = some m ∧ m.dst = h.src ∧ m.kind = 13 ∧ m.tag = h.tag ∧
      m.payload = leBytes 2 10 ++ leBytes 2 0 ++ leBytes 4 0

/-- R231: RFT returns from handler state: when its clause commits, a0 takes the frame's lanes of those launched, a1 to a15 and k63 and under
`.pools` the pools, in the bits of launched warps (R43), and tags are the frame's, sr.tmask is 0, and the next clause is the frame's resume
address; every other register stays. The headspring, which has no lanes, takes k63, the pools, sr.tmask and the next clause alone. Here the
pages of the frame and of the resume address are cached. -/
def Obligations.HandlersReturn : Prop :=
  ∀ (s : State) (x : ExecId) (w : Workgroup) (e : Exec) (c : Clause) (it : Item) (q : RftW) (entry code : TlbEntry),
    s.wg x.core = some w → w.exec x.ctx = some e → Quiet s → x.ctx ≤ 40 → w.phase ≠ .killed → e.handler = true → e.clauses = [c] → c.cause = none → c.items = [it] →
    it.instr = .rft q → it.on = true → e.shadow = none → e.ops = [] → e.waits = [] → c.next = c.code.words.length →
    c.settled ≤ s.now x.core → (∀ p ∈ e.pend, p.seq ≠ c.seq) → (s.core x.core).l1 = [] → (s.core x.core).code = [] → s.marks = [] →
    s.poison = [] → turnFree s (clusterOf x.core) (turnOf x.core x.ctx) = true → mapWf 0 e.k = true → mapWf 0 w.pools = true →
    mapWf none w.tags = true →
    let frame : Nat := w.launch.ctxbase + 4 * 2 ^ 20 * w.wgid + 4096 * x.ctx
    let cached (addr : Nat) (n : TlbEntry) : Prop := (s.core x.core).tlb.find? (fun t => t.ctx = w.launch.ctx && t.page = addr / 4096 &&
      xlCurrent s t.xl) = some n ∧ n.xl.remote = none
    w.launch.ctxbase % 4096 = 0 → frame + 4096 ≤ 2 ^ 57 → cached frame entry → entry.xl.rd = true →
    let num (o n : Nat) : Nat := readNat s.mem (entry.xl.pfn * 4096 + o) n
    let resume : Nat := num 16 8
    let header : Word := BitVec.ofNat 64 (readNat s.mem (code.xl.pfn * 4096 + resume % 4096) 8)
    resume % 8 = 0 → resume + 8 ≤ 2 ^ 57 → cached resume code → header.extractLsb' 58 6 = 0b101101 →
    1 ≤ (header.extractLsb' 50 5).toNat → (header.extractLsb' 50 5).toNat ≤ 24 → header.extractLsb' 0 26 = 0 →
    (x.ctx ≠ 40 → BitVec.ofNat 32 (num 44 4) &&& e.base ≠ 0) →
    ∃ t w' e', exec (.clauseCommit x) s = .next t ∧ t.wg x.core = some w' ∧ w'.exec x.ctx = some e' ∧ t.mem = s.mem ∧ e'.handler = false ∧
      e'.tmask = 0 ∧ e'.pc = resume ∧ e'.clauses = [] ∧
      (x.ctx = 40 → e'.a0 = e.a0 ∧ ∀ r, e'.ra r = e.ra r) ∧
      (x.ctx ≠ 40 → e'.a0 = BitVec.ofNat 32 (num 44 4) &&& e.base ∧
        ∀ r, 1 ≤ r → r < 16 → e'.ra r = BitVec.ofNat 32 (num (44 + 4 * r) 4)) ∧
      (∀ r, e'.rk r = if r = 63 then BitVec.ofNat 64 (num 112 8) else e.rk r) ∧ (∀ r l, e'.rv r l = e.rv r l) ∧
      (q.pools = false → w'.pools = w.pools ∧ w'.tags = w.tags) ∧
      (q.pools = true → ∀ p, p < 16 → poolOf w' p = BitVec.ofNat 1024 (num (256 + 128 * p) 128) &&&
          BitVec.ofNat 1024 (2 ^ (32 * w.launch.nwarps) - 1) ∧
        tagOf w' p = (num (2304 + 16 * p) 8, num (2312 + 16 * p) 8))

/-- R134: LOOP computes k[d] := k[d] − 1 modulo 2^64 with latency 4 and is taken when the result is not zero; from 0 the result is all
ones and it is taken; with G empty it neither decrements nor branches. -/
def Obligations.LoopCountsDown : Prop :=
  ∀ (s : State) (x : ExecId) (w : Workgroup) (e : Exec) (c : Clause) (q : CallW), Issuing s x w e c → Legal x w (.loop q) q.ctl →
    let k : Nat := (e.rk q.d.toNat).toNat
    let target : Nat := transferTo c q.off
    let taken (r : Word) : Eff := { lat := 4, writes := [.k q.d.toNat r], target := some target, item := some ([BitVec.ofNat 64 target], []) }
    (executes x e q.ctl = false → Completes s x w e c (.loop q) q.ctl {}) ∧
    (executes x e q.ctl = true →
      (k = 0 → Completes s x w e c (.loop q) q.ctl (taken 0xFFFFFFFFFFFFFFFF)) ∧
      (k = 1 → Completes s x w e c (.loop q) q.ctl { lat := 4, writes := [.k q.d.toNat 0] }) ∧
      (∀ n, k = n + 2 → Completes s x w e c (.loop q) q.ctl (taken (BitVec.ofNat 64 (n + 1)))))

/-- R114: BCAST takes b32 and b64; with s the value of k[b], every lane of G receives v[a][s] when s is below 32 and in a0, else 0,
whether or not lane s is in G. -/
def Obligations.BcastReadsOneLane : Prop :=
  ∀ (s : State) (x : ExecId) (w : Workgroup) (e : Exec) (c : Clause) (q : BcastW), Issuing s x w e c → Legal x w (.bcast q) q.ctl →
    let i : Nat := (e.rk q.k.toNat).toNat
    (q.ty = .b32 ∨ q.ty = .b64) ∧
    ∃ f : Eff, Completes s x w e c (.bcast q) q.ctl f ∧ f.item = none ∧ f.target = none ∧ f.part = none ∧
      ∀ v, v ∈ f.writes ↔ ∃ l, l < 32 ∧ (guardOf x e q.ctl).getLsbD l = true ∧ ∃ j, (j = 0 ∨ (j = 1 ∧ q.ty = .b64)) ∧
        v = .v (q.d.toNat + j) l (if i < 32 ∧ e.a0.getLsbD i = true then e.rv (q.a.toNat + j) i else 0)

/-- R50, R69, R73: the word at the head of the agenda that is due and decodes to an instruction runs as that instruction, issued by its
executor, when nothing of the cycle that comes before it is still to happen. The move leaves the agenda, and State.cur names the executor.
That the machine runs by an agenda is the model's choice (log 1). -/
def Obligations.StepRunsTheDecodedWord : Prop :=
  ∀ (s : State) (x : ExecId) (rest : List Move) (e : Exec) (c : Clause), s.agenda = .word x :: rest → allowed s (.word x) = .word x →
    s.exec x = some e → e.clauses.getLast? = some c → c.next < c.code.words.length → c.due ≤ s.now x.core →
    (∀ i, decode (c.code.words.getD c.next 0) c.code.words[c.next + 1]? = .ok i →
      step s = exec i { s with agenda := rest, cur := some x }) ∧
    (∀ err, decode (c.code.words.getD c.next 0) c.code.words[c.next + 1]? = .error err → e.shadow = none → ∃ t e' c', step s = .next t ∧
      t.exec x = some e' ∧ e'.clauses = e.clauses.dropLast ++ [c'] ∧ c'.next = c.code.words.length ∧
      (∃ cause, c'.cause = some cause ∧ cause.code = 0x02 ∧ cause.word = c.next) ∧ t.mem = s.mem ∧ t.agenda = rest)

/-- R89, R90: a word that its executor does not accept stops its clause with the illegal-instruction trap, whatever else is wrong with it;
an accepted word that names a v register at or above the window with the window fault, whose info is the lowest such register. -/
def Obligations.IllegalWordsTrap : Prop :=
  ∀ (s : State) (x : ExecId) (w : Workgroup) (e : Exec) (c : Clause) (i : Instr) (ctl : Ctl), Issuing s x w e c → ctlOf i = some ctl →
    (¬ Accepted x i ctl → Traps s x w e c i (wordCause x e c ctl 0x02 0)) ∧
    (∀ r, Accepted x i ctl → x.ctx ≠ 40 → r ∈ (foot false i).vr ++ (foot false i).vw → w.launch.window ≤ r →
      (∀ n ∈ (foot false i).vr ++ (foot false i).vw, w.launch.window ≤ n → r ≤ n) → Traps s x w e c i (wordCause x e c ctl 0x03 r))

/-- R50: no word has an effect on memory, on event bits or on another core as it issues; those come when its clause commits. R286, R287:
in a run-ahead no word changes a register of the executor, its counters or its operations. -/
def Obligations.IssueHasNoEffectOutsideItsExecutor : Prop :=
  (∀ (s t : State) (x : ExecId) (w : Workgroup) (e : Exec) (c : Clause) (i : Instr), Issuing s x w e c → isWord i = true →
    exec i s = .next t → t.mem = s.mem ∧ t.events = s.events ∧ t.outbox = s.outbox ∧ t.poison = s.poison ∧ t.fields = s.fields ∧
      (∀ n, n ≠ x.core → t.core n = s.core n) ∧
      ∃ w' e', t.wg x.core = some w' ∧ w'.exec x.ctx = some e' ∧ w'.pools = w.pools ∧ w'.shapes = w.shapes ∧ w'.tokens = w.tokens ∧
        e'.v = e.v ∧ e'.k = e.k ∧ e'.a = e.a ∧ e'.ops = e.ops ∧ ∀ cls, counterOf e' cls = counterOf e cls) ∧
  (∀ (s t : State) (x : ExecId) (w : Workgroup) (e : Exec) (c : Clause) (h : Shadow) (i : Instr), Ahead s x w e c h → isWord i = true →
    exec i s = .next t → ∃ w' e', t.wg x.core = some w' ∧ w'.exec x.ctx = some e' ∧ e'.v = e.v ∧ e'.k = e.k ∧ e'.a = e.a ∧ e'.a0 = e.a0 ∧
      e'.parts = e.parts ∧ e'.ops = e.ops ∧ w'.pools = w.pools ∧ t.events = s.events ∧ ∀ cls, counterOf e' cls = counterOf e cls)

/-- Words that the rules of spec/05 to spec/15 write out decode to the instructions that they stand for. -/
def Obligations.SpecWordsDecode : Prop :=
  let c (g : ApReg) (n : Bool) (gap : BitVec 3) : Ctl := { g, n, gap }
  let plain : Ctl := c 0 false 0
  decode 0x0839_0140_4080_0002 none = .ok (.add { ctl := c 3 true 2, ty := .i32, d := 5, a := 1, b := 2, u := false, sat := false, rnd := .rne }) ∧
  decode 0x8000_001F_C0DF_C3F8 none = .ok (.wait { ctl := plain, l := 0, s := 127, c := 3, t := 127, x := 127 }) ∧
  decode 0x8100_0000_0000_00A8 none = .ok (.fence { ctl := plain, kind := .rel, scope := .device }) ∧
  decode 0xF000_0000_0000_0028 none = .ok (.trap { ctl := plain, n := 5 }) ∧
  decode 0xF200_0000_0000_0008 none = .ok (.rft { ctl := plain, pools := true }) ∧
  decode 0xF400_0001_0140_00A0 none = .ok (.icinv { ctl := plain, all := false, a := 4, b := 5, scope := .device })

/-- R74 to R85: the words of every well-formed instruction decode to it, with every operand at every value that the encoding admits; the
bytes after them are left. -/
def Obligations.DecodeInvertsEncode : Prop :=
  ∀ (i : Instr) (tail : List Byte), isWord i = true → WellFormed i →
    (∃ w lits, encode i = w :: lits ∧ decode w lits.head? = .ok i ∧ lits.length + 1 = lengthOf i) ∧
    decodeBytes ((encode i).flatMap (fun w => leBytes 8 w.toNat) ++ tail) = .ok (i, tail)

/-- What the device can still hold in the canonical form, every step keeps: addresses rise strictly and no entry is a zero byte. -/
def Obligations.MemoryStaysCanonical : Prop :=
  ∀ (s t : State), Memory.wf s.mem = true → step s = .next t → Memory.wf t.mem = true

/-- R348, cold: the machine as a start leaves it: in state 2, every byte of memory zero and no unit poisoned, no table named, no event bit
set, no core with a workgroup, nothing logged or counted; its memory is canonical. State.reset stands after a cold start that succeeded (log
24); that its TLBs, walk caches and code buffers are empty (log 6) and no breakpoint or freeze is armed (log 7) is the model's choice. -/
def Obligations.ResetIsAColdStart : Prop :=
  let s := State.reset
  Memory.wf s.mem = true ∧ (∀ a, readByte s.mem a = 0) ∧ s.poison = [] ∧ s.startState = 2 ∧ (∀ c, mapGet 0 s.events c = 0) ∧
  s.queueTable = none ∧ s.contextTable = none ∧ s.governorTable = none ∧ s.trace = none ∧ (∀ n, s.core n = Core.idle) ∧
  (∀ f, s.field f = Field.locked) ∧ s.log = [] ∧ s.lateAnswers = 0 ∧ s.dropped = 0 ∧ s.doorbellsDropped = 0 ∧ s.traceDrops = 0 ∧
  s.taken = [] ∧ s.saved = [] ∧ s.requests = [] ∧ (∀ k, mapGet none s.levels k = none)
end

