-- ==== Sys2Proof/Laws/Maps.lean ====
section
/-! SUPPORT. Laws of the maps by number: what a put changes, and that it keeps the canonical form. -/

namespace Sys2Proof.Machine

variable {α : Type}

@[simp] theorem mapGet_nil (d : α) (i : Nat) : mapGet d [] i = d := rfl

/-- A put leaves every other key alone. -/
theorem mapGet_mapPut_ne [DecidableEq α] (d : α) (i j : Nat) (x : α) (m : SMap α) (h : j ≠ i) :
    mapGet d (mapPut d i x m) j = mapGet d m j := by
  induction m with
  | nil =>
    unfold mapPut
    split
    · rfl
    · simp [mapGet, h.symm]
  | cons p m ih =>
    obtain ⟨k, y⟩ := p
    unfold mapPut
    split
    · split
      · rfl
      · simp [mapGet, h.symm]
    · split
      · rename_i hk
        subst hk
        split
        · simp [mapGet, h.symm]
        · simp [mapGet, h.symm]
      · simp only [mapGet, ih]

/-- A value that is not the default reads back. -/
theorem mapGet_mapPut_self [DecidableEq α] (d : α) (i : Nat) (x : α) (m : SMap α) (h : x ≠ d) :
    mapGet d (mapPut d i x m) i = x := by
  induction m with
  | nil => simp [mapPut, mapGet, h]
  | cons p m ih =>
    obtain ⟨k, y⟩ := p
    unfold mapPut
    split
    · simp [mapGet]
    · split
      · simp [mapGet]
      · rename_i h1
        have hk : k ≠ i := fun e => h1 e.symm
        simp [mapGet, hk, ih]

/-- In a canonical map from a bound, a key at or below the bound reads as the default. -/
theorem mapGet_of_wfFrom [DecidableEq α] (d : α) (b i : Nat) (m : SMap α) (h : mapWfFrom d (some b) m = true) (hi : i ≤ b) :
    mapGet d m i = d := by
  induction m generalizing b with
  | nil => rfl
  | cons p m ih =>
    obtain ⟨k, y⟩ := p
    simp only [mapWfFrom, Bool.and_eq_true, decide_eq_true_eq] at h
    have hk : k ≠ i := by omega
    simp [mapGet, hk, ih k h.2 (by omega)]

/-- A canonical map reads back whatever was put. -/
theorem mapGet_mapPut_wf [DecidableEq α] (d : α) (i : Nat) (x : α) (b : Option Nat) (m : SMap α)
    (h : mapWfFrom d b m = true) : mapGet d (mapPut d i x m) i = x := by
  by_cases hx : x = d
  · subst hx
    induction m generalizing b with
    | nil => simp [mapPut]
    | cons p m ih =>
      obtain ⟨k, y⟩ := p
      simp only [mapWfFrom, Bool.and_eq_true, decide_eq_true_eq] at h
      unfold mapPut
      split
      · rename_i hlt
        have hk : k ≠ i := by omega
        simp [mapGet, hk, mapGet_of_wfFrom x k i m h.2 (by omega)]
      · split
        · rename_i heq
          subst heq
          simp [mapGet_of_wfFrom x i i m h.2 (by omega)]
        · rename_i h1
          have hk : k ≠ i := fun e => h1 e.symm
          simp [mapGet, hk, ih (some k) h.2]
  · exact mapGet_mapPut_self d i x m hx

theorem mapWfFrom_mono [DecidableEq α] (d : α) (b : Option Nat) (k : Nat) (m : SMap α) (h : mapWfFrom d (some k) m = true)
    (hb : ∀ j, b = some j → j ≤ k) : mapWfFrom d b m = true := by
  cases m with
  | nil => rfl
  | cons p m =>
    obtain ⟨i, y⟩ := p
    simp only [mapWfFrom, Bool.and_eq_true, decide_eq_true_eq] at h ⊢
    refine ⟨⟨?_, h.1.2⟩, h.2⟩
    cases b with
    | none => rfl
    | some j => simpa using Nat.lt_of_le_of_lt (hb j rfl) h.1.1

/-- A put keeps the canonical form. -/
theorem mapPut_wfFrom [DecidableEq α] (d : α) (i : Nat) (x : α) (b : Option Nat) (m : SMap α) (h : mapWfFrom d b m = true)
    (hb : ∀ j, b = some j → j < i) : mapWfFrom d b (mapPut d i x m) = true := by
  induction m generalizing b with
  | nil =>
    unfold mapPut
    split
    · rfl
    · rename_i hx
      cases b with
      | none => simp [mapWfFrom, hx]
      | some j => simp [mapWfFrom, hx, hb j rfl]
  | cons p m ih =>
    obtain ⟨k, y⟩ := p
    have h0 := h
    simp only [mapWfFrom, Bool.and_eq_true, decide_eq_true_eq] at h
    unfold mapPut
    split
    · rename_i hlt
      split
      · exact h0
      · rename_i hx
        simp only [mapWfFrom, Bool.and_eq_true, decide_eq_true_eq]
        refine ⟨⟨?_, hx⟩, ⟨hlt, h.1.2⟩, h.2⟩
        cases b with
        | none => rfl
        | some j => simpa using hb j rfl
    · split
      · rename_i heq
        subst heq
        split
        · exact mapWfFrom_mono d b i m h.2 fun j hj => Nat.le_of_lt (hb j hj)
        · rename_i hx
          simp only [mapWfFrom, Bool.and_eq_true, decide_eq_true_eq]
          exact ⟨⟨h.1.1, hx⟩, h.2⟩
      · rename_i hne hlt
        simp only [mapWfFrom, Bool.and_eq_true, decide_eq_true_eq]
        exact ⟨⟨h.1.1, h.1.2⟩, ih (some k) h.2 fun j hj => by cases hj; omega⟩

theorem mapPut_wf [DecidableEq α] (d : α) (i : Nat) (x : α) (m : SMap α) (h : mapWf d m = true) : mapWf d (mapPut d i x m) = true :=
  mapPut_wfFrom d i x none m h fun _ hj => by cases hj

/-- What a filter keeps is canonical still. -/
theorem filter_wfFrom [DecidableEq α] (d : α) (p : Nat × α → Bool) (b : Option Nat) (m : SMap α) (h : mapWfFrom d b m = true) :
    mapWfFrom d b (m.filter p) = true := by
  induction m generalizing b with
  | nil => rfl
  | cons q m ih =>
    obtain ⟨k, y⟩ := q
    simp only [mapWfFrom, Bool.and_eq_true, decide_eq_true_eq] at h
    simp only [List.filter]
    split
    · simp only [mapWfFrom, Bool.and_eq_true, decide_eq_true_eq]
      exact ⟨h.1, ih (some k) h.2⟩
    · refine mapWfFrom_mono d b k _ (ih (some k) h.2) fun j hj => ?_
      subst hj
      exact Nat.le_of_lt (by simpa using h.1.1)

theorem filter_wf [DecidableEq α] (d : α) (p : Nat × α → Bool) (m : SMap α) (h : mapWf d m = true) : mapWf d (m.filter p) = true :=
  filter_wfFrom d p none m h

theorem updFirst_length (p : α → Bool) (f : α → α) (l : List α) : (updFirst p f l).length = l.length := by
  induction l with
  | nil => rfl
  | cons x xs ih => unfold updFirst; split <;> simp [ih]

end Sys2Proof.Machine
end

