-- ==== Sys2Proof/Laws/State.lean ====
section
/-! SUPPORT. What an update of a core, a field, a workgroup or an executor changes, one lemma per field. -/

namespace Sys2Proof.Machine

-- cores

theorem core_setCore_ne (s : State) (c d : Nat) (x : Core) (h : d ≠ c) : (s.setCore c x).core d = s.core d :=
  mapGet_mapPut_ne _ _ _ _ _ h

theorem core_setCore_self (s : State) (c : Nat) (x : Core) (h : x ≠ Core.idle) : (s.setCore c x).core c = x :=
  mapGet_mapPut_self _ _ _ _ h

theorem ne_idle_of_wg (x : Core) (w : Workgroup) (h : x.wg = some w) : x ≠ Core.idle := by
  intro e
  rw [e] at h
  cases h

/-- A core that holds a workgroup reads back as it was set. -/
theorem core_setCore_busy (s : State) (c : Nat) (x : Core) (w : Workgroup) (h : x.wg = some w) : (s.setCore c x).core c = x :=
  core_setCore_self s c x (ne_idle_of_wg x w h)

theorem setCore_cores (s : State) (c : Nat) (x : Core) : { s.setCore c x with cores := s.cores } = s := rfl
@[simp] theorem setCore_now (s : State) (c d : Nat) (x : Core) : (s.setCore c x).now d = s.now d := rfl

-- workgroups

@[simp] theorem wg_setWg_self (s : State) (c : Nat) (w : Workgroup) : (s.setWg c w).wg c = some w := by
  unfold State.setWg State.wg
  rw [core_setCore_busy s c _ w rfl]

theorem wg_setWg_ne (s : State) (c d : Nat) (w : Workgroup) (h : d ≠ c) : (s.setWg c w).wg d = s.wg d := by
  unfold State.setWg State.wg
  rw [core_setCore_ne s c d _ h]

@[simp] theorem core_setWg_self (s : State) (c : Nat) (w : Workgroup) : (s.setWg c w).core c = { s.core c with wg := some w } :=
  core_setCore_busy s c _ w rfl

theorem core_setWg_ne (s : State) (c d : Nat) (w : Workgroup) (h : d ≠ c) : (s.setWg c w).core d = s.core d :=
  core_setCore_ne s c d _ h

-- executors

@[simp] theorem exec_setExec_self (w : Workgroup) (n : Nat) (e : Exec) : (w.setExec n e).exec n = some e :=
  mapGet_mapPut_self _ _ _ _ (by simp)

theorem exec_setExec_ne (w : Workgroup) (n m : Nat) (e : Exec) (h : m ≠ n) : (w.setExec n e).exec m = w.exec m :=
  mapGet_mapPut_ne _ _ _ _ _ h

theorem setExec_execs (w : Workgroup) (n : Nat) (e : Exec) : { w.setExec n e with execs := w.execs } = w := rfl

theorem setExec_of (s : State) (x : ExecId) (w : Workgroup) (e : Exec) (h : s.wg x.core = some w) :
    s.setExec x e = s.setWg x.core (w.setExec x.ctx e) := by
  simp [State.setExec, h]

theorem exec_of (s : State) (x : ExecId) (w : Workgroup) (h : s.wg x.core = some w) : s.exec x = w.exec x.ctx := by
  simp [State.exec, h]

theorem updWg_of (s : State) (c : Nat) (f : Workgroup → Workgroup) (w : Workgroup) (h : s.wg c = some w) : s.updWg c f = s.setWg c (f w) := by
  simp [State.updWg, h]

theorem updExec_of (s : State) (x : ExecId) (f : Exec → Exec) (e : Exec) (h : s.exec x = some e) : s.updExec x f = s.setExec x (f e) := by
  simp [State.updExec, h]

-- one core's workgroup and slots' marks

/-- Between s and t only the workgroup, which was w, and the slots' marks of one core have changed. -/
def CoreFrame (s t : State) (core : Nat) (w : Workgroup) : Prop :=
  { t with cores := s.cores } = s ∧ (∀ n, n ≠ core → t.core n = s.core n) ∧
  { t.core core with wg := some w, away := (s.core core).away, slotFree := (s.core core).slotFree } = s.core core

theorem CoreFrame.refl (s : State) (core : Nat) (w : Workgroup) (h : s.wg core = some w) : CoreFrame s s core w := by
  refine ⟨rfl, fun _ _ => rfl, ?_⟩
  rw [← h]
  rfl

theorem CoreFrame.trans {s t u : State} {core : Nat} {w w' : Workgroup} (h : CoreFrame s t core w) (k : CoreFrame t u core w') :
    CoreFrame s u core w := by
  obtain ⟨h1, h2, h3⟩ := h
  obtain ⟨k1, k2, k3⟩ := k
  refine ⟨?_, fun n hn => (k2 n hn).trans (h2 n hn), ?_⟩
  · rw [← k1] at h1
    exact h1
  · rw [← k3] at h3
    exact h3

theorem CoreFrame.now {s t : State} {core : Nat} {w : Workgroup} (h : CoreFrame s t core w) (c : Nat) : t.now c = s.now c := by
  have h1 := congrArg State.fields h.1
  simp only [State.now, State.field]
  exact congrArg (fun m => (mapGet Field.locked m (fieldOf c)).count) h1

theorem CoreFrame.mem {s t : State} {core : Nat} {w : Workgroup} (h : CoreFrame s t core w) : t.mem = s.mem := by
  have h1 := congrArg State.mem h.1
  exact h1

theorem setWg_frame (s : State) (core : Nat) (w w' : Workgroup) (h : s.wg core = some w) : CoreFrame s (s.setWg core w') core w := by
  refine ⟨rfl, fun n hn => core_setWg_ne s core n w' hn, ?_⟩
  rw [core_setWg_self]
  exact (CoreFrame.refl s core w h).2.2

/-- A slot given up changes the slots' marks of its core alone. -/
theorem freeSlot_frame (s : State) (core : Nat) (slot : Option Nat) (held : Nat) (w : Workgroup) (h : s.wg core = some w) :
    CoreFrame s (freeSlot s core slot held) core w ∧ (freeSlot s core slot held).wg core = some w := by
  cases slot with
  | none => exact ⟨CoreFrame.refl s core w h, h⟩
  | some i =>
    have hb := core_setCore_busy s core { s.core core with slotFree := mapPut 0 i (s.now core + 1 + held) (s.core core).slotFree } w h
    refine ⟨⟨rfl, fun n hn => core_setCore_ne s core n _ hn, ?_⟩, ?_⟩
    · show { (s.setCore core _).core core with wg := some w, away := (s.core core).away, slotFree := (s.core core).slotFree } = _
      rw [hb]
      exact (CoreFrame.refl s core w h).2.2
    · show ((s.setCore core _).core core).wg = _
      rw [hb]
      exact h

/-- A switch-away changes the slots' marks of its core alone. -/
theorem markAway_frame (s : State) (core : Nat) (slot : Option Nat) (ctx : Nat) (w : Workgroup) (h : s.wg core = some w) :
    CoreFrame s (markAway s core slot ctx) core w ∧ (markAway s core slot ctx).wg core = some w := by
  cases slot with
  | none => exact ⟨CoreFrame.refl s core w h, h⟩
  | some i =>
    have hb := core_setCore_busy s core { s.core core with away := mapPut none i (some ctx) (s.core core).away } w h
    refine ⟨⟨rfl, fun n hn => core_setCore_ne s core n _ hn, ?_⟩, ?_⟩
    · show { (s.setCore core _).core core with wg := some w, away := (s.core core).away, slotFree := (s.core core).slotFree } = _
      rw [hb]
      exact (CoreFrame.refl s core w h).2.2
    · show ((s.setCore core _).core core).wg = _
      rw [hb]
      exact h

-- one lemma per field and update

section
variable (s : State) (c : Nat) (x : Core)
@[simp] theorem setCore_agenda : (s.setCore c x).agenda = s.agenda := rfl
@[simp] theorem setCore_cur : (s.setCore c x).cur = s.cur := rfl
@[simp] theorem setCore_free : (s.setCore c x).free = s.free := rfl
@[simp] theorem setCore_fresh : (s.setCore c x).fresh = s.fresh := rfl
@[simp] theorem setCore_time : (s.setCore c x).time = s.time := rfl
@[simp] theorem setCore_fields : (s.setCore c x).fields = s.fields := rfl
@[simp] theorem setCore_mem : (s.setCore c x).mem = s.mem := rfl
@[simp] theorem setCore_poison : (s.setCore c x).poison = s.poison := rfl
@[simp] theorem setCore_crossings : (s.setCore c x).crossings = s.crossings := rfl
@[simp] theorem setCore_marks : (s.setCore c x).marks = s.marks := rfl
@[simp] theorem setCore_watches : (s.setCore c x).watches = s.watches := rfl
@[simp] theorem setCore_events : (s.setCore c x).events = s.events := rfl
@[simp] theorem setCore_endEvents : (s.setCore c x).endEvents = s.endEvents := rfl
@[simp] theorem setCore_regions : (s.setCore c x).regions = s.regions := rfl
@[simp] theorem setCore_queueTable : (s.setCore c x).queueTable = s.queueTable := rfl
@[simp] theorem setCore_levels : (s.setCore c x).levels = s.levels := rfl
@[simp] theorem setCore_contextTable : (s.setCore c x).contextTable = s.contextTable := rfl
@[simp] theorem setCore_governorTable : (s.setCore c x).governorTable = s.governorTable := rfl
@[simp] theorem setCore_governors : (s.setCore c x).governors = s.governors := rfl
@[simp] theorem setCore_trace : (s.setCore c x).trace = s.trace := rfl
@[simp] theorem setCore_taken : (s.setCore c x).taken = s.taken := rfl
@[simp] theorem setCore_reservations : (s.setCore c x).reservations = s.reservations := rfl
@[simp] theorem setCore_saved : (s.setCore c x).saved = s.saved := rfl
@[simp] theorem setCore_requests : (s.setCore c x).requests = s.requests := rfl
@[simp] theorem setCore_shoots : (s.setCore c x).shoots = s.shoots := rfl
@[simp] theorem setCore_gangBars : (s.setCore c x).gangBars = s.gangBars := rfl
@[simp] theorem setCore_headsDone : (s.setCore c x).headsDone = s.headsDone := rfl
@[simp] theorem setCore_codeObjs : (s.setCore c x).codeObjs = s.codeObjs := rfl
@[simp] theorem setCore_ownId : (s.setCore c x).ownId = s.ownId := rfl
@[simp] theorem setCore_hostId : (s.setCore c x).hostId = s.hostId := rfl
@[simp] theorem setCore_peers : (s.setCore c x).peers = s.peers := rfl
@[simp] theorem setCore_epochs : (s.setCore c x).epochs = s.epochs := rfl
@[simp] theorem setCore_unreachable : (s.setCore c x).unreachable = s.unreachable := rfl
@[simp] theorem setCore_ports : (s.setCore c x).ports = s.ports := rfl
@[simp] theorem setCore_lateAnswers : (s.setCore c x).lateAnswers = s.lateAnswers := rfl
@[simp] theorem setCore_dropped : (s.setCore c x).dropped = s.dropped := rfl
@[simp] theorem setCore_doorbellsDropped : (s.setCore c x).doorbellsDropped = s.doorbellsDropped := rfl
@[simp] theorem setCore_traceDrops : (s.setCore c x).traceDrops = s.traceDrops := rfl
@[simp] theorem setCore_ints : (s.setCore c x).ints = s.ints := rfl
@[simp] theorem setCore_outbox : (s.setCore c x).outbox = s.outbox := rfl
@[simp] theorem setCore_remotes : (s.setCore c x).remotes = s.remotes := rfl
@[simp] theorem setCore_log : (s.setCore c x).log = s.log := rfl
@[simp] theorem setCore_corrected : (s.setCore c x).corrected = s.corrected := rfl
@[simp] theorem setCore_uncorrectable : (s.setCore c x).uncorrectable = s.uncorrectable := rfl
@[simp] theorem setCore_startState : (s.setCore c x).startState = s.startState := rfl
@[simp] theorem setCore_startKind : (s.setCore c x).startKind = s.startKind := rfl
@[simp] theorem setCore_startNext : (s.setCore c x).startNext = s.startNext := rfl
@[simp] theorem setCore_failCode : (s.setCore c x).failCode = s.failCode := rfl
@[simp] theorem setCore_failUnit : (s.setCore c x).failUnit = s.failUnit := rfl
@[simp] theorem setCore_throttle : (s.setCore c x).throttle = s.throttle := rfl
@[simp] theorem setCore_coolant : (s.setCore c x).coolant = s.coolant := rfl
@[simp] theorem setCore_measured : (s.setCore c x).measured = s.measured := rfl
@[simp] theorem setCore_factory : (s.setCore c x).factory = s.factory := rfl
@[simp] theorem setCore_inService : (s.setCore c x).inService = s.inService := rfl
@[simp] theorem setCore_pendingRepairs : (s.setCore c x).pendingRepairs = s.pendingRepairs := rfl
@[simp] theorem setCore_fenced : (s.setCore c x).fenced = s.fenced := rfl
@[simp] theorem setCore_eventRels : (s.setCore c x).eventRels = s.eventRels := rfl
@[simp] theorem setCore_turns : (s.setCore c x).turns = s.turns := rfl
@[simp] theorem setCore_served : (s.setCore c x).served = s.served := rfl
@[simp] theorem setCore_routes : (s.setCore c x).routes = s.routes := rfl
@[simp] theorem setCore_spares : (s.setCore c x).spares = s.spares := rfl
@[simp] theorem setCore_fieldsUp : (s.setCore c x).fieldsUp = s.fieldsUp := rfl
end

section
variable (s : State) (f : Nat) (x : Field)
@[simp] theorem setField_agenda : (s.setField f x).agenda = s.agenda := rfl
@[simp] theorem setField_cur : (s.setField f x).cur = s.cur := rfl
@[simp] theorem setField_free : (s.setField f x).free = s.free := rfl
@[simp] theorem setField_fresh : (s.setField f x).fresh = s.fresh := rfl
@[simp] theorem setField_time : (s.setField f x).time = s.time := rfl
@[simp] theorem setField_mem : (s.setField f x).mem = s.mem := rfl
@[simp] theorem setField_poison : (s.setField f x).poison = s.poison := rfl
@[simp] theorem setField_crossings : (s.setField f x).crossings = s.crossings := rfl
@[simp] theorem setField_marks : (s.setField f x).marks = s.marks := rfl
@[simp] theorem setField_watches : (s.setField f x).watches = s.watches := rfl
@[simp] theorem setField_cores : (s.setField f x).cores = s.cores := rfl
@[simp] theorem setField_events : (s.setField f x).events = s.events := rfl
@[simp] theorem setField_endEvents : (s.setField f x).endEvents = s.endEvents := rfl
@[simp] theorem setField_regions : (s.setField f x).regions = s.regions := rfl
@[simp] theorem setField_queueTable : (s.setField f x).queueTable = s.queueTable := rfl
@[simp] theorem setField_levels : (s.setField f x).levels = s.levels := rfl
@[simp] theorem setField_contextTable : (s.setField f x).contextTable = s.contextTable := rfl
@[simp] theorem setField_governorTable : (s.setField f x).governorTable = s.governorTable := rfl
@[simp] theorem setField_governors : (s.setField f x).governors = s.governors := rfl
@[simp] theorem setField_trace : (s.setField f x).trace = s.trace := rfl
@[simp] theorem setField_taken : (s.setField f x).taken = s.taken := rfl
@[simp] theorem setField_reservations : (s.setField f x).reservations = s.reservations := rfl
@[simp] theorem setField_saved : (s.setField f x).saved = s.saved := rfl
@[simp] theorem setField_requests : (s.setField f x).requests = s.requests := rfl
@[simp] theorem setField_shoots : (s.setField f x).shoots = s.shoots := rfl
@[simp] theorem setField_gangBars : (s.setField f x).gangBars = s.gangBars := rfl
@[simp] theorem setField_headsDone : (s.setField f x).headsDone = s.headsDone := rfl
@[simp] theorem setField_codeObjs : (s.setField f x).codeObjs = s.codeObjs := rfl
@[simp] theorem setField_ownId : (s.setField f x).ownId = s.ownId := rfl
@[simp] theorem setField_hostId : (s.setField f x).hostId = s.hostId := rfl
@[simp] theorem setField_peers : (s.setField f x).peers = s.peers := rfl
@[simp] theorem setField_epochs : (s.setField f x).epochs = s.epochs := rfl
@[simp] theorem setField_unreachable : (s.setField f x).unreachable = s.unreachable := rfl
@[simp] theorem setField_ports : (s.setField f x).ports = s.ports := rfl
@[simp] theorem setField_lateAnswers : (s.setField f x).lateAnswers = s.lateAnswers := rfl
@[simp] theorem setField_dropped : (s.setField f x).dropped = s.dropped := rfl
@[simp] theorem setField_doorbellsDropped : (s.setField f x).doorbellsDropped = s.doorbellsDropped := rfl
@[simp] theorem setField_traceDrops : (s.setField f x).traceDrops = s.traceDrops := rfl
@[simp] theorem setField_ints : (s.setField f x).ints = s.ints := rfl
@[simp] theorem setField_outbox : (s.setField f x).outbox = s.outbox := rfl
@[simp] theorem setField_remotes : (s.setField f x).remotes = s.remotes := rfl
@[simp] theorem setField_log : (s.setField f x).log = s.log := rfl
@[simp] theorem setField_corrected : (s.setField f x).corrected = s.corrected := rfl
@[simp] theorem setField_uncorrectable : (s.setField f x).uncorrectable = s.uncorrectable := rfl
@[simp] theorem setField_startState : (s.setField f x).startState = s.startState := rfl
@[simp] theorem setField_startKind : (s.setField f x).startKind = s.startKind := rfl
@[simp] theorem setField_startNext : (s.setField f x).startNext = s.startNext := rfl
@[simp] theorem setField_failCode : (s.setField f x).failCode = s.failCode := rfl
@[simp] theorem setField_failUnit : (s.setField f x).failUnit = s.failUnit := rfl
@[simp] theorem setField_throttle : (s.setField f x).throttle = s.throttle := rfl
@[simp] theorem setField_coolant : (s.setField f x).coolant = s.coolant := rfl
@[simp] theorem setField_measured : (s.setField f x).measured = s.measured := rfl
@[simp] theorem setField_factory : (s.setField f x).factory = s.factory := rfl
@[simp] theorem setField_inService : (s.setField f x).inService = s.inService := rfl
@[simp] theorem setField_pendingRepairs : (s.setField f x).pendingRepairs = s.pendingRepairs := rfl
@[simp] theorem setField_fenced : (s.setField f x).fenced = s.fenced := rfl
@[simp] theorem setField_eventRels : (s.setField f x).eventRels = s.eventRels := rfl
@[simp] theorem setField_turns : (s.setField f x).turns = s.turns := rfl
@[simp] theorem setField_served : (s.setField f x).served = s.served := rfl
@[simp] theorem setField_routes : (s.setField f x).routes = s.routes := rfl
@[simp] theorem setField_spares : (s.setField f x).spares = s.spares := rfl
@[simp] theorem setField_fieldsUp : (s.setField f x).fieldsUp = s.fieldsUp := rfl
end

section
variable (s : State) (c : Nat) (w : Workgroup)
@[simp] theorem setWg_agenda : (s.setWg c w).agenda = s.agenda := rfl
@[simp] theorem setWg_cur : (s.setWg c w).cur = s.cur := rfl
@[simp] theorem setWg_free : (s.setWg c w).free = s.free := rfl
@[simp] theorem setWg_fresh : (s.setWg c w).fresh = s.fresh := rfl
@[simp] theorem setWg_time : (s.setWg c w).time = s.time := rfl
@[simp] theorem setWg_fields : (s.setWg c w).fields = s.fields := rfl
@[simp] theorem setWg_mem : (s.setWg c w).mem = s.mem := rfl
@[simp] theorem setWg_poison : (s.setWg c w).poison = s.poison := rfl
@[simp] theorem setWg_crossings : (s.setWg c w).crossings = s.crossings := rfl
@[simp] theorem setWg_marks : (s.setWg c w).marks = s.marks := rfl
@[simp] theorem setWg_watches : (s.setWg c w).watches = s.watches := rfl
@[simp] theorem setWg_events : (s.setWg c w).events = s.events := rfl
@[simp] theorem setWg_endEvents : (s.setWg c w).endEvents = s.endEvents := rfl
@[simp] theorem setWg_regions : (s.setWg c w).regions = s.regions := rfl
@[simp] theorem setWg_queueTable : (s.setWg c w).queueTable = s.queueTable := rfl
@[simp] theorem setWg_levels : (s.setWg c w).levels = s.levels := rfl
@[simp] theorem setWg_contextTable : (s.setWg c w).contextTable = s.contextTable := rfl
@[simp] theorem setWg_governorTable : (s.setWg c w).governorTable = s.governorTable := rfl
@[simp] theorem setWg_governors : (s.setWg c w).governors = s.governors := rfl
@[simp] theorem setWg_trace : (s.setWg c w).trace = s.trace := rfl
@[simp] theorem setWg_taken : (s.setWg c w).taken = s.taken := rfl
@[simp] theorem setWg_reservations : (s.setWg c w).reservations = s.reservations := rfl
@[simp] theorem setWg_saved : (s.setWg c w).saved = s.saved := rfl
@[simp] theorem setWg_requests : (s.setWg c w).requests = s.requests := rfl
@[simp] theorem setWg_shoots : (s.setWg c w).shoots = s.shoots := rfl
@[simp] theorem setWg_gangBars : (s.setWg c w).gangBars = s.gangBars := rfl
@[simp] theorem setWg_headsDone : (s.setWg c w).headsDone = s.headsDone := rfl
@[simp] theorem setWg_codeObjs : (s.setWg c w).codeObjs = s.codeObjs := rfl
@[simp] theorem setWg_ownId : (s.setWg c w).ownId = s.ownId := rfl
@[simp] theorem setWg_hostId : (s.setWg c w).hostId = s.hostId := rfl
@[simp] theorem setWg_peers : (s.setWg c w).peers = s.peers := rfl
@[simp] theorem setWg_epochs : (s.setWg c w).epochs = s.epochs := rfl
@[simp] theorem setWg_unreachable : (s.setWg c w).unreachable = s.unreachable := rfl
@[simp] theorem setWg_ports : (s.setWg c w).ports = s.ports := rfl
@[simp] theorem setWg_lateAnswers : (s.setWg c w).lateAnswers = s.lateAnswers := rfl
@[simp] theorem setWg_dropped : (s.setWg c w).dropped = s.dropped := rfl
@[simp] theorem setWg_doorbellsDropped : (s.setWg c w).doorbellsDropped = s.doorbellsDropped := rfl
@[simp] theorem setWg_traceDrops : (s.setWg c w).traceDrops = s.traceDrops := rfl
@[simp] theorem setWg_ints : (s.setWg c w).ints = s.ints := rfl
@[simp] theorem setWg_outbox : (s.setWg c w).outbox = s.outbox := rfl
@[simp] theorem setWg_remotes : (s.setWg c w).remotes = s.remotes := rfl
@[simp] theorem setWg_log : (s.setWg c w).log = s.log := rfl
@[simp] theorem setWg_corrected : (s.setWg c w).corrected = s.corrected := rfl
@[simp] theorem setWg_uncorrectable : (s.setWg c w).uncorrectable = s.uncorrectable := rfl
@[simp] theorem setWg_startState : (s.setWg c w).startState = s.startState := rfl
@[simp] theorem setWg_startKind : (s.setWg c w).startKind = s.startKind := rfl
@[simp] theorem setWg_startNext : (s.setWg c w).startNext = s.startNext := rfl
@[simp] theorem setWg_failCode : (s.setWg c w).failCode = s.failCode := rfl
@[simp] theorem setWg_failUnit : (s.setWg c w).failUnit = s.failUnit := rfl
@[simp] theorem setWg_throttle : (s.setWg c w).throttle = s.throttle := rfl
@[simp] theorem setWg_coolant : (s.setWg c w).coolant = s.coolant := rfl
@[simp] theorem setWg_measured : (s.setWg c w).measured = s.measured := rfl
@[simp] theorem setWg_factory : (s.setWg c w).factory = s.factory := rfl
@[simp] theorem setWg_inService : (s.setWg c w).inService = s.inService := rfl
@[simp] theorem setWg_pendingRepairs : (s.setWg c w).pendingRepairs = s.pendingRepairs := rfl
@[simp] theorem setWg_fenced : (s.setWg c w).fenced = s.fenced := rfl
@[simp] theorem setWg_eventRels : (s.setWg c w).eventRels = s.eventRels := rfl
@[simp] theorem setWg_turns : (s.setWg c w).turns = s.turns := rfl
@[simp] theorem setWg_served : (s.setWg c w).served = s.served := rfl
@[simp] theorem setWg_routes : (s.setWg c w).routes = s.routes := rfl
@[simp] theorem setWg_spares : (s.setWg c w).spares = s.spares := rfl
@[simp] theorem setWg_fieldsUp : (s.setWg c w).fieldsUp = s.fieldsUp := rfl
end

section
variable (s : State) (c : Nat) (f : Core → Core)
@[simp] theorem updCore_agenda : (s.updCore c f).agenda = s.agenda := rfl
@[simp] theorem updCore_cur : (s.updCore c f).cur = s.cur := rfl
@[simp] theorem updCore_free : (s.updCore c f).free = s.free := rfl
@[simp] theorem updCore_fresh : (s.updCore c f).fresh = s.fresh := rfl
@[simp] theorem updCore_time : (s.updCore c f).time = s.time := rfl
@[simp] theorem updCore_fields : (s.updCore c f).fields = s.fields := rfl
@[simp] theorem updCore_mem : (s.updCore c f).mem = s.mem := rfl
@[simp] theorem updCore_poison : (s.updCore c f).poison = s.poison := rfl
@[simp] theorem updCore_crossings : (s.updCore c f).crossings = s.crossings := rfl
@[simp] theorem updCore_marks : (s.updCore c f).marks = s.marks := rfl
@[simp] theorem updCore_watches : (s.updCore c f).watches = s.watches := rfl
@[simp] theorem updCore_events : (s.updCore c f).events = s.events := rfl
@[simp] theorem updCore_endEvents : (s.updCore c f).endEvents = s.endEvents := rfl
@[simp] theorem updCore_regions : (s.updCore c f).regions = s.regions := rfl
@[simp] theorem updCore_queueTable : (s.updCore c f).queueTable = s.queueTable := rfl
@[simp] theorem updCore_levels : (s.updCore c f).levels = s.levels := rfl
@[simp] theorem updCore_contextTable : (s.updCore c f).contextTable = s.contextTable := rfl
@[simp] theorem updCore_governorTable : (s.updCore c f).governorTable = s.governorTable := rfl
@[simp] theorem updCore_governors : (s.updCore c f).governors = s.governors := rfl
@[simp] theorem updCore_trace : (s.updCore c f).trace = s.trace := rfl
@[simp] theorem updCore_taken : (s.updCore c f).taken = s.taken := rfl
@[simp] theorem updCore_reservations : (s.updCore c f).reservations = s.reservations := rfl
@[simp] theorem updCore_saved : (s.updCore c f).saved = s.saved := rfl
@[simp] theorem updCore_requests : (s.updCore c f).requests = s.requests := rfl
@[simp] theorem updCore_shoots : (s.updCore c f).shoots = s.shoots := rfl
@[simp] theorem updCore_gangBars : (s.updCore c f).gangBars = s.gangBars := rfl
@[simp] theorem updCore_headsDone : (s.updCore c f).headsDone = s.headsDone := rfl
@[simp] theorem updCore_codeObjs : (s.updCore c f).codeObjs = s.codeObjs := rfl
@[simp] theorem updCore_ownId : (s.updCore c f).ownId = s.ownId := rfl
@[simp] theorem updCore_hostId : (s.updCore c f).hostId = s.hostId := rfl
@[simp] theorem updCore_peers : (s.updCore c f).peers = s.peers := rfl
@[simp] theorem updCore_epochs : (s.updCore c f).epochs = s.epochs := rfl
@[simp] theorem updCore_unreachable : (s.updCore c f).unreachable = s.unreachable := rfl
@[simp] theorem updCore_ports : (s.updCore c f).ports = s.ports := rfl
@[simp] theorem updCore_lateAnswers : (s.updCore c f).lateAnswers = s.lateAnswers := rfl
@[simp] theorem updCore_dropped : (s.updCore c f).dropped = s.dropped := rfl
@[simp] theorem updCore_doorbellsDropped : (s.updCore c f).doorbellsDropped = s.doorbellsDropped := rfl
@[simp] theorem updCore_traceDrops : (s.updCore c f).traceDrops = s.traceDrops := rfl
@[simp] theorem updCore_ints : (s.updCore c f).ints = s.ints := rfl
@[simp] theorem updCore_outbox : (s.updCore c f).outbox = s.outbox := rfl
@[simp] theorem updCore_remotes : (s.updCore c f).remotes = s.remotes := rfl
@[simp] theorem updCore_log : (s.updCore c f).log = s.log := rfl
@[simp] theorem updCore_corrected : (s.updCore c f).corrected = s.corrected := rfl
@[simp] theorem updCore_uncorrectable : (s.updCore c f).uncorrectable = s.uncorrectable := rfl
@[simp] theorem updCore_startState : (s.updCore c f).startState = s.startState := rfl
@[simp] theorem updCore_startKind : (s.updCore c f).startKind = s.startKind := rfl
@[simp] theorem updCore_startNext : (s.updCore c f).startNext = s.startNext := rfl
@[simp] theorem updCore_failCode : (s.updCore c f).failCode = s.failCode := rfl
@[simp] theorem updCore_failUnit : (s.updCore c f).failUnit = s.failUnit := rfl
@[simp] theorem updCore_throttle : (s.updCore c f).throttle = s.throttle := rfl
@[simp] theorem updCore_coolant : (s.updCore c f).coolant = s.coolant := rfl
@[simp] theorem updCore_measured : (s.updCore c f).measured = s.measured := rfl
@[simp] theorem updCore_factory : (s.updCore c f).factory = s.factory := rfl
@[simp] theorem updCore_inService : (s.updCore c f).inService = s.inService := rfl
@[simp] theorem updCore_pendingRepairs : (s.updCore c f).pendingRepairs = s.pendingRepairs := rfl
@[simp] theorem updCore_fenced : (s.updCore c f).fenced = s.fenced := rfl
@[simp] theorem updCore_eventRels : (s.updCore c f).eventRels = s.eventRels := rfl
@[simp] theorem updCore_turns : (s.updCore c f).turns = s.turns := rfl
@[simp] theorem updCore_served : (s.updCore c f).served = s.served := rfl
@[simp] theorem updCore_routes : (s.updCore c f).routes = s.routes := rfl
@[simp] theorem updCore_spares : (s.updCore c f).spares = s.spares := rfl
@[simp] theorem updCore_fieldsUp : (s.updCore c f).fieldsUp = s.fieldsUp := rfl
end

section
variable (s : State) (d k g : Nat) (p : List Byte)
@[simp] theorem send_agenda : (s.send d k g p).agenda = s.agenda := rfl
@[simp] theorem send_cur : (s.send d k g p).cur = s.cur := rfl
@[simp] theorem send_free : (s.send d k g p).free = s.free := rfl
@[simp] theorem send_fresh : (s.send d k g p).fresh = s.fresh := rfl
@[simp] theorem send_time : (s.send d k g p).time = s.time := rfl
@[simp] theorem send_fields : (s.send d k g p).fields = s.fields := rfl
@[simp] theorem send_mem : (s.send d k g p).mem = s.mem := rfl
@[simp] theorem send_poison : (s.send d k g p).poison = s.poison := rfl
@[simp] theorem send_crossings : (s.send d k g p).crossings = s.crossings := rfl
@[simp] theorem send_marks : (s.send d k g p).marks = s.marks := rfl
@[simp] theorem send_watches : (s.send d k g p).watches = s.watches := rfl
@[simp] theorem send_cores : (s.send d k g p).cores = s.cores := rfl
@[simp] theorem send_events : (s.send d k g p).events = s.events := rfl
@[simp] theorem send_endEvents : (s.send d k g p).endEvents = s.endEvents := rfl
@[simp] theorem send_regions : (s.send d k g p).regions = s.regions := rfl
@[simp] theorem send_queueTable : (s.send d k g p).queueTable = s.queueTable := rfl
@[simp] theorem send_levels : (s.send d k g p).levels = s.levels := rfl
@[simp] theorem send_contextTable : (s.send d k g p).contextTable = s.contextTable := rfl
@[simp] theorem send_governorTable : (s.send d k g p).governorTable = s.governorTable := rfl
@[simp] theorem send_governors : (s.send d k g p).governors = s.governors := rfl
@[simp] theorem send_trace : (s.send d k g p).trace = s.trace := rfl
@[simp] theorem send_taken : (s.send d k g p).taken = s.taken := rfl
@[simp] theorem send_reservations : (s.send d k g p).reservations = s.reservations := rfl
@[simp] theorem send_saved : (s.send d k g p).saved = s.saved := rfl
@[simp] theorem send_requests : (s.send d k g p).requests = s.requests := rfl
@[simp] theorem send_shoots : (s.send d k g p).shoots = s.shoots := rfl
@[simp] theorem send_gangBars : (s.send d k g p).gangBars = s.gangBars := rfl
@[simp] theorem send_headsDone : (s.send d k g p).headsDone = s.headsDone := rfl
@[simp] theorem send_codeObjs : (s.send d k g p).codeObjs = s.codeObjs := rfl
@[simp] theorem send_ownId : (s.send d k g p).ownId = s.ownId := rfl
@[simp] theorem send_hostId : (s.send d k g p).hostId = s.hostId := rfl
@[simp] theorem send_peers : (s.send d k g p).peers = s.peers := rfl
@[simp] theorem send_epochs : (s.send d k g p).epochs = s.epochs := rfl
@[simp] theorem send_unreachable : (s.send d k g p).unreachable = s.unreachable := rfl
@[simp] theorem send_ports : (s.send d k g p).ports = s.ports := rfl
@[simp] theorem send_lateAnswers : (s.send d k g p).lateAnswers = s.lateAnswers := rfl
@[simp] theorem send_dropped : (s.send d k g p).dropped = s.dropped := rfl
@[simp] theorem send_doorbellsDropped : (s.send d k g p).doorbellsDropped = s.doorbellsDropped := rfl
@[simp] theorem send_traceDrops : (s.send d k g p).traceDrops = s.traceDrops := rfl
@[simp] theorem send_ints : (s.send d k g p).ints = s.ints := rfl
@[simp] theorem send_remotes : (s.send d k g p).remotes = s.remotes := rfl
@[simp] theorem send_log : (s.send d k g p).log = s.log := rfl
@[simp] theorem send_corrected : (s.send d k g p).corrected = s.corrected := rfl
@[simp] theorem send_uncorrectable : (s.send d k g p).uncorrectable = s.uncorrectable := rfl
@[simp] theorem send_startState : (s.send d k g p).startState = s.startState := rfl
@[simp] theorem send_startKind : (s.send d k g p).startKind = s.startKind := rfl
@[simp] theorem send_startNext : (s.send d k g p).startNext = s.startNext := rfl
@[simp] theorem send_failCode : (s.send d k g p).failCode = s.failCode := rfl
@[simp] theorem send_failUnit : (s.send d k g p).failUnit = s.failUnit := rfl
@[simp] theorem send_throttle : (s.send d k g p).throttle = s.throttle := rfl
@[simp] theorem send_coolant : (s.send d k g p).coolant = s.coolant := rfl
@[simp] theorem send_measured : (s.send d k g p).measured = s.measured := rfl
@[simp] theorem send_factory : (s.send d k g p).factory = s.factory := rfl
@[simp] theorem send_inService : (s.send d k g p).inService = s.inService := rfl
@[simp] theorem send_pendingRepairs : (s.send d k g p).pendingRepairs = s.pendingRepairs := rfl
@[simp] theorem send_fenced : (s.send d k g p).fenced = s.fenced := rfl
@[simp] theorem send_eventRels : (s.send d k g p).eventRels = s.eventRels := rfl
@[simp] theorem send_turns : (s.send d k g p).turns = s.turns := rfl
@[simp] theorem send_served : (s.send d k g p).served = s.served := rfl
@[simp] theorem send_routes : (s.send d k g p).routes = s.routes := rfl
@[simp] theorem send_spares : (s.send d k g p).spares = s.spares := rfl
@[simp] theorem send_fieldsUp : (s.send d k g p).fieldsUp = s.fieldsUp := rfl
end

section
variable (s : State) (v : Nat)
@[simp] theorem raise_agenda : (s.raise v).agenda = s.agenda := rfl
@[simp] theorem raise_cur : (s.raise v).cur = s.cur := rfl
@[simp] theorem raise_free : (s.raise v).free = s.free := rfl
@[simp] theorem raise_fresh : (s.raise v).fresh = s.fresh := rfl
@[simp] theorem raise_time : (s.raise v).time = s.time := rfl
@[simp] theorem raise_fields : (s.raise v).fields = s.fields := rfl
@[simp] theorem raise_mem : (s.raise v).mem = s.mem := rfl
@[simp] theorem raise_poison : (s.raise v).poison = s.poison := rfl
@[simp] theorem raise_crossings : (s.raise v).crossings = s.crossings := rfl
@[simp] theorem raise_marks : (s.raise v).marks = s.marks := rfl
@[simp] theorem raise_watches : (s.raise v).watches = s.watches := rfl
@[simp] theorem raise_cores : (s.raise v).cores = s.cores := rfl
@[simp] theorem raise_events : (s.raise v).events = s.events := rfl
@[simp] theorem raise_endEvents : (s.raise v).endEvents = s.endEvents := rfl
@[simp] theorem raise_regions : (s.raise v).regions = s.regions := rfl
@[simp] theorem raise_queueTable : (s.raise v).queueTable = s.queueTable := rfl
@[simp] theorem raise_levels : (s.raise v).levels = s.levels := rfl
@[simp] theorem raise_contextTable : (s.raise v).contextTable = s.contextTable := rfl
@[simp] theorem raise_governorTable : (s.raise v).governorTable = s.governorTable := rfl
@[simp] theorem raise_governors : (s.raise v).governors = s.governors := rfl
@[simp] theorem raise_trace : (s.raise v).trace = s.trace := rfl
@[simp] theorem raise_taken : (s.raise v).taken = s.taken := rfl
@[simp] theorem raise_reservations : (s.raise v).reservations = s.reservations := rfl
@[simp] theorem raise_saved : (s.raise v).saved = s.saved := rfl
@[simp] theorem raise_requests : (s.raise v).requests = s.requests := rfl
@[simp] theorem raise_shoots : (s.raise v).shoots = s.shoots := rfl
@[simp] theorem raise_gangBars : (s.raise v).gangBars = s.gangBars := rfl
@[simp] theorem raise_headsDone : (s.raise v).headsDone = s.headsDone := rfl
@[simp] theorem raise_codeObjs : (s.raise v).codeObjs = s.codeObjs := rfl
@[simp] theorem raise_ownId : (s.raise v).ownId = s.ownId := rfl
@[simp] theorem raise_hostId : (s.raise v).hostId = s.hostId := rfl
@[simp] theorem raise_peers : (s.raise v).peers = s.peers := rfl
@[simp] theorem raise_epochs : (s.raise v).epochs = s.epochs := rfl
@[simp] theorem raise_unreachable : (s.raise v).unreachable = s.unreachable := rfl
@[simp] theorem raise_ports : (s.raise v).ports = s.ports := rfl
@[simp] theorem raise_lateAnswers : (s.raise v).lateAnswers = s.lateAnswers := rfl
@[simp] theorem raise_dropped : (s.raise v).dropped = s.dropped := rfl
@[simp] theorem raise_doorbellsDropped : (s.raise v).doorbellsDropped = s.doorbellsDropped := rfl
@[simp] theorem raise_traceDrops : (s.raise v).traceDrops = s.traceDrops := rfl
@[simp] theorem raise_outbox : (s.raise v).outbox = s.outbox := rfl
@[simp] theorem raise_remotes : (s.raise v).remotes = s.remotes := rfl
@[simp] theorem raise_log : (s.raise v).log = s.log := rfl
@[simp] theorem raise_corrected : (s.raise v).corrected = s.corrected := rfl
@[simp] theorem raise_uncorrectable : (s.raise v).uncorrectable = s.uncorrectable := rfl
@[simp] theorem raise_startState : (s.raise v).startState = s.startState := rfl
@[simp] theorem raise_startKind : (s.raise v).startKind = s.startKind := rfl
@[simp] theorem raise_startNext : (s.raise v).startNext = s.startNext := rfl
@[simp] theorem raise_failCode : (s.raise v).failCode = s.failCode := rfl
@[simp] theorem raise_failUnit : (s.raise v).failUnit = s.failUnit := rfl
@[simp] theorem raise_throttle : (s.raise v).throttle = s.throttle := rfl
@[simp] theorem raise_coolant : (s.raise v).coolant = s.coolant := rfl
@[simp] theorem raise_measured : (s.raise v).measured = s.measured := rfl
@[simp] theorem raise_factory : (s.raise v).factory = s.factory := rfl
@[simp] theorem raise_inService : (s.raise v).inService = s.inService := rfl
@[simp] theorem raise_pendingRepairs : (s.raise v).pendingRepairs = s.pendingRepairs := rfl
@[simp] theorem raise_fenced : (s.raise v).fenced = s.fenced := rfl
@[simp] theorem raise_eventRels : (s.raise v).eventRels = s.eventRels := rfl
@[simp] theorem raise_turns : (s.raise v).turns = s.turns := rfl
@[simp] theorem raise_served : (s.raise v).served = s.served := rfl
@[simp] theorem raise_routes : (s.raise v).routes = s.routes := rfl
@[simp] theorem raise_spares : (s.raise v).spares = s.spares := rfl
@[simp] theorem raise_fieldsUp : (s.raise v).fieldsUp = s.fieldsUp := rfl
end

section
variable (s : State) (n : Nat)
@[simp] theorem takeFree_agenda : (s.takeFree n).2.agenda = s.agenda := rfl
@[simp] theorem takeFree_cur : (s.takeFree n).2.cur = s.cur := rfl
@[simp] theorem takeFree_fresh : (s.takeFree n).2.fresh = s.fresh := rfl
@[simp] theorem takeFree_time : (s.takeFree n).2.time = s.time := rfl
@[simp] theorem takeFree_fields : (s.takeFree n).2.fields = s.fields := rfl
@[simp] theorem takeFree_mem : (s.takeFree n).2.mem = s.mem := rfl
@[simp] theorem takeFree_poison : (s.takeFree n).2.poison = s.poison := rfl
@[simp] theorem takeFree_crossings : (s.takeFree n).2.crossings = s.crossings := rfl
@[simp] theorem takeFree_marks : (s.takeFree n).2.marks = s.marks := rfl
@[simp] theorem takeFree_watches : (s.takeFree n).2.watches = s.watches := rfl
@[simp] theorem takeFree_cores : (s.takeFree n).2.cores = s.cores := rfl
@[simp] theorem takeFree_events : (s.takeFree n).2.events = s.events := rfl
@[simp] theorem takeFree_endEvents : (s.takeFree n).2.endEvents = s.endEvents := rfl
@[simp] theorem takeFree_regions : (s.takeFree n).2.regions = s.regions := rfl
@[simp] theorem takeFree_queueTable : (s.takeFree n).2.queueTable = s.queueTable := rfl
@[simp] theorem takeFree_levels : (s.takeFree n).2.levels = s.levels := rfl
@[simp] theorem takeFree_contextTable : (s.takeFree n).2.contextTable = s.contextTable := rfl
@[simp] theorem takeFree_governorTable : (s.takeFree n).2.governorTable = s.governorTable := rfl
@[simp] theorem takeFree_governors : (s.takeFree n).2.governors = s.governors := rfl
@[simp] theorem takeFree_trace : (s.takeFree n).2.trace = s.trace := rfl
@[simp] theorem takeFree_taken : (s.takeFree n).2.taken = s.taken := rfl
@[simp] theorem takeFree_reservations : (s.takeFree n).2.reservations = s.reservations := rfl
@[simp] theorem takeFree_saved : (s.takeFree n).2.saved = s.saved := rfl
@[simp] theorem takeFree_requests : (s.takeFree n).2.requests = s.requests := rfl
@[simp] theorem takeFree_shoots : (s.takeFree n).2.shoots = s.shoots := rfl
@[simp] theorem takeFree_gangBars : (s.takeFree n).2.gangBars = s.gangBars := rfl
@[simp] theorem takeFree_headsDone : (s.takeFree n).2.headsDone = s.headsDone := rfl
@[simp] theorem takeFree_codeObjs : (s.takeFree n).2.codeObjs = s.codeObjs := rfl
@[simp] theorem takeFree_ownId : (s.takeFree n).2.ownId = s.ownId := rfl
@[simp] theorem takeFree_hostId : (s.takeFree n).2.hostId = s.hostId := rfl
@[simp] theorem takeFree_peers : (s.takeFree n).2.peers = s.peers := rfl
@[simp] theorem takeFree_epochs : (s.takeFree n).2.epochs = s.epochs := rfl
@[simp] theorem takeFree_unreachable : (s.takeFree n).2.unreachable = s.unreachable := rfl
@[simp] theorem takeFree_ports : (s.takeFree n).2.ports = s.ports := rfl
@[simp] theorem takeFree_lateAnswers : (s.takeFree n).2.lateAnswers = s.lateAnswers := rfl
@[simp] theorem takeFree_dropped : (s.takeFree n).2.dropped = s.dropped := rfl
@[simp] theorem takeFree_doorbellsDropped : (s.takeFree n).2.doorbellsDropped = s.doorbellsDropped := rfl
@[simp] theorem takeFree_traceDrops : (s.takeFree n).2.traceDrops = s.traceDrops := rfl
@[simp] theorem takeFree_ints : (s.takeFree n).2.ints = s.ints := rfl
@[simp] theorem takeFree_outbox : (s.takeFree n).2.outbox = s.outbox := rfl
@[simp] theorem takeFree_remotes : (s.takeFree n).2.remotes = s.remotes := rfl
@[simp] theorem takeFree_log : (s.takeFree n).2.log = s.log := rfl
@[simp] theorem takeFree_corrected : (s.takeFree n).2.corrected = s.corrected := rfl
@[simp] theorem takeFree_uncorrectable : (s.takeFree n).2.uncorrectable = s.uncorrectable := rfl
@[simp] theorem takeFree_startState : (s.takeFree n).2.startState = s.startState := rfl
@[simp] theorem takeFree_startKind : (s.takeFree n).2.startKind = s.startKind := rfl
@[simp] theorem takeFree_startNext : (s.takeFree n).2.startNext = s.startNext := rfl
@[simp] theorem takeFree_failCode : (s.takeFree n).2.failCode = s.failCode := rfl
@[simp] theorem takeFree_failUnit : (s.takeFree n).2.failUnit = s.failUnit := rfl
@[simp] theorem takeFree_throttle : (s.takeFree n).2.throttle = s.throttle := rfl
@[simp] theorem takeFree_coolant : (s.takeFree n).2.coolant = s.coolant := rfl
@[simp] theorem takeFree_measured : (s.takeFree n).2.measured = s.measured := rfl
@[simp] theorem takeFree_factory : (s.takeFree n).2.factory = s.factory := rfl
@[simp] theorem takeFree_inService : (s.takeFree n).2.inService = s.inService := rfl
@[simp] theorem takeFree_pendingRepairs : (s.takeFree n).2.pendingRepairs = s.pendingRepairs := rfl
@[simp] theorem takeFree_fenced : (s.takeFree n).2.fenced = s.fenced := rfl
@[simp] theorem takeFree_eventRels : (s.takeFree n).2.eventRels = s.eventRels := rfl
@[simp] theorem takeFree_turns : (s.takeFree n).2.turns = s.turns := rfl
@[simp] theorem takeFree_served : (s.takeFree n).2.served = s.served := rfl
@[simp] theorem takeFree_routes : (s.takeFree n).2.routes = s.routes := rfl
@[simp] theorem takeFree_spares : (s.takeFree n).2.spares = s.spares := rfl
@[simp] theorem takeFree_fieldsUp : (s.takeFree n).2.fieldsUp = s.fieldsUp := rfl
end

section
variable (s : State) (n : Nat)
@[simp] theorem choose_agenda : (s.choose n).2.agenda = s.agenda := rfl
@[simp] theorem choose_cur : (s.choose n).2.cur = s.cur := rfl
@[simp] theorem choose_fresh : (s.choose n).2.fresh = s.fresh := rfl
@[simp] theorem choose_time : (s.choose n).2.time = s.time := rfl
@[simp] theorem choose_fields : (s.choose n).2.fields = s.fields := rfl
@[simp] theorem choose_mem : (s.choose n).2.mem = s.mem := rfl
@[simp] theorem choose_poison : (s.choose n).2.poison = s.poison := rfl
@[simp] theorem choose_crossings : (s.choose n).2.crossings = s.crossings := rfl
@[simp] theorem choose_marks : (s.choose n).2.marks = s.marks := rfl
@[simp] theorem choose_watches : (s.choose n).2.watches = s.watches := rfl
@[simp] theorem choose_cores : (s.choose n).2.cores = s.cores := rfl
@[simp] theorem choose_events : (s.choose n).2.events = s.events := rfl
@[simp] theorem choose_endEvents : (s.choose n).2.endEvents = s.endEvents := rfl
@[simp] theorem choose_regions : (s.choose n).2.regions = s.regions := rfl
@[simp] theorem choose_queueTable : (s.choose n).2.queueTable = s.queueTable := rfl
@[simp] theorem choose_levels : (s.choose n).2.levels = s.levels := rfl
@[simp] theorem choose_contextTable : (s.choose n).2.contextTable = s.contextTable := rfl
@[simp] theorem choose_governorTable : (s.choose n).2.governorTable = s.governorTable := rfl
@[simp] theorem choose_governors : (s.choose n).2.governors = s.governors := rfl
@[simp] theorem choose_trace : (s.choose n).2.trace = s.trace := rfl
@[simp] theorem choose_taken : (s.choose n).2.taken = s.taken := rfl
@[simp] theorem choose_reservations : (s.choose n).2.reservations = s.reservations := rfl
@[simp] theorem choose_saved : (s.choose n).2.saved = s.saved := rfl
@[simp] theorem choose_requests : (s.choose n).2.requests = s.requests := rfl
@[simp] theorem choose_shoots : (s.choose n).2.shoots = s.shoots := rfl
@[simp] theorem choose_gangBars : (s.choose n).2.gangBars = s.gangBars := rfl
@[simp] theorem choose_headsDone : (s.choose n).2.headsDone = s.headsDone := rfl
@[simp] theorem choose_codeObjs : (s.choose n).2.codeObjs = s.codeObjs := rfl
@[simp] theorem choose_ownId : (s.choose n).2.ownId = s.ownId := rfl
@[simp] theorem choose_hostId : (s.choose n).2.hostId = s.hostId := rfl
@[simp] theorem choose_peers : (s.choose n).2.peers = s.peers := rfl
@[simp] theorem choose_epochs : (s.choose n).2.epochs = s.epochs := rfl
@[simp] theorem choose_unreachable : (s.choose n).2.unreachable = s.unreachable := rfl
@[simp] theorem choose_ports : (s.choose n).2.ports = s.ports := rfl
@[simp] theorem choose_lateAnswers : (s.choose n).2.lateAnswers = s.lateAnswers := rfl
@[simp] theorem choose_dropped : (s.choose n).2.dropped = s.dropped := rfl
@[simp] theorem choose_doorbellsDropped : (s.choose n).2.doorbellsDropped = s.doorbellsDropped := rfl
@[simp] theorem choose_traceDrops : (s.choose n).2.traceDrops = s.traceDrops := rfl
@[simp] theorem choose_ints : (s.choose n).2.ints = s.ints := rfl
@[simp] theorem choose_outbox : (s.choose n).2.outbox = s.outbox := rfl
@[simp] theorem choose_remotes : (s.choose n).2.remotes = s.remotes := rfl
@[simp] theorem choose_log : (s.choose n).2.log = s.log := rfl
@[simp] theorem choose_corrected : (s.choose n).2.corrected = s.corrected := rfl
@[simp] theorem choose_uncorrectable : (s.choose n).2.uncorrectable = s.uncorrectable := rfl
@[simp] theorem choose_startState : (s.choose n).2.startState = s.startState := rfl
@[simp] theorem choose_startKind : (s.choose n).2.startKind = s.startKind := rfl
@[simp] theorem choose_startNext : (s.choose n).2.startNext = s.startNext := rfl
@[simp] theorem choose_failCode : (s.choose n).2.failCode = s.failCode := rfl
@[simp] theorem choose_failUnit : (s.choose n).2.failUnit = s.failUnit := rfl
@[simp] theorem choose_throttle : (s.choose n).2.throttle = s.throttle := rfl
@[simp] theorem choose_coolant : (s.choose n).2.coolant = s.coolant := rfl
@[simp] theorem choose_measured : (s.choose n).2.measured = s.measured := rfl
@[simp] theorem choose_factory : (s.choose n).2.factory = s.factory := rfl
@[simp] theorem choose_inService : (s.choose n).2.inService = s.inService := rfl
@[simp] theorem choose_pendingRepairs : (s.choose n).2.pendingRepairs = s.pendingRepairs := rfl
@[simp] theorem choose_fenced : (s.choose n).2.fenced = s.fenced := rfl
@[simp] theorem choose_eventRels : (s.choose n).2.eventRels = s.eventRels := rfl
@[simp] theorem choose_turns : (s.choose n).2.turns = s.turns := rfl
@[simp] theorem choose_served : (s.choose n).2.served = s.served := rfl
@[simp] theorem choose_routes : (s.choose n).2.routes = s.routes := rfl
@[simp] theorem choose_spares : (s.choose n).2.spares = s.spares := rfl
@[simp] theorem choose_fieldsUp : (s.choose n).2.fieldsUp = s.fieldsUp := rfl
end

section
variable (w : Workgroup) (n : Nat) (e : Exec)
@[simp] theorem wgSetExec_launch : (w.setExec n e).launch = w.launch := rfl
@[simp] theorem wgSetExec_wgid : (w.setExec n e).wgid = w.wgid := rfl
@[simp] theorem wgSetExec_code : (w.setExec n e).code = w.code := rfl
@[simp] theorem wgSetExec_pools : (w.setExec n e).pools = w.pools := rfl
@[simp] theorem wgSetExec_tags : (w.setExec n e).tags = w.tags := rfl
@[simp] theorem wgSetExec_shapes : (w.setExec n e).shapes = w.shapes := rfl
@[simp] theorem wgSetExec_tokens : (w.setExec n e).tokens = w.tokens := rfl
@[simp] theorem wgSetExec_tacqs : (w.setExec n e).tacqs = w.tacqs := rfl
@[simp] theorem wgSetExec_barriers : (w.setExec n e).barriers = w.barriers := rfl
@[simp] theorem wgSetExec_apply : (w.setExec n e).apply = w.apply := rfl
@[simp] theorem wgSetExec_worklist : (w.setExec n e).worklist = w.worklist := rfl
@[simp] theorem wgSetExec_copies : (w.setExec n e).copies = w.copies := rfl
@[simp] theorem wgSetExec_copiesDone : (w.setExec n e).copiesDone = w.copiesDone := rfl
@[simp] theorem wgSetExec_wdogLeft : (w.setExec n e).wdogLeft = w.wdogLeft := rfl
@[simp] theorem wgSetExec_phase : (w.setExec n e).phase = w.phase := rfl
@[simp] theorem wgSetExec_batch : (w.setExec n e).batch = w.batch := rfl
@[simp] theorem wgSetExec_stamps : (w.setExec n e).stamps = w.stamps := rfl
@[simp] theorem wgSetExec_badPools : (w.setExec n e).badPools = w.badPools := rfl
@[simp] theorem wgSetExec_badShapes : (w.setExec n e).badShapes = w.badShapes := rfl
@[simp] theorem wgSetExec_applies : (w.setExec n e).applies = w.applies := rfl
end

/-- Setting an executor changes the cores alone. -/
theorem setExec_frame (s : State) (x : ExecId) (e : Exec) : { s.setExec x e with cores := s.cores } = s := by
  unfold State.setExec
  split <;> rfl

theorem updExec_frame (s : State) (x : ExecId) (f : Exec → Exec) : { s.updExec x f with cores := s.cores } = s := by
  unfold State.updExec
  split
  · rfl
  · exact setExec_frame s x _

theorem updWg_frame (s : State) (c : Nat) (f : Workgroup → Workgroup) : { s.updWg c f with cores := s.cores } = s := by
  unfold State.updWg
  split <;> rfl

section
variable (s : State) (x : ExecId) (e : Exec)
@[simp] theorem setExec_agenda : (s.setExec x e).agenda = s.agenda := (congrArg State.agenda (setExec_frame s x e) :)
@[simp] theorem setExec_cur : (s.setExec x e).cur = s.cur := (congrArg State.cur (setExec_frame s x e) :)
@[simp] theorem setExec_free : (s.setExec x e).free = s.free := (congrArg State.free (setExec_frame s x e) :)
@[simp] theorem setExec_fresh : (s.setExec x e).fresh = s.fresh := (congrArg State.fresh (setExec_frame s x e) :)
@[simp] theorem setExec_time : (s.setExec x e).time = s.time := (congrArg State.time (setExec_frame s x e) :)
@[simp] theorem setExec_fields : (s.setExec x e).fields = s.fields := (congrArg State.fields (setExec_frame s x e) :)
@[simp] theorem setExec_mem : (s.setExec x e).mem = s.mem := (congrArg State.mem (setExec_frame s x e) :)
@[simp] theorem setExec_poison : (s.setExec x e).poison = s.poison := (congrArg State.poison (setExec_frame s x e) :)
@[simp] theorem setExec_crossings : (s.setExec x e).crossings = s.crossings := (congrArg State.crossings (setExec_frame s x e) :)
@[simp] theorem setExec_marks : (s.setExec x e).marks = s.marks := (congrArg State.marks (setExec_frame s x e) :)
@[simp] theorem setExec_watches : (s.setExec x e).watches = s.watches := (congrArg State.watches (setExec_frame s x e) :)
@[simp] theorem setExec_events : (s.setExec x e).events = s.events := (congrArg State.events (setExec_frame s x e) :)
@[simp] theorem setExec_endEvents : (s.setExec x e).endEvents = s.endEvents := (congrArg State.endEvents (setExec_frame s x e) :)
@[simp] theorem setExec_regions : (s.setExec x e).regions = s.regions := (congrArg State.regions (setExec_frame s x e) :)
@[simp] theorem setExec_queueTable : (s.setExec x e).queueTable = s.queueTable := (congrArg State.queueTable (setExec_frame s x e) :)
@[simp] theorem setExec_levels : (s.setExec x e).levels = s.levels := (congrArg State.levels (setExec_frame s x e) :)
@[simp] theorem setExec_contextTable : (s.setExec x e).contextTable = s.contextTable := (congrArg State.contextTable (setExec_frame s x e) :)
@[simp] theorem setExec_governorTable : (s.setExec x e).governorTable = s.governorTable := (congrArg State.governorTable (setExec_frame s x e) :)
@[simp] theorem setExec_governors : (s.setExec x e).governors = s.governors := (congrArg State.governors (setExec_frame s x e) :)
@[simp] theorem setExec_trace : (s.setExec x e).trace = s.trace := (congrArg State.trace (setExec_frame s x e) :)
@[simp] theorem setExec_taken : (s.setExec x e).taken = s.taken := (congrArg State.taken (setExec_frame s x e) :)
@[simp] theorem setExec_reservations : (s.setExec x e).reservations = s.reservations := (congrArg State.reservations (setExec_frame s x e) :)
@[simp] theorem setExec_saved : (s.setExec x e).saved = s.saved := (congrArg State.saved (setExec_frame s x e) :)
@[simp] theorem setExec_requests : (s.setExec x e).requests = s.requests := (congrArg State.requests (setExec_frame s x e) :)
@[simp] theorem setExec_shoots : (s.setExec x e).shoots = s.shoots := (congrArg State.shoots (setExec_frame s x e) :)
@[simp] theorem setExec_gangBars : (s.setExec x e).gangBars = s.gangBars := (congrArg State.gangBars (setExec_frame s x e) :)
@[simp] theorem setExec_headsDone : (s.setExec x e).headsDone = s.headsDone := (congrArg State.headsDone (setExec_frame s x e) :)
@[simp] theorem setExec_codeObjs : (s.setExec x e).codeObjs = s.codeObjs := (congrArg State.codeObjs (setExec_frame s x e) :)
@[simp] theorem setExec_ownId : (s.setExec x e).ownId = s.ownId := (congrArg State.ownId (setExec_frame s x e) :)
@[simp] theorem setExec_hostId : (s.setExec x e).hostId = s.hostId := (congrArg State.hostId (setExec_frame s x e) :)
@[simp] theorem setExec_peers : (s.setExec x e).peers = s.peers := (congrArg State.peers (setExec_frame s x e) :)
@[simp] theorem setExec_epochs : (s.setExec x e).epochs = s.epochs := (congrArg State.epochs (setExec_frame s x e) :)
@[simp] theorem setExec_unreachable : (s.setExec x e).unreachable = s.unreachable := (congrArg State.unreachable (setExec_frame s x e) :)
@[simp] theorem setExec_ports : (s.setExec x e).ports = s.ports := (congrArg State.ports (setExec_frame s x e) :)
@[simp] theorem setExec_lateAnswers : (s.setExec x e).lateAnswers = s.lateAnswers := (congrArg State.lateAnswers (setExec_frame s x e) :)
@[simp] theorem setExec_dropped : (s.setExec x e).dropped = s.dropped := (congrArg State.dropped (setExec_frame s x e) :)
@[simp] theorem setExec_doorbellsDropped : (s.setExec x e).doorbellsDropped = s.doorbellsDropped := (congrArg State.doorbellsDropped (setExec_frame s x e) :)
@[simp] theorem setExec_traceDrops : (s.setExec x e).traceDrops = s.traceDrops := (congrArg State.traceDrops (setExec_frame s x e) :)
@[simp] theorem setExec_ints : (s.setExec x e).ints = s.ints := (congrArg State.ints (setExec_frame s x e) :)
@[simp] theorem setExec_outbox : (s.setExec x e).outbox = s.outbox := (congrArg State.outbox (setExec_frame s x e) :)
@[simp] theorem setExec_remotes : (s.setExec x e).remotes = s.remotes := (congrArg State.remotes (setExec_frame s x e) :)
@[simp] theorem setExec_log : (s.setExec x e).log = s.log := (congrArg State.log (setExec_frame s x e) :)
@[simp] theorem setExec_corrected : (s.setExec x e).corrected = s.corrected := (congrArg State.corrected (setExec_frame s x e) :)
@[simp] theorem setExec_uncorrectable : (s.setExec x e).uncorrectable = s.uncorrectable := (congrArg State.uncorrectable (setExec_frame s x e) :)
@[simp] theorem setExec_startState : (s.setExec x e).startState = s.startState := (congrArg State.startState (setExec_frame s x e) :)
@[simp] theorem setExec_startKind : (s.setExec x e).startKind = s.startKind := (congrArg State.startKind (setExec_frame s x e) :)
@[simp] theorem setExec_startNext : (s.setExec x e).startNext = s.startNext := (congrArg State.startNext (setExec_frame s x e) :)
@[simp] theorem setExec_failCode : (s.setExec x e).failCode = s.failCode := (congrArg State.failCode (setExec_frame s x e) :)
@[simp] theorem setExec_failUnit : (s.setExec x e).failUnit = s.failUnit := (congrArg State.failUnit (setExec_frame s x e) :)
@[simp] theorem setExec_throttle : (s.setExec x e).throttle = s.throttle := (congrArg State.throttle (setExec_frame s x e) :)
@[simp] theorem setExec_coolant : (s.setExec x e).coolant = s.coolant := (congrArg State.coolant (setExec_frame s x e) :)
@[simp] theorem setExec_measured : (s.setExec x e).measured = s.measured := (congrArg State.measured (setExec_frame s x e) :)
@[simp] theorem setExec_factory : (s.setExec x e).factory = s.factory := (congrArg State.factory (setExec_frame s x e) :)
@[simp] theorem setExec_inService : (s.setExec x e).inService = s.inService := (congrArg State.inService (setExec_frame s x e) :)
@[simp] theorem setExec_pendingRepairs : (s.setExec x e).pendingRepairs = s.pendingRepairs := (congrArg State.pendingRepairs (setExec_frame s x e) :)
@[simp] theorem setExec_fenced : (s.setExec x e).fenced = s.fenced := (congrArg State.fenced (setExec_frame s x e) :)
@[simp] theorem setExec_eventRels : (s.setExec x e).eventRels = s.eventRels := (congrArg State.eventRels (setExec_frame s x e) :)
@[simp] theorem setExec_turns : (s.setExec x e).turns = s.turns := (congrArg State.turns (setExec_frame s x e) :)
@[simp] theorem setExec_served : (s.setExec x e).served = s.served := (congrArg State.served (setExec_frame s x e) :)
@[simp] theorem setExec_routes : (s.setExec x e).routes = s.routes := (congrArg State.routes (setExec_frame s x e) :)
@[simp] theorem setExec_spares : (s.setExec x e).spares = s.spares := (congrArg State.spares (setExec_frame s x e) :)
@[simp] theorem setExec_fieldsUp : (s.setExec x e).fieldsUp = s.fieldsUp := (congrArg State.fieldsUp (setExec_frame s x e) :)
end

section
variable (s : State) (x : ExecId) (f : Exec → Exec)
@[simp] theorem updExec_agenda : (s.updExec x f).agenda = s.agenda := (congrArg State.agenda (updExec_frame s x f) :)
@[simp] theorem updExec_cur : (s.updExec x f).cur = s.cur := (congrArg State.cur (updExec_frame s x f) :)
@[simp] theorem updExec_free : (s.updExec x f).free = s.free := (congrArg State.free (updExec_frame s x f) :)
@[simp] theorem updExec_fresh : (s.updExec x f).fresh = s.fresh := (congrArg State.fresh (updExec_frame s x f) :)
@[simp] theorem updExec_time : (s.updExec x f).time = s.time := (congrArg State.time (updExec_frame s x f) :)
@[simp] theorem updExec_fields : (s.updExec x f).fields = s.fields := (congrArg State.fields (updExec_frame s x f) :)
@[simp] theorem updExec_mem : (s.updExec x f).mem = s.mem := (congrArg State.mem (updExec_frame s x f) :)
@[simp] theorem updExec_poison : (s.updExec x f).poison = s.poison := (congrArg State.poison (updExec_frame s x f) :)
@[simp] theorem updExec_crossings : (s.updExec x f).crossings = s.crossings := (congrArg State.crossings (updExec_frame s x f) :)
@[simp] theorem updExec_marks : (s.updExec x f).marks = s.marks := (congrArg State.marks (updExec_frame s x f) :)
@[simp] theorem updExec_watches : (s.updExec x f).watches = s.watches := (congrArg State.watches (updExec_frame s x f) :)
@[simp] theorem updExec_events : (s.updExec x f).events = s.events := (congrArg State.events (updExec_frame s x f) :)
@[simp] theorem updExec_endEvents : (s.updExec x f).endEvents = s.endEvents := (congrArg State.endEvents (updExec_frame s x f) :)
@[simp] theorem updExec_regions : (s.updExec x f).regions = s.regions := (congrArg State.regions (updExec_frame s x f) :)
@[simp] theorem updExec_queueTable : (s.updExec x f).queueTable = s.queueTable := (congrArg State.queueTable (updExec_frame s x f) :)
@[simp] theorem updExec_levels : (s.updExec x f).levels = s.levels := (congrArg State.levels (updExec_frame s x f) :)
@[simp] theorem updExec_contextTable : (s.updExec x f).contextTable = s.contextTable := (congrArg State.contextTable (updExec_frame s x f) :)
@[simp] theorem updExec_governorTable : (s.updExec x f).governorTable = s.governorTable := (congrArg State.governorTable (updExec_frame s x f) :)
@[simp] theorem updExec_governors : (s.updExec x f).governors = s.governors := (congrArg State.governors (updExec_frame s x f) :)
@[simp] theorem updExec_trace : (s.updExec x f).trace = s.trace := (congrArg State.trace (updExec_frame s x f) :)
@[simp] theorem updExec_taken : (s.updExec x f).taken = s.taken := (congrArg State.taken (updExec_frame s x f) :)
@[simp] theorem updExec_reservations : (s.updExec x f).reservations = s.reservations := (congrArg State.reservations (updExec_frame s x f) :)
@[simp] theorem updExec_saved : (s.updExec x f).saved = s.saved := (congrArg State.saved (updExec_frame s x f) :)
@[simp] theorem updExec_requests : (s.updExec x f).requests = s.requests := (congrArg State.requests (updExec_frame s x f) :)
@[simp] theorem updExec_shoots : (s.updExec x f).shoots = s.shoots := (congrArg State.shoots (updExec_frame s x f) :)
@[simp] theorem updExec_gangBars : (s.updExec x f).gangBars = s.gangBars := (congrArg State.gangBars (updExec_frame s x f) :)
@[simp] theorem updExec_headsDone : (s.updExec x f).headsDone = s.headsDone := (congrArg State.headsDone (updExec_frame s x f) :)
@[simp] theorem updExec_codeObjs : (s.updExec x f).codeObjs = s.codeObjs := (congrArg State.codeObjs (updExec_frame s x f) :)
@[simp] theorem updExec_ownId : (s.updExec x f).ownId = s.ownId := (congrArg State.ownId (updExec_frame s x f) :)
@[simp] theorem updExec_hostId : (s.updExec x f).hostId = s.hostId := (congrArg State.hostId (updExec_frame s x f) :)
@[simp] theorem updExec_peers : (s.updExec x f).peers = s.peers := (congrArg State.peers (updExec_frame s x f) :)
@[simp] theorem updExec_epochs : (s.updExec x f).epochs = s.epochs := (congrArg State.epochs (updExec_frame s x f) :)
@[simp] theorem updExec_unreachable : (s.updExec x f).unreachable = s.unreachable := (congrArg State.unreachable (updExec_frame s x f) :)
@[simp] theorem updExec_ports : (s.updExec x f).ports = s.ports := (congrArg State.ports (updExec_frame s x f) :)
@[simp] theorem updExec_lateAnswers : (s.updExec x f).lateAnswers = s.lateAnswers := (congrArg State.lateAnswers (updExec_frame s x f) :)
@[simp] theorem updExec_dropped : (s.updExec x f).dropped = s.dropped := (congrArg State.dropped (updExec_frame s x f) :)
@[simp] theorem updExec_doorbellsDropped : (s.updExec x f).doorbellsDropped = s.doorbellsDropped := (congrArg State.doorbellsDropped (updExec_frame s x f) :)
@[simp] theorem updExec_traceDrops : (s.updExec x f).traceDrops = s.traceDrops := (congrArg State.traceDrops (updExec_frame s x f) :)
@[simp] theorem updExec_ints : (s.updExec x f).ints = s.ints := (congrArg State.ints (updExec_frame s x f) :)
@[simp] theorem updExec_outbox : (s.updExec x f).outbox = s.outbox := (congrArg State.outbox (updExec_frame s x f) :)
@[simp] theorem updExec_remotes : (s.updExec x f).remotes = s.remotes := (congrArg State.remotes (updExec_frame s x f) :)
@[simp] theorem updExec_log : (s.updExec x f).log = s.log := (congrArg State.log (updExec_frame s x f) :)
@[simp] theorem updExec_corrected : (s.updExec x f).corrected = s.corrected := (congrArg State.corrected (updExec_frame s x f) :)
@[simp] theorem updExec_uncorrectable : (s.updExec x f).uncorrectable = s.uncorrectable := (congrArg State.uncorrectable (updExec_frame s x f) :)
@[simp] theorem updExec_startState : (s.updExec x f).startState = s.startState := (congrArg State.startState (updExec_frame s x f) :)
@[simp] theorem updExec_startKind : (s.updExec x f).startKind = s.startKind := (congrArg State.startKind (updExec_frame s x f) :)
@[simp] theorem updExec_startNext : (s.updExec x f).startNext = s.startNext := (congrArg State.startNext (updExec_frame s x f) :)
@[simp] theorem updExec_failCode : (s.updExec x f).failCode = s.failCode := (congrArg State.failCode (updExec_frame s x f) :)
@[simp] theorem updExec_failUnit : (s.updExec x f).failUnit = s.failUnit := (congrArg State.failUnit (updExec_frame s x f) :)
@[simp] theorem updExec_throttle : (s.updExec x f).throttle = s.throttle := (congrArg State.throttle (updExec_frame s x f) :)
@[simp] theorem updExec_coolant : (s.updExec x f).coolant = s.coolant := (congrArg State.coolant (updExec_frame s x f) :)
@[simp] theorem updExec_measured : (s.updExec x f).measured = s.measured := (congrArg State.measured (updExec_frame s x f) :)
@[simp] theorem updExec_factory : (s.updExec x f).factory = s.factory := (congrArg State.factory (updExec_frame s x f) :)
@[simp] theorem updExec_inService : (s.updExec x f).inService = s.inService := (congrArg State.inService (updExec_frame s x f) :)
@[simp] theorem updExec_pendingRepairs : (s.updExec x f).pendingRepairs = s.pendingRepairs := (congrArg State.pendingRepairs (updExec_frame s x f) :)
@[simp] theorem updExec_fenced : (s.updExec x f).fenced = s.fenced := (congrArg State.fenced (updExec_frame s x f) :)
@[simp] theorem updExec_eventRels : (s.updExec x f).eventRels = s.eventRels := (congrArg State.eventRels (updExec_frame s x f) :)
@[simp] theorem updExec_turns : (s.updExec x f).turns = s.turns := (congrArg State.turns (updExec_frame s x f) :)
@[simp] theorem updExec_served : (s.updExec x f).served = s.served := (congrArg State.served (updExec_frame s x f) :)
@[simp] theorem updExec_routes : (s.updExec x f).routes = s.routes := (congrArg State.routes (updExec_frame s x f) :)
@[simp] theorem updExec_spares : (s.updExec x f).spares = s.spares := (congrArg State.spares (updExec_frame s x f) :)
@[simp] theorem updExec_fieldsUp : (s.updExec x f).fieldsUp = s.fieldsUp := (congrArg State.fieldsUp (updExec_frame s x f) :)
end

section
variable (s : State) (c : Nat) (f : Workgroup → Workgroup)
@[simp] theorem updWg_agenda : (s.updWg c f).agenda = s.agenda := (congrArg State.agenda (updWg_frame s c f) :)
@[simp] theorem updWg_cur : (s.updWg c f).cur = s.cur := (congrArg State.cur (updWg_frame s c f) :)
@[simp] theorem updWg_free : (s.updWg c f).free = s.free := (congrArg State.free (updWg_frame s c f) :)
@[simp] theorem updWg_fresh : (s.updWg c f).fresh = s.fresh := (congrArg State.fresh (updWg_frame s c f) :)
@[simp] theorem updWg_time : (s.updWg c f).time = s.time := (congrArg State.time (updWg_frame s c f) :)
@[simp] theorem updWg_fields : (s.updWg c f).fields = s.fields := (congrArg State.fields (updWg_frame s c f) :)
@[simp] theorem updWg_mem : (s.updWg c f).mem = s.mem := (congrArg State.mem (updWg_frame s c f) :)
@[simp] theorem updWg_poison : (s.updWg c f).poison = s.poison := (congrArg State.poison (updWg_frame s c f) :)
@[simp] theorem updWg_crossings : (s.updWg c f).crossings = s.crossings := (congrArg State.crossings (updWg_frame s c f) :)
@[simp] theorem updWg_marks : (s.updWg c f).marks = s.marks := (congrArg State.marks (updWg_frame s c f) :)
@[simp] theorem updWg_watches : (s.updWg c f).watches = s.watches := (congrArg State.watches (updWg_frame s c f) :)
@[simp] theorem updWg_events : (s.updWg c f).events = s.events := (congrArg State.events (updWg_frame s c f) :)
@[simp] theorem updWg_endEvents : (s.updWg c f).endEvents = s.endEvents := (congrArg State.endEvents (updWg_frame s c f) :)
@[simp] theorem updWg_regions : (s.updWg c f).regions = s.regions := (congrArg State.regions (updWg_frame s c f) :)
@[simp] theorem updWg_queueTable : (s.updWg c f).queueTable = s.queueTable := (congrArg State.queueTable (updWg_frame s c f) :)
@[simp] theorem updWg_levels : (s.updWg c f).levels = s.levels := (congrArg State.levels (updWg_frame s c f) :)
@[simp] theorem updWg_contextTable : (s.updWg c f).contextTable = s.contextTable := (congrArg State.contextTable (updWg_frame s c f) :)
@[simp] theorem updWg_governorTable : (s.updWg c f).governorTable = s.governorTable := (congrArg State.governorTable (updWg_frame s c f) :)
@[simp] theorem updWg_governors : (s.updWg c f).governors = s.governors := (congrArg State.governors (updWg_frame s c f) :)
@[simp] theorem updWg_trace : (s.updWg c f).trace = s.trace := (congrArg State.trace (updWg_frame s c f) :)
@[simp] theorem updWg_taken : (s.updWg c f).taken = s.taken := (congrArg State.taken (updWg_frame s c f) :)
@[simp] theorem updWg_reservations : (s.updWg c f).reservations = s.reservations := (congrArg State.reservations (updWg_frame s c f) :)
@[simp] theorem updWg_saved : (s.updWg c f).saved = s.saved := (congrArg State.saved (updWg_frame s c f) :)
@[simp] theorem updWg_requests : (s.updWg c f).requests = s.requests := (congrArg State.requests (updWg_frame s c f) :)
@[simp] theorem updWg_shoots : (s.updWg c f).shoots = s.shoots := (congrArg State.shoots (updWg_frame s c f) :)
@[simp] theorem updWg_gangBars : (s.updWg c f).gangBars = s.gangBars := (congrArg State.gangBars (updWg_frame s c f) :)
@[simp] theorem updWg_headsDone : (s.updWg c f).headsDone = s.headsDone := (congrArg State.headsDone (updWg_frame s c f) :)
@[simp] theorem updWg_codeObjs : (s.updWg c f).codeObjs = s.codeObjs := (congrArg State.codeObjs (updWg_frame s c f) :)
@[simp] theorem updWg_ownId : (s.updWg c f).ownId = s.ownId := (congrArg State.ownId (updWg_frame s c f) :)
@[simp] theorem updWg_hostId : (s.updWg c f).hostId = s.hostId := (congrArg State.hostId (updWg_frame s c f) :)
@[simp] theorem updWg_peers : (s.updWg c f).peers = s.peers := (congrArg State.peers (updWg_frame s c f) :)
@[simp] theorem updWg_epochs : (s.updWg c f).epochs = s.epochs := (congrArg State.epochs (updWg_frame s c f) :)
@[simp] theorem updWg_unreachable : (s.updWg c f).unreachable = s.unreachable := (congrArg State.unreachable (updWg_frame s c f) :)
@[simp] theorem updWg_ports : (s.updWg c f).ports = s.ports := (congrArg State.ports (updWg_frame s c f) :)
@[simp] theorem updWg_lateAnswers : (s.updWg c f).lateAnswers = s.lateAnswers := (congrArg State.lateAnswers (updWg_frame s c f) :)
@[simp] theorem updWg_dropped : (s.updWg c f).dropped = s.dropped := (congrArg State.dropped (updWg_frame s c f) :)
@[simp] theorem updWg_doorbellsDropped : (s.updWg c f).doorbellsDropped = s.doorbellsDropped := (congrArg State.doorbellsDropped (updWg_frame s c f) :)
@[simp] theorem updWg_traceDrops : (s.updWg c f).traceDrops = s.traceDrops := (congrArg State.traceDrops (updWg_frame s c f) :)
@[simp] theorem updWg_ints : (s.updWg c f).ints = s.ints := (congrArg State.ints (updWg_frame s c f) :)
@[simp] theorem updWg_outbox : (s.updWg c f).outbox = s.outbox := (congrArg State.outbox (updWg_frame s c f) :)
@[simp] theorem updWg_remotes : (s.updWg c f).remotes = s.remotes := (congrArg State.remotes (updWg_frame s c f) :)
@[simp] theorem updWg_log : (s.updWg c f).log = s.log := (congrArg State.log (updWg_frame s c f) :)
@[simp] theorem updWg_corrected : (s.updWg c f).corrected = s.corrected := (congrArg State.corrected (updWg_frame s c f) :)
@[simp] theorem updWg_uncorrectable : (s.updWg c f).uncorrectable = s.uncorrectable := (congrArg State.uncorrectable (updWg_frame s c f) :)
@[simp] theorem updWg_startState : (s.updWg c f).startState = s.startState := (congrArg State.startState (updWg_frame s c f) :)
@[simp] theorem updWg_startKind : (s.updWg c f).startKind = s.startKind := (congrArg State.startKind (updWg_frame s c f) :)
@[simp] theorem updWg_startNext : (s.updWg c f).startNext = s.startNext := (congrArg State.startNext (updWg_frame s c f) :)
@[simp] theorem updWg_failCode : (s.updWg c f).failCode = s.failCode := (congrArg State.failCode (updWg_frame s c f) :)
@[simp] theorem updWg_failUnit : (s.updWg c f).failUnit = s.failUnit := (congrArg State.failUnit (updWg_frame s c f) :)
@[simp] theorem updWg_throttle : (s.updWg c f).throttle = s.throttle := (congrArg State.throttle (updWg_frame s c f) :)
@[simp] theorem updWg_coolant : (s.updWg c f).coolant = s.coolant := (congrArg State.coolant (updWg_frame s c f) :)
@[simp] theorem updWg_measured : (s.updWg c f).measured = s.measured := (congrArg State.measured (updWg_frame s c f) :)
@[simp] theorem updWg_factory : (s.updWg c f).factory = s.factory := (congrArg State.factory (updWg_frame s c f) :)
@[simp] theorem updWg_inService : (s.updWg c f).inService = s.inService := (congrArg State.inService (updWg_frame s c f) :)
@[simp] theorem updWg_pendingRepairs : (s.updWg c f).pendingRepairs = s.pendingRepairs := (congrArg State.pendingRepairs (updWg_frame s c f) :)
@[simp] theorem updWg_fenced : (s.updWg c f).fenced = s.fenced := (congrArg State.fenced (updWg_frame s c f) :)
@[simp] theorem updWg_eventRels : (s.updWg c f).eventRels = s.eventRels := (congrArg State.eventRels (updWg_frame s c f) :)
@[simp] theorem updWg_turns : (s.updWg c f).turns = s.turns := (congrArg State.turns (updWg_frame s c f) :)
@[simp] theorem updWg_served : (s.updWg c f).served = s.served := (congrArg State.served (updWg_frame s c f) :)
@[simp] theorem updWg_routes : (s.updWg c f).routes = s.routes := (congrArg State.routes (updWg_frame s c f) :)
@[simp] theorem updWg_spares : (s.updWg c f).spares = s.spares := (congrArg State.spares (updWg_frame s c f) :)
@[simp] theorem updWg_fieldsUp : (s.updWg c f).fieldsUp = s.fieldsUp := (congrArg State.fieldsUp (updWg_frame s c f) :)
end

-- what a write of a register and a count leave of an executor

theorem put_frame (e : Exec) (w : RegVal) :
    { e.put w with v := e.v, k := e.k, a := e.a, badCells := e.badCells, shadow := e.shadow } = e := by
  unfold Exec.put
  split <;> split <;> first | rfl | (split <;> rfl)

theorem putReal_frame (e : Exec) (w : RegVal) :
    { e.putReal w with v := e.v, k := e.k, a := e.a, badCells := e.badCells, shadow := e.shadow } = e := by
  unfold Exec.putReal
  split
  · exact put_frame e w
  · exact congrArg (fun d : Exec => { d with shadow := e.shadow }) (put_frame { e with shadow := none } w)

theorem write_frame (e : Exec) (now order : Nat) (w : RegVal) (real : Bool) :
    { e.write now order w real with v := e.v, k := e.k, a := e.a, badCells := e.badCells, shadow := e.shadow, written := e.written } = e := by
  unfold Exec.write
  dsimp only
  split
  · split
    · rfl
    · exact congrArg (fun d : Exec => { d with written := e.written }) (put_frame e w)
  · rename_i h
    have aux (b : Bool) : { (if b then e else e.put w) with v := e.v, k := e.k, a := e.a, badCells := e.badCells, shadow := e.shadow } = e := by
      cases b
      · exact put_frame e w
      · rfl
    generalize hb : e.late now order w.key (fun _ => true) = b
    split
    · have h2 := put_frame { (if b then e else e.put w) with shadow := none } w
      exact (congrArg (fun d : Exec =>
        { d with v := e.v, k := e.k, a := e.a, badCells := e.badCells, shadow := e.shadow, written := e.written }) h2).trans
        (congrArg (fun d : Exec => { d with written := e.written }) (aux b))
    · exact congrArg (fun d : Exec => { d with written := e.written }) (aux b)

theorem addCounter_frame (e : Exec) (cls : Cls) (n : Nat) :
    { addCounter e cls n with cL := e.cL, cS := e.cS, cC := e.cC, cT := e.cT, cX := e.cX } = e := by cases cls <;> rfl

theorem subCounter_frame (e : Exec) (cls : Cls) :
    { subCounter e cls with cL := e.cL, cS := e.cS, cC := e.cC, cT := e.cT, cX := e.cX } = e := by cases cls <;> rfl

end Sys2Proof.Machine
end

