-- ==== Sys2Proof/Laws/Issue.lean ====
section
/-! SUPPORT. The issue of a word, said once: an accepted word has the effect of its entry; every other word stops its clause with a cause. -/

namespace Sys2Proof.Machine

theorem getLast?_split {α : Type} (l : List α) (c : α) (h : l.getLast? = some c) : l = l.dropLast ++ [c] := by
  cases l with
  | nil => cases h
  | cons a l =>
    rw [List.getLast?_eq_some_getLast (by simp)] at h
    cases h
    exact (List.dropLast_concat_getLast _).symm

/-- Where no cell holds an error, a word finds its registers as they are. -/
theorem spoil_sound {s : State} {x : ExecId} {w : Workgroup} {e : Exec} (i : Instr) (ctl : Ctl) (h : Sound w e) : spoil s x w e i ctl = s := by
  obtain ⟨h1, h2, h3, h4⟩ := h
  simp only [spoil, h1, h2, h3, h4, List.isEmpty_nil, Bool.not_false, Bool.and_self, Bool.true_or, if_true]

/-- The issue of a word by an executor whose registers hold no error. -/
theorem issueWord_sound {s : State} {x : ExecId} {w : Workgroup} {e : Exec} {c : Clause} (i : Instr) (ctl : Ctl) (f : View → Eff)
    (h : Issuing s x w e c) : issueWord i ctl f s = issueGood i ctl f s := by
  obtain ⟨hc, hw, he, -, -, hs⟩ := h
  have hx : s.exec x = some e := by rw [exec_of s x w hw, he]
  simp only [issueWord, hc, hw, hx, spoil_sound i ctl hs]

/-- The issue of an accepted word is its entry's effect. -/
theorem issueWord_legal {s : State} {x : ExecId} {w : Workgroup} {e : Exec} {c : Clause} {i : Instr} {ctl : Ctl} (f : View → Eff)
    (h : Issuing s x w e c) (hl : Legal x w i ctl) :
    issueWord i ctl f s = .next (applyEff (viewOf s x w e c ctl) i ctl.gap.toNat (lengthOf i) (f (viewOf s x w e c ctl))) := by
  rw [issueWord_sound i ctl f h]
  obtain ⟨hc, hw, he, hk, hs, -⟩ := h
  obtain ⟨⟨hf, hi, ha, hg⟩, hwin⟩ := hl
  have hx : s.exec x = some e := by rw [exec_of s x w hw, he]
  have hguard : (!isHead x.ctx || (decide (ctl.g = 0) && !ctl.n)) = true := by
    cases hh : isHead x.ctx with
    | false => rfl
    | true => simp [hg hh]
  have hwindow : (if isHead x.ctx then none else windowBad w.launch.window i) = none := by
    cases hh : isHead x.ctx with
    | false => simp [hwin hh]
    | true => rfl
  unfold issueGood
  simp only [hc, hw, hx, hk, hs, hf, hi, ha, Bool.true_and]
  rw [hguard, hwindow]
  cases i <;> rfl

/-- An executor put back, its slot given up or not, the switch-away marked or not. -/
theorem place_frame (s : State) (x : ExecId) (w : Workgroup) (e : Exec) (slot : Option Nat) (held : Nat) (freed away : Bool) (h : s.wg x.core = some w) :
    let s1 := (if freed then freeSlot s x.core slot held else s).setExec x e
    let s2 := if away then markAway s1 x.core slot x.ctx else s1
    s2.wg x.core = some (w.setExec x.ctx e) ∧ CoreFrame s s2 x.core w := by
  have h0 : CoreFrame s (if freed then freeSlot s x.core slot held else s) x.core w ∧
      (if freed then freeSlot s x.core slot held else s).wg x.core = some w := by
    cases freed with
    | false => exact ⟨CoreFrame.refl s x.core w h, h⟩
    | true => exact freeSlot_frame s x.core slot held w h
  have h1 := (h0.1).trans (setWg_frame _ x.core w (w.setExec x.ctx e) h0.2)
  have hs := setExec_of _ x w e h0.2
  cases away with
  | false => exact ⟨by simp [hs], by simpa [hs] using h1⟩
  | true =>
    have h2 := markAway_frame (s := (if freed then freeSlot s x.core slot held else s).setExec x e) x.core slot x.ctx (w.setExec x.ctx e)
      (by simp [hs])
    exact ⟨by simpa using h2.2, by simpa using (hs ▸ h1).trans h2.1⟩

/-- A new executor record that keeps all but what an issue may change gives the frame of an issue. -/
theorem onlyIssued_of {s t : State} {x : ExecId} {w : Workgroup} {e e' : Exec} (hf : CoreFrame s t x.core w)
    (he : { e' with pend := e.pend, clauses := e.clauses, slot := e.slot, readyAt := e.readyAt, pc := e.pc, a0 := e.a0, parts := e.parts } = e) :
    OnlyIssued s t x w (w.setExec x.ctx e') e e' :=
  ⟨hf.1, fun a => by rw [hf.mem], hf.2.1, hf.2.2, rfl, fun n hn => exec_setExec_ne w x.ctx n e' hn, he⟩

/-- What `advance` does: the clause's next word and its cycle; of the executor only slot and next issue cycle. -/
theorem advance_spec (e : Exec) (c : Clause) (now words gap extra : Nat) (away : Bool) :
    (advance e c now words gap extra away).2.1 = { c with next := c.next + words, due := now + 1 + gap + extra } ∧
    { (advance e c now words gap extra away).1 with slot := e.slot, readyAt := e.readyAt } = e := by
  unfold advance
  dsimp only
  by_cases h : c.next + words < c.code.words.length
  · rw [if_pos h]
    exact ⟨rfl, rfl⟩
  · rw [if_neg h]
    exact ⟨rfl, rfl⟩

/-- The executor and clause after a word, put back with the slots' marks. -/
def putBack (s : State) (x : ExecId) (slot : Option Nat) (held : Nat) (r : Exec × Clause × Bool) : State :=
  let s1 := (if r.1.slot.isNone then freeSlot s x.core slot held else s).setExec x { r.1 with clauses := setLast r.1.clauses r.2.1 }
  if r.2.2 then markAway s1 x.core slot x.ctx else s1

/-- The executor with a word's results and transfer, and the clause with what the word captured. -/
def withEff (s : State) (x : ExecId) (e : Exec) (f : Eff) (seq idx : Nat) : Exec :=
  { e with
    pend := e.pend ++ f.writes.map fun w => { land := s.now x.core + f.lat, seq := seq, idx := idx, val := w }
    pc := match f.target with | none => e.pc | some t => t
    a0 := match f.part with | none => e.a0 | some p => p.a0
    badCells := match f.part with | none => e.badCells | some _ => cellsBut e.badCells (.a 0)
    parts := match f.part with | none => e.parts | some p => p.stack }
def clauseWith (s : State) (x : ExecId) (e : Exec) (c : Clause) (i : Instr) (ctl : Ctl) (f : Eff) : Clause :=
  let now := s.now x.core
  let keys := (f.writes.map RegVal.key).filter fun k => !(c.undo.any fun u => u.key = k)
  { c with
    undo := c.undo ++ (keys.eraseDups.map e.cell)
    settled := if f.writes.isEmpty then c.settled else max c.settled (now + f.lat)
    items := match f.item with
      | none => c.items
      | some (kv, lv) => c.items ++ [{ instr := i, idx := c.next, g := guardOf x e ctl, on := executes x e ctl, kv, lv, clock := now, xl := [] }]
    target := match f.target with | none => c.target | some t => some t
    takes := c.takes + f.takes
    gives := match f.gives with | none => c.gives | some q => c.gives ++ [q]
    parts := match f.part, c.parts with
      | some _, none => some { a0 := e.a0, stack := e.parts }
      | _, p => p }

theorem applyEff_eq {s : State} {x : ExecId} {w : Workgroup} {e : Exec} {c : Clause} {i : Instr} {ctl : Ctl} (f : Eff)
    (hh : f.hold = false) (hc : f.cause = none) :
    applyEff (viewOf s x w e c ctl) i ctl.gap.toNat (lengthOf i) f =
      (match f.gives with
       | none => putBack s x e.slot (f.extra + if f64Vector i then 1 else 0) (advance (withEff s x e f c.seq c.next) (clauseWith s x e c i ctl f) (s.now x.core) (lengthOf i) ctl.gap.toNat
           (f.extra + if f64Vector i then 1 else 0) f.away)
       | some q => holdQueue (putBack s x e.slot (f.extra + if f64Vector i then 1 else 0) (advance (withEff s x e f c.seq c.next) (clauseWith s x e c i ctl f) (s.now x.core) (lengthOf i)
           ctl.gap.toNat (f.extra + if f64Vector i then 1 else 0) f.away)) x.core q (· + 1)) := by
  unfold applyEff
  simp only [hh, hc, Bool.false_eq_true, if_false]
  rfl

/-- A word's effect without a wait or a cause leaves the issue behind and nothing else; a GIVE's reservation follows it. -/
theorem issued_then {s : State} {x : ExecId} {w : Workgroup} {e : Exec} {c : Clause} {i : Instr} {ctl : Ctl} (f : Eff)
    (h : Issuing s x w e c) (hh : f.hold = false) (hc : f.cause = none) :
    ∃ u, Issued s u x w e c i ctl f ∧ applyEff (viewOf s x w e c ctl) i ctl.gap.toNat (lengthOf i) f =
      (match f.gives with | none => u | some q => holdQueue u x.core q (· + 1)) := by
  obtain ⟨_, hw, -, -, -, hb, -⟩ := h
  refine ⟨_, ?_, applyEff_eq f hh hc⟩
  have hs := advance_spec (withEff s x e f c.seq c.next) (clauseWith s x e c i ctl f) (s.now x.core) (lengthOf i) ctl.gap.toNat
    (f.extra + if f64Vector i then 1 else 0) f.away
  generalize advance (withEff s x e f c.seq c.next) (clauseWith s x e c i ctl f) (s.now x.core) (lengthOf i) ctl.gap.toNat
    (f.extra + if f64Vector i then 1 else 0) f.away = r at hs ⊢
  obtain ⟨e2, c2, away⟩ := r
  obtain ⟨hs1, hs2⟩ := hs
  dsimp only at hs1 hs2 ⊢
  obtain ⟨h1, h2⟩ := place_frame s x w { e2 with clauses := setLast e2.clauses c2 } e.slot (f.extra + if f64Vector i then 1 else 0) e2.slot.isNone away hw
  have hr := congrArg Exec.clauses hs2
  have hp := congrArg Exec.pend hs2
  have hpc := congrArg Exec.pc hs2
  have ha := congrArg Exec.a0 hs2
  have hpa := congrArg Exec.parts hs2
  have hwe : withEff s x e f c.seq c.next = { withEff s x e f c.seq c.next with badCells := e.badCells } := by
    unfold withEff
    cases f.part <;> simp [hb, cellsBut]
  dsimp only [withEff] at hr hp hpc ha hpa
  subst hs1
  refine ⟨_, _, { clauseWith s x e c i ctl f with
      next := (clauseWith s x e c i ctl f).next + lengthOf i
      due := s.now x.core + 1 + ctl.gap.toNat + (f.extra + if f64Vector i then 1 else 0) },
    h1, exec_setExec_self _ _ _, by simp only [setLast, hr], hp, ?_, ?_, ?_, ?_, ?_, rfl, ?_, rfl, ?_, rfl, rfl, rfl,
    onlyIssued_of h2 ?_⟩
  · show (clauseWith s x e c i ctl f).items = _
    unfold clauseWith
    cases f.item <;> simp
  · cases hft : f.target <;> simp [hpc, hft]
  · show (clauseWith s x e c i ctl f).target = _
    unfold clauseWith
    cases f.target <;> rfl
  · cases hft : f.part <;> simp [ha, hft]
  · cases hft : f.part <;> simp [hpa, hft]
  · dsimp only; omega
  · show (clauseWith s x e c i ctl f).gives = _
    unfold clauseWith
    cases f.gives <;> simp
  · rw [hwe] at hs2
    have hx := congrArg (fun z : Exec => { z with pend := e.pend, clauses := e.clauses, slot := e.slot, readyAt := e.readyAt, pc := e.pc
                                                  a0 := e.a0, parts := e.parts }) hs2
    exact hx

theorem issued_of_eff {s : State} {x : ExecId} {w : Workgroup} {e : Exec} {c : Clause} {i : Instr} {ctl : Ctl} (f : Eff)
    (h : Issuing s x w e c) (hh : f.hold = false) (hc : f.cause = none) (hg : f.gives = none) :
    Issued s (applyEff (viewOf s x w e c ctl) i ctl.gap.toNat (lengthOf i) f) x w e c i ctl f := by
  obtain ⟨u, hu, ht⟩ := issued_then (i := i) (ctl := ctl) f h hh hc
  rw [ht, hg]
  exact hu

/-- A word's cause stops its clause and has no other effect. -/
theorem trapped_of {s : State} {x : ExecId} {w : Workgroup} {e : Exec} {c : Clause} (cause : Cause) (h : Issuing s x w e c) :
    Trapped s (stopClause s x e c cause) x w e c cause := by
  obtain ⟨_, hw, -⟩ := h
  obtain ⟨h1, h2⟩ := place_frame s x w
    { e with slot := none, clauses := setLast e.clauses { c with next := c.code.words.length, cause := some cause } } e.slot 0 true false hw
  exact ⟨_, _, _, h1, exec_setExec_self _ _ _, rfl, rfl, rfl, rfl, rfl, rfl, onlyIssued_of h2 rfl⟩

/-- An accepted word whose entry raises a cause stops its clause. -/
theorem traps_of {s : State} {x : ExecId} {w : Workgroup} {e : Exec} {c : Clause} {i : Instr} {ctl : Ctl} {f : View → Eff} {cause : Cause}
    (hi : exec i s = issueWord i ctl f s) (h : Issuing s x w e c) (hl : Legal x w i ctl) (hh : (f (viewOf s x w e c ctl)).hold = false)
    (hc : (f (viewOf s x w e c ctl)).cause = some cause) : Traps s x w e c i cause := by
  refine ⟨_, hi.trans (issueWord_legal f h hl), ?_⟩
  unfold applyEff
  rw [hh, hc]
  exact trapped_of cause h

/-- An accepted word whose entry waits stays where it is. -/
theorem stays_of {s : State} {x : ExecId} {w : Workgroup} {e : Exec} {c : Clause} {i : Instr} {ctl : Ctl} {f : View → Eff}
    (hi : exec i s = issueWord i ctl f s) (h : Issuing s x w e c) (hl : Legal x w i ctl)
    (hh : (f (viewOf s x w e c ctl)).hold = true) : Stays s x w e c i := by
  refine ⟨_, hi.trans (issueWord_legal f h hl), ?_⟩
  obtain ⟨_, hw, -⟩ := h
  unfold applyEff
  rw [hh]
  simp only [viewOf, if_true]
  rw [setExec_of s x w _ hw, updWg_of _ _ _ _ (wg_setWg_self _ _ _)]
  have hstamps (v : Workgroup) : { noteOwait i e.cC (s.now x.core) v with stamps := v.stamps } = v := by
    unfold noteOwait
    split
    · split <;> rfl
    · rfl
  have hn := hstamps (w.setExec x.ctx { e with clauses := setLast e.clauses { c with due := s.now x.core + 1 } })
  have hexecs := congrArg Workgroup.execs hn
  dsimp only at hexecs
  refine ⟨_, _, wg_setWg_self _ _ _, ?_, rfl, rfl, fun _ => rfl, ?_, ?_, ?_, ?_⟩
  · unfold Workgroup.exec
    rw [hexecs]
    exact exec_setExec_self w x.ctx _
  · intro n hne
    rw [core_setWg_ne _ _ _ _ hne, core_setWg_ne _ _ _ _ hne]
  · rw [core_setWg_self, core_setWg_self]
    exact (by
      have : (s.core x.core).wg = some w := hw
      rw [← this])
  · have h1 := congrArg (fun v : Workgroup => { v with execs := w.execs }) hn
    exact h1
  · intro n hne
    unfold Workgroup.exec
    rw [hexecs]
    exact exec_setExec_ne w x.ctx n _ hne

/-- An accepted word whose entry gives no wait, no cause and no queue reservation completes with its effect. -/
theorem completes {s : State} {x : ExecId} {w : Workgroup} {e : Exec} {c : Clause} {i : Instr} {ctl : Ctl} {f : View → Eff} {g : Eff}
    (hi : exec i s = issueWord i ctl f s) (h : Issuing s x w e c) (hl : Legal x w i ctl) (hf : f (viewOf s x w e c ctl) = g)
    (hh : g.hold = false) (hc : g.cause = none) (hg : g.gives = none) : Completes s x w e c i ctl g := by
  refine ⟨_, hi.trans (issueWord_legal f h hl), ?_⟩
  rw [hf]
  exact issued_of_eff g h hh hc hg

end Sys2Proof.Machine
end

