-- ==== Sys2Proof/Laws/Memory.lean ====
section
/-! SUPPORT. Laws of memory: every operation keeps the canonical form, a read after a write, and what the writes over State do to
memory. -/

namespace Sys2Proof.Machine

-- bytes

theorem writeByte_wf (m : Memory) (h : Nat) (b : Byte) (hm : Memory.wf m = true) : Memory.wf (writeByte m h b) = true :=
  mapPut_wf 0 h b m hm

/-- Reading a byte after writing one. -/
theorem readByte_writeByte (m : Memory) (h a : Nat) (b : Byte) (hm : Memory.wf m = true) :
    readByte (writeByte m h b) a = if a = h then b else readByte m a := by
  unfold readByte writeByte
  split
  · rename_i e
    subst e
    exact mapGet_mapPut_wf 0 a b none m hm
  · rename_i e
    exact mapGet_mapPut_ne 0 h a b m e

theorem writeBytes_wf (m : Memory) (h : Nat) (bs : List Byte) (hm : Memory.wf m = true) : Memory.wf (writeBytes m h bs) = true := by
  induction bs generalizing m h with
  | nil => exact hm
  | cons b bs ih => exact ih _ _ (writeByte_wf m h b hm)

/-- Reading a byte after writing several. -/
theorem readByte_writeBytes (m : Memory) (h a : Nat) (bs : List Byte) (hm : Memory.wf m = true) :
    readByte (writeBytes m h bs) a = if h ≤ a ∧ a < h + bs.length then bs.getD (a - h) 0 else readByte m a := by
  induction bs generalizing m h with
  | nil =>
    rw [if_neg (by simp only [List.length_nil]; omega)]
    rfl
  | cons b bs ih =>
    unfold writeBytes
    rw [ih _ _ (writeByte_wf m h b hm), readByte_writeByte m h a b hm]
    by_cases h1 : a = h
    · subst h1
      rw [if_neg (by omega), if_pos rfl, if_pos (by simp only [List.length_cons]; omega)]
      simp
    · by_cases h2 : h + 1 ≤ a ∧ a < h + 1 + bs.length
      · rw [if_pos h2, if_pos (by simp only [List.length_cons]; omega)]
        have e : a - h = (a - (h + 1)) + 1 := by omega
        rw [e, List.getD_cons_succ]
      · rw [if_neg h2, if_neg h1, if_neg (by simp only [List.length_cons]; omega)]

/-- The bytes of a write put one by one (as a restore puts a scratchpad back). -/
theorem foldl_writeByte_wf {α : Type} (f : α → Nat × Byte) (l : List α) (m : Memory) (hm : Memory.wf m = true) :
    Memory.wf (l.foldl (fun m p => writeByte m (f p).1 (f p).2) m) = true := by
  induction l generalizing m with
  | nil => exact hm
  | cons p l ih => exact ih _ (writeByte_wf m _ _ hm)

theorem memory_filter_wf (p : Nat × Byte → Bool) (m : Memory) (hm : Memory.wf m = true) : Memory.wf (m.filter p) = true :=
  filter_wf 0 p m hm

theorem reset_memory_wf : Memory.wf State.reset.mem = true := rfl

/-- What a fold of updates that keep a property leaves keeps it. -/
theorem foldl_keeps {α β : Type} (P : β → Prop) (f : β → α → β) (hf : ∀ b a, P b → P (f b a)) (l : List α) (b : β) (hb : P b) :
    P (l.foldl f b) := by
  induction l generalizing b with
  | nil => exact hb
  | cons a l ih => exact ih _ (hf b a hb)

/-- A fold of updates that leave memory alone leaves it alone. -/
theorem foldl_mem {α : Type} (f : State → α → State) (hf : ∀ s a, (f s a).mem = s.mem) (l : List α) (s : State) :
    (l.foldl f s).mem = s.mem := by
  induction l generalizing s with
  | nil => rfl
  | cons a l ih => exact (ih (f s a)).trans (hf s a)

-- writes over State

theorem clearZeroFlags_mem (s : State) (h n : Nat) : (clearZeroFlags s h n).mem = s.mem := by
  unfold clearZeroFlags
  split <;> rfl

/-- A write at its home puts its bytes there, poisons nothing and moves no other byte. -/
theorem homeStore_mem (s : State) (w : Option Nat) (at' : Bool) (h : Nat) (bs : List Byte) :
    (homeStore s w at' h bs).mem = writeBytes s.mem h bs := by
  unfold homeStore
  dsimp only
  split <;> simp [clearZeroFlags_mem, clearPoison]

theorem wakeWaita_mem (s : State) (x : ExecId) (t : Nat → Option Nat → Bool) (c : Nat) : (wakeWaita s x t c).mem = s.mem :=
  updExec_mem _ _ _

theorem wakeSectors_mem (s : State) (h n : Nat) : (wakeSectors s h n).mem = s.mem := by
  unfold wakeSectors
  exact foldl_mem _ (fun s (p : ExecId × Nat) => wakeWaita_mem s p.1 _ 1) _ s

theorem noteFill_mem (s : State) (h n : Nat) : (noteFill s h n).mem = s.mem := by
  unfold noteFill
  split <;> rfl

theorem meetSources_mem (s : State) (b : Option (ExecId × Nat)) (h n : Nat) : (meetSources s b h n).mem = s.mem := rfl

theorem placeBytes_mem (s : State) (w : Option Nat) (at' : Bool) (h : Nat) (bs : List Byte) :
    (placeBytes s w at' h bs).mem = writeBytes s.mem h bs := by
  unfold placeBytes
  rw [wakeSectors_mem, noteFill_mem, homeStore_mem]

theorem writeHome_mem (s : State) (w : Option Nat) (at' : Bool) (h : Nat) (bs : List Byte) :
    (writeHome s w at' h bs).mem = writeBytes s.mem h bs := by
  unfold writeHome
  rw [meetSources_mem, placeBytes_mem]

theorem unitWrite_mem (s : State) (core : Nat) (at' : Bool) (h : Nat) (bs : List Byte) :
    (unitWrite s core at' h bs).mem = writeBytes s.mem h bs := by
  unfold unitWrite
  rw [meetSources_mem, wakeSectors_mem, homeStore_mem]
  split <;> rfl

-- the L1

theorem dropLine_mem (s : State) (core : Nat) (l : Line) (lo hi : Nat) : (dropLine s core l lo hi).mem = s.mem := rfl

theorem addPoison_mem (s : State) (h n : Nat) : (addPoison s h n).mem = s.mem := rfl

theorem cross_mem (s : State) (core d h : Nat) : (s.cross core d h).mem = s.mem := by
  unfold State.cross
  split <;> rfl

theorem crossInto_mem (s : State) (core h : Nat) : (s.crossInto core h).mem = s.mem := by
  unfold State.crossInto
  split
  · exact cross_mem _ _ _ _
  · rfl

theorem crossBlock_mem (s : State) (core h : Nat) : (s.crossBlock core h).mem = s.mem := by
  unfold State.crossBlock
  split
  · exact cross_mem _ _ _ _
  · rfl

theorem wbRun_mem (s : State) (core : Nat) (l : Line) (r : Nat × List Byte) :
    (wbRun s core l r).mem = writeBytes s.mem (l.pa * 128 + r.1) r.2 := by
  unfold wbRun
  rw [foldl_mem _ (fun s (u : Nat) => addPoison_mem s _ 8), cross_mem, homeStore_mem]

theorem wbLine_wf (s : State) (core : Nat) (l : Line) (lo hi : Nat) (hm : Memory.wf s.mem = true) :
    Memory.wf (wbLine s core l lo hi).mem = true := by
  unfold wbLine
  dsimp only
  rw [updCore_mem, foldl_mem]
  · exact foldl_keeps (fun s : State => Memory.wf s.mem = true) _
      (fun s d h => by rw [wbRun_mem]; exact writeBytes_wf _ _ _ h) _ s hm
  · exact fun _ _ => rfl

theorem wbLineWake_wf (s : State) (core : Nat) (l : Line) (lo hi : Nat) (hm : Memory.wf s.mem = true) :
    Memory.wf (wbLineWake s core l lo hi).mem = true := by
  unfold wbLineWake
  rw [foldl_mem _ (fun s (r : Nat × List Byte) => wakeSectors_mem s _ r.2.length)]
  exact wbLine_wf s core l lo hi hm

theorem wbAll_wf (s : State) (core : Nat) (hm : Memory.wf s.mem = true) : Memory.wf (wbAll s core).mem = true :=
  foldl_keeps (fun s : State => Memory.wf s.mem = true) _ (fun s l h => wbLineWake_wf s core l 0 128 h) _ s hm

theorem promote_wf (s : State) (m : Mark) (hm : Memory.wf s.mem = true) : Memory.wf (promote s m).mem = true := wbAll_wf s m.core hm

theorem dropClean_mem (s : State) (core : Nat) : (dropClean s core).mem = s.mem := by
  unfold dropClean
  exact foldl_mem _ (fun s l => dropLine_mem s core l 0 128) _ s

theorem l1Clean_wf (s : State) (core h n : Nat) (d : Bool) (hm : Memory.wf s.mem = true) : Memory.wf (l1Clean s core h n d).mem = true := by
  unfold l1Clean
  split
  · refine foldl_keeps (fun s : State => Memory.wf s.mem = true) _ (fun s sec hs => ?_) _ s hm
    dsimp only
    split
    · rw [foldl_mem]
      · exact foldl_keeps (fun s : State => Memory.wf s.mem = true) _ (fun s l h => wbLineWake_wf s core l _ _ h) _ s hs
      · exact fun s l => dropLine_mem s core l _ _
    · exact foldl_keeps (fun s : State => Memory.wf s.mem = true) _ (fun s l h => wbLineWake_wf s core l _ _ h) _ s hs
  · exact hm

theorem evictLines_wf (s : State) (core : Nat) (p : Line → Bool) (hm : Memory.wf s.mem = true) :
    Memory.wf (evictLines s core p).mem = true :=
  foldl_keeps (fun s : State => Memory.wf s.mem = true) _ (fun s l h => wbLineWake_wf s core l 0 128 h) _ s hm

/-- Room in the L1 may write a line back. -/
theorem l1Room_wf (s : State) (core ctx va : Nat) (hm : Memory.wf s.mem = true) : Memory.wf (l1Room s core ctx va).mem = true := by
  unfold l1Room
  split
  · exact hm
  · dsimp only
    split
    · exact evictLines_wf _ _ _ hm
    · exact hm

theorem l1Fill_wf (s : State) (core ctx va pa n : Nat) (hm : Memory.wf s.mem = true) : Memory.wf (l1Fill s core ctx va pa n).mem = true :=
  l1Room_wf s core ctx va hm

theorem l1Load_wf (s : State) (core ctx va pa n : Nat) (nt : Bool) (hm : Memory.wf s.mem = true) :
    Memory.wf (l1Load s core ctx va pa n nt).2.mem = true := by
  unfold l1Load
  split
  · split
    · exact hm
    · exact l1Fill_wf s core ctx va pa n hm
  · split
    · exact hm
    · exact l1Fill_wf s core ctx va pa n hm

theorem l1Store_wf (s : State) (core ctx va pa : Nat) (bs : List Byte) (rel : Option (Scope × Nat)) (hm : Memory.wf s.mem = true) :
    Memory.wf (l1Store s core ctx va pa bs rel).mem = true := l1Room_wf s core ctx va hm

theorem l1Update_mem (s : State) (core ctx va : Nat) (bs : List Byte) : (l1Update s core ctx va bs).mem = s.mem := by
  unfold l1Update
  split <;> rfl

end Sys2Proof.Machine
end

