-- ==== Sys2Proof/Laws/PerInstr.lean ====
section
/-! SUPPORT. Statements for every instruction, one lemma for each constructor. -/

namespace Sys2Proof.Laws

open Sys2Proof.Machine

/-- An instruction word takes its length in words, MOVL two (R80); a device step has no word. -/
def EncodedLength.Statement (i : Instr) : Prop := (encode i).length = if isWord i then lengthOf i else 0

theorem EncodedLength.mov (w : Alu1) : EncodedLength.Statement (.mov w) := rfl
theorem EncodedLength.movi (w : MoviW) : EncodedLength.Statement (.movi w) := rfl
theorem EncodedLength.movl (w : MovlW) : EncodedLength.Statement (.movl w) := rfl
theorem EncodedLength.movs (w : MovsW) : EncodedLength.Statement (.movs w) := rfl
theorem EncodedLength.bck (w : BckW) : EncodedLength.Statement (.bck w) := rfl
theorem EncodedLength.lanek (w : LanekW) : EncodedLength.Statement (.lanek w) := rfl
theorem EncodedLength.add (w : Alu2) : EncodedLength.Statement (.add w) := rfl
theorem EncodedLength.sub (w : Alu2) : EncodedLength.Statement (.sub w) := rfl
theorem EncodedLength.mul (w : Alu2) : EncodedLength.Statement (.mul w) := rfl
theorem EncodedLength.mulh (w : Alu2) : EncodedLength.Statement (.mulh w) := rfl
theorem EncodedLength.mad (w : Alu3) : EncodedLength.Statement (.mad w) := rfl
theorem EncodedLength.add3 (w : Alu3) : EncodedLength.Statement (.add3 w) := rfl
theorem EncodedLength.div (w : Alu2) : EncodedLength.Statement (.div w) := rfl
theorem EncodedLength.rem (w : Alu2) : EncodedLength.Statement (.rem w) := rfl
theorem EncodedLength.min (w : Alu2) : EncodedLength.Statement (.min w) := rfl
theorem EncodedLength.max (w : Alu2) : EncodedLength.Statement (.max w) := rfl
theorem EncodedLength.abs (w : Alu1) : EncodedLength.Statement (.abs w) := rfl
theorem EncodedLength.neg (w : Alu1) : EncodedLength.Statement (.neg w) := rfl
theorem EncodedLength.and (w : Alu2) : EncodedLength.Statement (.and w) := rfl
theorem EncodedLength.or (w : Alu2) : EncodedLength.Statement (.or w) := rfl
theorem EncodedLength.xor (w : Alu2) : EncodedLength.Statement (.xor w) := rfl
theorem EncodedLength.not (w : Alu1) : EncodedLength.Statement (.not w) := rfl
theorem EncodedLength.shl (w : Alu2) : EncodedLength.Statement (.shl w) := rfl
theorem EncodedLength.shr (w : Alu2) : EncodedLength.Statement (.shr w) := rfl
theorem EncodedLength.sha (w : Alu2) : EncodedLength.Statement (.sha w) := rfl
theorem EncodedLength.rot (w : Alu2) : EncodedLength.Statement (.rot w) := rfl
theorem EncodedLength.popc (w : Alu1) : EncodedLength.Statement (.popc w) := rfl
theorem EncodedLength.clz (w : Alu1) : EncodedLength.Statement (.clz w) := rfl
theorem EncodedLength.brev (w : Alu1) : EncodedLength.Statement (.brev w) := rfl
theorem EncodedLength.bfx (w : Alu3) : EncodedLength.Statement (.bfx w) := rfl
theorem EncodedLength.bfi (w : Alu3) : EncodedLength.Statement (.bfi w) := rfl
theorem EncodedLength.lea (w : LeaW) : EncodedLength.Statement (.lea w) := rfl
theorem EncodedLength.addi (w : ImmW) : EncodedLength.Statement (.addi w) := rfl
theorem EncodedLength.andi (w : ImmW) : EncodedLength.Statement (.andi w) := rfl
theorem EncodedLength.ori (w : ImmW) : EncodedLength.Statement (.ori w) := rfl
theorem EncodedLength.shli (w : ImmW) : EncodedLength.Statement (.shli w) := rfl
theorem EncodedLength.fadd (w : Alu2) : EncodedLength.Statement (.fadd w) := rfl
theorem EncodedLength.fsub (w : Alu2) : EncodedLength.Statement (.fsub w) := rfl
theorem EncodedLength.fmul (w : Alu2) : EncodedLength.Statement (.fmul w) := rfl
theorem EncodedLength.fma (w : Alu3) : EncodedLength.Statement (.fma w) := rfl
theorem EncodedLength.fmin (w : Alu2) : EncodedLength.Statement (.fmin w) := rfl
theorem EncodedLength.fmax (w : Alu2) : EncodedLength.Statement (.fmax w) := rfl
theorem EncodedLength.fdiv (w : Alu2) : EncodedLength.Statement (.fdiv w) := rfl
theorem EncodedLength.fsqrt (w : Alu1) : EncodedLength.Statement (.fsqrt w) := rfl
theorem EncodedLength.rcpa (w : Alu1) : EncodedLength.Statement (.rcpa w) := rfl
theorem EncodedLength.rsqa (w : Alu1) : EncodedLength.Statement (.rsqa w) := rfl
theorem EncodedLength.fexp2 (w : Alu1) : EncodedLength.Statement (.fexp2 w) := rfl
theorem EncodedLength.flog2 (w : Alu1) : EncodedLength.Statement (.flog2 w) := rfl
theorem EncodedLength.fsinpi (w : Alu1) : EncodedLength.Statement (.fsinpi w) := rfl
theorem EncodedLength.fcospi (w : Alu1) : EncodedLength.Statement (.fcospi w) := rfl
theorem EncodedLength.fclass (w : Alu1) : EncodedLength.Statement (.fclass w) := rfl
theorem EncodedLength.frnd (w : Alu1) : EncodedLength.Statement (.frnd w) := rfl
theorem EncodedLength.fscale (w : Alu2) : EncodedLength.Statement (.fscale w) := rfl
theorem EncodedLength.frcp (w : Alu1) : EncodedLength.Statement (.frcp w) := rfl
theorem EncodedLength.cvt (w : CvtW) : EncodedLength.Statement (.cvt w) := rfl
theorem EncodedLength.pack (w : PackW) : EncodedLength.Statement (.pack w) := rfl
theorem EncodedLength.unpk (w : PackW) : EncodedLength.Statement (.unpk w) := rfl
theorem EncodedLength.cmp (w : CmpW) : EncodedLength.Statement (.cmp w) := rfl
theorem EncodedLength.fcmp (w : CmpW) : EncodedLength.Statement (.fcmp w) := rfl
theorem EncodedLength.sel (w : SelW) : EncodedLength.Statement (.sel w) := rfl
theorem EncodedLength.aop (w : AopW) : EncodedLength.Statement (.aop w) := rfl
theorem EncodedLength.acnt (w : AkW) : EncodedLength.Statement (.acnt w) := rfl
theorem EncodedLength.afirst (w : AkW) : EncodedLength.Statement (.afirst w) := rfl
theorem EncodedLength.amovk (w : AmovkW) : EncodedLength.Statement (.amovk w) := rfl
theorem EncodedLength.shfl (w : ShflW) : EncodedLength.Statement (.shfl w) := rfl
theorem EncodedLength.bcast (w : BcastW) : EncodedLength.Statement (.bcast w) := rfl
theorem EncodedLength.scan (w : ScanW) : EncodedLength.Statement (.scan w) := rfl
theorem EncodedLength.reduce (w : ScanW) : EncodedLength.Statement (.reduce w) := rfl
theorem EncodedLength.shflx (w : ShflxW) : EncodedLength.Statement (.shflx w) := rfl
theorem EncodedLength.pdep (w : PdepW) : EncodedLength.Statement (.pdep w) := rfl
theorem EncodedLength.pext (w : PextW) : EncodedLength.Statement (.pext w) := rfl
theorem EncodedLength.poolop (w : PoolopW) : EncodedLength.Statement (.poolop w) := rfl
theorem EncodedLength.pcnt (w : PkW) : EncodedLength.Statement (.pcnt w) := rfl
theorem EncodedLength.pfirst (w : PkW) : EncodedLength.Statement (.pfirst w) := rfl
theorem EncodedLength.pclr (w : PdW) : EncodedLength.Statement (.pclr w) := rfl
theorem EncodedLength.pfill (w : PdW) : EncodedLength.Statement (.pfill w) := rfl
theorem EncodedLength.pst (w : PmemW) : EncodedLength.Statement (.pst w) := rfl
theorem EncodedLength.pld (w : PmemW) : EncodedLength.Statement (.pld w) := rfl
theorem EncodedLength.apply (w : ApplyW) : EncodedLength.Statement (.apply w) := rfl
theorem EncodedLength.applyw (w : ApplywW) : EncodedLength.Statement (.applyw w) := rfl
theorem EncodedLength.yieldh (w : Ctl) : EncodedLength.Statement (.yieldh w) := rfl
theorem EncodedLength.release (w : ReleaseW) : EncodedLength.Statement (.release w) := rfl
theorem EncodedLength.bra (w : BraW) : EncodedLength.Statement (.bra w) := rfl
theorem EncodedLength.bany (w : BapW) : EncodedLength.Statement (.bany w) := rfl
theorem EncodedLength.ball (w : BapW) : EncodedLength.Statement (.ball w) := rfl
theorem EncodedLength.bnone (w : BapW) : EncodedLength.Statement (.bnone w) := rfl
theorem EncodedLength.bk (w : BkW) : EncodedLength.Statement (.bk w) := rfl
theorem EncodedLength.call (w : CallW) : EncodedLength.Statement (.call w) := rfl
theorem EncodedLength.calli (w : CalliW) : EncodedLength.Statement (.calli w) := rfl
theorem EncodedLength.ret (w : RetW) : EncodedLength.Statement (.ret w) := rfl
theorem EncodedLength.exit (w : Ctl) : EncodedLength.Statement (.exit w) := rfl
theorem EncodedLength.loop (w : CallW) : EncodedLength.Statement (.loop w) := rfl
theorem EncodedLength.take (w : TakeW) : EncodedLength.Statement (.take w) := rfl
theorem EncodedLength.give (w : GiveW) : EncodedLength.Statement (.give w) := rfl
theorem EncodedLength.nop (w : Ctl) : EncodedLength.Statement (.nop w) := rfl
theorem EncodedLength.stall (w : StallW) : EncodedLength.Statement (.stall w) := rfl
theorem EncodedLength.yield (w : StallW) : EncodedLength.Statement (.yield w) := rfl
theorem EncodedLength.ld (w : MemW) : EncodedLength.Statement (.ld w) := rfl
theorem EncodedLength.st (w : MemW) : EncodedLength.Statement (.st w) := rfl
theorem EncodedLength.ldx (w : MemW) : EncodedLength.Statement (.ldx w) := rfl
theorem EncodedLength.stx (w : MemW) : EncodedLength.Statement (.stx w) := rfl
theorem EncodedLength.lds (w : MemW) : EncodedLength.Statement (.lds w) := rfl
theorem EncodedLength.sts (w : MemW) : EncodedLength.Statement (.sts w) := rfl
theorem EncodedLength.ldsx (w : MemW) : EncodedLength.Statement (.ldsx w) := rfl
theorem EncodedLength.stsx (w : MemW) : EncodedLength.Statement (.stsx w) := rfl
theorem EncodedLength.ldv (w : MemW) : EncodedLength.Statement (.ldv w) := rfl
theorem EncodedLength.stv (w : MemW) : EncodedLength.Statement (.stv w) := rfl
theorem EncodedLength.ldk (w : UmemW) : EncodedLength.Statement (.ldk w) := rfl
theorem EncodedLength.stk (w : UmemW) : EncodedLength.Statement (.stk w) := rfl
theorem EncodedLength.lda (w : MemW) : EncodedLength.Statement (.lda w) := rfl
theorem EncodedLength.stl (w : MemW) : EncodedLength.Statement (.stl w) := rfl
theorem EncodedLength.waita (w : WaitaW) : EncodedLength.Statement (.waita w) := rfl
theorem EncodedLength.pref (w : PrefW) : EncodedLength.Statement (.pref w) := rfl
theorem EncodedLength.wait (w : WaitW) : EncodedLength.Statement (.wait w) := rfl
theorem EncodedLength.fence (w : FenceW) : EncodedLength.Statement (.fence w) := rfl
theorem EncodedLength.cwb (w : CacheW) : EncodedLength.Statement (.cwb w) := rfl
theorem EncodedLength.cinv (w : CacheW) : EncodedLength.Statement (.cinv w) := rfl
theorem EncodedLength.atom (w : AtomW) : EncodedLength.Statement (.atom w) := rfl
theorem EncodedLength.atomn (w : AtomW) : EncodedLength.Statement (.atomn w) := rfl
theorem EncodedLength.cas (w : CasW) : EncodedLength.Statement (.cas w) := rfl
theorem EncodedLength.atoms (w : AtomW) : EncodedLength.Statement (.atoms w) := rfl
theorem EncodedLength.cass (w : CasW) : EncodedLength.Statement (.cass w) := rfl
theorem EncodedLength.atomv (w : AtomW) : EncodedLength.Statement (.atomv w) := rfl
theorem EncodedLength.casv (w : CasW) : EncodedLength.Statement (.casv w) := rfl
theorem EncodedLength.bar (w : BarW) : EncodedLength.Statement (.bar w) := rfl
theorem EncodedLength.gbar (w : GbarW) : EncodedLength.Statement (.gbar w) := rfl
theorem EncodedLength.evset (w : EvsetW) : EncodedLength.Statement (.evset w) := rfl
theorem EncodedLength.evclr (w : EvclrW) : EncodedLength.Statement (.evclr w) := rfl
theorem EncodedLength.evwait (w : EvwaitW) : EncodedLength.Statement (.evwait w) := rfl
theorem EncodedLength.evtest (w : EvtestW) : EncodedLength.Statement (.evtest w) := rfl
theorem EncodedLength.rput (w : RingW) : EncodedLength.Statement (.rput w) := rfl
theorem EncodedLength.rget (w : RingW) : EncodedLength.Statement (.rget w) := rfl
theorem EncodedLength.rcur (w : RingW) : EncodedLength.Statement (.rcur w) := rfl
theorem EncodedLength.wlsort (w : KaW) : EncodedLength.Statement (.wlsort w) := rfl
theorem EncodedLength.wlpush (w : WlpushW) : EncodedLength.Statement (.wlpush w) := rfl
theorem EncodedLength.wlpop (w : WlpopW) : EncodedLength.Statement (.wlpop w) := rfl
theorem EncodedLength.wlins (w : WlpushW) : EncodedLength.Statement (.wlins w) := rfl
theorem EncodedLength.wlcnt (w : KdaW) : EncodedLength.Statement (.wlcnt w) := rfl
theorem EncodedLength.setshape (w : SetshapeW) : EncodedLength.Statement (.setshape w) := rfl
theorem EncodedLength.getshape (w : GetshapeW) : EncodedLength.Statement (.getshape w) := rfl
theorem EncodedLength.wload (w : WloadW) : EncodedLength.Statement (.wload w) := rfl
theorem EncodedLength.wdrop (w : Ctl) : EncodedLength.Statement (.wdrop w) := rfl
theorem EncodedLength.opfence (w : Ctl) : EncodedLength.Statement (.opfence w) := rfl
theorem EncodedLength.mma (w : MmaW) : EncodedLength.Statement (.mma w) := rfl
theorem EncodedLength.mmas (w : MmaW) : EncodedLength.Statement (.mmas w) := rfl
theorem EncodedLength.tacq (w : TileW) : EncodedLength.Statement (.tacq w) := rfl
theorem EncodedLength.trel (w : TileW) : EncodedLength.Statement (.trel w) := rfl
theorem EncodedLength.tzero (w : TileW) : EncodedLength.Statement (.tzero w) := rfl
theorem EncodedLength.tld (w : TmemW) : EncodedLength.Statement (.tld w) := rfl
theorem EncodedLength.tst (w : TmemW) : EncodedLength.Statement (.tst w) := rfl
theorem EncodedLength.sighash (w : SighashW) : EncodedLength.Statement (.sighash w) := rfl
theorem EncodedLength.sigrep (w : SigrepW) : EncodedLength.Statement (.sigrep w) := rfl
theorem EncodedLength.sigscat (w : SigscatW) : EncodedLength.Statement (.sigscat w) := rfl
theorem EncodedLength.sigbwd (w : SigbwdW) : EncodedLength.Statement (.sigbwd w) := rfl
theorem EncodedLength.qhist (w : QhistW) : EncodedLength.Statement (.qhist w) := rfl
theorem EncodedLength.qscale (w : QscaleW) : EncodedLength.Statement (.qscale w) := rfl
theorem EncodedLength.qcvt (w : QcvtW) : EncodedLength.Statement (.qcvt w) := rfl
theorem EncodedLength.cpy (w : CopyW) : EncodedLength.Statement (.cpy w) := rfl
theorem EncodedLength.cpyt (w : CopyW) : EncodedLength.Statement (.cpyt w) := rfl
theorem EncodedLength.cpyg (w : CopyW) : EncodedLength.Statement (.cpyg w) := rfl
theorem EncodedLength.cpys (w : CopyW) : EncodedLength.Statement (.cpys w) := rfl
theorem EncodedLength.cpyr (w : CopyW) : EncodedLength.Statement (.cpyr w) := rfl
theorem EncodedLength.cpyq (w : KdaW) : EncodedLength.Statement (.cpyq w) := rfl
theorem EncodedLength.xld (w : XlistW) : EncodedLength.Statement (.xld w) := rfl
theorem EncodedLength.xst (w : XlistW) : EncodedLength.Statement (.xst w) := rfl
theorem EncodedLength.xadd (w : XlistW) : EncodedLength.Statement (.xadd w) := rfl
theorem EncodedLength.xcur (w : XpairW) : EncodedLength.Statement (.xcur w) := rfl
theorem EncodedLength.xnext (w : XpairW) : EncodedLength.Statement (.xnext w) := rfl
theorem EncodedLength.xcnt (w : KdaW) : EncodedLength.Statement (.xcnt w) := rfl
theorem EncodedLength.xdense (w : XdenseW) : EncodedLength.Statement (.xdense w) := rfl
theorem EncodedLength.xrange (w : XpairW) : EncodedLength.Statement (.xrange w) := rfl
theorem EncodedLength.merge (w : MergeW) : EncodedLength.Statement (.merge w) := rfl
theorem EncodedLength.trap (w : TrapW) : EncodedLength.Statement (.trap w) := rfl
theorem EncodedLength.bkpt (w : TrapW) : EncodedLength.Statement (.bkpt w) := rfl
theorem EncodedLength.rft (w : RftW) : EncodedLength.Statement (.rft w) := rfl
theorem EncodedLength.movp (w : MovpW) : EncodedLength.Statement (.movp w) := rfl
theorem EncodedLength.icinv (w : InvW) : EncodedLength.Statement (.icinv w) := rfl
theorem EncodedLength.tlbinv (w : InvW) : EncodedLength.Statement (.tlbinv w) := rfl
theorem EncodedLength.stamp (w : KaW) : EncodedLength.Statement (.stamp w) := rfl
theorem EncodedLength.sleep (w : KaW) : EncodedLength.Statement (.sleep w) := rfl
theorem EncodedLength.clauseFetch (x : ExecId) (fresh : Bool) (ecc : Ecc) : EncodedLength.Statement (.clauseFetch x fresh ecc) := rfl
theorem EncodedLength.issueSlotAward (core : Nat) : EncodedLength.Statement (.issueSlotAward core) := rfl
theorem EncodedLength.resultLanding (x : ExecId) : EncodedLength.Statement (.resultLanding x) := rfl
theorem EncodedLength.clauseCommit (x : ExecId) : EncodedLength.Statement (.clauseCommit x) := rfl
theorem EncodedLength.runAheadEnd (x : ExecId) : EncodedLength.Statement (.runAheadEnd x) := rfl
theorem EncodedLength.workgroupSave (core : Nat) : EncodedLength.Statement (.workgroupSave core) := rfl
theorem EncodedLength.handlerEntry (x : ExecId) : EncodedLength.Statement (.handlerEntry x) := rfl
theorem EncodedLength.loadComplete (x : ExecId) (op : Nat) (part : LanePart) (regs : BitVec 4) (ecc : Ecc) : EncodedLength.Statement (.loadComplete x op part regs ecc) := rfl
theorem EncodedLength.storePerformed (x : ExecId) (op : Nat) (part : LanePart) : EncodedLength.Statement (.storePerformed x op part) := rfl
theorem EncodedLength.waitaTimeout (x : ExecId) : EncodedLength.Statement (.waitaTimeout x) := rfl
theorem EncodedLength.sleepTimeout (x : ExecId) : EncodedLength.Statement (.sleepTimeout x) := rfl
theorem EncodedLength.atomicPerformed (x : ExecId) (op : Nat) (order : List Nat) (ecc : Ecc) : EncodedLength.Statement (.atomicPerformed x op order ecc) := rfl
theorem EncodedLength.l1Writeback (core : Nat) (ctx : Nat) (line : Nat) (drop : Bool) : EncodedLength.Statement (.l1Writeback core ctx line drop) := rfl
theorem EncodedLength.markEviction (sector : Nat) : EncodedLength.Statement (.markEviction sector) := rfl
theorem EncodedLength.copyComplete (x : ExecId) (op : Nat) (ecc : Ecc) : EncodedLength.Statement (.copyComplete x op ecc) := rfl
theorem EncodedLength.matrixCommandPerformed (x : ExecId) (op : Nat) (badRow : Option Nat) (ecc : Ecc) : EncodedLength.Statement (.matrixCommandPerformed x op badRow ecc) := rfl
theorem EncodedLength.tacqHold (x : ExecId) : EncodedLength.Statement (.tacqHold x) := rfl
theorem EncodedLength.indexStep (x : ExecId) (op : Nat) (ecc : Ecc) : EncodedLength.Statement (.indexStep x op ecc) := rfl
theorem EncodedLength.mergePerformed (x : ExecId) (op : Nat) (ecc : Ecc) : EncodedLength.Statement (.mergePerformed x op ecc) := rfl
theorem EncodedLength.ringPublish (x : ExecId) (op : Nat) : EncodedLength.Statement (.ringPublish x op) := rfl
theorem EncodedLength.ringReceive (x : ExecId) (op : Nat) : EncodedLength.Statement (.ringReceive x op) := rfl
theorem EncodedLength.workListPerform (core : Nat) : EncodedLength.Statement (.workListPerform core) := rfl
theorem EncodedLength.workListSpill (core : Nat) (n : Nat) (refill : Bool) : EncodedLength.Statement (.workListSpill core n refill) := rfl
theorem EncodedLength.applyRoundStart (core : Nat) : EncodedLength.Statement (.applyRoundStart core) := rfl
theorem EncodedLength.applyRoundEnd (core : Nat) : EncodedLength.Statement (.applyRoundEnd core) := rfl
theorem EncodedLength.applywBlockEnd (x : ExecId) : EncodedLength.Statement (.applywBlockEnd x) := rfl
theorem EncodedLength.coreFreed (core : Nat) : EncodedLength.Statement (.coreFreed core) := rfl
theorem EncodedLength.doorbell (h : MsgHdr) (offset tail : Nat) : EncodedLength.Statement (.doorbell h offset tail) := rfl
theorem EncodedLength.recordTake (q l : Nat) : EncodedLength.Statement (.recordTake q l) := rfl
theorem EncodedLength.launchRelease (cluster : Nat) : EncodedLength.Statement (.launchRelease cluster) := rfl
theorem EncodedLength.gangPlace (cluster : Nat) : EncodedLength.Statement (.gangPlace cluster) := rfl
theorem EncodedLength.launchRetire (gen : Nat) : EncodedLength.Statement (.launchRetire gen) := rfl
theorem EncodedLength.targetReservation (gen : Nat) : EncodedLength.Statement (.targetReservation gen) := rfl
theorem EncodedLength.reservationTimerExpiry (gen : Nat) : EncodedLength.Statement (.reservationTimerExpiry gen) := rfl
theorem EncodedLength.watchdogExpiry (core : Nat) : EncodedLength.Statement (.watchdogExpiry core) := rfl
theorem EncodedLength.governorTick (cluster : Nat) : EncodedLength.Statement (.governorTick cluster) := rfl
theorem EncodedLength.pageAnswer (h : MsgHdr) (ctx reqid gen status : Nat) : EncodedLength.Statement (.pageAnswer h ctx reqid gen status) := rfl
theorem EncodedLength.workgroupRestore (reqid : Nat) (core : Nat) : EncodedLength.Statement (.workgroupRestore reqid core) := rfl
theorem EncodedLength.shootdown (h : MsgHdr) (ctx number addr len : Nat) : EncodedLength.Statement (.shootdown h ctx number addr len) := rfl
theorem EncodedLength.shootdownAck (number : Nat) : EncodedLength.Statement (.shootdownAck number) := rfl
theorem EncodedLength.startStep (fail : Option Nat) (unit : Nat) (downPorts : List Nat) : EncodedLength.Statement (.startStep fail unit downPorts) := rfl
theorem EncodedLength.syncPacket (field : Nat) : EncodedLength.Statement (.syncPacket field) := rfl
theorem EncodedLength.pcSample (core : Nat) : EncodedLength.Statement (.pcSample core) := rfl
theorem EncodedLength.hostMemoryWrite (h : MsgHdr) (addr : Nat) (data : List Byte) : EncodedLength.Statement (.hostMemoryWrite h addr data) := rfl
theorem EncodedLength.hostMemoryRead (h : MsgHdr) (addr len : Nat) : EncodedLength.Statement (.hostMemoryRead h addr len) := rfl
theorem EncodedLength.peerAtomic (h : MsgHdr) (addr op ty : Nat) (x y : Word) : EncodedLength.Statement (.peerAtomic h addr op ty x y) := rfl
theorem EncodedLength.remoteResponse (h : MsgHdr) (status : Nat) (data : List Byte) : EncodedLength.Statement (.remoteResponse h status data) := rfl
theorem EncodedLength.epochNotice (h : MsgHdr) (ep reason : Nat) : EncodedLength.Statement (.epochNotice h ep reason) := rfl
theorem EncodedLength.flitReplay (r : Replay) : EncodedLength.Statement (.flitReplay r) := rfl
theorem EncodedLength.linkDown (port : Nat) : EncodedLength.Statement (.linkDown port) := rfl
theorem EncodedLength.portRetry (port : Nat) (ok : Bool) : EncodedLength.Statement (.portRetry port ok) := rfl
theorem EncodedLength.interrupt (vector : Nat) : EncodedLength.Statement (.interrupt vector) := rfl
theorem EncodedLength.setQueueTable (h : MsgHdr) (addr : Nat) : EncodedLength.Statement (.setQueueTable h addr) := rfl
theorem EncodedLength.setContextTable (h : MsgHdr) (addr : Nat) : EncodedLength.Statement (.setContextTable h addr) := rfl
theorem EncodedLength.setGovernorTable (h : MsgHdr) (addr : Nat) : EncodedLength.Statement (.setGovernorTable h addr) := rfl
theorem EncodedLength.setTraceDescriptor (h : MsgHdr) (addr ctx : Nat) : EncodedLength.Statement (.setTraceDescriptor h addr ctx) := rfl
theorem EncodedLength.setHostEndpoint (h : MsgHdr) (ep : Nat) : EncodedLength.Statement (.setHostEndpoint h ep) := rfl
theorem EncodedLength.permitPeer (h : MsgHdr) (ep : Nat) : EncodedLength.Statement (.permitPeer h ep) := rfl
theorem EncodedLength.revokePeer (h : MsgHdr) (ep : Nat) : EncodedLength.Statement (.revokePeer h ep) := rfl
theorem EncodedLength.startLevel (h : MsgHdr) (q l : Nat) : EncodedLength.Statement (.startLevel h q l) := rfl
theorem EncodedLength.stopLevel (h : MsgHdr) (q l : Nat) : EncodedLength.Statement (.stopLevel h q l) := rfl
theorem EncodedLength.killContext (h : MsgHdr) (ctx : Nat) : EncodedLength.Statement (.killContext h ctx) := rfl
theorem EncodedLength.bumpEpoch (h : MsgHdr) (ep : Nat) : EncodedLength.Statement (.bumpEpoch h ep) := rfl
theorem EncodedLength.readErrorLog (h : MsgHdr) (index : Nat) : EncodedLength.Statement (.readErrorLog h index) := rfl
theorem EncodedLength.readCounts (h : MsgHdr) : EncodedLength.Statement (.readCounts h) := rfl
theorem EncodedLength.unknownManagementCommand (h : MsgHdr) (code : Nat) : EncodedLength.Statement (.unknownManagementCommand h code) := rfl
theorem EncodedLength.coldStart : EncodedLength.Statement (.coldStart) := rfl
theorem EncodedLength.warmStart : EncodedLength.Statement (.warmStart) := rfl
theorem EncodedLength.warmStartPreserve : EncodedLength.Statement (.warmStartPreserve) := rfl
theorem EncodedLength.powerDown : EncodedLength.Statement (.powerDown) := rfl
theorem EncodedLength.throttle (n : Nat) : EncodedLength.Statement (.throttle n) := rfl
theorem EncodedLength.i3cRegisterWrite (reg : Nat) (value : Byte) : EncodedLength.Statement (.i3cRegisterWrite reg value) := rfl
theorem EncodedLength.limiterCompare (field : Nat) (current : Nat) : EncodedLength.Statement (.limiterCompare field current) := rfl
theorem EncodedLength.limiterRise (field : Nat) : EncodedLength.Statement (.limiterRise field) := rfl
theorem EncodedLength.coolantStep (tenths : Nat) : EncodedLength.Statement (.coolantStep tenths) := rfl
theorem EncodedLength.patrolRead (unit : Nat) (ecc : Ecc) : EncodedLength.Statement (.patrolRead unit ecc) := rfl
theorem EncodedLength.ocxInterrupt (t : StopTarget) : EncodedLength.Statement (.ocxInterrupt t) := rfl
theorem EncodedLength.ocxResume (x : ExecId) : EncodedLength.Statement (.ocxResume x) := rfl
theorem EncodedLength.singleStep (x : ExecId) : EncodedLength.Statement (.singleStep x) := rfl
theorem EncodedLength.engineFreeze (core : Nat) (e : Engine) : EncodedLength.Statement (.engineFreeze core e) := rfl
theorem EncodedLength.engineThaw (core : Nat) (e : Engine) : EncodedLength.Statement (.engineThaw core e) := rfl
theorem EncodedLength.routeLost (ep : Nat) : EncodedLength.Statement (.routeLost ep) := rfl
theorem EncodedLength.messageDropped (src : Nat) : EncodedLength.Statement (.messageDropped src) := rfl
theorem EncodedLength.breakpointArm (core : Nat) (index : Nat) (addr : Word) (filter : StopFilter) (arm : Bool) : EncodedLength.Statement (.breakpointArm core index addr filter arm) := rfl

end Sys2Proof.Laws
end

