-- ==== Sys2Proof/Laws/Values.lean ====
section
/-! SUPPORT. Elements of packed values, and the exact results that integer words narrow (R54, R60, R99). -/

namespace Sys2Proof.Machine

theorem elemJoin_lt (bits : Nat) (xs : List Nat) : elemJoin bits xs < 2 ^ (bits * xs.length) := by
  induction xs with
  | nil => simp [elemJoin]
  | cons x xs ih =>
    simp only [elemJoin, List.length_cons, Nat.mul_add, Nat.mul_one, Nat.pow_add]
    have h1 := Nat.mod_lt x (Nat.two_pow_pos bits)
    have h2 := Nat.mul_le_mul_left (2 ^ bits) (Nat.succ_le_of_lt ih)
    rw [Nat.mul_comm (2 ^ (bits * xs.length))]
    simp only [Nat.succ_eq_add_one, Nat.mul_add, Nat.mul_one] at h2
    omega

theorem elemJoin_at (bits : Nat) (xs : List Nat) (j : Nat) (h : j < xs.length) :
    elemJoin bits xs / 2 ^ (bits * j) % 2 ^ bits = xs.getD j 0 % 2 ^ bits := by
  induction xs generalizing j with
  | nil => simp at h
  | cons x xs ih =>
    have h1 := Nat.mod_lt x (Nat.two_pow_pos bits)
    cases j with
    | zero => simp [elemJoin, Nat.add_mul_mod_self_left]
    | succ j =>
      have hd : elemJoin bits (x :: xs) / 2 ^ bits = elemJoin bits xs := by
        rw [elemJoin, Nat.add_mul_div_left _ _ (Nat.two_pow_pos bits), Nat.div_eq_of_lt h1, Nat.zero_add]
      rw [Nat.mul_add, Nat.mul_one, Nat.add_comm, Nat.pow_add, ← Nat.div_div_eq_div_mul, hd]
      simpa using ih j (by simpa using h)

/-- Element j of a joined value of at most 64 bits. -/
theorem elemAt_join (bits : Nat) (xs : List Nat) (j : Nat) (h : j < xs.length) (hb : bits * xs.length ≤ 64) :
    elemAt bits (BitVec.ofNat 64 (elemJoin bits xs)) j = xs.getD j 0 % 2 ^ bits := by
  have h1 : elemJoin bits xs < 2 ^ 64 := Nat.lt_of_lt_of_le (elemJoin_lt bits xs) (Nat.pow_le_pow_right (by omega) hb)
  rw [elemAt, BitVec.toNat_ofNat, Nat.mod_eq_of_lt h1, elemJoin_at bits xs j h]

/-- The representative of z from lo on. -/
theorem emod_shift (z lo : Int) (d : Nat) (r : Int) (h0 : 0 ≤ r) (h1 : r < d) (k : Int) (hz : z = lo + r + d * k) :
    lo + (z - lo) % d = lo + r := by
  have h : z - lo = r + d * k := by omega
  rw [h, Int.add_mul_emod_self_left, Int.emod_eq_of_lt h0 h1]

/-- Reading a narrowed result: the representative of z in the type's range, or z clamped to it. -/
theorem toInt_fit (sat signed : Bool) (n : Nat) (z : Int) (h : 0 < n) :
    toInt signed n (fitI sat signed n z % 2 ^ n) =
      (let lo : Int := if signed then -(2 ^ (n - 1) : Nat) else 0
       let hi : Int := lo + (2 ^ n : Nat) - 1
       if sat then max lo (min z hi) else lo + (z - lo) % (2 ^ n : Nat)) := by
  obtain ⟨m, rfl⟩ : ∃ m, n = m + 1 := ⟨n - 1, by omega⟩
  have hp : (2 ^ (m + 1) : Nat) = 2 * 2 ^ m := by rw [Nat.pow_succ]; omega
  have hpos : 0 < 2 ^ m := Nat.two_pow_pos m
  have key (y : Int) : ∃ u : Nat, wrap (m + 1) y % 2 ^ (m + 1) = u ∧ u < 2 * 2 ^ m ∧ ∃ k : Int, y = u + ((2 * 2 ^ m : Nat) : Int) * k := by
    have h1 := Int.emod_lt_of_pos y (show (0 : Int) < ((2 ^ (m + 1) : Nat) : Int) by omega)
    have h0 := Int.emod_nonneg y (show ((2 ^ (m + 1) : Nat) : Int) ≠ 0 by omega)
    refine ⟨(y % ((2 ^ (m + 1) : Nat) : Int)).toNat, ?_, by omega, y / ((2 ^ (m + 1) : Nat) : Int), ?_⟩
    · unfold wrap
      rw [Nat.mod_eq_of_lt]
      omega
    · have := Int.emod_add_mul_ediv y ((2 ^ (m + 1) : Nat) : Int)
      rw [← hp]
      omega
  unfold fitI
  obtain ⟨u, hu, hlt, k, hk⟩ := key (if sat then clampI signed (m + 1) z else z)
  rw [hu]
  unfold toInt sext
  simp only [Nat.add_sub_cancel, hp]
  have hmod : u % (2 * 2 ^ m) = u := Nat.mod_eq_of_lt hlt
  rw [hmod]
  cases sat
  · simp only [Bool.false_eq_true, if_false] at hk ⊢
    cases signed
    · simp only [Bool.false_eq_true, if_false]
      rw [emod_shift z 0 (2 * 2 ^ m) u (by omega) (by omega) k (by omega)]
      omega
    · simp only [if_true]
      by_cases hc : u < 2 ^ m
      · rw [if_pos hc, emod_shift z _ (2 * 2 ^ m) (u + (2 ^ m : Nat)) (by omega) (by omega) k (by omega)]
        omega
      · rw [if_neg hc, emod_shift z _ (2 * 2 ^ m) (u - (2 ^ m : Nat)) (by omega) (by omega) (k + 1) (by rw [Int.mul_add]; omega)]
        omega
  · have hr : ∀ a : Int, 0 ≤ a → a < (2 * 2 ^ m : Nat) → a = u + ((2 * 2 ^ m : Nat) : Int) * k → a = u := by
      intro a ha hb hak
      have := congrArg (· % ((2 * 2 ^ m : Nat) : Int)) hak
      simp only [Int.add_mul_emod_self_left] at this
      rwa [Int.emod_eq_of_lt ha hb, Int.emod_eq_of_lt (by omega) (by omega)] at this
    simp only [if_true] at hk ⊢
    unfold clampI at hk
    simp only [Nat.add_sub_cancel, hp] at hk
    cases signed
    · simp only [Bool.false_eq_true, if_false] at hk ⊢
      have := hr _ (by omega) (by omega) hk
      omega
    · simp only [if_true] at hk ⊢
      by_cases hneg : 0 ≤ max (-((2 ^ m : Nat) : Int)) (min z ((2 ^ m - 1 : Nat) : Int))
      · have := hr _ hneg (by omega) hk
        rw [if_pos (by omega)]
        omega
      · have h2 : max (-((2 ^ m : Nat) : Int)) (min z ((2 ^ m - 1 : Nat) : Int)) + (2 * 2 ^ m : Nat) = u := by
          have hk' : max (-((2 ^ m : Nat) : Int)) (min z ((2 ^ m - 1 : Nat) : Int)) + (2 * 2 ^ m : Nat) =
              u + ((2 * 2 ^ m : Nat) : Int) * (k + 1) := by rw [Int.mul_add]; omega
          have := congrArg (· % ((2 * 2 ^ m : Nat) : Int)) hk'
          simp only [Int.add_mul_emod_self_left] at this
          rwa [Int.emod_eq_of_lt (by omega) (by omega), Int.emod_eq_of_lt (by omega) (by omega)] at this
        rw [if_neg (by omega)]
        omega

theorem elemBits_pos (t : Ty) : 0 < elemBits t := by cases t <;> decide

theorem elemBits_count (t : Ty) (h : t ≠ .x80) : elemBits t * elemCount t ≤ 64 := by cases t <;> first | decide | exact absurd rfl h

/-- Element j of a value built element by element. -/
theorem elemAt_build (t : Ty) (h : t ≠ .x80) (f : Nat → Nat) (j : Nat) (hj : j < elemCount t) :
    elemAt (elemBits t) (BitVec.ofNat 64 (elemJoin (elemBits t) ((upto (elemCount t)).map f))) j = f j % 2 ^ elemBits t := by
  rw [elemAt_join]
  · simp [upto, hj]
  · simpa [upto] using hj
  · simpa [upto] using elemBits_count t h

/-- Integer operations form each element's exact result and narrow it. -/
theorem int2_result (t : Ty) (h : t ≠ .x80) (sat : Bool) (f : Int → Int → Int) (a b : Word) :
    IntResult t sat (int2 t sat f a b) fun j => f (elemInt t a j) (elemInt t b j) := by
  intro j hj
  unfold elemInt int2 elem2
  rw [elemAt_build t h _ j hj, toInt_fit _ _ _ _ (elemBits_pos t)]
  rfl

theorem int1_result (t : Ty) (h : t ≠ .x80) (sat : Bool) (f : Int → Int) (a : Word) :
    IntResult t sat (int1 t sat f a) fun j => f (elemInt t a j) := by
  intro j hj
  unfold elemInt int1 elem1
  rw [elemAt_build t h _ j hj, toInt_fit _ _ _ _ (elemBits_pos t)]
  rfl

theorem int3_result (t : Ty) (h : t ≠ .x80) (sat : Bool) (f : Int → Int → Int → Int) (a b c : Word) :
    IntResult t sat (int3 t sat f a b c) fun j => f (elemInt t a j) (elemInt t b j) (elemInt t c j) := by
  intro j hj
  unfold elemInt int3 elem3
  rw [elemAt_build t h _ j hj, toInt_fit _ _ _ _ (elemBits_pos t)]
  rfl

end Sys2Proof.Machine
end

