-- ==== Sys2Proof/Tests/Slice0.lean ====
section
/-! SUPPORT. Tests: ill-formed terms, words written out from the spec's encodings, single steps on a small machine, and witnesses
for the hypotheses of the statements. -/

namespace Sys2Proof.Tests

open Sys2Proof Sys2Proof.Machine

/-- Control fields of an unguarded word with gap 0. -/
def c0 : Ctl := { g := 0, n := false, gap := 0 }
/-- Operands d 5, a 1, of a type. -/
def one (ty : Ty) : Alu1 := { ctl := c0, ty, u := false, rnd := .rne, sat := false, d := 5, a := 1 }
/-- Operands d 5, a 1, b 2, of a type. -/
def two (ty : Ty) : Alu2 := { ctl := c0, ty, u := false, rnd := .rne, sat := false, d := 5, a := 1, b := 2 }
/-- Operands d 5, a 1, b 2, c 3, of a type. -/
def three (ty : Ty) : Alu3 := { ctl := c0, ty, u := false, rnd := .rne, sat := false, d := 5, a := 1, b := 2, c := 3 }
/-- Each word of the list decodes to the term beside it. -/
def decodesTo (l : List (Word × Instr)) : Bool := l.all fun p => match decode p.1 none with | .ok i => decide (i = p.2) | .error _ => false

/-- The well-formedness refuses every term of the list. -/
def refused (l : List Instr) : Bool := l.all fun i => !formOk i

-- ill-formed terms: one for each check of the well-formedness

/-- A type that the opcode does not take, an odd register of a 64-bit pair, a uniform register beyond k63, or a rounding or saturation
field where the opcode has none. -/
theorem test_illformed_alu : refused [
    .mov (one .i32), .mov (one .b64), .mov { one .b32 with u := true, d := 64 }, .mov { one .b32 with rnd := .rtz },
    .mov { one .b32 with sat := true }, .movi ⟨c0, .i32, 5, 1⟩, .movi ⟨c0, .b64, 65, 1⟩, .movl ⟨c0, .f32, false, 5, 0⟩,
    .movs ⟨c0, .b32, false, 5, 0x0F⟩, .movs ⟨c0, .b32, false, 5, 8⟩, .movs ⟨c0, .b64, false, 4, 0⟩, .bck ⟨c0, .b64, 5, 1⟩,
    .lanek ⟨c0, .b64, 5, 1⟩, .add (two .b32), .add { two .i32 with rnd := .rup }, .mul (two .i8x4), .mulh { two .i32 with sat := true },
    .mad (three .i8x4), .abs (one .n32), .and { two .b32 with sat := true }, .shl { two .b64 with d := 6, a := 3 },
    .popc (one .i32), .bfx (three .b32), .bfi (three .i32), .lea ⟨c0, .i32, false, 0, false, 5, 1, 2⟩, .addi ⟨c0, .b32, 5, 1, 0⟩,
    .andi ⟨c0, .n32, 5, 1, 0⟩, .shli ⟨c0, .b32, 5, 1, 32⟩] = true := by decide

theorem test_illformed_floats : refused [
    .fadd (two .i32), .fadd { two .f32 with sat := true }, .fadd { two .f16x2 with u := true }, .fmin { two .f32 with rnd := .rdn },
    .fma (three .e4m3), .fdiv (two .f16x2), .fsqrt (one .f64), .rcpa (one .f16), .rcpa { one .f32 with u := true }, .fexp2 (one .f64),
    .fclass { one .f32 with rnd := .rtz }, .fscale (two .b32), .cvt ⟨c0, .b32, .f32, false, .rne, false, 5, 1⟩,
    .cvt ⟨c0, .i32, .x80, false, .rne, false, 5, 1⟩, .cvt ⟨c0, .i32, .f32, false, .rne, true, 5, 1⟩,
    .cvt ⟨c0, .i32, .i64, false, .rtz, false, 5, 2⟩, .pack ⟨c0, .f16x2, .i32, .rne, false, 5, 1⟩,
    .unpk ⟨c0, .f16x2, .f32, .rtz, false, 5, 1⟩] = true := by decide

theorem test_illformed_lanes : refused [
    .cmp ⟨c0, .f32, false, .lt, 2, 3, 1, 2⟩, .cmp ⟨c0, .b32, false, .lt, 2, 3, 1, 2⟩, .cmp ⟨c0, .i32, false, .ord, 2, 3, 1, 2⟩,
    .fcmp ⟨c0, .e5m2, false, .lt, 2, 3, 1, 2⟩, .sel ⟨c0, .f32, 5, 1, 2, 3⟩, .shfl ⟨c0, .b32, .idx, 1, 5, 1, 2⟩,
    .shfl ⟨c0, .b32, .up, 1, 5, 1, 2⟩, .bcast ⟨c0, .i32, 5, 1, 9⟩, .scan ⟨c0, .b32, .add, false, .rne, false, 5, 1⟩,
    .scan ⟨c0, .f32, .min, false, .rtz, false, 5, 1⟩, .scan ⟨c0, .i32, .xor, false, .rne, false, 5, 1⟩,
    .reduce ⟨c0, .i32, .add, true, .rne, false, 5, 1⟩, .shflx ⟨c0, 5, 3, 1⟩, .apply ⟨c0, 1, 5, 17, 8, 0, false⟩, .release ⟨c0, true, 1⟩,
    .bk ⟨c0, .ord, 1, 0⟩, .calli ⟨c0, true, 61, 64⟩, .calli ⟨c0, false, 61, 21⟩] = true := by decide

theorem test_illformed_memory : refused [
    .ld ⟨c0, .x80, 8, 4, .lane, .thread, 0, false⟩, .ld ⟨c0, .b32, 8, 4, .reg 0xFF 0 false 0, .thread, 0, false⟩,
    .ld ⟨c0, .b32, 8, 4, .reg 3 3 false 0, .thread, 0, false⟩, .st ⟨c0, .f64, 9, 4, .lane, .thread, 0, false⟩,
    .ldx ⟨c0, .b64, 8, 4, .lane, .thread, 0, false⟩, .stx ⟨c0, .b32, 6, 4, .lane, .thread, 0, false⟩,
    .lds ⟨c0, .b32, 8, 4, .lane, .warp, 0, false⟩, .stv ⟨c0, .b32, 8, 4, .lane, .thread, 0, true⟩,
    .ldsx ⟨c0, .b32, 8, 4, .lane, .thread, 0, true⟩, .ldk ⟨c0, .f16x2, 7, 4, .gl, .thread, 0, false⟩,
    .ldk ⟨c0, .b32, 7, 4, .sp, .warp, 0, false⟩, .lda ⟨c0, .f32, 8, 4, .lane, .device, 0, false⟩, .waita ⟨c0, 8, 1, 4, .vt, .device, 0⟩,
    .pref ⟨c0, .x80, .l1, 4, .lane, 0, false⟩, .cwb ⟨c0, true, 4, 0⟩, .atom ⟨c0, .f32, 4, 2, .lane, .device, .and, 0, false⟩,
    .atom ⟨c0, .n32, 4, 2, .lane, .device, .add, 0, true⟩, .atoms ⟨c0, .n32, 4, 2, .lane, .device, .add, 0, false⟩,
    .cas ⟨c0, .b64, 6, 2, .lane, .device, 0⟩, .casv ⟨c0, .b32, 6, 2, .lane, .wg, 0⟩, .bar ⟨c0, 0, 3, .wg⟩, .bar ⟨c0, 42, 3, .wg⟩,
    .bar ⟨c0, 5, 3, .warp⟩, .gbar ⟨c0, 2, .wg⟩, .evset ⟨c0, 61, .device⟩, .evclr ⟨c0, 61⟩, .evwait ⟨c0, 8, false, false, .wg⟩,
    .evtest ⟨c0, 7, 8, false, false, .thread⟩, .rput ⟨c0, 4, 2, 3, .device, 1, false⟩, .rget ⟨c0, 4, 2, 3, .wg, 0, false⟩] = true := by
  decide

theorem test_illformed_engines : refused [
    .getshape ⟨c0, 2, 61⟩, .mma ⟨c0, 1, 2, 1, 8, 9, true, false, false⟩, .tld ⟨c0, 1, 2, 1, 10, 11, .sp, .thread, false, true, false, .n8⟩,
    .tld ⟨c0, 1, 2, 1, 10, 11, .sp, .thread, true, true, false, .f32⟩, .tst ⟨c0, 1, 2, 1, 10, 11, .gl, .wg, false, false, false, .f32⟩,
    .tst ⟨c0, 1, 2, 1, 10, 11, .sp, .device, false, false, false, .f32⟩, .sighash ⟨c0, 1, 2, 12, 13, 14, 2, 2, false⟩,
    .sighash ⟨c0, 1, 2, 12, 13, 14, 4, 5, false⟩, .sigrep ⟨c0, 1, 2, 62, 8, 9, .mean, true⟩,
    .sigscat ⟨c0, 1, 2, 1, 4, 5, false, true, .b32⟩, .sigbwd ⟨c0, 2, 4, 5, 6, true, false, .f64⟩,
    .qhist ⟨c0, 1, 2, 4, 5, false, false, true, .i32⟩, .qscale ⟨c0, 1, 2, 8, 9, 1, false⟩, .qcvt ⟨c0, 1, 2, 4, 5, 6, true, false, .e4m3⟩,
    .cpy ⟨c0, .b32, 20, 4, 5, 63, .gl, .sp, true, false, false⟩, .cpy ⟨c0, .b32, 20, 4, 5, 6, .vt, .sp, true, true, false⟩,
    .cpy ⟨c0, .b32, 20, 4, 5, 6, .gl, .sp, true, false, true⟩, .cpyt ⟨c0, .f32, 20, 4, 5, 6, .sp, .vt, false, false, true⟩,
    .cpyg ⟨c0, .b32, 20, 4, 5, 6, .sp, .sp, false, false, false⟩, .cpys ⟨c0, .b32, 20, 4, 5, 6, .sp, .sp, false, false, false⟩,
    .cpyr ⟨c0, .b32, 20, 4, 5, 6, .sp, .gl, false, false, false⟩, .xld ⟨c0, 20, 4, 63, 7⟩, .xcur ⟨c0, 20, 4, 63⟩,
    .merge ⟨c0, 20, 59, 4, 6, 5, true, .sp⟩, .movp ⟨c0, 7, 0x86⟩, .movp ⟨c0, 7, 0x0E⟩, .icinv ⟨c0, false, 4, 5, .warp⟩,
    .icinv ⟨c0, false, 4, 5, .system⟩, .tlbinv ⟨c0, true, 4, 0, .field⟩] = true := by decide

-- words

/-- Words of the moves group, written out from the layouts of R74 to R85 and the entries. -/
def movesWords : List (Word × Instr) := [
  (0x0100_0140_4000_0000, .mov (one .b32)),
  (0x0200_4180_3FFF_FFE8, .movi ⟨c0, .b64, 6, -3⟩),
  (0x0400_4182_0000_0000, .movs ⟨c0, .b64, false, 6, 8⟩),
  (0x0500_0142_4000_0000, .bck ⟨c0, .b32, 5, 9⟩),
  (0x0600_01C0_4000_0000, .lanek ⟨c0, .b32, 7, 1⟩)]

/-- Words of the integers group, written out from the layouts of R74 to R85 and the entries. -/
def integersWords : List (Word × Instr) := [
  (0x0801_0140_4080_0000, .add (two .i32)),
  (0x0901_0140_4080_0000, .sub (two .i32)),
  (0x0A01_0140_4080_0000, .mul (two .i32)),
  (0x0B01_0140_4080_0000, .mulh (two .i32)),
  (0x0E01_0140_4080_0000, .div (two .i32)),
  (0x0F01_0140_4080_0000, .rem (two .i32)),
  (0x1001_0140_4080_0000, .min (two .i32)),
  (0x1101_0140_4080_0000, .max (two .i32)),
  (0x0C02_0140_4080_C000, .mad (three .n32)),
  (0x0D02_0140_4080_C000, .add3 (three .n32)),
  (0x1201_0140_4000_0000, .abs (one .i32)),
  (0x1301_0140_4000_0000, .neg (one .i32)),
  (0x1400_0140_4080_0000, .and (two .b32)),
  (0x1500_0140_4080_0000, .or (two .b32)),
  (0x1600_0140_4080_0000, .xor (two .b32))]

/-- Words of the bits group, written out from the layouts of R74 to R85 and the entries. -/
def bitsWords : List (Word × Instr) := [
  (0x1700_0140_4000_0000, .not (one .b32)),
  (0x1800_0140_4080_0000, .shl (two .b32)),
  (0x1900_0140_4080_0000, .shr (two .b32)),
  (0x1A00_0140_4080_0000, .sha (two .b32)),
  (0x1B00_0140_4080_0000, .rot (two .b32)),
  (0x1C00_0140_4000_0000, .popc (one .b32)),
  (0x1D00_0140_4000_0000, .clz (one .b32)),
  (0x1E00_0140_4000_0000, .brev (one .b32)),
  (0x1F01_0140_4080_C000, .bfx (three .i32)),
  (0x2000_0140_4080_C000, .bfi (three .b32)),
  (0x2102_4181_0080_0058, .lea ⟨c0, .n64, false, 3, true, 6, 4, 2⟩),
  (0x2201_0140_4000_0048, .addi ⟨c0, .i32, 5, 1, 9⟩),
  (0x2300_0140_4000_0048, .andi ⟨c0, .b32, 5, 1, 9⟩),
  (0x2400_0140_4000_0048, .ori ⟨c0, .b32, 5, 1, 9⟩),
  (0x2500_0140_4000_0048, .shli ⟨c0, .b32, 5, 1, 9⟩)]

/-- Words of the floats group, written out from the layouts of R74 to R85 and the entries. -/
def floatsWords : List (Word × Instr) := [
  (0x2803_0140_4080_0000, .fadd (two .f32)),
  (0x2903_0140_4080_0000, .fsub (two .f32)),
  (0x2A03_0140_4080_0000, .fmul (two .f32)),
  (0x2C03_0140_4080_0000, .fmin (two .f32)),
  (0x2D03_0140_4080_0000, .fmax (two .f32)),
  (0x2E03_0140_4080_0000, .fdiv (two .f32)),
  (0x3803_0140_4080_0000, .fscale (two .f32)),
  (0x2B03_0140_4080_C000, .fma (three .f32)),
  (0x2F03_0140_4000_0000, .fsqrt (one .f32)),
  (0x3003_0140_4000_0000, .rcpa (one .f32)),
  (0x3103_0140_4000_0000, .rsqa (one .f32)),
  (0x3203_0140_4000_0000, .fexp2 (one .f32)),
  (0x3303_0140_4000_0000, .flog2 (one .f32)),
  (0x3403_0140_4000_0000, .fsinpi (one .f32)),
  (0x3503_0140_4000_0000, .fcospi (one .f32)),
  (0x3603_0140_4000_0000, .fclass (one .f32)),
  (0x3703_0140_4000_0000, .frnd (one .f32)),
  (0x3903_0140_4000_0000, .frcp (one .f32))]

/-- Words of the converting group, written out from the layouts of R74 to R85 and the entries. -/
def convertingWords : List (Word × Instr) := [
  (0x3A01_0140_4000_0980, .cvt ⟨c0, .i32, .f32, false, .rtz, false, 5, 1⟩),
  (0x3B04_4140_4000_0180, .pack ⟨c0, .f16x2, .f32, .rne, false, 5, 1⟩),
  (0x3C05_4140_4000_0080, .unpk ⟨c0, .i8x4, .i32, .rne, false, 5, 1⟩),
  (0x4001_0C80_4080_0100, .cmp ⟨c0, .i32, false, .gt, 2, 3, 1, 2⟩),
  (0x4102_8C80_4080_0080, .fcmp ⟨c0, .f16, false, .lt, 2, 3, 1, 2⟩),
  (0x4200_0140_4080_C000, .sel ⟨c0, .b32, 5, 1, 2, 3⟩),
  (0x4300_0140_4080_0030, .aop ⟨c0, 6, 5, 1, 2⟩),
  (0x4400_0140_4000_0000, .acnt ⟨c0, 5, 1⟩),
  (0x4500_0140_4000_0000, .afirst ⟨c0, 5, 1⟩),
  (0x4600_0142_4000_0008, .amovk ⟨c0, true, 9, 5⟩),
  (0x4800_0140_4000_0070, .shfl ⟨c0, .b32, .down, 3, 5, 1, 0⟩),
  (0x4900_0140_4240_0000, .bcast ⟨c0, .b32, 5, 1, 9⟩),
  (0x4A02_0242_0000_0080, .scan ⟨c0, .n32, .add, true, .rne, false, 9, 8⟩),
  (0x4B01_0242_0000_0010, .reduce ⟨c0, .i32, .max, false, .rne, false, 9, 8⟩),
  (0x4C00_0140_80C0_0000, .shflx ⟨c0, 5, 2, 3⟩)]

/-- Words of the sets group, written out from the layouts of R74 to R85 and the entries. -/
def setsWords : List (Word × Instr) := [
  (0x5000_8001_0000_0000, .pdep ⟨c0, 1, 2⟩),
  (0x5100_0810_0000_0000, .pext ⟨c0, 2, 1⟩),
  (0x5200_9180_4000_0000, .poolop ⟨c0, .andn, 1, 2, 3⟩),
  (0x5300_0800_1200_0000, .pcnt ⟨c0, 9, 1⟩),
  (0x5400_0800_1200_0000, .pfirst ⟨c0, 9, 1⟩),
  (0x5500_8000_0000_0000, .pclr ⟨c0, 1⟩),
  (0x5600_8000_0000_0000, .pfill ⟨c0, 1⟩),
  (0x5900_0800_0A22_1048, .apply ⟨c0, 1, 5, 17, 8, 4, true⟩),
  (0x5B00_0000_0000_0000, .yieldh c0),
  (0x5C00_0000_0000_0008, .release ⟨c0, true, 0⟩),
  (0x5700_0800_0ED0_0018, .pst ⟨c0, 1, 7, .gl, .device, 3⟩),
  (0x5800_8000_0F0F_FFF8, .pld ⟨c0, 1, 7, .vt, .thread, -1⟩),
  (0x5A00_0800_0A22_0000, .applyw ⟨c0, 1, 5, 17, false⟩)]

/-- Words of the control group, written out from the layouts of R74 to R85 and the entries. -/
def controlWords : List (Word × Instr) := [
  (0x6000_0000_0000_0030, .bra ⟨c0, 6⟩),
  (0x6100_0001_3FFF_FFE0, .bany ⟨c0, 4, -4⟩),
  (0x6200_0001_3FFF_FFE0, .ball ⟨c0, 4, -4⟩),
  (0x6300_0001_3FFF_FFE0, .bnone ⟨c0, 4, -4⟩),
  (0x6400_0002_4000_00B0, .bk ⟨c0, .eq, 9, 22⟩),
  (0x6500_0F40_0000_0040, .call ⟨c0, 61, 8⟩),
  (0x6900_0240_3FFF_FFE0, .loop ⟨c0, 9, -4⟩),
  (0x6600_0F45_0000_0000, .calli ⟨c0, false, 61, 20⟩),
  (0x6700_000F_4000_0000, .ret ⟨c0, 61⟩),
  (0x6800_0000_0000_0000, .exit c0),
  (0x6A00_0040_0000_4000, .take ⟨c0, 1, 1⟩),
  (0x6B00_0001_0140_0000, .give ⟨c0, 4, 5⟩),
  (0x6C00_0000_0000_0000, .nop c0),
  (0x6D00_0000_0000_0048, .stall ⟨c0, 9⟩),
  (0x6E00_0000_0000_0048, .yield ⟨c0, 9⟩)]

/-- Words of the loads group, written out from the layouts of R74 to R85 and the entries. -/
def loadsWords : List (Word × Instr) := [
  (0x7003_0201_01D4_4100, .ld ⟨c0, .f32, 8, 4, .reg 7 2 false 2, .wg, 16, false⟩),
  (0x7103_0201_3FE8_1FE0, .st ⟨c0, .f32, 8, 4, .lane, .device, -2, false⟩),
  (0x7200_0201_3FD8_1FE0, .ldx ⟨c0, .b32, 8, 4, .lane, .cluster, -2, false⟩),
  (0x7300_0201_3FC0_1FE0, .stx ⟨c0, .b32, 8, 4, .lane, .thread, -2, false⟩),
  (0x7400_C241_3FC0_1FE0, .lds ⟨c0, .i16, 9, 4, .lane, .thread, -2, false⟩),
  (0x7500_4201_3FC0_1FE0, .sts ⟨c0, .b64, 8, 4, .lane, .thread, -2, false⟩),
  (0x7600_0301_3FC0_1FE0, .ldsx ⟨c0, .b32, 12, 4, .lane, .thread, -2, false⟩),
  (0x7700_0301_3FC0_1FE0, .stsx ⟨c0, .b32, 12, 4, .lane, .thread, -2, false⟩),
  (0x7801_8241_3FC0_1FE0, .ldv ⟨c0, .n8, 9, 4, .lane, .thread, -2, false⟩),
  (0x7903_4201_3FC0_1FE0, .stv ⟨c0, .f64, 8, 4, .lane, .thread, -2, false⟩),
  (0x7C00_0241_3FE8_1FE0, .lda ⟨c0, .b32, 9, 4, .lane, .device, -2, false⟩),
  (0x7D00_4281_3FE8_1FE0, .stl ⟨c0, .b64, 10, 4, .lane, .device, -2, false⟩),
  (0x7A00_41C1_002C_0030, .ldk ⟨c0, .b64, 7, 4, .gl, .device, 3, false⟩),
  (0x7B00_01C1_0002_0030, .stk ⟨c0, .b32, 7, 4, .vt, .thread, 3, false⟩),
  (0x7E00_0200_412C_0000, .waita ⟨c0, 8, 1, 4, .gl, .device, 0⟩),
  (0x7F00_0041_01C4_4000, .pref ⟨c0, .b32, .slice, 4, .reg 7 2 false 2, 0, false⟩)]

/-- Words of the atomics group, written out from the layouts of R74 to R85 and the entries. -/
def atomicsWords : List (Word × Instr) := [
  (0x8000_001F_C0DF_C3F8, .wait ⟨c0, 0, 127, 3, 127, 127⟩),
  (0x8100_0000_0000_00A8, .fence ⟨c0, .device, .rel⟩),
  (0x8200_0001_0140_0000, .cwb ⟨c0, false, 4, 5⟩),
  (0x8300_0000_0000_0008, .cinv ⟨c0, true, 0, 0⟩),
  (0x9002_0100_BFE8_0000, .atom ⟨c0, .n32, 4, 2, .lane, .device, .add, 0, false⟩),
  (0x9100_0140_BFE0_09D0, .atomn ⟨c0, .b32, 5, 2, .lane, .field, .or, -3, false⟩),
  (0x9301_0140_BFC0_03D0, .atoms ⟨c0, .i32, 5, 2, .lane, .thread, .min, -3, false⟩),
  (0x9502_0140_BFC0_11D0, .atomv ⟨c0, .n32, 5, 2, .lane, .thread, .dec, -3, false⟩),
  (0x9200_4200_BFF0_0050, .cas ⟨c0, .b64, 8, 2, .lane, .system, 5⟩),
  (0x9400_0180_BFC0_0050, .cass ⟨c0, .b32, 6, 2, .lane, .thread, 5⟩),
  (0x9600_0180_BFC0_0050, .casv ⟨c0, .b32, 6, 2, .lane, .thread, 5⟩),
  (0xA000_0001_4000_0118, .bar ⟨c0, 5, 3, .wg⟩),
  (0xA100_0000_0000_0190, .gbar ⟨c0, 2, .cluster⟩),
  (0xA200_0002_0000_0280, .evset ⟨c0, 8, .device⟩),
  (0xA300_0002_0000_0000, .evclr ⟨c0, 8⟩),
  (0xA400_0002_0000_0188, .evwait ⟨c0, 8, true, false, .cluster⟩),
  (0xA500_01C2_0000_0190, .evtest ⟨c0, 7, 8, false, true, .cluster⟩),
  (0xA800_0100_80C0_0280, .rput ⟨c0, 4, 2, 3, .device, 0, false⟩),
  (0xA900_0100_80C0_01D8, .rget ⟨c0, 4, 2, 3, .cluster, 5, true⟩),
  (0xAA00_0000_80C0_01D0, .rcur ⟨c0, 0, 2, 3, .cluster, 5, false⟩),
  (0xAB00_0001_0000_0000, .wlsort ⟨c0, 4⟩),
  (0xAC00_0001_0140_0000, .wlpush ⟨c0, 4, 5⟩),
  (0xAD00_0141_0001_8000, .wlpop ⟨c0, 5, 6, 4⟩),
  (0xAE00_0001_0140_0000, .wlins ⟨c0, 4, 5⟩),
  (0xAF00_01C1_0000_0000, .wlcnt ⟨c0, 7, 4⟩)]

/-- Words of the matrix group, written out from the layouts of R74 to R85 and the entries. -/
def matrixWords : List (Word × Instr) := [
  (0xB001_0801_0141_8000, .setshape ⟨c0, 1, 2, 4, 5, 6, false⟩),
  (0xB100_0802_0000_0000, .getshape ⟨c0, 2, 8⟩),
  (0xB401_0801_0141_A800, .wload ⟨c0, 1, 2, 4, 5, 6, true, false, true⟩),
  (0xB500_0000_0000_0000, .wdrop c0),
  (0xB600_0000_0000_0000, .opfence c0),
  (0xB701_0842_0240_0400, .mma ⟨c0, 1, 2, 1, 8, 9, false, false, true⟩),
  (0xB801_0882_0240_3000, .mmas ⟨c0, 1, 2, 2, 8, 9, true, true, false⟩),
  (0xB900_00C0_0000_0000, .tacq ⟨c0, 3⟩),
  (0xBA00_00C0_0000_0000, .trel ⟨c0, 3⟩),
  (0xBB00_00C0_0000_0000, .tzero ⟨c0, 3⟩),
  (0xBC01_0842_82C0_0880, .tld ⟨c0, 1, 2, 1, 10, 11, .sp, .thread, false, true, false, .x80⟩),
  (0xBD01_0842_82EA_0060, .tst ⟨c0, 1, 2, 1, 10, 11, .gl, .device, false, false, false, .f32⟩),
  (0xC001_0803_0343_8640, .sighash ⟨c0, 1, 2, 12, 13, 14, 3, 2, false⟩),
  (0xC101_0801_0202_4028, .sigrep ⟨c0, 1, 2, 4, 8, 9, .mean, true⟩),
  (0xC301_0841_0140_0450, .sigscat ⟨c0, 1, 2, 1, 4, 5, false, true, .f16⟩),
  (0xC400_0801_0141_8160, .sigbwd ⟨c0, 2, 4, 5, 6, true, false, .f32⟩),
  (0xC601_0801_0140_0268, .qhist ⟨c0, 1, 2, 4, 5, false, false, true, .f64⟩),
  (0xC701_0802_0240_0000, .qscale ⟨c0, 1, 2, 8, 9, 0, false⟩),
  (0xC801_0801_0141_9050, .qcvt ⟨c0, 1, 2, 4, 5, 6, true, false, .f16⟩)]

/-- Words of the copies group, written out from the layouts of R74 to R85 and the entries. -/
def copiesWords : List (Word × Instr) := [
  (0xD000_0501_0141_8120, .cpy ⟨c0, .b32, 20, 4, 5, 6, .gl, .sp, true, false, false⟩),
  (0xD100_0501_0141_8088, .cpyt ⟨c0, .b32, 20, 4, 5, 6, .sp, .vt, false, false, true⟩),
  (0xD200_0501_0141_8110, .cpyg ⟨c0, .b32, 20, 4, 5, 6, .gl, .sp, false, true, false⟩),
  (0xD300_0501_0141_8040, .cpys ⟨c0, .b32, 20, 4, 5, 6, .sp, .gl, false, false, false⟩),
  (0xD403_0501_0141_8040, .cpyr ⟨c0, .f32, 20, 4, 5, 6, .sp, .gl, false, false, false⟩),
  (0xD500_0501_0000_0000, .cpyq ⟨c0, 20, 4⟩),
  (0xE000_0501_0141_C000, .xld ⟨c0, 20, 4, 5, 7⟩),
  (0xE100_0501_0141_C000, .xst ⟨c0, 20, 4, 5, 7⟩),
  (0xE200_0501_0141_C000, .xadd ⟨c0, 20, 4, 5, 7⟩),
  (0xE300_0501_0140_0000, .xcur ⟨c0, 20, 4, 5⟩),
  (0xE400_0501_0140_0000, .xnext ⟨c0, 20, 4, 5⟩),
  (0xE700_0501_0140_0000, .xrange ⟨c0, 20, 4, 5⟩),
  (0xE500_0501_0000_0000, .xcnt ⟨c0, 20, 4⟩),
  (0xE600_0501_0141_8080, .xdense ⟨c0, 20, 4, 5, 6, .vt⟩),
  (0xE803_0502_0101_8160, .merge ⟨c0, 20, 8, 4, 6, 5, true, .sp⟩)]

/-- Words of the system group, written out from the layouts of R74 to R85 and the entries. -/
def systemWords : List (Word × Instr) := [
  (0xF000_0000_0000_0028, .trap ⟨c0, 5⟩),
  (0xF100_0000_0000_0028, .bkpt ⟨c0, 5⟩),
  (0xF200_0000_0000_0008, .rft ⟨c0, true⟩),
  (0xF300_41E0_8000_0000, .movp ⟨c0, 7, 0x82⟩),
  (0xF400_0001_0140_00A0, .icinv ⟨c0, false, 4, 5, .device⟩),
  (0xF500_0000_0000_0088, .tlbinv ⟨c0, true, 0, 0, .field⟩),
  (0xF600_0001_C000_0000, .stamp ⟨c0, 7⟩),
  (0xF700_0001_C000_0000, .sleep ⟨c0, 7⟩)]

theorem test_decode_moves : decodesTo movesWords = true := by decide
theorem test_decode_integers : decodesTo integersWords = true := by decide
theorem test_decode_bits : decodesTo bitsWords = true := by decide
theorem test_decode_floats : decodesTo floatsWords = true := by decide
theorem test_decode_converting : decodesTo convertingWords = true := by decide
theorem test_decode_sets : decodesTo setsWords = true := by decide
theorem test_decode_control : decodesTo controlWords = true := by decide
theorem test_decode_loads : decodesTo loadsWords = true := by decide
theorem test_decode_atomics : decodesTo atomicsWords = true := by decide
theorem test_decode_matrix : decodesTo matrixWords = true := by decide
theorem test_decode_copies : decodesTo copiesWords = true := by decide
theorem test_decode_system : decodesTo systemWords = true := by decide

/-- MOVL takes the word after it as its literal (R80). -/
theorem test_decode_movl : decode 0x0300_4180_0000_0000 (some 0x1234_5678_9ABC_DEF0) = .ok (.movl ⟨c0, .b64, false, 6, 0x1234_5678_9ABC_DEF0⟩) := by
  rfl
-- a small machine: one workgroup of one warp with its headspring, on core 0

/-- A launch with most fields zero. -/
def launch0 : Launch :=
  { gen := 0, queue := 0, seq := 0, ctx := 1, ctxGen := 0, root := 0, headoff := 0, warpoff := 0, codeobj := 0, argptr := 0, handler := 0x4000
    ctxbase := 0x10000, rowcnt := 0, nwg := 1, gsize := 1, nwarps := 1, slots := 1, window := 64, spsize := 4096, prio := 0, cls := 2
    twin := false, clrw := false, wdkill := false, migrate := false, notify := false, menu := [], menuSlot := 0, menuTwin := false
    lanes := 32, est := 10, affinity := 1, wdog := 1, slotsF := [], wait := 0, set := 0, allowF := true, allowE := true }

/-- Stamps of a workgroup placed at count 0. -/
def stamps0 : Stamps :=
  { place := 0, cin0 := none, cin1 := none, owait := none, cmp0 := none, cmp1 := none, cout0 := none, cout1 := none, restores := 0 }

/-- The workgroup whose executors are those listed. -/
def wg0 (execs : SMap (Option Exec)) : Workgroup :=
  { launch := launch0, wgid := 0, code := 0x1000, pools := [], tags := [], shapes := [], tokens := [], badPools := [], badShapes := [], tacqs := []
    barriers := [], apply := none, applies := [], worklist := none, copies := 0, copiesDone := [], wdogLeft := 4000, phase := .running, batch := [], stamps := stamps0
    execs }

/-- A clause of n words that is about to issue its first. -/
def clause0 (words : List Word) : Clause :=
  { seq := 0, code := { addr := 0x1000, header := 0, words }, next := 0, due := 0, settled := 0, undo := [], items := [], cause := none
    target := none, takes := 0, gives := [], parts := none }

/-- An executor with lanes 0 to 31, some registers, that has begun a clause. -/
def exec0 (v : SMap Lane) (k : SMap Word) : Exec :=
  { Exec.fresh 0xFFFFFFFF 0x1100 0 with v, k, clauses := [clause0 [0, 0]] }

/-- The machine with the workgroup w on core 0, whose executor n issues. -/
def on0 (n : Nat) (w : Workgroup) : State := { State.reset with cur := some ⟨0, n⟩, cores := [(0, { Core.idle with wg := some w })] }

/-- The machine whose executor n is e, alone. -/
def at0 (n : Nat) (e : Exec) : State := on0 n (wg0 [(n, some e)])

/-- The results on their way of executor n of core 0 after a step. -/
def lands (n : Nat) (r : Host.Outcome State Fault Refusal) : List RegVal :=
  match r with
  | .next t => match t.exec ⟨0, n⟩ with | some e => e.pend.map (·.val) | none => []
  | _ => []

/-- The cause code and info that executor n's clause holds after a step. -/
def stops (n : Nat) (r : Host.Outcome State Fault Refusal) : Option (Nat × Nat) :=
  match r with
  | .next t => (t.exec ⟨0, n⟩).bind fun e => e.clauses.getLast?.bind fun c => c.cause.map fun x => (x.code, x.info)
  | _ => none

/-- A byte of memory after a step. -/
def byteAfter (a : Nat) (r : Host.Outcome State Fault Refusal) : Option Byte := match r with | .next t => some (readByte t.mem a) | _ => none

-- one step; expected results from the rules' own words

/-- R99: i32 addition wraps; the word acts on lane 0 alone through its guard. -/
theorem test_add_wraps : lands 0 (exec (.add { two .i32 with ctl := { c0 with g := 1 } })
    (at0 0 { exec0 [(32, 0x7FFFFFFF), (64, 1)] [] with a := [(1, 1)] })) = [.v 5 0 0x80000000] := by decide

/-- R99: under sat it clamps. -/
theorem test_add_clamps : lands 0 (exec (.add { two .i32 with ctl := { c0 with g := 1 }, sat := true })
    (at0 0 { exec0 [(32, 0x7FFFFFFF), (64, 1)] [] with a := [(1, 1)] })) = [.v 5 0 0x7FFFFFFF] := by decide

/-- R60: division by zero gives all ones. -/
theorem test_div_by_zero : lands 0 (exec (.div { two .n32 with ctl := { c0 with g := 1 } })
    (at0 0 { exec0 [(32, 7)] [] with a := [(1, 1)] })) = [.v 5 0 0xFFFFFFFF] := by decide

/-- R134: LOOP from 0 gives all ones. -/
theorem test_loop_from_zero : lands 0 (exec (.loop ⟨c0, 9, -4⟩) (at0 0 (exec0 [] []))) = [.k 9 0xFFFFFFFFFFFFFFFF] := by decide

/-- R40: a v register at the window raises the window fault, with its number. -/
theorem test_window : stops 0 (exec (.add { two .i32 with b := 64 }) (at0 0 (exec0 [] []))) = some (3, 64) := by decide

/-- R116: GIVE in a warp is an illegal instruction. -/
theorem test_give_in_a_warp : stops 0 (exec (.give ⟨c0, 4, 5⟩) (at0 0 (exec0 [] []))) = some (2, 0) := by decide

/-- Header of a message of the host whose payload takes one flit, on a channel. -/
def hdr (vc : Nat) : MsgHdr := { src := 1, tag := 0, vc, nflit := 0, zero := true, pad := true }

/-- R7, R315: a host write lays its bytes from its address up. -/
theorem test_host_write : byteAfter 0x101 (exec (.hostMemoryWrite (hdr 0) 0x100 [1, 2, 3]) State.reset) = some 2 := by decide

-- witnesses: concrete states and operands that meet the hypotheses of each statement

/-- Does executor n of the small machine accept each word, with its registers in the window? -/
def legalOn (n : Nat) (l : List (Word × Instr)) : Bool := l.all fun p => (ctlOf p.2).elim false fun c => decide (Legal ⟨0, n⟩ (wg0 []) p.2 c)

/-- IntegerArithmeticIsExactThenNarrowed to SystemWords, IssueHasNoEffectOutsideItsExecutor, LoopCountsDown, BcastReadsOneLane: a warp
or the headspring that issues. -/
theorem wit_issuing_warp : Issuing (at0 0 (exec0 [(32, 7)] [(9, 1)])) ⟨0, 0⟩ (wg0 [(0, some (exec0 [(32, 7)] [(9, 1)]))])
    (exec0 [(32, 7)] [(9, 1)]) (clause0 [0, 0]) := ⟨rfl, rfl, rfl, rfl, rfl, by decide⟩

theorem wit_issuing_headspring : Issuing (at0 40 (exec0 [] [(9, 1)])) ⟨0, 40⟩ (wg0 [(40, some (exec0 [] [(9, 1)]))])
    (exec0 [] [(9, 1)]) (clause0 [0, 0]) := ⟨rfl, rfl, rfl, rfl, rfl, by decide⟩

theorem wit_legal_arithmetic : (legalOn 0 movesWords && legalOn 0 integersWords && legalOn 0 bitsWords && legalOn 0 floatsWords &&
    legalOn 0 convertingWords) = true := by decide

theorem wit_legal_sets : legalOn 0 (setsWords.filter fun p => accepts 0 p.2) = true ∧
    legalOn 40 (setsWords.filter fun p => !accepts 0 p.2) = true := by decide

theorem wit_legal_control : legalOn 0 (controlWords.filter fun p => accepts 0 p.2) = true ∧
    legalOn 40 (controlWords.filter fun p => !accepts 0 p.2) = true := by decide

theorem wit_legal_memory : legalOn 0 loadsWords = true ∧ legalOn 0 (atomicsWords.filter fun p => accepts 0 p.2) = true ∧
    legalOn 40 (atomicsWords.filter fun p => !accepts 0 p.2) = true := by decide

theorem wit_legal_engines : legalOn 0 (matrixWords.filter fun p => accepts 0 p.2) = true ∧
    legalOn 40 (matrixWords.filter fun p => !accepts 0 p.2) = true ∧ legalOn 0 copiesWords = true ∧ legalOn 0 systemWords = true := by decide

/-- An executor at a clause start, with lanes 0 to 31. -/
def idle0 : Exec := Exec.fresh 0xFFFFFFFF 0x1100 0

/-- A decision in a queue. -/
def decision0 : Decision := { value := 7, mark := ⟨⟨0, 40⟩, 0⟩, bad := 0 }

/-- The cases of TAKE and GIVE: a decision that waits, an empty queue open and closed, a full queue of a launched warp. -/
theorem wit_TakeAndGive :
    (let e : Exec := { exec0 [] [] with queue := [decision0] }
     Issuing (at0 0 e) ⟨0, 0⟩ (wg0 [(0, some e)]) e (clause0 [0, 0]) ∧ executes ⟨0, 0⟩ e c0 = true ∧
     e.queue[(e.clauses.map (·.takes)).sum]? = some decision0) ∧
    (exec0 [] []).queue[0]? = none ∧ (exec0 [] []).queueClosed = false ∧ 0 < launch0.nwarps ∧
    16 ≤ ({ exec0 [] [] with queue := List.replicate 16 decision0 }).queue.length :=
  ⟨⟨⟨rfl, rfl, rfl, rfl, rfl, by decide⟩, by decide⟩, by decide⟩

theorem wit_BreakpointsFreezesAndStops :
    (0 < 4 ∧ mapWf none (State.reset.core 0).breaks = true) ∧
    (let f : State := { State.reset with cores := [(0, { Core.idle with frozen := [.copy, .matrix, .index, .workList, .ring] })] }
     Engine.copy ∈ (f.core 0).frozen ∧ Engine.index ∈ (f.core 0).frozen ∧ Engine.matrix ∈ (f.core 0).frozen ∧ Engine.ring ∈ (f.core 0).frozen ∧
     Engine.workList ∈ (f.core 0).frozen ∧ opAt f ⟨0, 0⟩ 0 = none) ∧
    (let s := at0 0 idle0
     s.wg 0 = some (wg0 [(0, some idle0)]) ∧ (wg0 [(0, some idle0)]).exec 0 = some idle0 ∧ idle0.stop.stopped = false ∧ idle0.retired = false ∧
     idle0.exiting = false ∧ idle0.clauses = [] ∧ idle0.shadow = none ∧ idle0.cause = none ∧ takeable idle0 = []) ∧
    ¬ (exec0 [] []).clauses = [] := by decide

/-- Does the machine after reset take a message of a kind and length with this header from its host? -/
def hostHears (kind n : Nat) (h : MsgHdr) : Bool := heardHost { State.reset with hostId := 1 } h kind n

theorem wit_FabricEventsAndLinkEpochs :
    mapWf Port.up State.reset.ports = true ∧ mapWf IntVec.idle State.reset.ints = true ∧
    (let s : State := { State.reset with ints := [(5, { pending := 1, total := 1, last := some 0 })], time := 4000 }
     mapWf IntVec.idle s.ints = true ∧ (mapGet IntVec.idle s.ints 5).pending ≠ 0 ∧ ∀ t, (mapGet IntVec.idle s.ints 5).last = some t → t + 4000 ≤ s.time) ∧
    (∀ r ∈ State.reset.remotes, r.ep ≠ 7) ∧ hostHears 11 8 (hdr 2) = true ∧ (mapGet Port.up State.reset.ports 23).down = false ∧
    (let s : State := { State.reset with ports := [(3, { Port.up with down := true })] }
     (mapGet Port.up s.ports 3).down = true ∧ mapWf Port.up s.ports = true) := by
  refine ⟨by decide, by decide, ⟨by decide, by decide, ?_⟩, by decide, by decide, by decide, by decide⟩
  intro t h
  cases h
  decide

/-- The bytes of a 64-bit number at an address, those that are not zero. -/
def at8 (a n : Nat) : Memory := ((span a 8).zip (leBytes 8 n)).filter fun p => p.2 ≠ 0

theorem wit_ManagementCommandsAndTables :
    ((hdr 2).src = State.reset.hostId ∧ State.reset.startState = 2 ∧ (hdr 2).zero = true ∧ fits (hdr 2) 12 8 = true ∧ fits (hdr 2) 12 20 = true ∧
     fits (hdr 0) 12 8 = false) ∧ (∀ r ∈ State.reset.remotes, r.ep ≠ 7) ∧
    (let s : State := { State.reset with log := [{ kind := 3, domain := 6, fromDom := 0, field := 0, engine := 0, count := 1, unit := 0, lgen := 0 }] }
     s.log[0]?.isSome = true ∧ s.log[255]? = none) ∧
    ((0x8000 % 0x8000 = 0 ∧ 0x8000 < 0x12000000000) ∧ ¬ (1 % 0x8000 = 0 ∧ 1 < 0x12000000000)) ∧
    (let l : Level := { base := 0, lgsize := 1, ctx := 0, tail := 0, head := 0, doneN := 0, running := true, took := false, finished := [] }
     mapGet none ({ State.reset with levels := [(3, some l)] }).levels 3 = some l ∧ l.running = true) ∧
    (State.reset.levels = [] ∧ State.reset.poison = [] ∧ ∀ k, k < 8 → readByte State.reset.mem (0x8000 + 64 * k + 9) ≠ 1) ∧
    readNat (at8 0x20030 1) (0x20000 + 32 * 1 + 16) 8 = 1 ∧
    (let m := at8 0x48 6
     0x40 % 64 = 0 ∧ readNat m 0x40 8 % 4096 = 0 ∧ 6 ≤ readNat m 0x48 1 ∧ readNat m 0x48 1 ≤ 20 ∧ readNat m 0x49 7 = 0 ∧ readNat m 0x74 12 = 0 ∧
     readNat m 0x70 4 = 0) := by decide

theorem wit_StartsPowerDownAndTheLimiter :
    (let s : State := State.reset
     s.startState = 2 ∧ (∀ l ∈ (s.core 0).l1, dirtyBytes l 0 128 = []) ∧ s.coolant = none) ∧
    (let s : State := { State.reset with fields := (upto 6).map fun n => (n, { Field.locked with count := 4096 }) }
     (s.field 5).count % 4096 = 0 ∧ (s.field 5).compared ≠ some (s.field 5).count ∧ ∀ f, f < 6 → (s.field f).synced ≠ (s.field f).count) ∧
    (let s : State := { State.reset with startState := 4, startNext := 4, fieldsUp := 6 }
     s.startState = 4 ∧ s.startNext = 4 ∧ s.fieldsUp ≠ 0) ∧
    (let s : State := { State.reset with startState := 3 }
     s.startState = 3 ∧ s.startState ≠ 2) ∧
    (let s : State := { State.reset with fields := [(1, { Field.locked with below := some 0, count := 256000 })], time := 256000 }
     (s.field 1).below = some 0 ∧ 0 + 256000 ≤ s.time ∧ (s.field 1).synced ≠ (s.field 1).count) ∧
    Config.outletLimit < Config.outletLimit + 1 ∧ Config.outletLimit + 1 < Config.outletLimit + 50 :=
  ⟨by decide, by decide, by decide, by decide, by decide, by omega, by omega⟩

theorem wit_BringUpAndWhatItLeaves :
    (let s : State := { State.reset with startState := 1, startNext := 9 }
     s.startState = 1 ∧ s.startKind = 0 ∧ ¬ (s.startKind ≠ 0 ∧ (s.startNext = 3 ∨ s.startNext = 6)) ∧ s.remotes = [] ∧ mapWf Port.up s.ports = true ∧
     (∃ p, p < 24 ∧ p ∉ [0, 1]) ∧ ∀ p, p < 24 → p ∈ List.range 24) ∧
    (let s : State := { State.reset with startState := 1, startNext := 3, startKind := 1 }
     s.startKind ≠ 0 ∧ s.startNext = 3) ∧
    (let s : State := { State.reset with startState := 1, startNext := 10, startKind := 2 }
     s.startState = 1 ∧ s.startNext = 10 ∧ s.startKind = 2) ∧
    (let s : State := { State.reset with startState := 1, startNext := 6, factory := [.core 3], inService := [.core 5], spares := [(0, some 5)] }
     s.startNext = 6 ∧ mapWf none s.spares = true ∧ Repair.core 3 ∈ s.factory ++ s.inService ∧ Repair.core 208 ∉ s.factory ++ s.inService) ∧
    (let s : State := { State.reset with startState := 1, startNext := 4, fieldsUp := 2 }
     s.startNext = 4 ∧ mapWf Field.locked s.fields = true ∧ s.fieldsUp < 5) := by
  refine ⟨⟨rfl, rfl, by decide, rfl, by decide, ⟨2, by decide, by decide⟩, fun p h => List.mem_range.2 h⟩, by decide, by decide, by decide, by decide⟩

/-- Context 1 with a page table that maps its first 1 GiB onto memory, readable, writable and executable. -/
def paged : Memory := at8 0x20020 0x30000 ++ at8 0x20030 1 ++ at8 0x30000 0x31001 ++ at8 0x31000 0x32001 ++ at8 0x32000 0x73

def page0 (n : Nat) : Xlate := { pfn := n, rd := true, wr := true, ex := true, remote := none }

theorem wit_SyncRecordsSamplesAndPatrolReads :
    (let tr : Trace := { desc := 0x40, ctx := 1, base := 0x100000, lgsize := 6, tail := 0, drops := 0, qmask := 1, period := 1024 }
     let s : State := { at0 0 idle0 with mem := paged, contextTable := some 0x20000, trace := some tr, fields := [(0, { Field.locked with changed := true })] }
     mapWf Field.locked s.fields = true ∧ 0 < s.fieldsUp ∧ s.startState = 2 ∧ (s.field 0).changed = true ∧ s.trace = some tr ∧ (ctxDesc s 1).map (·.root) = some 0x30000 ∧
     Memory.wf s.mem = true ∧ walk s 1 0x30000 0x100000 = .ok (page0 0x100) ∧ tr.tail + 1 ≤ 2 ^ tr.lgsize + readNat s.mem (tr.desc + 24) 8 ∧
     s.wg 0 = some (wg0 [(0, some idle0)]) ∧ mapWf none (wg0 [(0, some idle0)]).execs = true ∧ tr.qmask / 2 ^ launch0.queue % 2 = 1 ∧
     s.now 0 % tr.period = 0 ∧ (s.core 0).sampledAt ≠ some (s.now 0) ∧ (wg0 [(0, some idle0)]).exec 0 = some idle0) ∧
    (2 ^ 52 + 8 < 2 ^ 53 ∧ 64 < 2 ^ 52 ∧ State.reset.startState = 2) := by decide

/-- An operation of one word that is not performed. -/
def op0 (i : Instr) (cls : Cls) (g : LaneSet) (kv : List Word) (lv : List (List Lane)) (due : List RegKey) : Op :=
  { id := 0, cls, item := { instr := i, idx := 0, g, on := true, kv, lv, clock := 0, xl := [(2, page0 0x102)] }, clause := 0x1000
    seq := 0, performed := false, lanes := g, low := 0, high := 0, due, vals := [], tag := 0, poison := none, failed := false, sent := false, got := [] }

/-- An executor that waits for one operation alone. -/
def waiting0 (o : Op) : Exec := { idle0 with ops := [o] }

theorem no_asker : ∀ r ∈ ([] : List PageReq), ∀ eng id, r.who ≠ .op ⟨0, 0⟩ eng id := nofun

theorem alone0 (o : Op) (h : o.performed = false) (n : unsettled (at0 0 (waiting0 o)) = []) :
    Alone (at0 0 (waiting0 o)) ⟨0, 0⟩ (wg0 [(0, some (waiting0 o))]) (waiting0 o) o :=
  ⟨rfl, rfl, rfl, rfl, rfl, rfl, h, ⟨rfl, rfl, n⟩, rfl, rfl, no_asker⟩

theorem wit_AccessesArePerformed :
    (let o := op0 (.ld ⟨c0, .i16, 8, 4, .lane, .thread, 0, false⟩) .l 1 [0x2000] [] [.v 8 0]
     Alone (at0 0 (waiting0 o)) ⟨0, 0⟩ (wg0 [(0, some (waiting0 o))]) (waiting0 o) o ∧ formOk o.item.instr = true ∧
     (o.item.kv.getD 0 0).toNat % 2 = 0 ∧ locOf 0 o.item.xl .gl (o.item.kv.getD 0 0).toNat = .home 0x102000 ∧
     (∀ p ∈ o.item.xl, p.2.remote = none) ∧ (∀ k ∈ o.due, k = .v 8 0) ∧ o.vals = [] ∧ o.low = 0 ∧ o.high = 0 ∧ o.tag = 0 ∧ (waiting0 o).written = []) ∧
    (let o := op0 (.sts ⟨c0, .b64, 8, 4, .lane, .thread, 0, false⟩) .s 2 [0, 0x20] [[0, 5], [0, 6]] []
     Alone (at0 0 (waiting0 o)) ⟨0, 0⟩ (wg0 [(0, some (waiting0 o))]) (waiting0 o) o ∧ formOk o.item.instr = true ∧
     locOf 0 o.item.xl .sp (o.item.kv.getD 1 0).toNat = .home (2 ^ 53 + 0x20) ∧ o.lanes = o.item.g ∧ o.item.g ≠ 0) ∧
    (let o := op0 (.casv ⟨c0, .b32, 6, 2, .lane, .thread, 5⟩) .l 1 [0x40] [[1], [2]] [.v 6 0]
     Alone (at0 0 (waiting0 o)) ⟨0, 0⟩ (wg0 [(0, some (waiting0 o))]) (waiting0 o) o ∧ formOk o.item.instr = true ∧
     locOf 0 o.item.xl .vt (o.item.kv.getD 0 0).toNat = .home (2 ^ 52 + 0x40) ∧ o.item.lv.length = 2 ∧ tyFp .b32 = false) :=
  ⟨⟨alone0 _ rfl (by decide), by decide⟩, ⟨alone0 _ rfl (by decide), by decide⟩, alone0 _ rfl (by decide), by decide⟩

/-- A line with one dirty byte. -/
def line0 : Line := { ctx := 1, va := 0x40, pa := 0x2040, bytes := [(3, some (7, true))], rel := [], poison := [] }

theorem wit_TheL1AndItsMarks :
    (let o := op0 (.st ⟨c0, .b32, 8, 4, .lane, .thread, 0, false⟩) .s 1 [0x2000] [[5]] []
     Alone (at0 0 (waiting0 o)) ⟨0, 0⟩ (wg0 [(0, some (waiting0 o))]) (waiting0 o) o ∧ formOk o.item.instr = true ∧ o.item.g = 1 <<< 0 ∧
     locOf 0 o.item.xl .gl (o.item.kv.getD 0 0).toNat = .home 0x102000) ∧
    (let s : State := { State.reset with cores := [(0, { Core.idle with l1 := [line0] })] }
     Quiet s ∧ Memory.wf s.mem = true ∧ mapWf none line0.bytes = true ∧ (s.core 0).l1.filter (fun m => m.ctx = 1 && m.va = 0x40) = [line0]) ∧
    (let m : Mark := { sector := 0x40, core := 0, scope := .wg, below := 1 }
     let s : State := { State.reset with marks := [m] }
     Quiet s ∧ s.marks.filter (·.sector = m.sector) = [m] ∧ promotionReady s m = true ∧
     promotionReady { at0 0 (waiting0 (op0 (.st ⟨c0, .b32, 8, 4, .lane, .thread, 0, false⟩) .s 1 [0x2000] [[5]] [])) with marks := [m] } m = false) :=
  ⟨⟨alone0 _ rfl (by decide), by decide⟩, by decide, by decide⟩

theorem wit_EventsTimeAndTimeouts :
    (let s : State := { State.reset with agenda := [.tick] }
     dueMove s = none ∧ mapWf Field.locked s.fields = true ∧ mapWf Core.idle s.cores = true) ∧ isWord .coldStart = false ∧
    allowed { State.reset with agenda := [.event .coldStart] } (.event .coldStart) = .event .coldStart ∧
    (let e : Exec := { idle0 with waits := [.sleep (some 0)] }
     let s := at0 0 e
     s.wg 0 = some (wg0 [(0, some e)]) ∧ e.shadow = none ∧ e.waits = [.sleep (some 0)] ∧ 0 ≤ s.now 0) ∧
    (let e : Exec := { idle0 with waits := [.waita 0x2000 .gl false 8 .device (some 0) 7], holds := [{ start := 8, key := some 7, on := [], scope := .device }] }
     let s := at0 0 e
     sleepers s = [(⟨0, 0⟩, 0x2000)] ∧ woken s = [] ∧ unsettled s = [⟨0, 0⟩] ∧ s.poison = [] ∧ s.marks = [] ∧ (s.core 0).l1 = []) := by decide

theorem wit_EngineCommands :
    (let o := op0 (.cpy ⟨c0, .b32, 20, 4, 5, 6, .sp, .sp, true, false, false⟩) .c 1 [0, 0x100, 16, 0x500000200] [] []
     Alone (at0 0 (waiting0 o)) ⟨0, 0⟩ (wg0 [(0, some (waiting0 o))]) (waiting0 o) o ∧ ((at0 0 (waiting0 o)).core 0).frozen = [] ∧
     0 + 16 ≤ 2 ^ 20 ∧ (0 + 16 ≤ 0x100 ∨ 0x100 + 16 ≤ 0) ∧ (at0 0 (waiting0 o)).watches = [] ∧
     begun (at0 0 (waiting0 o)) ⟨0, 0⟩ o = false ∧ o.failed = false ∧ o.vals = [] ∧ (waiting0 o).written = [] ∧ (at0 0 (waiting0 o)).regions = []) ∧
    (let o := op0 (.tzero ⟨c0, 3⟩) .t 1 [] [] []
     Alone (at0 0 (waiting0 o)) ⟨0, 0⟩ (wg0 [(0, some (waiting0 o))]) (waiting0 o) o ∧ unitOps (at0 0 (waiting0 o)) 0 = [(0, o)]) ∧
    (let o := op0 (.merge ⟨c0, 20, 8, 4, 6, 5, true, .sp⟩) .x 1 [0, 0x100, 0, 0, 0x200, 0x300] [[0], [2], [4], [4], [0]] []
     Alone (at0 0 (waiting0 o)) ⟨0, 0⟩ (wg0 [(0, some (waiting0 o))]) (waiting0 o) o ∧ o.item.g = 1 <<< 0 ∧ (0x200 + 8 ≤ 0x300 ∨ 0x300 + 8 ≤ 0x200)) ∧
    (let o := op0 (.merge ⟨c0, 20, 8, 4, 6, 5, true, .sp⟩) .x 1 [0, 0x100, 0, 0, 0x200, 0x300] [[2], [0], [4], [4], [0]] []
     Alone (at0 0 (waiting0 o)) ⟨0, 0⟩ (wg0 [(0, some (waiting0 o))]) (waiting0 o) o ∧ (((o.item.lv.getD 1 []).getD 0 0).toNat < ((o.item.lv.getD 0 []).getD 0 0).toNat)) :=
  ⟨⟨alone0 _ rfl (by decide), by decide⟩, ⟨alone0 _ rfl (by decide), by decide⟩, ⟨alone0 _ rfl (by decide), by decide⟩, alone0 _ rfl (by decide), by decide⟩

theorem wit_RingsWorkListsAndTokens :
    (let o : Op := { op0 (.rput ⟨c0, 4, 2, 3, .cluster, 0, true⟩) .s 1 [0x1000, 0, 0x4000, 0x2000, 64, 2, 1] [] [] with tag := 1 }
     Alone (at0 0 (waiting0 o)) ⟨0, 0⟩ (wg0 [(0, some (waiting0 o))]) (waiting0 o) o ∧ o.tag = 0 + 1 ∧ begun (at0 0 (waiting0 o)) ⟨0, 0⟩ o = false ∧ o.low = 0 ∧
     (0x4000 + 0 % 2 * 64) % 2 ^ 26 + 64 ≤ 2 ^ 26 ∧
     ∀ c, c < 1 → 0 + 1 ≤ readNat (at0 0 (waiting0 o)).mem (2 ^ 52 + 0 * 2 ^ 26 + 0x1040) 8 + 2) ∧
    (let o := op0 (.wlpush ⟨c0, 4, 5⟩) .s 3 [0] [[7, 8]] []
     let l : WorkList := { header := 0, spill := 0, spillcap := 0, bitmap := none, store := [1, 2], spilled := [] }
     let w : Workgroup := { wg0 [(0, some (waiting0 o))] with worklist := some l }
     Alone (on0 0 w) ⟨0, 0⟩ w (waiting0 o) o ∧ w.worklist = some l ∧ listOps w = [(0, o)] ∧ l.store.length + 2 ≤ 4096) ∧
    (let o := op0 (.wlpop ⟨c0, 5, 6, 4⟩) .l 3 [0] [] []
     let l : WorkList := { header := 0, spill := 0, spillcap := 0, bitmap := none, store := [1, 2], spilled := [] }
     let w : Workgroup := { wg0 [(0, some (waiting0 o))] with worklist := some l }
     Alone (on0 0 w) ⟨0, 0⟩ w (waiting0 o) o ∧ listOps w = [(0, o)] ∧ 2 ≤ l.store.length) ∧
    (let e : Exec := { idle0 with waits := [.tacq 3 true 1] }
     (at0 0 e).exec ⟨0, 0⟩ = some e ∧ unitOps (at0 0 e) 0 = []) :=
  ⟨⟨alone0 _ rfl (by decide), by decide⟩, ⟨⟨rfl, rfl, rfl, rfl, rfl, rfl, rfl, ⟨rfl, rfl, rfl⟩, rfl, rfl, no_asker⟩, by decide⟩,
    ⟨⟨rfl, rfl, rfl, rfl, rfl, rfl, rfl, ⟨rfl, rfl, rfl⟩, rfl, rfl, no_asker⟩, by decide⟩, by decide⟩

/-- The small machine with memory that context 1 maps, and its first pages cached on core 0. -/
def mapped0 (n : Nat) (e : Exec) (m : Memory) (pages : List Nat) : State :=
  { State.reset with
    contextTable := some 0x20000, mem := m
    cores := [(0, { Core.idle with
      wg := some { wg0 [(n, some e)] with launch := { launch0 with root := 0x30000 } }
      tlb := pages.map fun p => { ctx := 1, page := p, xl := page0 p } })] }

/-- A header of class 0 with one word and no waits. -/
def header1 : Word := 0xB407_FFFF_C000_0000

theorem wit_ClausesAreFetched :
    (let s := mapped0 0 idle0 (at8 0x1100 header1.toNat ++ at8 0x1108 0x0801_0140_4080_0000) [1]
     s.exec ⟨0, 0⟩ = some idle0 ∧ idle0.fetched = none ∧ isSlot 0 = false ∧ (s.core 0).code = [] ∧
     (s.core 0).tlb.find? (fun t => t.ctx = 1 && t.page = idle0.pc / 4096 && xlCurrent s t.xl) = some { ctx := 1, page := 1, xl := page0 1 } ∧
     BitVec.ofNat 64 (readNat s.mem (1 * 4096 + idle0.pc % 4096) 8) = header1 ∧ header1.extractLsb' 58 6 = 0b101101 ∧
     (header1.extractLsb' 50 5).toNat = 1 ∧ header1.extractLsb' 0 26 = 0 ∧ frameCheck (header1.extractLsb' 55 3).toNat [0x0801_0140_4080_0000] = none ∧
     (frameCheck 1 [0x0801_0140_4080_0000]).isSome) ∧
    ((0 : Word).extractLsb' 58 6 ≠ 0b101101) := by decide

/-- An executor with a fetched clause of one word. -/
def fetched0 : Exec := { idle0 with fetched := some { addr := 0x1100, header := header1, words := [0x6C00_0000_0000_0000] } }

theorem wit_SlotsAreAwarded :
    (let s := at0 0 fetched0
     mapWf Core.idle s.cores = true ∧ (s.core 0).away = [] ∧ (s.core 0).slotFree = [] ∧ turnTaken s (clusterOf 0) = false ∧
     ready s ⟨0, 0⟩ (wg0 [(0, some fetched0)]) fetched0 = true) ∧
    (let w := wg0 [(0, some fetched0), (40, some fetched0)]
     let s := on0 0 w
     mapWf Core.idle s.cores = true ∧ ready s ⟨0, 0⟩ w fetched0 = true ∧ ready s ⟨0, 40⟩ w fetched0 = true) := by decide

theorem wit_ResultsLandAndRunAheadsEnd :
    (let e : Exec := { idle0 with pend := [{ land := 0, seq := 0, idx := 0, val := .v 5 3 7 }, { land := 4, seq := 0, idx := 1, val := .k 5 7 }] }
     (at0 0 e).exec ⟨0, 0⟩ = some e ∧ mapWf 0 e.v = true ∧ mapWf 0 e.k = true ∧ mapWf 0 e.a = true ∧ e.clauses.length ≤ 1 ∧
     e.written = [] ∧ e.pend.Pairwise (fun p q => issueOrder p.seq p.idx ≤ issueOrder q.seq q.idx)) ∧
    (let h : Shadow := { pc := 0x1100, v := [], k := [], a := [], a0 := 1, parts := [], poison := [], pages := [], words := 0, trail := [], ended := true }
     let e : Exec := { idle0 with shadow := some h }
     let w : Workgroup := { wg0 [(0, some e)] with phase := .ahead 0 }
     (on0 0 w).wg 0 = some w ∧ w.exec 0 = some e ∧ e.shadow = some h ∧ h.ended = true ∧ w.phase = .ahead 0 ∧ e.stop.pending = false ∧
     ((shadowPages (on0 0 w) ⟨0, 0⟩ h e.clauses).getD h.pages).length ≤ 16 ∧
     (wg0 [(0, some e)]).phase = .running) := by decide

/-- A clause whose one word has issued. -/
def issued0 (items : List Item) (cause : Option Cause) : Clause := { clause0 [0x6C00_0000_0000_0000] with next := 1, items, cause }

theorem wit_ClausesCommit :
    (let e : Exec := { idle0 with clauses := [issued0 [] none] }
     let s := at0 0 e
     s.exec ⟨0, 0⟩ = some e ∧ Quiet s ∧ turnFree s (clusterOf 0) (turnOf 0 0) = true ∧ (issued0 [] none).next = (issued0 [] none).code.words.length ∧ (issued0 [] none).settled ≤ s.now 0 ∧
     (s.core 0).l1 = [] ∧ s.marks = []) ∧
    (let it := (op0 (.sts ⟨c0, .b64, 8, 4, .lane, .thread, 0, false⟩) .s 2 [0, 0x20] [[0, 5], [0, 6]] []).item
     let e : Exec := { idle0 with clauses := [issued0 [it] none] }
     (at0 0 e).exec ⟨0, 0⟩ = some e ∧ formOk it.instr = true ∧ it.on = true ∧ it.g ≠ 0 ∧ e.relScope = none ∧
     (∀ l, l < 32 → it.g.getLsbD l = true → (it.kv.getD l 0).toNat + 8 ≤ launch0.spsize ∧ (it.kv.getD l 0).toNat % 8 = 0)) ∧
    (let it := (op0 (.take ⟨c0, 1, 1⟩) .none 0xFFFFFFFF [] [] []).item
     let e : Exec := { idle0 with clauses := [issued0 [it] none], queue := [decision0] }
     (at0 0 e).exec ⟨0, 0⟩ = some e ∧ Quiet (at0 0 e) ∧ it.instr = .take ⟨c0, 1, 1⟩ ∧ e.queue = [decision0]) ∧
    (let c := issued0 [] (some { code := 2, info := 0, tmask := 1, faddr := 0, word := 0 })
     c.cause.isSome = true ∧ c.gives = [] ∧ c.parts = none ∧ (c.undo.map RegVal.key).Nodup) := by decide

theorem wit_HandlersAreEntered :
    (let cause : Cause := { code := 2, info := 0, tmask := 1, faddr := 0, word := 0 }
     let e : Exec := { idle0 with cause := some cause }
     let s := mapped0 0 e [] [0x10]
     Quiet s ∧ (s.core 0).l1 = [] ∧ e.entries = [] ∧ e.handler = false ∧ launch0.handler ≠ 0 ∧ isSlot 0 = false ∧ launch0.ctxbase % 4096 = 0 ∧
     (s.core 0).tlb.find? (fun t => t.ctx = 1 && t.page = launch0.ctxbase / 4096 && xlCurrent s t.xl) =
       some { ctx := 1, page := 0x10, xl := page0 0x10 }) := by decide

/-- An apply of the lanes 0 and 33 that runs a block in slots. -/
def apply0 : Apply :=
  { word := .apply ⟨c0, 1, 5, 17, 8, 4, true⟩, members := [0, 33], ks := List.replicate 8 0, target := 0x2000, round := 0, phase := 0
    active := [], clause := 0x1000, released := [] }

def parked0 : Exec := { idle0 with waits := [.parked] }

theorem wit_AppliesRunInRounds :
    (let w : Workgroup := { wg0 [(0, some parked0), (1, some parked0)] with apply := some apply0 }
     let s := on0 0 w
     s.wg 0 = some w ∧ w.apply = some apply0 ∧ apply0.phase = 0 ∧ (∀ m ∈ apply0.members, m < 1024) ∧ apply0.ks.length = 8 ∧
     (∀ m ∈ apply0.members, settled w (m / 32) = true) ∧ s.turns = [] ∧ w.phase = .running ∧ (∃ m ∈ apply0.members, ∃ e, w.exec (m / 32) = some e ∧ e.retired = false)) ∧
    (let done : Exec := { idle0 with exiting := true }
     let a : Apply := { apply0 with phase := 1, active := [32] }
     let w : Workgroup := { wg0 [(0, some parked0), (1, some parked0), (32, some done)] with apply := some a }
     let s := on0 0 w
     s.wg 0 = some w ∧ a.phase = 1 ∧ Quiet s ∧ s.turns = [] ∧ w.applies = [] ∧ (∀ p ∈ s.busy, ∀ q ∈ p.2.all, ∀ wt ∈ q.2.waits, wt = .parked) ∧ mapWf 0 s.events = true ∧ a.members.Nodup ∧
     (∃ e, w.exec 32 = some e ∧ e.exiting = true ∧ e.ops = [] ∧ e.cL = 0)) ∧
    (let a : Apply := { apply0 with word := .applyw ⟨c0, 1, 5, 17, false⟩, phase := 1, active := [0] }
     let old : Aside := { regs := [.k 0 1, .a 1 3], pc := 0x1100, waits := [.parked] }
     let e : Exec := { parked0 with exiting := true, aside := some old }
     let w : Workgroup := { wg0 [(0, some e)] with apply := some a }
     (on0 0 w).wg 0 = some w ∧ w.exec 0 = some e ∧ e.aside = some old ∧ e.waiting = [] ∧ (old.regs.map RegVal.key).Nodup ∧ a.active.erase 0 = []) := by
  refine ⟨⟨rfl, rfl, rfl, by decide, rfl, by decide, rfl, rfl, 0, by decide, parked0, rfl, rfl⟩, ?_, by decide⟩
  exact ⟨rfl, rfl, by decide, rfl, rfl, by decide, by decide, by decide, _, rfl, rfl, rfl, rfl⟩

def taken0 : Taken :=
  { launch := launch0, order := 0, level := 0, released := false, next := 0, returned := [], asked := [], retired := 0, since := 0, clusters := [0] }

theorem wit_GangsArePlacedAndCoresFreed :
    (let u : Taken := { taken0 with released := true }
     let s : State := { State.reset with taken := [u] }
     s.startState = 2 ∧ nextFor s 0 = some (.gang u 0, [0]) ∧ u.returned = [] ∧ u.asked = [] ∧ s.reservations = [] ∧ u.launch.slots ≤ 8 ∧ u.launch.menu = [] ∧ [0].length = u.launch.gsize ∧
     u.launch.nwarps ≤ 32 ∧ mapWf Field.locked s.fields = true ∧ ∀ n ∈ [0], fieldOf n = fieldOfCluster 0) ∧
    nextFor State.reset 0 = none ∧
    (let e : Exec := { idle0 with retired := true }
     let w := wg0 [(0, some e), (40, some e)]
     let s := on0 0 w
     s.wg 0 = some w ∧ Quiet s ∧ mapWf Core.idle s.cores = true ∧ mapWf none w.execs = true ∧ w.apply = none ∧ s.remotes = [] ∧ (s.core 0).l1 = [] ∧
     s.trace = none ∧ s.governors = [] ∧ s.saved = []) := by decide

theorem wit_DoorbellsAndLevels :
    (hostHears 3 16 (hdr 0) = true ∧ (hdr 2).src = State.reset.hostId ∧ fits (hdr 2) 12 10 = true ∧ (hdr 2).zero = true) ∧
    (let l : Level := { base := 0x40000, lgsize := 4, ctx := 1, tail := 3, head := 2, doneN := 1, running := true, took := true, finished := [] }
     let s : State := { State.reset with queueTable := some 0x8000, levels := [(9, some l)] }
     s.startState = 2 ∧ 0x8000 + 0x8000 ≤ 0x12000000000 ∧ Quiet s ∧ Memory.wf s.mem = true ∧ mapGet none s.levels (8 * 1 + 1) = some l ∧ l.tail ≤ 17 ∧
     17 ≤ l.doneN + 2 ^ l.lgsize ∧ l.doneN + 2 ^ l.lgsize < 18) ∧
    (let s : State := { State.reset with queueTable := some 0x8000, mem := at8 (0x8000 + 64 * 9) 0x40000 ++ at8 (0x8000 + 64 * 9 + 8) 4 }
     mapGet none s.levels 9 = none ∧ readNat s.mem (0x8000 + 64 * 9) 8 % 4096 = 0 ∧ readNat s.mem (0x8000 + 64 * 9 + 8) 1 = 4 ∧
     readNat s.mem (0x8000 + 64 * 9 + 10) 2 = 0) := by decide

/-- A level whose next record lies at 0x40000. -/
def level0 : Level :=
  { base := 0x40000, lgsize := 4, ctx := 1, tail := 1, head := 0, doneN := 0, running := true, took := false, finished := [] }

/-- A launch record of one workgroup of one warp at 0x40000, with an entry header at 0x5000 (R267). -/
def record0 : Memory :=
  at8 0x5000 header1.toNat ++ paged ++ at8 0x40010 7 ++ at8 0x40038 1 ++ [(0x4003C, 1), (0x4003D, 1), (0x4003F, 1), (0x40040, 1), (0x40042, 2), (0x40045, 32)] ++
    at8 0x40046 10 ++ [(0x40048, 1), (0x4004C, 1)] ++ (upto 8).map fun i => (0x40054 + 8 * i, 1)

theorem wit_RecordsAreTaken :
    (let s : State := { State.reset with queueTable := some 0x8000, contextTable := some 0x20000, levels := [(0, some level0)], mem := record0
                                         codeObjs := [{ id := 7, f := some (0x5000, 64), e := some (0x5000, 64) }] }
     Quiet s ∧ Memory.wf s.mem = true ∧ mapGet none s.levels 0 = some level0 ∧ level0.head < level0.tail ∧
     (s.taken.filter fun t => t.level = 0 && !t.allPlaced).length < 16 ∧ 0x40000 + 256 ≤ 0x12000000000 ∧
     (checkRecord { s with mem := writeBytes s.mem (0x8000 + 24) (leBytes 8 1) } (parseRecord level0 0 0 (readBytes s.mem 0x40000 256)) 0
       (readBytes s.mem 0x40000 256)).toOption.isSome = true) := by decide

theorem wit_LaunchesAreReleasedAndRetire :
    (let u : Taken := { taken0 with launch := { launch0 with wait := 4 } }
     let s : State := { State.reset with taken := [u], endEvents := [(0, 5)], events := [(0, 5)] }
     s.startState = 2 ∧ u.released = false ∧ u.launch.affinity / 2 ^ 0 % 2 = 1 ∧ mapWf 0 s.events = true ∧ eventWaiters s 0 = [] ∧ turnFree s 0 lastTurn = true ∧
     mapGet 0 s.endEvents 0 &&& u.launch.wait = u.launch.wait) ∧
    (let u : Taken := { taken0 with released := true, retired := 1 }
     let s : State := { State.reset with taken := [u], queueTable := some 0x8000, levels := [(0, some { level0 with head := 1 })] }
     mapGet none s.levels u.level = some { level0 with head := 1 } ∧ Quiet s ∧ Memory.wf s.mem = true ∧ mapWf 0 s.events = true ∧ s.busy = [] ∧
     u.launch.nwg ≤ u.retired ∧ ({ level0 with head := 1 } : Level).doneN = u.launch.seq) := by decide

/-- A machine in which a higher-priority launch finds every core of its cluster held by a lower one. -/
def held0 (prio : Nat) : State :=
  { State.reset with
    cores := (upto 8).map fun n => (n, { Core.idle with wg := some { wg0 [(0, some idle0)] with launch := { launch0 with gen := 5, prio } } })
    taken := [{ taken0 with released := true, launch := { launch0 with prio := 7 } }] }

theorem wit_ReservationsAndWatchdogs :
    blocked State.reset 0 = [] ∧
    (let c : Cand := .gang { taken0 with released := true, launch := { launch0 with prio := 7 } } 0
     blocked (held0 0) 0 = [c] ∧ plansOf (held0 0) c ≠ [] ∧ blocked (held0 7) 0 = [c] ∧ plansOf (held0 7) c = [] ∧
     mixedPlans (held0 7) c = [] ∧ candClusters (held0 7) c = [0] ∧ openWindows (held0 7) c 0 ≠ []) ∧
    (let w : Workgroup := { wg0 [(0, some idle0)] with wdogLeft := 0 }
     let s : State := { on0 0 w with
       reservations := [{ gen := 1, gang := 0, wgid := none, cluster := 0, cores := [0], budget := 1, field := 0, victims := [(0, 0)] }] }
     s.wg 0 = some w ∧ w.wdogLeft = 0 ∧ (∃ r ∈ s.reservations, (w.launch.gen, w.wgid / w.launch.gsize) ∈ r.victims) ∧
     mapWf Core.idle s.cores = true ∧ w.phase = .running ∧ wgRetired w = false) := by decide

/-- A ring header of two slots of 64 bytes and one consumer, with one item (R168). -/
def ring0 : Memory := paged ++ at8 0x50000 1 ++ at8 0x50008 0x60000 ++ at8 0x50010 0x61000 ++ at8 0x50018 0x10601

theorem wit_GovernorsMoveTwins :
    (let g : Governor := { ringA := 0x50000, ringB := 0x50000, hiA := 1, loA := 0, hiB := 9, loB := 0, qload := 0, qcomp := 1, qstore := 2, ctx := 1
                           stages := [0, 0, 1, 2], moving := none, ticked := none, request := none, again := false }
     let s : State := { State.reset with contextTable := some 0x20000, mem := ring0, governors := [(0, some g)] }
     mapGet none s.governors 0 = some g ∧ g.stages.length = 4 ∧ (ctxDesc s g.ctx).map (·.root) = some 0x30000 ∧
     (occupancy s g.ctx 0x30000 g.ringA).toOption = some (some 1) ∧ (s.field (fieldOfCluster 0)).count % 1024 = 0 ∧
     g.hiA ≤ 1 ∧ 2 ≤ (g.stages.filter (· = 0)).length ∧ (s.wg 0).isNone = true) := by decide

theorem wit_AnswersAndShootdowns :
    (let r : PageReq := { reqid := 3, ctx := 1, gen := 0, pages := [], path := 1, wgid := 0, who := .exec ⟨0, 0⟩ }
     let e : Exec := { idle0 with waits := [.page 3] }
     let s : State := { at0 0 e with contextTable := some 0x20000, mem := paged, requests := [r] }
     hostHears 5 24 (hdr 2) = true ∧ hostHears 6 24 (hdr 2) = true ∧ (ctxDesc s r.ctx).map (fun d => (d.live, d.gen)) = some (true, r.gen) ∧
     s.exec ⟨0, 0⟩ = some e ∧ mapWf Core.idle s.cores = true ∧ Quiet s ∧ (s.core 0).l1 = []) ∧
    (let r : PageReq := { reqid := 3, ctx := 1, gen := 0, pages := [], path := 0, wgid := 0, who := .launch 0 0 }
     let s : State := { State.reset with contextTable := some 0x20000, mem := paged, requests := [r], taken := [taken0] }
     r.who = .launch taken0.launch.gen 0 ∧ s.taken = [taken0]) ∧
    (let sh : Shoot := { ctx := 1, number := 4, src := 1, tag := 0, ops := [(⟨0, 0⟩, 0)] }
     let o := op0 (.ld ⟨c0, .b32, 8, 4, .lane, .thread, 0, false⟩) .l 1 [0x2000] [] [.v 8 0]
     let s : State := { at0 0 (waiting0 o) with shoots := [sh] }
     s.shoots = [sh] ∧ Quiet s ∧ s.exec ⟨0, 0⟩ = some (waiting0 o) ∧ o.performed = false ∧ (⟨0, 0⟩, o.id) ∈ sh.ops) := by decide

theorem wit_AccessesFromOutside :
    (let s : State := State.reset
     hostHears 0 17 (hdr 0) = true ∧ hostHears 1 16 (hdr 0) = true ∧ hostHears 10 32 (hdr 0) = true ∧ s.unreachable = [] ∧ Quiet s ∧
     Memory.wf s.mem = true ∧ s.poison = []) ∧
    (let top : Nat := 0x12000000000
     top - 1 + 1 ≤ top ∧ top < top + 1 ∧ top < 2 ^ 52 ∧ 8 % 8 = 0 ∧ 3072 ≤ 3072) ∧
    poisoned { State.reset with poison := [(0x40, 6)] } 0x44 1 = true := by decide

theorem wit_RemoteResponses :
    (let o := op0 (.st ⟨c0, .b32, 8, 4, .lane, .system, 0, false⟩) .s 1 [0x2000] [[5]] []
     let r : Remote := { tag := 0, ep := 1, x := ⟨0, 0⟩, op := 0, kind := 0, lane := 0, addr := 0x2000, len := 4 }
     let s : State := { at0 0 (waiting0 o) with remotes := [r] }
     Alone s ⟨0, 0⟩ (wg0 [(0, some (waiting0 o))]) (waiting0 o) o ∧ s.remotes = [r] ∧ o.lanes = 1 <<< 0 ∧ (hdr 1).tag = r.tag ∧ (hdr 1).src = r.ep ∧
     hostHears 2 8 (hdr 1) = true ∧ hostHears 2 12 (hdr 1) = true ∧ r.addr = (o.item.kv.getD 0 0).toNat ∧ (waiting0 o).entries = []) ∧
    (let o := op0 (.ld ⟨c0, .b32, 8, 4, .lane, .system, 0, false⟩) .l 1 [0x2000] [] [.v 8 0]
     let r : Remote := { tag := 0, ep := 1, x := ⟨0, 0⟩, op := 0, kind := 1, lane := 0, addr := 0x2000, len := 4 }
     let s : State := { at0 0 (waiting0 o) with remotes := [r] }
     Alone s ⟨0, 0⟩ (wg0 [(0, some (waiting0 o))]) (waiting0 o) o ∧ r.addr = (o.item.kv.getD 0 0).toNat) :=
  ⟨⟨⟨rfl, rfl, rfl, rfl, rfl, rfl, rfl, ⟨rfl, rfl, rfl⟩, rfl, rfl, no_asker⟩, by decide⟩, ⟨rfl, rfl, rfl, rfl, rfl, rfl, rfl, ⟨rfl, rfl, rfl⟩, rfl, rfl, no_asker⟩, by decide⟩

theorem wit_ContextsAreKilled :
    (hdr 2).src = (at0 0 idle0).hostId ∧ fits (hdr 2) 12 12 = true ∧ (hdr 2).zero = true ∧ (at0 0 idle0).startState = 2 ∧ mapWf Core.idle (at0 0 idle0).cores = true ∧ Quiet (at0 0 idle0) ∧
    launch0.ctx = 1 ∧ 1 < 4096 := by decide

/-- The small machine in handler state, at an RFT whose frame resumes at 0x5000. -/
def returning0 : State :=
  let it := (op0 (.rft ⟨c0, true⟩) .none 0xFFFFFFFF [] [] []).item
  mapped0 0 { idle0 with handler := true, clauses := [issued0 [it] none] } (at8 0x5000 header1.toNat ++ at8 0x10010 0x5000 ++ at8 0x1002C 3)
    [0x10, 5]

theorem wit_HandlersReturn :
    Quiet returning0 ∧ (returning0.core 0).l1 = [] ∧ (returning0.core 0).code = [] ∧ returning0.marks = [] ∧ returning0.poison = [] ∧
    turnFree returning0 (clusterOf 0) (turnOf 0 0) = true ∧ launch0.ctxbase % 4096 = 0 ∧ launch0.ctxbase + 4096 ≤ 2 ^ 57 ∧
    (returning0.core 0).tlb.find? (fun t => t.ctx = 1 && t.page = 0x10000 / 4096 && xlCurrent returning0 t.xl) =
      some { ctx := 1, page := 0x10, xl := page0 0x10 } ∧
    readNat returning0.mem 0x10010 8 = 0x5000 ∧
    (returning0.core 0).tlb.find? (fun t => t.ctx = 1 && t.page = 0x5000 / 4096 && xlCurrent returning0 t.xl) =
      some { ctx := 1, page := 5, xl := page0 5 } ∧
    BitVec.ofNat 64 (readNat returning0.mem 0x5000 8) = header1 ∧ BitVec.ofNat 32 (readNat returning0.mem 0x1002C 4) &&& idle0.base ≠ 0 := by
  decide

/-- LOOP's three cases, and BCAST's source lane at both ends of its range. -/
theorem wit_LoopCountsDown :
    (exec0 [] []).rk 9 = 0 ∧ (exec0 [] [(9, 1)]).rk 9 = 1 ∧ (exec0 [] [(9, 2)]).rk 9 = 2 ∧ executes ⟨0, 0⟩ (exec0 [] []) c0 = true ∧
    executes ⟨0, 0⟩ (exec0 [] []) { c0 with n := true } = false ∧ (exec0 [] [(9, 31)]).rk 9 = 31 ∧ (exec0 [] [(9, 32)]).rk 9 = 32 := by decide

theorem wit_StepRunsTheDecodedWord :
    (let e : Exec := { idle0 with clauses := [clause0 [0x6C00_0000_0000_0000]] }
     let s : State := { at0 0 e with agenda := [.word ⟨0, 0⟩], cur := none }
     allowed s (.word ⟨0, 0⟩) = .word ⟨0, 0⟩ ∧ s.exec ⟨0, 0⟩ = some e ∧ e.clauses.getLast? = some (clause0 [0x6C00_0000_0000_0000]) ∧
     (clause0 [0x6C00_0000_0000_0000]).due ≤ s.now 0 ∧ decode 0x6C00_0000_0000_0000 none = .ok (.nop c0)) := by
  refine ⟨by decide, rfl, by decide, by decide, rfl⟩

theorem test_unassigned_word : (match decode 0x0700_0000_0000_0000 none with | .ok _ => false | .error _ => true) = true := by decide

/-- A word that its executor does not accept, and an accepted one beyond the window. -/
theorem wit_IllegalWordsTrap :
    ctlOf (.give ⟨c0, 4, 5⟩) = some c0 ∧ ¬ Accepted ⟨0, 0⟩ (.give ⟨c0, 4, 5⟩) c0 ∧ Accepted ⟨0, 0⟩ (.add { two .i32 with b := 64 }) c0 ∧
    64 ∈ (foot false (.add { two .i32 with b := 64 })).vr ++ (foot false (.add { two .i32 with b := 64 })).vw ∧ launch0.window ≤ 64 := by decide

theorem wit_IssueHasNoEffectOutsideItsExecutor :
    isWord (.add (two .i32)) = true ∧
    (let h : Shadow := { pc := 0x1100, v := [], k := [], a := [], a0 := 1, parts := [], poison := [], pages := [], words := 0, trail := [], ended := false }
     let e : Exec := { exec0 [] [] with shadow := some h }
     Ahead (at0 0 e) ⟨0, 0⟩ (wg0 [(0, some e)]) e (clause0 [0, 0]) h) := ⟨rfl, rfl, rfl, rfl, rfl, rfl, rfl⟩

/-- Every word listed above is well formed (DecodeInvertsEncode), and a step of the machine after reset answers a next state
(MemoryStaysCanonical). -/
theorem wit_DecodeInvertsEncode : ((movesWords ++ controlWords ++ loadsWords).all fun p => isWord p.2 && formOk p.2) = true := by decide

theorem wit_MemoryStaysCanonical : Memory.wf State.reset.mem = true ∧ (match step { State.reset with agenda := [.tick] } with | .next _ => true | _ => false) = true := by
  decide

theorem mapM_ok {α β ε : Type} (f : α → Except ε β) (g : α → β) (l : List α) (h : ∀ a ∈ l, f a = .ok (g a)) : l.mapM f = .ok (l.map g) := by
  induction l with
  | nil => rfl
  | cons a l ih =>
    rw [List.mapM_cons, h a (by simp), ih fun b hb => h b (by simp [hb])]
    rfl

/-- The small machine as its workgroup is saved. -/
def saving0 : Workgroup := { wg0 [(0, some idle0)] with launch := { launch0 with root := 0x30000 }, phase := .saving false }
def savingState0 : State := { on0 0 saving0 with contextTable := some 0x20000, mem := paged }

theorem walk_paged (va : Nat) (h : va < 2 ^ 30) : walk savingState0 1 0x30000 va = .ok (page0 (va / 4096)) := by
  have h4 : va / pageSize 4 % 512 = 0 := by unfold pageSize; omega
  have h3 : va / pageSize 3 % 512 = 0 := by unfold pageSize; omega
  have h2 : va / pageSize 2 % 512 = 0 := by unfold pageSize; omega
  have p4 : pteAt savingState0 0x30000 0 = some 0x31001 := by decide
  have p3 : pteAt savingState0 0x31000 0 = some 0x32001 := by decide
  have p2 : pteAt savingState0 0x32000 0 = some 0x73 := by decide
  have q4 : pteOf 0x31001 = { rdev := 0, pa := 0x31000, run := false, rmt := false, ex := false, wr := false, rd := false, leaf := false, valid := true, zero := true } := by
    decide
  have q3 : pteOf 0x32001 = { rdev := 0, pa := 0x32000, run := false, rmt := false, ex := false, wr := false, rd := false, leaf := false, valid := true, zero := true } := by
    decide
  have q2 : pteOf 0x73 = { rdev := 0, pa := 0, run := false, rmt := false, ex := true, wr := true, rd := true, leaf := true, valid := true, zero := true } := by
    decide
  have m4 : pteMalformed savingState0.ownId 4 (pteOf 0x31001) = false := by decide
  have m3 : pteMalformed savingState0.ownId 3 (pteOf 0x32001) = false := by decide
  have m2 : pteMalformed savingState0.ownId 2 (pteOf 0x73) = false := by decide
  have e2 : va % pageSize 2 = va := Nat.mod_eq_of_lt (by unfold pageSize; omega)
  unfold walk walkFrom
  rw [h4, p4]
  dsimp only
  rw [m4, q4]
  dsimp only [Bool.not_true, Bool.false_eq_true, if_false]
  unfold walkFrom
  rw [h3, p3]
  dsimp only
  rw [m3, q3]
  dsimp only [Bool.not_true, Bool.false_eq_true, if_false]
  unfold walkFrom
  rw [h2, p2]
  dsimp only
  rw [m2, q2]
  simp [e2, page0]

/-- A workgroup that may be saved, and the pages of its save area. -/
theorem wit_WorkgroupsAreSavedAndReturn :
    savingState0.wg 0 = some saving0 ∧ Quiet savingState0 ∧ saveReady savingState0 0 saving0 = true ∧ saving0.batch.length ≤ 16 ∧ launch0.spsize ≤ 2 ^ 20 ∧
    (∀ p ∈ (upto 983).map (0x39 + ·), p < 2 ^ 40) ∧
    areaPages savingState0 saving0.launch (launch0.ctxbase + 164 * 1024) = .ok ((upto 983).map (0x39 + ·)) := by
  refine ⟨rfl, by decide, by decide, by decide, by decide, ?_, ?_⟩
  · intro p hp
    rw [List.mem_map] at hp
    obtain ⟨i, hi, rfl⟩ := hp
    have := List.mem_range.1 hi
    omega
  unfold areaPages
  refine mapM_ok _ _ _ fun i hi => ?_
  have hi' : i < 983 := List.mem_range.1 hi
  have hp : (launch0.ctxbase + 164 * 1024) / 4096 + i = 0x39 + i := by
    have : (launch0.ctxbase + 164 * 1024) / 4096 = 0x39 := by decide
    omega
  have hw := walk_paged ((0x39 + i) * 4096) (by omega)
  rw [Nat.mul_div_cancel _ (by omega)] at hw
  dsimp only
  rw [hp]
  have : walk savingState0 saving0.launch.ctx saving0.launch.root ((0x39 + i) * 4096) = .ok (page0 (0x39 + i)) := hw
  rw [this]
  rfl

/-- A saved workgroup that may return, and the machine that holds it. -/
def saved0 : Saved :=
  { wg := { wg0 [(0, some idle0)] with launch := { launch0 with root := 0x30000 } }, core := 0, reqid := 0, waiting := false, since := 0
    macros := none, tiles := [], badTiles := [], sp := [(3, 7)], spBad := [], area := [], evac := false }
def returningState0 : State :=
  { State.reset with contextTable := some 0x20000, mem := paged, saved := [saved0], taken := [{ taken0 with released := true, next := 1 }] }

/-- A workgroup that its cluster places next, its save area as the save left it. -/
theorem wit_WorkgroupsReturn :
    returningState0.startState = 2 ∧ Quiet returningState0 ∧ Memory.wf returningState0.mem = true ∧
    nextFor returningState0 0 = some (.restore saved0, [0]) ∧ returningState0.gangBars = [] ∧ eventWaiters returningState0 0 = [] ∧
    (ctxDesc returningState0 1).map (·.root) = some saved0.wg.launch.root ∧ areaBytes returningState0 ((upto 983).map (0x39 + ·)) = saved0.area ∧
    mapWf 0 saved0.sp = true ∧ (∀ p ∈ saved0.sp, p.1 < saved0.wg.launch.spsize) ∧ saved0.wg.exec 0 = some idle0 ∧ idle0.retired = false ∧
    idle0.holds = [] ∧ syncOps idle0 = [] ∧ idle0.waits = [] ∧ nextFor State.reset 0 = none := by
  refine ⟨rfl, by decide, by decide, by decide, rfl, by decide, by decide, ?_, by decide, by decide, rfl, rfl, rfl, rfl, rfl, by decide⟩
  have hm : ∀ c ∈ paged, c.1 < 0x39000 := by decide
  unfold areaBytes
  show _ = []
  rw [List.flatMap_eq_nil_iff]
  intro p hp
  have hq : 0x39 ≤ p.2 := by
    have := (List.of_mem_zip hp).2
    rw [List.mem_map] at this
    obtain ⟨i, -, hi⟩ := this
    omega
  rw [List.map_eq_nil_iff, List.filter_eq_nil_iff]
  intro c hc
  have := hm c hc
  simp only [Bool.and_eq_true, decide_eq_true_eq, not_and, Nat.not_lt]
  omega

-- witnesses for the clauses on commits, engines, slots and the headspring

/-- The machine whose executor 0 of core 0 waits for o alone, with this memory, these pages cached, and a change to its core. -/
def engine0 (o : Op) (m : Memory) (pages : List Nat) (f : Core → Core) : State :=
  { State.reset with
    mem := m
    cores := [(0, f { Core.idle with
      wg := some (wg0 [(0, some (waiting0 o))]), tlb := pages.map fun p => { ctx := 1, page := p, xl := page0 p } })] }

theorem alone_of (s : State) (o : Op) (h : s.wg 0 = some (wg0 [(0, some (waiting0 o))]) ∧ o.performed = false ∧ Quiet s ∧ s.poison = [] ∧
    s.crossings = [] ∧ s.requests = []) : Alone s ⟨0, 0⟩ (wg0 [(0, some (waiting0 o))]) (waiting0 o) o :=
  ⟨h.1, rfl, rfl, rfl, rfl, rfl, h.2.1, h.2.2.1, h.2.2.2.1, h.2.2.2.2.1, by rw [h.2.2.2.2.2]; exact no_asker⟩

theorem exec_wg0 (e p : Exec) (n : Nat) (h : (wg0 [(0, some e)]).exec n = some p) : p = e := by
  rcases Nat.eq_zero_or_pos n with rfl | hn
  · exact (Option.some.inj h).symm
  · have : (wg0 [(0, some e)]).exec n = none := by
      simp [Workgroup.exec, wg0, mapGet]
      omega
    rw [this] at h
    cases h

/-- An item of a clause that is about to commit. -/
def item0 (i : Instr) (kv : List Word) : Item := (op0 i .none 1 kv [] []).item

/-- PoolWords: a PFILL, and a PDEP in a slot whose lanes 1 and 2 share a home. -/
theorem wit_PoolWords :
    (∀ n p, (wg0 [(0, some idle0)]).exec n = some p → ∀ c ∈ p.clauses, c.parts = none) ∧ mapWf none (wg0 [(0, some idle0)]).execs = true ∧
    (let e : Exec := { idle0 with origin := [(0, 40), (1, 2), (2, 2)], base := 7 }
     (on0 33 (wg0 [(33, some e)])).exec ⟨0, 33⟩ = some e ∧ isSlot 33 = true ∧
     ((List.range 32).filter fun l => e.base.getLsbD l && decide (mapGet 0 e.origin l = 2)) = [1, 2]) := by
  refine ⟨fun n p h => ?_, by decide, by decide⟩
  rw [exec_wg0 idle0 p n h]
  exact nofun

theorem wit_PoolRecordsAppliesAndParking :
    (let w : Workgroup := { wg0 [(0, some parked0), (1, some parked0)] with apply := some { apply0 with members := [0] } }
     mapWf none w.execs = true ∧ w.exec 1 = some parked0 ∧ Wait.parked ∈ parked0.waits ∧
     (∃ m ∈ apply0.members, m / 32 = 0) ∧ ∀ m ∈ [0], m / 32 ≠ 1) ∧
    (let it := item0 (.pst ⟨c0, 1, 7, .sp, .thread, 0⟩) [0x40]
     it.on = true ∧ it.kv = [0x40] ∧ (0x40 : Word).toNat % 16 = 0 ∧ (0x40 : Word).toNat + 144 ≤ launch0.spsize) ∧
    (let o := op0 (.pst ⟨c0, 1, 7, .vt, .thread, 0⟩) .s 1 (0x40 :: List.replicate 18 3) [] []
     let o : Op := { o with lanes := laneSet ((accsOf o.item).map accLane) }
     Alone (at0 0 (waiting0 o)) ⟨0, 0⟩ (wg0 [(0, some (waiting0 o))]) (waiting0 o) o ∧ formOk o.item.instr = true ∧ o.item.kv.length = 19 ∧
     ∀ j, j < 144 → locOf 0 o.item.xl .vt (0x40 + j) = .home (2 ^ 52 + 0x40 + j)) ∧
    (let o := op0 (.pld ⟨c0, 1, 7, .gl, .device, 0⟩) .l 1 [0x2040] [] []
     let o : Op := { o with lanes := laneSet ((accsOf o.item).map accLane) }
     Alone (at0 0 (waiting0 o)) ⟨0, 0⟩ (wg0 [(0, some (waiting0 o))]) (waiting0 o) o ∧ formOk o.item.instr = true ∧
     mapWf (0 : BitVec 1024) (wg0 []).pools = true ∧ mapWf none (wg0 []).tags = true ∧
     ∀ j, j < 144 → locOf 0 o.item.xl .gl (0x2040 + j) = .home (0x102040 + j)) := by
  refine ⟨by decide, by decide, ⟨alone0 _ rfl (by decide), by decide⟩, alone0 _ rfl (by decide), by decide⟩

/-- A waiter for bits 1 and 2. -/
def waiter0 : Wait := .event 6 false true .wg 1

theorem wit_SynchronisingWords :
    (let s : State := { at0 0 idle0 with events := [(0, 5)] }
     mapWf 0 s.events = true ∧ mapWf 0 idle0.k = true ∧ (item0 (.evset ⟨c0, 8, .device⟩) [2, 0, 0, 1]).kv.length = 4 ∧ sleepers s = [] ∧
     eventWaiters s 0 = [] ∧ (∀ p ∈ s.busy, ∀ d ∈ p.2.all, d.2.waits = [])) ∧
    (let e : Exec := { idle0 with waits := [waiter0] }
     let s : State := { on0 0 (wg0 [(0, some idle0), (1, some e)]) with events := [(0, 5)] }
     eventWaiters s 0 = [{ x := ⟨0, 1⟩, wait := waiter0, mask := 6, any := false, clr := true, order := 1 }] ∧
     s.exec ⟨0, 1⟩ = some e ∧ ∀ p ∈ s.busy, ∀ d ∈ p.2.all, ∀ wt ∈ d.2.waits, wt = waiter0) ∧
    (let w : Workgroup := { wg0 [(0, some idle0), (40, some { idle0 with waits := [.barrier 5] })] with
       barriers := [(5, some { count := 2, arrived := [(40, .wg, 0)] })] }
     mapWf none w.barriers = true ∧ 2 ≤ launch0.nwarps + 1 ∧ ¬ 3 ≤ launch0.nwarps + 1 ∧ mapGet none (wg0 []).barriers 5 = none ∧
     ((mapGet none w.barriers 5).map (·.count)) = some 2 ∧ Wait.barrier 5 ∉ idle0.waits ∧
     ([((40 : Nat), Scope.wg, 0)].map (·.1)).Nodup ∧ 0 ∉ [((40 : Nat), Scope.wg, 0)].map (·.1)) ∧
    ((∀ k sc op, Wait.gbar k sc op ∉ idle0.waits) ∧ 1 ≤ launch0.gsize ∧
     (let a : GangArrival := { gen := 0, gang := 0, id := 2, wgid := 1, core := 1, scope := .cluster, op := 0 }
      ([a].map (·.core)).Nodup ∧ 0 ∉ [a].map (·.core) ∧ a.gen = launch0.gen ∧ a.wgid = 1)) := by
  refine ⟨by decide, by decide, by decide, ⟨fun _ _ _ => nofun, by decide, by decide⟩⟩

/-- A lawful request, one of no rows, and a twin span that the small machine's core may not lead. -/
theorem wit_MatrixWords :
    (let it := item0 (.setshape ⟨c0, 1, 2, 4, 5, 6, true⟩) [100, 300, 1000]
     it.instr = .setshape ⟨c0, 1, 2, 4, 5, 6, true⟩ ∧ mapWf 0 (wg0 []).shapes = true ∧ (∀ j, j < 3 → 0 < (it.kv.getD j 0).toNat ∧ (it.kv.getD j 0).toNat < 2 ^ 32) ∧
     launch0.twin = false) ∧
    ¬ 0 < ((item0 (.setshape ⟨c0, 1, 2, 4, 5, 6, true⟩) [0, 300, 1000]).kv.getD 0 0).toNat ∧
    (let w : Workgroup := { wg0 [(0, some idle0)] with launch := { launch0 with twin := true, gsize := 2, nwg := 2 } }
     let s : State := { State.reset with cores := [(0, { Core.idle with wg := some w }), (1, { Core.idle with wg := some { w with wgid := 1 } })] }
     0 % 2 = 0 ∧ w.launch.twin = true ∧ ∃ v, s.wg (0 + 1) = some v ∧ v.launch.gen = w.launch.gen ∧ v.wgid / v.launch.gsize = w.wgid / w.launch.gsize) :=
  ⟨by decide, by decide, rfl, rfl, _, rfl, rfl, rfl⟩

theorem wit_FabricEventsAndLinkEpochs_retry :
    (let s : State := { State.reset with ports := [(3, { Port.up with down := true, since := 5 })], time := 4 * 10 ^ 9 + 5 }
     phyUp s 3 = true ∧ (mapGet Port.up s.ports 3).down = true ∧ (mapGet Port.up s.ports 3).since + 4 * 10 ^ 9 ≤ s.time ∧ mapWf Port.up s.ports = true) ∧
    phyUp State.reset 3 = true ∧ State.reset.remotes = [] := by decide

/-- A level whose state byte is 1, one whose base is misaligned, and a governor that is on. -/
theorem wit_ManagementCommandsAndTables_started :
    (let m : Memory := at8 0x8000 0x40000 ++ at8 0x8008 0x104 ++ at8 0x8010 3 ++ at8 0x8018 2 ++ at8 0x8020 1 ++ at8 0x8040 0x40001 ++ at8 0x8048 0x104
     Memory.wf m = true ∧ readNat m 0x8009 1 = 1 ∧ readNat m 0x8000 8 % 4096 = 0 ∧ readNat m 0x8008 1 = 4 ∧ readNat m 0x8020 8 ≤ readNat m 0x8018 8 ∧
     readNat m 0x8018 8 ≤ readNat m 0x8010 8 ∧ readNat m 0x8049 1 = 1 ∧ readNat m 0x8040 8 % 4096 ≠ 0) ∧
    (let m : Memory := at8 0x810 9 ++ at8 0x818 5 ++ at8 0x820 0x1030201 ++ at8 0x828 0x10101
     0x800 % 0x800 = 0 ∧ State.reset.governors = [] ∧ readNat m 0x814 4 < readNat m 0x810 4 ∧ readNat m 0x81C 4 < readNat m 0x818 4 ∧ readNat m 0x823 1 = 1 ∧
     1 ≤ readNat m 0x828 1 ∧ 1 ≤ readNat m 0x829 1 ∧ 1 ≤ readNat m 0x82A 1 ∧ readNat m 0x82B 21 = 0) := by decide

theorem wit_StartsPowerDownAndTheLimiter_board :
    (let s : State := { State.reset with agenda := [.measure 3 5 77] }
     allowed s (.measure 3 5 77) = .measure 3 5 77 ∧ mapWf 0 s.measured = true) ∧
    (let s : State := { State.reset with startState := 1, fieldsUp := 2, fields := (upto 6).map fun n => (n, { Field.locked with count := 5 }) }
     s.startState ≠ 0 ∧ s.startState ≠ 4 ∧ s.coolant = none ∧ ∀ f, f < s.fieldsUp → (s.field f).synced ≠ (s.field f).count) ∧
    (State.reset.core 0).l1 = [] := by decide

/-- A floating-point add of three lanes, two of which name one location, and the same combined. -/
theorem wit_AccessesArePerformed_lanes (ra : Bool) :
    let o := op0 (.atom ⟨c0, .f32, 4, 2, .lane, .device, .add, 0, ra⟩) .l 7 [0x2000, 0x2004, 0x2000] [[0x3F800000, 0x40000000, 0x40400000]]
      [.v 4 0, .v 4 1, .v 4 2]
    Alone (at0 0 (waiting0 o)) ⟨0, 0⟩ (wg0 [(0, some (waiting0 o))]) (waiting0 o) o ∧ formOk o.item.instr = true ∧ o.item.lv.length = 1 ∧
    (∀ l, l < 3 → (o.item.kv.getD l 0).toNat % 4 = 0 ∧ locOf 0 o.item.xl .gl (o.item.kv.getD l 0).toNat = .home (0x102000 + 4 * (l % 2))) ∧
    ∀ k ∈ o.due, ∃ l, l < 3 ∧ k = .v 4 l := by
  cases ra <;> exact ⟨alone0 _ rfl (by decide), by decide, by decide, by decide, by decide⟩

theorem wit_TheL1AndItsMarks_wide :
    (let o := op0 (.stx ⟨c0, .b32, 8, 4, .lane, .thread, 0, false⟩) .s 1 [0x2030] [[5], [6], [7], [8]] []
     Alone (at0 0 (waiting0 o)) ⟨0, 0⟩ (wg0 [(0, some (waiting0 o))]) (waiting0 o) o ∧ formOk o.item.instr = true ∧ 0x2030 % 16 = 0 ∧
     locOf 0 o.item.xl .gl 0x2030 = .home 0x102030) ∧
    (let o : Op := { op0 (.stl ⟨c0, .b64, 10, 4, .lane, .wg, 0, false⟩) .s 1 [0x2028] [[5], [6]] [] with tag := scopeNum .wg + 1 }
     Alone (at0 0 (waiting0 o)) ⟨0, 0⟩ (wg0 [(0, some (waiting0 o))]) (waiting0 o) o ∧ formOk o.item.instr = true ∧ scopeNum .wg < 3) :=
  ⟨⟨alone0 _ rfl (by decide), by decide⟩, alone0 _ rfl (by decide), by decide⟩

/-- The executor waits for o alone, and each byte of the copy goes from one place to another. -/
def copies0 (o : Op) (src dst : Space) (n : Nat) (from' to' hs hd : Nat → Nat) : Prop :=
  Alone (engine0 o [] [] id) ⟨0, 0⟩ (wg0 [(0, some (waiting0 o))]) (waiting0 o) o ∧ o.cls = .c ∧ o.due = [] ∧
  begun (engine0 o [] [] id) ⟨0, 0⟩ o = false ∧
  (∀ j, j < n → locOf 0 o.item.xl src (from' j) = .home (hs j) ∧ locOf 0 o.item.xl dst (to' j) = .home (hd j)) ∧
  ∀ j k, j < n → k < n → hs j ≠ hd k

theorem copies0_of (o : Op) (src dst : Space) (n : Nat) (from' to' hs hd : Nat → Nat)
    (h : unsettled (engine0 o [] [] id) = [] ∧ o.performed = false ∧ o.cls = .c ∧ o.due = [] ∧ begun (engine0 o [] [] id) ⟨0, 0⟩ o = false)
    (at' : ∀ j, j < n → locOf 0 o.item.xl src (from' j) = .home (hs j) ∧ locOf 0 o.item.xl dst (to' j) = .home (hd j))
    (apart : ∀ j, j < n → ∀ k, k < n → hs j ≠ hd k) : copies0 o src dst n from' to' hs hd :=
  ⟨alone_of _ o ⟨rfl, h.2.1, ⟨rfl, rfl, h.1⟩, rfl, rfl, rfl⟩, h.2.2.1, h.2.2.2.1, h.2.2.2.2, at', fun j k hj hk => apart j hj k hk⟩

theorem wit_EngineCommands_copies :
    copies0 (op0 (.cpy ⟨c0, .b32, 20, 4, 5, 6, .gl, .vt, true, false, false⟩) .c 1 [0x2005, 0x100, 8, 0x500000200] [] []) .gl .vt 8
      (0x2005 + ·) (0x100 + ·) (0x102005 + ·) (2 ^ 52 + 0x100 + ·) ∧
    (let q : CopyW := ⟨c0, .f32, 20, 4, 5, 6, .sp, .gl, false, false, false⟩
     formOk (.cpyr q) = true ∧ tyBytes q.ty = 4 ∧
     copies0 (op0 (.cpyr q) .c 1 [0x40, 0x2000, 8, 0] [] []) .sp .gl 8 (0x40 + ·) (0x2000 + ·) (2 ^ 53 + 0x40 + ·) (0x102000 + ·)) ∧
    copies0 (op0 (.cpyg ⟨c0, .b32, 20, 4, 5, 6, .gl, .sp, false, false, false⟩) .c 1 [0x2000, 0x40, 0, 0x1000000004, 0, 3, 1] [] []) .gl .sp 8
      (fun j => (0x2000 + ([3, 1].getD (j / 4) 0) * 16) % 2 ^ 64 + j % 4) (0x40 + ·) (fun j => 0x102000 + ([3, 1].getD (j / 4) 0) * 16 + j % 4) (2 ^ 53 + 0x40 + ·) ∧
    copies0 (op0 (.cpys ⟨c0, .b32, 20, 4, 5, 6, .sp, .gl, false, false, false⟩) .c 1 [0x40, 0x2000, 0, 0x1000000004, 0, 3, 1] [] []) .sp .gl 8
      (0x40 + ·) (fun j => (0x2000 + ([3, 1].getD (j / 4) 0) * 16) % 2 ^ 64 + j % 4) (2 ^ 53 + 0x40 + ·) (fun j => 0x102000 + ([3, 1].getD (j / 4) 0) * 16 + j % 4) ∧
    (let from' (j : Nat) : Nat := wrap 64 (0x2040 + ((List.range 1).map fun d =>
        ((j / 4 / 1 % 2 : Nat) : Int) * sext 64 ([2 ^ 64 - 16].getD d 0)).sum) + j % 4
     copies0 (op0 (.cpyt ⟨c0, .b32, 20, 4, 5, 6, .gl, .sp, false, false, false⟩) .c 1 [0x2040, 0x40, 0, 0, 4, 2, 2 ^ 64 - 16] [] []) .gl .sp 8
       from' (0x40 + ·) (fun j => 0x102040 - 16 * (j / 4) + j % 4) (2 ^ 53 + 0x40 + ·)) := by
  refine ⟨copies0_of _ _ _ _ _ _ _ _ (by decide) (by decide) (by decide), ⟨by decide, by decide, copies0_of _ _ _ _ _ _ _ _ (by decide) (by decide) (by decide)⟩,
    copies0_of _ _ _ _ _ _ _ _ (by decide) (by decide) (by decide), copies0_of _ _ _ _ _ _ _ _ (by decide) (by decide) (by decide),
    copies0_of _ _ _ _ _ _ _ _ (by decide) (by decide) (by decide)⟩

/-- A command of the matrix unit with a shape of 8 rows, 256 columns and depth 128, whose last block has 2 rows, 3 columns and depth 4,
in a format without scales or sparsity. -/
def matrix0 (i : Instr) (ks more : List Word) (efmt : Nat) : Op :=
  op0 i .t 1 (ks ++ ([2 ^ 57, 4 + 3 * 2 ^ 16 + 2 * 2 ^ 32 + 128 * 2 ^ 48, 256 + 8 * 2 ^ 16 + 4 * 2 ^ 32, 3 + 2 * 2 ^ 32, efmt * 2 ^ 16 + 2 ^ 32] : List Nat).map (BitVec.ofNat 64) ++ more) [] []

/-- The command is alone in the unit, which has nothing else to heed. -/
def unit0 (o : Op) : Prop :=
  Alone (engine0 o [] [] id) ⟨0, 0⟩ (wg0 [(0, some (waiting0 o))]) (waiting0 o) o ∧ unitOps (engine0 o [] [] id) 0 = [(0, o)] ∧
  ((engine0 o [] [] id).core 0).fills = [] ∧ ((engine0 o [] [] id).core 0).badTiles = [] ∧ mapWf 0 ((engine0 o [] [] id).core 0).tiles = true ∧
  begun (engine0 o [] [] id) ⟨0, 0⟩ o = false ∧ o.due = []

theorem unit0_of (o : Op) (h : unsettled (engine0 o [] [] id) = [] ∧ o.performed = false ∧ unitOps (engine0 o [] [] id) 0 = [(0, o)] ∧
    begun (engine0 o [] [] id) ⟨0, 0⟩ o = false ∧ o.due = []) : unit0 o :=
  ⟨alone_of _ o ⟨rfl, h.2.1, ⟨rfl, rfl, h.1⟩, rfl, rfl, rfl⟩, h.2.2.1, rfl, rfl, rfl, h.2.2.2.1, h.2.2.2.2⟩

def mload0 : Op := matrix0 (.wload ⟨c0, 1, 2, 4, 5, 6, true, true, false⟩) [0x400, 0, 0] [] 4
def mma0 : Op := matrix0 (.mma ⟨c0, 1, 2, 1, 8, 9, true, true, false⟩) [0x400, 0] [256] 4
def tst0 (i : TmemW → Instr) : Op := matrix0 (i ⟨c0, 1, 2, 1, 10, 11, .gl, .device, false, true, true, .f32⟩) [0x2000, 0x20] [] 4

theorem wit_EngineCommands_matrix :
    unit0 { matrix0 (.wdrop c0) [] [] 0 with cls := .none } ∧
    (unit0 mload0 ∧ (opShape mload0).grN = 256) ∧ (unit0 mma0 ∧ rowsOf (opShape mma0) true = 2 ∧ (mma0.item.kv.getD 7 0).toNat = 256) ∧
    (unit0 (tst0 .tld) ∧ rowsOf (opShape (tst0 .tld)) true = 2 ∧ colsOf (opShape (tst0 .tld)) 1 true = 3 ∧ ∀ i, i < 2 * 3 →
      let a := (0x2000 + i / 3 * 0x20) % 2 ^ 64
      a % 4 = 0 ∧ locOf 0 (tst0 .tld).item.xl .gl (a + i % 3 * 4) = .home (0x102000 + i / 3 * 0x20 + i % 3 * 4)) ∧
    (unit0 (tst0 .tst) ∧ ∀ i, i < 6 → ∀ j, j < 6 → i ≠ j →
      let h (i : Nat) : Nat := 0x102000 + i / 3 * 0x20 + i % 3 * 4
      h i + 4 ≤ h j ∨ h j + 4 ≤ h i) :=
  ⟨unit0_of _ (by decide), ⟨unit0_of _ (by decide), by decide⟩, ⟨unit0_of _ (by decide), by decide⟩, ⟨unit0_of _ (by decide), by decide⟩,
    unit0_of _ (by decide), by decide⟩

def sighash0 : Op := matrix0 (.sighash ⟨c0, 1, 2, 12, 13, 14, 3, 2, true⟩) [0x400, 0x500, 0x600] [] 4
def sigrep0 : Op := matrix0 (.sigrep ⟨c0, 1, 2, 12, 8, 9, .mean, true⟩) [0x400, 0x500, 0x600, 0x700] [] 4
def sigscat0 : Op := matrix0 (.sigscat ⟨c0, 1, 2, 1, 4, 5, true, true, .f16⟩) [0x400, 0x500] [] 4
def sigbwd0 (spread : Bool) : Op := matrix0 (.sigbwd ⟨c0, 2, 4, 5, 6, spread, true, .f32⟩) [0x400, 0x2000, 0x4000] [] 4

theorem wit_EngineCommands_lens :
    (unit0 sighash0 ∧ rowsOf (opShape sighash0) true = 2 ∧ (opShape sighash0).reqK = 4 ∧ (∀ r, r < 2 → 0x400 + r * 8 + 8 ≤ 0x600) ∧
      ∀ h, h ≤ 3 → 0x500 + h * 8 + 8 ≤ 0x600) ∧
    (unit0 sigrep0 ∧ rowsOf (opShape sigrep0) true = 2 ∧ (opShape sigrep0).reqK = 4 ∧
      (∀ i, i < 2 → ∀ j, j < 2 → i ≠ j → 0x600 + i * 8 + 8 ≤ 0x600 + j * 8 ∨ 0x600 + j * 8 + 8 ≤ 0x600 + i * 8) ∧ ∀ i, i < 2 → 0x600 + i * 8 + 8 ≤ 0x700) ∧
    (unit0 sigscat0 ∧ colsOf (opShape sigscat0) 1 true = 3 ∧
      (∀ i, i < 2 → ∀ j, j < 2 → i ≠ j → 0x400 + i * 6 + 6 ≤ 0x400 + j * 6 ∨ 0x400 + j * 6 + 6 ≤ 0x400 + i * 6) ∧ ∀ i, i < 2 → 0x400 + i * 6 + 6 ≤ 0x500) ∧
    (unit0 (sigbwd0 true) ∧ unit0 (sigbwd0 false) ∧ (opShape (sigbwd0 false)).reqN = 3 ∧ ∀ i, i < 64 → ∀ j, j < 64 →
      0x400 + j * 12 + 12 ≤ 0x2000 + i * 12 ∧ (i ≠ j → 0x2000 + i * 12 + 12 ≤ 0x2000 + j * 12 ∨ 0x2000 + j * 12 + 12 ≤ 0x2000 + i * 12)) :=
  ⟨⟨unit0_of _ (by decide), by decide⟩, ⟨unit0_of _ (by decide), by decide⟩, ⟨unit0_of _ (by decide), by decide⟩,
    unit0_of _ (by decide), unit0_of _ (by decide), by decide, by intro i hi j hj; omega⟩

def qhist0 : Op := matrix0 (.qhist ⟨c0, 1, 2, 4, 5, true, true, true, .f32⟩) [0x400, 0x800] [] 0
def qscale0 : Op := matrix0 (.qscale ⟨c0, 1, 2, 8, 9, 0, false⟩) [0x800, 0x400] [] 0
def qcvt0 : Op := matrix0 (.qcvt ⟨c0, 1, 2, 4, 5, 6, true, true, .f32⟩) [0x400, 0x800, 0x600] [] 0

theorem wit_EngineCommands_quantising :
    (unit0 qhist0 ∧ cellsOf 0 8 128 = (1, 1) ∧ kdepth (opShape qhist0) true = 4 ∧ ∀ r, r < 2 → 0x400 + r * 16 + 16 ≤ 0x800) ∧
    (unit0 qscale0 ∧ 0x400 + 4 * 1 ≤ 0x800) ∧
    (unit0 qcvt0 ∧ (∀ i, i < 2 * 4 → ∀ j, j < 2 → 0x400 + j * 16 + 16 ≤ 0x800 + i / 4 * 4 + i % 4 * 1) ∧
      (∀ i, i < 2 * 4 → ∀ j, j < 2 * 4 → i ≠ j → 0x800 + i / 4 * 4 + i % 4 * 1 + 1 ≤ 0x800 + j / 4 * 4 + j % 4 * 1 ∨
        0x800 + j / 4 * 4 + j % 4 * 1 + 1 ≤ 0x800 + i / 4 * 4 + i % 4 * 1) ∧ ∀ i, i < 2 * 4 → cellAt 0 128 (i / 4) (i % 4) < 1) :=
  ⟨⟨unit0_of _ (by decide), by decide⟩, ⟨unit0_of _ (by decide), by decide⟩, unit0_of _ (by decide), by decide⟩

/-- A region of one entry, its descriptor at 0x102000, and its pool of 16 nodes in page 3. -/
def region0 : Region := { freshRegion with entries := [(7, 5)], levels := [[{ n := 0, size := 1 }]], unused := 1 }
def regionDesc0 : RegionDesc := { pool := 0x3000, pcount := 16, ndims := 2, ty := .n32, exts := [10, 20] }
def regionMem0 : Memory :=
  ((span 0x102000 64).zip (leBytes 8 0x3000 ++ leBytes 4 16 ++ leBytes 1 2 ++ leBytes 1 8 ++ leBytes 2 0 ++ leBytes 4 9 ++ leBytes 4 19 ++ leBytes 8 0 ++
    engineFields region0 ++ leBytes 4 0)).filter (·.2 ≠ 0)
def index0 (o : Op) : State := { engine0 o regionMem0 [3] id with regions := [(0x102000, some region0)] }

/-- The command finds the region sound, and its pool's page cached. -/
def indexes0 (o : Op) : Prop :=
  Alone (index0 o) ⟨0, 0⟩ (wg0 [(0, some (waiting0 o))]) (waiting0 o) o ∧ begun (index0 o) ⟨0, 0⟩ o = false ∧ o.cls = .x ∧
  regionNow (index0 o) 0x102000 = region0 ∧ parseRegion (readBytes (index0 o).mem 0x102000 64) = some regionDesc0 ∧
  ∀ p, 0x3000 / 4096 ≤ p ∧ p * 4096 < 0x3000 + 256 * 16 → ∃ t, ((index0 o).core 0).tlb.find? (fun t => t.ctx = 1 && t.page = p && xlCurrent (index0 o) t.xl) = some t ∧
    t.xl.rd = true ∧ t.xl.wr = true ∧ t.xl.remote = none ∧ t.xl.pfn * 4096 + 4096 ≤ 2 ^ 52

theorem indexes0_of (o : Op) (h : unsettled (index0 o) = [] ∧ o.performed = false ∧ begun (index0 o) ⟨0, 0⟩ o = false ∧ o.cls = .x) : indexes0 o := by
  refine ⟨alone_of _ o ⟨rfl, h.2.1, ⟨rfl, rfl, h.1⟩, rfl, rfl, rfl⟩, h.2.2.1, h.2.2.2, ?_, ?_, fun p hp => ?_⟩
  · show regionNow { State.reset with mem := regionMem0, regions := [(0x102000, some region0)] } 0x102000 = region0
    decide
  · show parseRegion (readBytes regionMem0 0x102000 64) = some regionDesc0
    decide
  · obtain rfl : p = 3 := by omega
    exact ⟨{ ctx := 1, page := 3, xl := page0 3 }, rfl, rfl, rfl, rfl, by decide⟩

/-- A list with a present key and an absent one. -/
def list0 (i : Instr) : Op := op0 i .x 1 [0, 0, 2, 0x40, 0x102000, 7, 9, 3, 4] [] []

theorem wit_EngineCommands_index :
    (indexes0 (list0 (.xld ⟨c0, 20, 4, 5, 7⟩)) ∧ indexes0 (list0 (.xst ⟨c0, 20, 4, 5, 7⟩)) ∧ indexes0 (list0 (.xadd ⟨c0, 20, 4, 5, 7⟩)) ∧
      indexes0 (op0 (.xcur ⟨c0, 20, 4, 5⟩) .x 1 [0x102000, 0x40, 5, 0x102000] [] []) ∧
      indexes0 (op0 (.xnext ⟨c0, 20, 4, 5⟩) .x 1 [0x40, 0x80, 4, 0x102000] [] []) ∧
      indexes0 (op0 (.xrange ⟨c0, 20, 4, 5⟩) .x 1 [0x102000, 3, 9, 0x102000] [] []) ∧
      indexes0 (op0 (.xdense ⟨c0, 20, 4, 5, 6, .vt⟩) .x 1 [0, 0, 0x80, 0x102000, 0, 6, 0, 0, 1, 2, 0, 0] [] [])) ∧
    (mapWf 0 region0.entries = true ∧ region0.entries.length + 4096 < 2 ^ 64 ∧ (∀ l ∈ region0.levels, ∀ t ∈ l, t.n < 16) ∧ region0.unused ≤ 16 ∧
      region0.levels.length + 1 ≤ region0.free.length + 16 - region0.unused ∧ 0x3000 % 256 = 0) ∧
    (∀ j, j < 2 * 4 → locOf 0 [] .vt (0x80 + j) = .home (2 ^ 52 + 0x80 + j)) :=
  ⟨⟨indexes0_of _ (by decide), indexes0_of _ (by decide), indexes0_of _ (by decide), indexes0_of _ (by decide), indexes0_of _ (by decide),
    indexes0_of _ (by decide), indexes0_of _ (by decide)⟩, by decide, by decide⟩

/-- An RPUT and an RGET of a ring in global memory, whose pages are cached. -/
theorem wit_RingsWorkListsAndTokens_global :
    (let o : Op := { op0 (.rput ⟨c0, 4, 2, 3, .device, 0, false⟩) .s 1 [0x2000, 0x40, 0x4100, 0x3200, 64, 2, 1] [] [] with tag := 2 }
     Alone (engine0 o [] [3, 4] id) ⟨0, 0⟩ (wg0 [(0, some (waiting0 o))]) (waiting0 o) o ∧ begun (engine0 o [] [3, 4] id) ⟨0, 0⟩ o = false ∧
     (0x2000 + 64) % 4096 + 64 ≤ 4096 ∧ locOf 0 o.item.xl .gl 0x2040 = .home 0x102040 ∧ 1 + 1 ≤ readNat [] 0x102040 8 + 2 ∧
     (0x4100 + 1 % 2 * 64) % 4096 + 64 ≤ 4096 ∧ (0x3200 + 8 * (1 % 2)) % 4096 + 8 ≤ 4096 ∧
     ∀ p ∈ [3, 4], ((engine0 o [] [3, 4] id).core 0).tlb.find? (fun t => t.ctx = 1 && t.page = p && xlCurrent (engine0 o [] [3, 4] id) t.xl) =
       some { ctx := 1, page := p, xl := page0 p }) ∧
    (let o : Op := { op0 (.rget ⟨c0, 4, 2, 3, .device, 0, false⟩) .l 1 [0x2000, 0x40, 0x4100, 0x3200, 64, 2, 1] [] [] with tag := 2 }
     Alone (engine0 o (at8 0x3208 2) [3, 4] id) ⟨0, 0⟩ (wg0 [(0, some (waiting0 o))]) (waiting0 o) o ∧
     begun (engine0 o (at8 0x3208 2) [3, 4] id) ⟨0, 0⟩ o = false ∧ readNat (at8 0x3208 2) (3 * 4096 + (0x3200 + 8 * (1 % 2)) % 4096) 8 = 1 + 1) :=
  ⟨⟨alone_of _ _ ⟨rfl, rfl, by decide, rfl, rfl, rfl⟩, by decide⟩, alone_of _ _ ⟨rfl, rfl, by decide, rfl, rfl, rfl⟩, by decide⟩

/-- The small machine with executor n, in the round of an apply that runs in slot 33. -/
def round0 (n : Nat) (e : Exec) (m : Memory) (pages : List Nat) : State :=
  (mapped0 n e m pages).updWg 0 fun w => { w with apply := some { apply0 with phase := 1, active := [33] } }

theorem wit_ClausesAreFetched_slot :
    (let s := round0 33 idle0 (at8 0x1100 header1.toNat ++ at8 0x1108 0x0801_0140_4080_0000) [1]
     s.exec ⟨0, 33⟩ = some idle0 ∧ isSlot 33 = true ∧ ((s.wg 0).bind (·.apply)).elim false (fun a => decide (a.phase = 1 ∧ 33 ∈ a.active)) = true ∧
     (∀ c ∈ s.cores, c.2.l1 = []) ∧
     (s.core 0).tlb.find? (fun t => t.ctx = 1 && t.page = idle0.pc / 4096 && xlCurrent s t.xl) = some { ctx := 1, page := 1, xl := page0 1 }) ∧
    ∀ rs, halfStored (round0 33 idle0 [] [1]) rs = false := by
  refine ⟨by decide, fun rs => ?_⟩
  rfl

/-- Entry causes of which 0x13 is the lowest, twice; a trap of the headspring; and an executor in a slot. -/
theorem wit_HandlersAreEntered_entries :
    (let a : Entry := { code := 0x15, info := 4, tmask := 6, faddr := 0 }
     let b : Entry := { code := 0x13, info := 8, tmask := 7, faddr := 0x99 }
     let e : Exec := { idle0 with entries := [a, b, b] }
     let s := round0 33 e [] [0x31]
     Quiet s ∧ s.exec ⟨0, 33⟩ = some e ∧ e.entries = [a] ++ b :: [b] ∧ (∀ m ∈ [a], b.code < m.code) ∧ (∀ m ∈ [b], b.code ≤ m.code) ∧ s.requests = [] ∧
     launch0.ctxbase + 4096 * 33 = 0x31000 ∧ (s.core 0).tlb.find? (fun t => t.ctx = 1 && t.page = 0x31 && xlCurrent s t.xl) =
       some { ctx := 1, page := 0x31, xl := page0 0x31 }) ∧
    (let e : Exec := { idle0 with entries := [{ code := 1, info := 4, tmask := 6, faddr := 0 }] }
     (mapped0 40 e [] [0x38]).exec ⟨0, 40⟩ = some e ∧ launch0.ctxbase + 4096 * 40 = 0x38000) := by decide

/-- Where nothing of lower priority can be freed, the bound of the cycles passes. -/
theorem wit_ReservationsAndWatchdogs_timed :
    let s : State := { held0 7 with fields := (upto 3).map fun n => (n, { Field.locked with count := 65536 }) }
    let c : Cand := .gang { taken0 with released := true, launch := { launch0 with prio := 7 } } 0
    blocked s 0 = [c] ∧ plansOf s c = [] ∧ mixedPlans s c = [] ∧ 65536 ≤ waited s c ∧ candClusters s c = [0] ∧ openWindows s c 0 ≠ [] := by decide

/-- The headspring in handler state, at an RFT whose frame resumes at 0x5000. -/
theorem wit_HandlersReturn_headspring :
    let it := (op0 (.rft ⟨c0, true⟩) .none 0 [] [] []).item
    let e : Exec := { idle0 with handler := true, clauses := [issued0 [it] none] }
    let s := mapped0 40 e (at8 0x5000 header1.toNat ++ at8 0x38010 0x5000) [0x38, 5]
    Quiet s ∧ s.exec ⟨0, 40⟩ = some e ∧ it.on = true ∧ turnFree s (clusterOf 0) (turnOf 0 40) = true ∧ (40 : Nat) ≤ 40 ∧
    (wg0 []).phase ≠ .killed ∧ readNat s.mem 0x38010 8 = 0x5000 ∧ BitVec.ofNat 64 (readNat s.mem 0x5000 8) = header1 ∧
    (s.core 0).tlb.find? (fun t => t.ctx = 1 && t.page = 0x38000 / 4096 && xlCurrent s t.xl) = some { ctx := 1, page := 0x38, xl := page0 0x38 } ∧
    (s.core 0).tlb.find? (fun t => t.ctx = 1 && t.page = 0x5000 / 4096 && xlCurrent s t.xl) = some { ctx := 1, page := 5, xl := page0 5 } := by decide

end Sys2Proof.Tests
end

section
/-! SUPPORT. The system words (spec/15 R224 to R234): what each entry gives at its issue, and the mask of pending entry causes. -/

namespace Sys2Proof.Machine

-- what an entry gives, as the statements write it

variable {s : State} {x : ExecId} {w : Workgroup} {e : Exec} {c : Clause} {i : Instr} {ctl : Ctl} {f : View → Eff} {kv : List Word}

theorem captured_viewOf : captured (viewOf s x w e c ctl) kv = { item := if executes x e ctl then some (kv, []) else none } := by
  unfold captured viewOf
  cases executes x e ctl <;> rfl

/-- A word's own cause carries its guard set; the headspring's guard set is empty already (R225). -/
theorem fault_viewOf (code info : Nat) : (viewOf s x w e c ctl).fault code info = wordCause x e c ctl code info := by
  unfold View.fault wordCause viewOf guardOf
  cases isHead x.ctx <;> rfl

/-- An accepted word whose entry captures k values captures them where it executes, and does nothing elsewhere. -/
theorem capturesIfOn_of (hi : exec i s = issueWord i ctl f s) (h : Issuing s x w e c) (hl : Legal x w i ctl)
    (hf : f (viewOf s x w e c ctl) = captured (viewOf s x w e c ctl) kv) : CapturesIfOn s x w e c i ctl kv :=
  completes hi h hl (hf.trans captured_viewOf) rfl rfl rfl

/-- An accepted word whose entry finds it illegal traps as an illegal instruction (R224, code 0x02). -/
theorem illegal_of (hi : exec i s = issueWord i ctl f s) (h : Issuing s x w e c) (hl : Legal x w i ctl)
    (hf : f (viewOf s x w e c ctl) = { cause := some ((viewOf s x w e c ctl).fault 0x02) }) :
    Traps s x w e c i (wordCause x e c ctl 0x02 0) :=
  traps_of hi h hl (by rw [hf]) (by rw [hf, fault_viewOf])

-- the entry of each word

theorem exec_trap (q : TrapW) (s : State) : exec (.trap q) s = execTrap q s := rfl
theorem exec_rft (q : RftW) (s : State) : exec (.rft q) s = execRft q s := rfl
theorem exec_movp (q : MovpW) (s : State) : exec (.movp q) s = execMovp q s := rfl
theorem exec_icinv (q : InvW) (s : State) : exec (.icinv q) s = execIcinv q s := rfl
theorem exec_tlbinv (q : InvW) (s : State) : exec (.tlbinv q) s = execTlbinv q s := rfl
theorem exec_stamp (q : KaW) (s : State) : exec (.stamp q) s = execStamp q s := rfl
theorem exec_sleep (q : KaW) (s : State) : exec (.sleep q) s = execSleep q s := rfl

-- RFT

/-- RFT in handler state, or with an empty guard, raises nothing at its issue. -/
theorem rft_captures {q : RftW} (h : Issuing s x w e c) (hl : Legal x w (.rft q) q.ctl)
    (hh : e.handler = true ∨ executes x e q.ctl = false) : CapturesIfOn s x w e c (.rft q) q.ctl [] := by
  refine capturesIfOn_of (exec_rft q s) h hl (if_neg ?_)
  rcases hh with hh | hh <;> simp [viewOf, hh]

theorem rft_illegal {q : RftW} (h : Issuing s x w e c) (hl : Legal x w (.rft q) q.ctl) (hh : e.handler = false)
    (hon : executes x e q.ctl = true) : Traps s x w e c (.rft q) (wordCause x e c q.ctl 0x02 0) :=
  illegal_of (exec_rft q s) h hl (if_pos (by simp [viewOf, hh, hon]))

-- MOVP

theorem movp_off {q : MovpW} (h : Issuing s x w e c) (hl : Legal x w (.movp q) q.ctl) (hon : executes x e q.ctl = false) :
    Completes s x w e c (.movp q) q.ctl {} :=
  completes (exec_movp q s) h hl (if_pos (by simp [viewOf, hon])) rfl rfl rfl

theorem movp_illegal {q : MovpW} (h : Issuing s x w e c) (hl : Legal x w (.movp q) q.ctl) (hh : e.handler = false)
    (hon : executes x e q.ctl = true) : Traps s x w e c (.movp q) (wordCause x e c q.ctl 0x02 0) :=
  illegal_of (exec_movp q s) h hl ((if_neg (by simp [viewOf, hon])).trans (if_pos (by simp [viewOf, hh])))

/-- MOVP in handler state reads the privileged register of its number. -/
theorem movp_reads {q : MovpW} (h : Issuing s x w e c) (hl : Legal x w (.movp q) q.ctl) (hh : e.handler = true)
    (hon : executes x e q.ctl = true) :
    Completes s x w e c (.movp q) q.ctl { writes := [.k q.d.toNat (privileged s x w e q.sr.toNat)] } :=
  completes (exec_movp q s) h hl ((if_neg (by simp [viewOf, hon])).trans (if_neg (by simp [viewOf, hh]))) rfl rfl rfl

/-- The sum of the powers 2^n of the numbers n below N that p picks has exactly those bits. -/
theorem testBit_foldl_two_pow (p : Nat → Bool) (N : Nat) :
    let m := (List.range N).foldl (fun m n => if p n then m + 2 ^ n else m) 0
    m < 2 ^ N ∧ ∀ n, m.testBit n = (decide (n < N) && p n) := by
  induction N with
  | zero => simp
  | succ N ih =>
    obtain ⟨hlt, hbit⟩ := ih
    simp only [List.range_succ, List.foldl_append, List.foldl_cons, List.foldl_nil]
    generalize (List.range N).foldl (fun m n => if p n then m + 2 ^ n else m) 0 = m at hlt hbit ⊢
    have hlt' : (if p N then m + 2 ^ N else m) < 2 ^ (N + 1) := by split <;> omega
    refine ⟨hlt', fun n => ?_⟩
    rcases Nat.lt_trichotomy n N with hn | rfl | hn
    · have hlow : (if p N then m + 2 ^ N else m).testBit n = m.testBit n := by
        split
        · rw [Nat.add_comm, Nat.testBit_two_pow_add_gt hn]
        · rfl
      simp [hlow, hbit, hn, Nat.lt_succ_of_lt hn]
    · have hzero : m.testBit n = false := Nat.testBit_lt_two_pow hlt
      cases hp : p n with
      | false => simp [hzero]
      | true => simp [Nat.add_comm m, Nat.testBit_two_pow_add_eq, hzero]
    · rw [Nat.testBit_lt_two_pow (Nat.lt_of_lt_of_le hlt' (Nat.pow_le_pow_right (by omega) hn))]
      simp [Nat.not_lt.2 (Nat.succ_le_of_lt hn)]

/-- sr.pend: bit n stands for the entry cause of code n (R232). -/
theorem getLsbD_privileged_pend (n : Nat) (hn : n < 64) : (privileged s x w e 0x85).getLsbD n = e.entries.any (·.code = n) := by
  show (BitVec.ofNat 64 (pendMask e)).getLsbD n = _
  rw [BitVec.getLsbD_ofNat]
  unfold pendMask upto
  rw [(testBit_foldl_two_pow (fun n => e.entries.any (·.code = n)) 64).2 n]
  simp [hn]

/-- The values of R232's table. -/
theorem privileged_values (sr : BitVec 8) :
    (sr = 0x80 → privileged s x w e sr.toNat = BitVec.ofNat 64 (w.launch.ctxbase + 4 * 2 ^ 20 * w.wgid)) ∧
    (sr = 0x81 → privileged s x w e sr.toNat = BitVec.ofNat 64 w.launch.handler) ∧
    (sr = 0x82 → privileged s x w e sr.toNat = BitVec.ofNat 64 (w.launch.ctxbase + 4 * 2 ^ 20 * w.wgid + 4096 * x.ctx)) ∧
    (sr = 0x83 → privileged s x w e sr.toNat = BitVec.ofNat 64 (s.core x.core).corrected) ∧
    (sr = 0x84 → privileged s x w e sr.toNat = BitVec.ofNat 64 w.wdogLeft) ∧
    (sr = 0x85 → ∀ n, n < 64 → (privileged s x w e sr.toNat).getLsbD n = e.entries.any (·.code = n)) := by
  refine ⟨?_, ?_, ?_, ?_, ?_, ?_⟩ <;> rintro rfl
  case refine_6 => exact getLsbD_privileged_pend
  all_goals rfl

-- SLEEP

/-- SLEEP captures its count where no bit above the count is set; with an empty guard it captures nothing whatever the register holds. -/
theorem sleep_captures {q : KaW} (h : Issuing s x w e c) (hl : Legal x w (.sleep q) q.ctl)
    (hk : (e.rk q.a.toNat).toNat < 2 ^ 32 ∨ executes x e q.ctl = false) : CapturesIfOn s x w e c (.sleep q) q.ctl [e.rk q.a.toNat] := by
  refine capturesIfOn_of (exec_sleep q s) h hl (if_neg ?_)
  rcases hk with hk | hk
  · simpa [viewOf] using fun _ => hk
  · simp [viewOf, hk]

theorem sleep_illegal {q : KaW} (h : Issuing s x w e c) (hl : Legal x w (.sleep q) q.ctl) (hk : 2 ^ 32 ≤ (e.rk q.a.toNat).toNat)
    (hon : executes x e q.ctl = true) : Traps s x w e c (.sleep q) (wordCause x e c q.ctl 0x02 0) := by
  have hdiv : (e.rk q.a.toNat).toNat / 2 ^ 32 ≠ 0 := Nat.ne_of_gt (Nat.div_pos hk (by omega))
  refine illegal_of (exec_sleep q s) h hl (if_pos ?_)
  simpa [viewOf, hon] using hdiv

theorem sleep_off {q : KaW} (h : Issuing s x w e c) (hl : Legal x w (.sleep q) q.ctl) (hon : executes x e q.ctl = false) :
    Completes s x w e c (.sleep q) q.ctl {} := by
  simpa [CapturesIfOn, hon] using sleep_captures h hl (.inr hon)

end Sys2Proof.Machine
end

section
/-! The system words: the obligation. -/

namespace Sys2Proof.Machine

/-- Settles O22, word by word: each entry's effect at its issue is the one stated. -/
theorem systemWords : Obligations.SystemWords := by
  intro s x w e c h
  exact ⟨fun q hl => capturesIfOn_of (exec_trap q s) h hl rfl, fun q hl => ⟨rft_captures h hl, rft_illegal h hl⟩,
    fun q hl => ⟨movp_off h hl, movp_illegal h hl, fun hh hon => ⟨_, movp_reads h hl hh hon, privileged_values q.sr⟩⟩,
    fun q hl => capturesIfOn_of (exec_icinv q s) h hl rfl, fun q hl => capturesIfOn_of (exec_tlbinv q s) h hl rfl,
    fun q hl => capturesIfOn_of (exec_stamp q s) h hl rfl,
    fun q hl => ⟨fun hk => sleep_captures h hl (.inl hk), sleep_illegal h hl, fun _ => sleep_off h hl⟩⟩

end Sys2Proof.Machine
end

section
/-! SUPPORT. Words that write a result to each lane (spec/06 R94, R95): their issue, and the widths of their operands. -/

namespace Sys2Proof.Machine

variable {s : State} {x : ExecId} {w : Workgroup} {e : Exec} {c : Clause} {i : Instr} {ctl : Ctl} {lat : Nat}

/-- An accepted word whose entry gives a result to each lane issues with those results. -/
theorem results_of {f : View → Eff} {u : Bool} {td : Ty} {d : VReg} {r : Nat → Word} (hi : exec i s = issueWord i ctl f s)
    (h : Issuing s x w e c) (hl : Legal x w i ctl)
    (hf : f (viewOf s x w e c ctl) = { lat, writes := laneWrites (viewOf s x w e c ctl) u td d r }) :
    Results s x w e c i ctl lat u td d r :=
  completes hi h hl hf rfl rfl rfl

theorem alu1_result {q : Alu1} {td : Ty} {op : Word → Word} {P : (Nat → Word) → Prop}
    (hi : exec i s = issueWord i q.ctl (alu1 q td lat op) s) (h : Issuing s x w e c) (hl : Legal x w i q.ctl)
    (hP : P fun l => op (e.src q.u q.ty q.a l)) : ∃ r, P r ∧ Results s x w e c i q.ctl lat q.u td q.d r :=
  ⟨_, hP, results_of hi h hl rfl⟩

theorem alu2_result {q : Alu2} {tb : Ty} {op : Word → Word → Word} {P : (Nat → Word) → Prop}
    (hi : exec i s = issueWord i q.ctl (alu2 q tb lat op) s) (h : Issuing s x w e c) (hl : Legal x w i q.ctl)
    (hP : P fun l => op (e.src q.u q.ty q.a l) (e.src q.u tb q.b l)) : ∃ r, P r ∧ Results s x w e c i q.ctl lat q.u q.ty q.d r :=
  ⟨_, hP, results_of hi h hl rfl⟩

theorem alu3_result {q : Alu3} {tb : Ty} {op : Word → Word → Word → Word} {P : (Nat → Word) → Prop}
    (hi : exec i s = issueWord i q.ctl (alu3 q tb op) s) (h : Issuing s x w e c) (hl : Legal x w i q.ctl)
    (hP : P fun l => op (e.src q.u q.ty q.a l) (e.src q.u tb q.b l) (e.src q.u tb q.c l)) :
    ∃ r, P r ∧ Results s x w e c i q.ctl 4 q.u q.ty q.d r :=
  ⟨_, hP, results_of hi h hl rfl⟩

theorem formOk_of_legal (hl : Legal x w i ctl) : formOk i = true := by
  obtain ⟨⟨hform, -⟩, -⟩ := hl
  exact hform

-- the types of operands

theorem tyBits_pos (t : Ty) : 0 < tyBits t := by cases t <;> decide

theorem tyBits_of_is64 {t : Ty} (h : tyIs64 t = true) : tyBits t = 64 := by revert h; cases t <;> decide

theorem tyBits_of_isB {t : Ty} (h : isB t = true) : tyBits t ≤ 64 := by revert h; cases t <;> decide

theorem tyBits_of_isInt4 {t : Ty} (h : isInt4 t = true) : tyBits t ≤ 64 := by revert h; cases t <;> decide

theorem ne_x80_of_isF4 {t : Ty} (h : isF4 t = true) : t ≠ .x80 := by
  rintro rfl
  cases h

theorem ne_x80_of_f102 {u : Bool} {t : Ty} (h : f102 u t = true) : t ≠ .x80 := by
  rintro rfl
  cases u <;> cases h

-- low bits

theorem toNat_lowBits (n : Nat) (a : Word) : (lowBits n a).toNat = a.toNat % 2 ^ n := by
  rw [lowBits, BitVec.toNat_ofNat]
  exact Nat.mod_eq_of_lt (Nat.lt_of_le_of_lt (Nat.mod_le _ _) a.isLt)

@[simp] theorem getLsbD_lowBits (n i : Nat) (a : Word) : (lowBits n a).getLsbD i = (decide (i < n) && a.getLsbD i) := by
  rw [← BitVec.testBit_toNat, toNat_lowBits, Nat.testBit_mod_two_pow, BitVec.testBit_toNat]

/-- An operand of a type has no bits above the type's width (R40, R95). -/
theorem toNat_src_lt (e : Exec) (u : Bool) (t : Ty) (r : VReg) (l : Nat) : (e.src u t r l).toNat < 2 ^ tyBits t := by
  unfold Exec.src
  cases u with
  | true => simpa [toNat_lowBits] using Nat.mod_lt _ (Nat.two_pow_pos _)
  | false =>
    by_cases h : tyIs64 t = true
    · rw [tyBits_of_is64 h]
      exact BitVec.isLt _
    · simpa [h, toNat_lowBits] using Nat.mod_lt _ (Nat.two_pow_pos _)

end Sys2Proof.Machine
end

section
/-! SUPPORT. The bit operations of R98 and R100, bit by bit or as numbers modulo the width. -/

namespace Sys2Proof.Machine

-- numbers modulo a width

/-- `wrap` and `sext` are the two readings of a bit vector. -/
theorem wrap_eq_toNat_ofInt (n : Nat) (z : Int) : wrap n z = (BitVec.ofInt n z).toNat := (BitVec.toNat_ofInt z).symm

theorem sext_eq_toInt_ofNat (n a : Nat) : sext n a = (BitVec.ofNat n a).toInt := by
  rw [BitVec.toInt_eq_toNat_cond, BitVec.toNat_ofNat, sext]
  cases n with
  | zero => simp [Nat.mod_one]
  | succ n =>
    have hpow : 2 ^ (n + 1) = 2 * 2 ^ n := by rw [Nat.pow_succ]; omega
    simp only [Nat.add_sub_cancel]
    congr 1
    exact propext (by omega)

theorem wrap_lt (n : Nat) (z : Int) : wrap n z < 2 ^ n := wrap_eq_toNat_ofInt n z ▸ BitVec.isLt _

theorem toNat_ofNat_wrap {n : Nat} (hn : n ≤ 64) (z : Int) : (BitVec.ofNat 64 (wrap n z)).toNat = wrap n z := by
  rw [BitVec.toNat_ofNat]
  exact Nat.mod_eq_of_lt (Nat.lt_of_lt_of_le (wrap_lt n z) (Nat.pow_le_pow_right (by omega) hn))

theorem isMod_ofNat_wrap {n : Nat} (hn : n ≤ 64) (z : Int) : IsMod n (BitVec.ofNat 64 (wrap n z)) z := by
  have hpos : 0 < 2 ^ n := Nat.two_pow_pos n
  rw [IsMod, toNat_ofNat_wrap hn, Nat.mod_eq_of_lt (wrap_lt n z), wrap]
  exact Int.toNat_of_nonneg (Int.emod_nonneg z (by omega))

theorem isMod_natCast {n : Nat} {r : Word} {z : Nat} (h : r.toNat % 2 ^ n = z % 2 ^ n) : IsMod n r z := by
  unfold IsMod
  exact_mod_cast h

theorem isMod_shlBits {n : Nat} (hn : n ≤ 64) (a b : Word) :
    IsMod n (shlBits n a b) (if n ≤ b.toNat then 0 else a.toNat * 2 ^ b.toNat) := by
  unfold shlBits
  split
  · exact isMod_natCast (z := 0) rfl
  · have hz : (a.toNat * 2 ^ b.toNat : Int) = ((a.toNat * 2 ^ b.toNat : Nat) : Int) := by push_cast; rfl
    rw [hz]
    refine isMod_natCast ?_
    rw [toNat_lowBits, BitVec.toNat_shiftLeft, Nat.shiftLeft_eq, Nat.mod_mod, Nat.mod_mod_of_dvd _ (Nat.pow_dvd_pow 2 hn)]

theorem isMod_shrBits {n : Nat} {a : Word} (ha : a.toNat < 2 ^ n) (b : Word) :
    IsMod n (shrBits n a b) (if n ≤ b.toNat then 0 else (a.toNat / 2 ^ b.toNat : Nat)) := by
  unfold shrBits
  split
  · exact isMod_natCast (z := 0) rfl
  · refine isMod_natCast ?_
    rw [BitVec.toNat_ushiftRight, toNat_lowBits, Nat.mod_eq_of_lt ha, Nat.shiftRight_eq_div_pow]

/-- A rotation to the left: bit i comes from bit i - cnt, counted round the width. -/
theorem bitsAre_rotBits {n : Nat} (hn : n ≤ 64) (a b : Word) :
    BitsAre n (rotBits n a b) fun i => a.getLsbD ((i + n - b.toNat % n) % n) := by
  intro i hi
  have hc : b.toNat % n < n := Nat.mod_lt _ (by omega)
  unfold rotBits
  generalize b.toNat % n = c at hc ⊢
  simp only [BitVec.getLsbD_or, BitVec.getLsbD_ushiftRight, BitVec.getLsbD_shiftLeft, getLsbD_lowBits]
  by_cases hic : i < c
  · have hsrc : (i + n - c) % n = n - c + i := by rw [Nat.mod_eq_of_lt (by omega)]; omega
    simp [hsrc, hic, show n - c + i < n by omega]
  · have hsrc : (i + n - c) % n = i - c := by
      rw [show i + n - c = (i - c) + n by omega, Nat.add_mod_right, Nat.mod_eq_of_lt (by omega)]
    simp [hsrc, hic, hi, show i < 64 by omega, show ¬ n - c + i < n by omega]

theorem bitsAre_not {n : Nat} (hn : n ≤ 64) (a : Word) : BitsAre n (lowBits n (~~~ a)) fun i => !a.getLsbD i := by
  intro i hi
  rw [getLsbD_lowBits, BitVec.getLsbD_not]
  simp [hi, show i < 64 by omega]

-- counts and reversal

theorem toNat_popc {n : Nat} (hn : n ≤ 64) (a : Word) :
    (BitVec.ofNat 64 ((bitList n a).countP id)).toNat = (List.range n).countP fun i => a.getLsbD i := by
  have hle : (List.range n).countP (fun i => a.getLsbD i) ≤ n := by simpa using List.countP_le_length (l := List.range n)
  rw [bitList, upto, List.countP_map, BitVec.toNat_ofNat]
  exact Nat.mod_eq_of_lt (Nat.lt_of_le_of_lt hle (by omega))

theorem bitList_succ (n : Nat) (a : Word) : bitList (n + 1) a = bitList n a ++ [a.getLsbD n] := by
  simp [bitList, upto, List.range_succ]

/-- The zeros above a value's highest set bit. -/
theorem takeWhile_bitList (a : Word) (n : Nat) :
    let z := ((bitList n a).reverse.takeWhile fun b => !b).length
    z ≤ n ∧ (∀ i, n - z ≤ i → i < n → a.getLsbD i = false) ∧ (z < n → a.getLsbD (n - 1 - z) = true) := by
  induction n with
  | zero => simp [bitList, upto]
  | succ n ih =>
    rw [bitList_succ, List.reverse_append, List.reverse_singleton, List.singleton_append]
    generalize hz : ((bitList n a).reverse.takeWhile fun b => !b).length = z at ih
    obtain ⟨hle, hzeros, hone⟩ := ih
    cases ha : a.getLsbD n with
    | true => simpa [ha] using fun i h1 h2 => absurd h2 (by omega)
    | false =>
      simp only [List.takeWhile_cons, Bool.not_false, if_true, List.length_cons, hz]
      refine ⟨by omega, fun i h1 h2 => ?_, fun h => ?_⟩
      · by_cases hin : i = n
        · rw [hin, ha]
        · exact hzeros i (by omega) (by omega)
      · rw [show n + 1 - 1 - (z + 1) = n - 1 - z by omega]
        exact hone (by omega)

theorem clz_spec {n : Nat} (hn : n ≤ 64) (a : Word) :
    let r : Word := BitVec.ofNat 64 ((bitList n a).reverse.takeWhile fun b => !b).length
    r.toNat ≤ n ∧ (∀ i, n - r.toNat ≤ i → i < n → a.getLsbD i = false) ∧ (r.toNat < n → a.getLsbD (n - 1 - r.toNat) = true) := by
  have h := takeWhile_bitList a n
  obtain ⟨hle, -⟩ := id h
  dsimp only
  rwa [BitVec.toNat_ofNat, Nat.mod_eq_of_lt (by omega)]

theorem getLsbD_eq_elemAt (a : Word) (i : Nat) : a.getLsbD i = decide (elemAt 1 a i = 1) := by
  rw [← BitVec.testBit_toNat, Nat.testBit_eq_decide_div_mod_eq, elemAt, Nat.one_mul, Nat.pow_one]

theorem bitsAre_brev {n : Nat} (hn : n ≤ 64) (a : Word) :
    BitsAre n (BitVec.ofNat 64 (elemJoin 1 ((bitList n a).reverse.map Bool.toNat))) fun i => a.getLsbD (n - 1 - i) := by
  intro i hi
  have hlen : (bitList n a).length = n := by simp [bitList, upto]
  have hbit : ((bitList n a).reverse.map Bool.toNat).getD i 0 = (a.getLsbD (n - 1 - i)).toNat := by
    simp [List.getD_eq_getElem?_getD, bitList, upto, hi]
  rw [getLsbD_eq_elemAt, elemAt_join 1 _ i (by simpa [hlen] using hi) (by simpa [hlen] using hn), hbit]
  show _ = a.getLsbD (n - 1 - i)
  cases a.getLsbD (n - 1 - i) <;> rfl

end Sys2Proof.Machine
end

section
/-! Logic and shifts (spec/06 R98, R100): the obligation. -/

namespace Sys2Proof.Machine

theorem width_of_shiftOk {q : Alu2} (h : shiftOk q = true) : tyBits q.ty ≤ 64 := by
  simp only [shiftOk, Bool.and_eq_true] at h
  obtain ⟨⟨⟨⟨hb, -⟩, -⟩, -⟩, -⟩ := h
  exact tyBits_of_isB hb

theorem width_of_countOk {q : Alu1} (h : countOk q = true) : tyBits q.ty ≤ 64 := by
  simp only [countOk, Bool.and_eq_true] at h
  obtain ⟨⟨⟨hb, -⟩, -⟩, -⟩ := h
  exact tyBits_of_isB hb

/-- NOT and BREV. -/
theorem width_of_bit1Ok {q : Alu1} (h : (isB q.ty && plain q.rnd q.sat && alu1Ok q) = true) : tyBits q.ty ≤ 64 := by
  simp only [Bool.and_eq_true] at h
  obtain ⟨⟨hb, -⟩, -⟩ := h
  exact tyBits_of_isB hb

/-- Settles O2, word by word. -/
theorem logicAndShifts : Obligations.LogicAndShifts := by
  intro s x w e c h
  refine ⟨?and, ?or, ?xor, ?not, ?shl, ?shr, ?sha, ?rot, ?popc, ?clz, ?brev⟩ <;> intro q hl <;> have hf := formOk_of_legal hl
  case and => exact alu2_result rfl h hl fun l i _ => BitVec.getLsbD_and
  case or => exact alu2_result rfl h hl fun l i _ => BitVec.getLsbD_or
  case xor => exact alu2_result rfl h hl fun l i _ => BitVec.getLsbD_xor
  case not => exact alu1_result rfl h hl fun l => bitsAre_not (width_of_bit1Ok hf) _
  case shl => exact alu2_result rfl h hl fun l => isMod_shlBits (width_of_shiftOk hf) _ _
  case shr => exact alu2_result rfl h hl fun l => isMod_shrBits (toNat_src_lt e q.u q.ty q.a l) _
  case sha => exact alu2_result rfl h hl fun l => isMod_ofNat_wrap (width_of_shiftOk hf) _
  case rot => exact alu2_result rfl h hl fun l => bitsAre_rotBits (width_of_shiftOk hf) _ _
  case popc => exact alu1_result rfl h hl fun l => toNat_popc (width_of_countOk hf) _
  case clz => exact alu1_result rfl h hl fun l => clz_spec (width_of_countOk hf) _
  case brev => exact alu1_result rfl h hl fun l => bitsAre_brev (width_of_bit1Ok hf) _

end Sys2Proof.Machine
end

section
/-! SUPPORT. Bit fields and addresses (spec/06 R98, R100), bit by bit. -/

namespace Sys2Proof.Machine

/-- Bits of a sign-extended field of m bits. -/
theorem testBit_wrap_sext {n m f i : Nat} (hi : i < n) :
    (wrap n (sext m f)).testBit i = if i < m then f.testBit i else decide (0 < m) && f.testBit (m - 1) := by
  have hext : wrap n (sext m f) = ((BitVec.ofNat m f).signExtend n).toNat := by
    rw [sext_eq_toInt_ofNat, wrap_eq_toNat_ofInt]
    rfl
  rw [hext, BitVec.testBit_toNat, BitVec.getLsbD_signExtend, BitVec.msb_eq_getLsbD_last, BitVec.getLsbD_ofNat, BitVec.getLsbD_ofNat]
  by_cases him : i < m
  · simp [hi, him]
  · simp [hi, him, show m - 1 < m ↔ 0 < m by omega]

/-- Bit i of the field of an n-bit value that begins at pos; zero beyond the value (R100). -/
def fieldBit (n : Nat) (a : Word) (pos i : Nat) : Bool := decide (pos + i < n) && a.getLsbD (pos + i)

theorem testBit_field (n : Nat) (a : Word) (pos i : Nat) : (a.toNat % 2 ^ n / 2 ^ pos).testBit i = fieldBit n a pos i := by
  rw [Nat.testBit_div_two_pow, Nat.testBit_mod_two_pow, BitVec.testBit_toNat, Nat.add_comm i pos, fieldBit]

theorem fieldBit_eq_false {n pos : Nat} (h : n ≤ pos) (a : Word) (i : Nat) : fieldBit n a pos i = false := by
  simp [fieldBit, show ¬ pos + i < n by omega]

/-- BFX: the field's bits, and above them its sign or zero. -/
theorem bitsAre_bfxBits {n : Nat} (hn : n ≤ 64) (sgn : Bool) (a p k : Word) :
    BitsAre n (bfxBits sgn n a p k) fun i =>
      if i < min k.toNat n then fieldBit n a p.toNat i
      else sgn && decide (0 < min k.toNat n) && fieldBit n a p.toNat (min k.toNat n - 1) := by
  intro i hi
  unfold bfxBits
  dsimp only
  generalize min k.toNat n = len
  generalize p.toNat = pos
  by_cases hempty : len = 0 ∨ n ≤ pos
  · rw [if_pos (by simpa using hempty)]
    rcases hempty with h0 | hpos
    · simp [h0]
    · simp [fieldBit_eq_false hpos]
  · rw [if_neg (by simpa using hempty), BitVec.getLsbD_ofNat]
    have hi64 : i < 64 := by omega
    have hlen : 0 < len := by omega
    have hlast : len - 1 < len := by omega
    cases sgn with
    | true =>
      by_cases hin : i < len
      · simp only [if_true, testBit_wrap_sext hi, Nat.testBit_mod_two_pow, testBit_field, hi64, hin, decide_true, Bool.true_and]
      · simp only [if_true, testBit_wrap_sext hi, if_neg hin, Nat.testBit_mod_two_pow, testBit_field, hi64, hlen, hlast, decide_true,
          Bool.true_and]
    | false => simp [testBit_field, hi64]

/-- The ones from bit lo up to bit hi, exclusive. -/
theorem testBit_two_pow_sub_two_pow {lo hi : Nat} (h : lo ≤ hi) (i : Nat) :
    (2 ^ hi - 2 ^ lo).testBit i = (decide (lo ≤ i) && decide (i < hi)) := by
  obtain ⟨d, rfl⟩ := Nat.exists_eq_add_of_le h
  have hmask : 2 ^ (lo + d) - 2 ^ lo = (2 ^ d - 1) <<< lo := by
    rw [Nat.shiftLeft_eq, Nat.sub_mul, Nat.one_mul, Nat.pow_add, Nat.mul_comm]
  rw [hmask, Nat.testBit_shiftLeft, Nat.testBit_two_pow_sub_one]
  by_cases hi : lo ≤ i
  · simp [hi, show i - lo < d ↔ i < lo + d by omega]
  · simp [hi]

/-- BFI: the field's bits come from a, the others stay. -/
theorem bitsAre_bfiBits {n : Nat} (hn : n ≤ 64) (d a p k : Word) :
    BitsAre n (bfiBits n d a p k) fun i =>
      if p.toNat ≤ i ∧ i < min (p.toNat + min k.toNat n) n then a.getLsbD (i - p.toNat) else d.getLsbD i := by
  intro i hi
  unfold bfiBits
  generalize p.toNat = pos
  have htop : min (pos + min k.toNat n) n = min (pos + k.toNat) n := by omega
  dsimp only
  rw [htop]
  generalize htop : min (pos + k.toNat) n = top
  by_cases hpos : n ≤ pos
  · rw [if_pos hpos, if_neg (by omega)]
  · have hi64 : i < 64 := by omega
    have hmask : (BitVec.ofNat 64 (2 ^ top - 2 ^ pos)).getLsbD i = (decide (pos ≤ i) && decide (i < top)) := by
      rw [BitVec.getLsbD_ofNat, testBit_two_pow_sub_two_pow (by omega)]
      simp [hi64]
    rw [if_neg hpos, BitVec.getLsbD_or, BitVec.getLsbD_and, BitVec.getLsbD_and, BitVec.getLsbD_not, BitVec.getLsbD_shiftLeft, hmask]
    by_cases hlo : pos ≤ i
    · by_cases hhi : i < top
      · simp [hlo, hhi, hi64, show ¬ i < pos by omega]
      · simp [hhi, hi64]
    · simp [hlo, hi64]

/-- LEA adds its index, a 32-bit value read by its signedness and scaled (R98). -/
theorem isMod_leaBits {n : Nat} (hn : n ≤ 64) (sx : Bool) (sh : Nat) (a : Word) {b : Word} (hb : b.toNat < 2 ^ 32) :
    IsMod n (leaBits n sx sh a b) (a.toNat + (if sx then sext 32 b.toNat else b.toNat) * 2 ^ sh) := by
  have hindex : toInt sx 32 b.toNat = if sx then sext 32 b.toNat else (b.toNat : Int) := by
    rw [toInt, Nat.mod_eq_of_lt hb]
  have hscale : ((2 ^ sh : Nat) : Int) = 2 ^ sh := Int.natCast_pow 2 sh
  rw [leaBits, hindex, hscale]
  exact isMod_ofNat_wrap hn _

end Sys2Proof.Machine
end

section
/-! Bit fields and addresses (spec/06 R98, R100): the obligation. -/

namespace Sys2Proof.Machine

theorem exec_bfi (q : Alu3) (s : State) : exec (.bfi q) s = execBfi q s := rfl
theorem exec_lea (q : LeaW) (s : State) : exec (.lea q) s = execLea q s := rfl

theorem width_of_bfxOk {q : Alu3} (h : (isInt4 q.ty && fieldOk q) = true) : tyBits q.ty ≤ 64 := by
  rw [Bool.and_eq_true] at h
  obtain ⟨ht, -⟩ := h
  exact tyBits_of_isInt4 ht

theorem width_of_bfiOk {q : Alu3} (h : (isB q.ty && fieldOk q) = true) : tyBits q.ty ≤ 64 := by
  rw [Bool.and_eq_true] at h
  obtain ⟨ht, -⟩ := h
  exact tyBits_of_isB ht

theorem width_of_leaOk {q : LeaW}
    (h : ((q.ty == .n32 || q.ty == .n64) && regOk q.u q.ty q.d && regOk q.u q.ty q.a && regOk q.u .b32 q.b) = true) :
    tyBits q.ty ≤ 64 := by
  simp only [Bool.and_eq_true, Bool.or_eq_true, beq_iff_eq] at h
  obtain ⟨⟨⟨ht | ht, -⟩, -⟩, -⟩ := h <;> simp [ht, tyBits]

/-- Settles O3, word by word. -/
theorem bitFieldsAndAddresses : Obligations.BitFieldsAndAddresses := by
  intro s x w e c h
  refine ⟨fun q hl => ?bfx, fun q hl => ?bfi, fun q hl => ?lea⟩ <;> have hf := formOk_of_legal hl
  case bfx => exact alu3_result rfl h hl fun l => bitsAre_bfxBits (width_of_bfxOk hf) _ _ _ _
  case bfi => exact ⟨_, fun l => bitsAre_bfiBits (width_of_bfiOk hf) _ _ _ _, results_of (exec_bfi q s) h hl rfl⟩
  case lea => exact ⟨_, fun l => isMod_leaBits (width_of_leaOk hf) _ _ _ (toNat_src_lt e q.u .b32 q.b l), results_of (exec_lea q s) h hl rfl⟩

end Sys2Proof.Machine
end

section
/-! SUPPORT. Float arithmetic (spec/06 R102, R103): the elements of its results. -/

namespace Sys2Proof.Machine

/-- Element j of a value as a datum (R52, R54). -/
def elemDatum (t : Ty) (a : Word) (j : Nat) : FVal := unpackF (fmtOf t) (elemAt (elemBits t) a j)

/-- Each element of r is the exact result z of that element, rounded once in the mode rm. -/
def RoundedOnce (t : Ty) (rm : Rnd) (r : Word) (z : Nat → XReal) : Prop :=
  ∀ j, j < elemCount t → elemAt (elemBits t) r j = packF (fmtOf t) rm false (z j) % 2 ^ elemBits t

variable {t : Ty} (ht : t ≠ .x80) (rm : Rnd)
include ht

theorem float1_rounds (f : FVal → XReal) (a : Word) : RoundedOnce t rm (float1 t rm f a) fun j => f (elemDatum t a j) :=
  fun j hj => elemAt_build t ht _ j hj

theorem float2_rounds (f : FVal → FVal → XReal) (a b : Word) :
    RoundedOnce t rm (float2 t rm f a b) fun j => f (elemDatum t a j) (elemDatum t b j) :=
  fun j hj => elemAt_build t ht _ j hj

theorem float3_rounds (f : FVal → FVal → FVal → XReal) (a b c : Word) :
    RoundedOnce t rm (float3 t rm f a b c) fun j => f (elemDatum t a j) (elemDatum t b j) (elemDatum t c j) :=
  fun j hj => elemAt_build t ht _ j hj

end Sys2Proof.Machine
end

section
/-! Float arithmetic (spec/06 R102, R103): the obligation. -/

namespace Sys2Proof.Machine

theorem ne_x80_of_fl1Ok {q : Alu1} (h : fl1Ok q = true) : q.ty ≠ .x80 := by
  simp only [fl1Ok, Bool.and_eq_true] at h
  obtain ⟨⟨ht, -⟩, -⟩ := h
  exact ne_x80_of_isF4 ht

theorem ne_x80_of_fl2Ok {q : Alu2} (h : fl2Ok q = true) : q.ty ≠ .x80 := by
  simp only [fl2Ok, Bool.and_eq_true] at h
  obtain ⟨⟨ht, -⟩, -⟩ := h
  exact ne_x80_of_f102 ht

/-- FMIN and FMAX carry the plain mode only (R76, R103), so that their own mode is the one that the word names. -/
theorem float2_rounds_of_fmm2Ok {q : Alu2} (h : fmm2Ok q = true) (f : FVal → FVal → XReal) (a b : Word) :
    RoundedOnce q.ty q.rnd (float2 q.ty .rne f a b) fun j => f (elemDatum q.ty a j) (elemDatum q.ty b j) := by
  simp only [fmm2Ok, Bool.and_eq_true, beq_iff_eq] at h
  obtain ⟨hok, hrnd⟩ := h
  rw [hrnd]
  exact float2_rounds (ne_x80_of_fl2Ok hok) _ _ _ _

theorem ne_x80_of_fmaOk {q : Alu3} (h : (f102 q.u q.ty && !q.sat && alu3Ok q) = true) : q.ty ≠ .x80 := by
  simp only [Bool.and_eq_true] at h
  obtain ⟨⟨ht, -⟩, -⟩ := h
  exact ne_x80_of_f102 ht

theorem ne_x80_of_fdivOk {q : Alu2} (h : (isF4 q.ty && !q.sat && alu2Ok q) = true) : q.ty ≠ .x80 := by
  simp only [Bool.and_eq_true] at h
  obtain ⟨⟨ht, -⟩, -⟩ := h
  exact ne_x80_of_isF4 ht

theorem ne_x80_of_fscaleOk {q : Alu2}
    (h : (isF4 q.ty && !q.sat && regOk q.u q.ty q.d && regOk q.u q.ty q.a && regOk q.u .b32 q.b) = true) : q.ty ≠ .x80 := by
  simp only [Bool.and_eq_true] at h
  obtain ⟨⟨⟨⟨ht, -⟩, -⟩, -⟩, -⟩ := h
  exact ne_x80_of_isF4 ht

/-- Settles O6, word by word. -/
theorem floatArithmeticRoundsOnce : Obligations.FloatArithmeticRoundsOnce := by
  intro s x w e c h
  refine ⟨?fadd, ?fsub, ?fmul, ?fdiv, ?fmin, ?fmax, ?fma, ?fsqrt, ?frcp, ?frnd, ?fscale⟩ <;> intro q hl <;> have hf := formOk_of_legal hl
  case fadd => exact alu2_result rfl h hl fun l => float2_rounds (ne_x80_of_fl2Ok hf) _ _ _ _
  case fsub => exact alu2_result rfl h hl fun l => float2_rounds (ne_x80_of_fl2Ok hf) _ _ _ _
  case fmul => exact alu2_result rfl h hl fun l => float2_rounds (ne_x80_of_fl2Ok hf) _ _ _ _
  case fdiv => exact alu2_result rfl h hl fun l => float2_rounds (ne_x80_of_fdivOk hf) _ _ _ _
  case fmin => exact alu2_result rfl h hl fun l => float2_rounds_of_fmm2Ok hf _ _ _
  case fmax => exact alu2_result rfl h hl fun l => float2_rounds_of_fmm2Ok hf _ _ _
  case fma => exact alu3_result rfl h hl fun l => float3_rounds (ne_x80_of_fmaOk hf) _ _ _ _ _
  case fsqrt => exact alu1_result rfl h hl fun l => float1_rounds (ne_x80_of_fl1Ok hf) _ _ _
  case frcp => exact alu1_result rfl h hl fun l => float1_rounds (ne_x80_of_fl1Ok hf) _ _ _
  case frnd => exact alu1_result rfl h hl fun l => float1_rounds (ne_x80_of_fl1Ok hf) _ _ _
  case fscale => exact alu2_result rfl h hl fun l => float1_rounds (ne_x80_of_fscaleOk hf) _ _ _

end Sys2Proof.Machine
end

section
/-! SUPPORT. Sets of lanes as lists and counts, and the executor of a warp's word. -/

namespace Sys2Proof.Machine

theorem mem_lanesOf (g : LaneSet) (l : Nat) : l ∈ lanesOf g ↔ l < 32 ∧ g.getLsbD l = true := by simp [lanesOf]

theorem getLsbD_foldl_laneSet (ls : List Nat) (g : LaneSet) (l : Nat) (hl : l < 32) :
    (ls.foldl (fun g i => g ||| ((1 : LaneSet) <<< i)) g).getLsbD l = (g.getLsbD l || decide (l ∈ ls)) := by
  induction ls generalizing g with
  | nil => simp
  | cons i ls ih =>
    have hone : ((1 : LaneSet) <<< i).getLsbD l = decide (l = i) := by
      show ((1#32) <<< i).getLsbD l = _
      rw [BitVec.getLsbD_shiftLeft, BitVec.getLsbD_one, Bool.eq_iff_iff]
      simp only [Bool.and_eq_true, decide_eq_true_eq, Bool.not_eq_true', decide_eq_false_iff_not]
      omega
    rw [List.foldl_cons, ih, BitVec.getLsbD_or, hone, Bool.or_assoc]
    simp only [List.mem_cons, Bool.decide_or]

theorem getLsbD_laneSet (ls : List Nat) (l : Nat) (hl : l < 32) : (laneSet ls).getLsbD l = decide (l ∈ ls) := by
  rw [laneSet, getLsbD_foldl_laneSet ls 0 l hl, show (0 : LaneSet).getLsbD l = false from BitVec.getLsbD_zero, Bool.false_or]

theorem getLsbD_laneSet_filter (g : LaneSet) (p : Nat → Bool) (l : Nat) (hl : l < 32) :
    (laneSet ((lanesOf g).filter p)).getLsbD l = (g.getLsbD l && p l) := by
  rw [getLsbD_laneSet _ l hl]
  simp [List.mem_filter, mem_lanesOf, hl]

theorem laneCount_eq (g : LaneSet) : laneCount g = (List.range 32).countP fun l => g.getLsbD l :=
  List.countP_eq_length_filter.symm

/-- The lowest lane of a set, 32 for the empty set. -/
theorem lowestLane_spec (g : LaneSet) :
    lowestLane g ≤ 32 ∧ (∀ l, l < lowestLane g → g.getLsbD l = false) ∧ (lowestLane g < 32 → g.getLsbD (lowestLane g) = true) := by
  have hfind : lowestLane g = ((List.range 32).find? fun l => g.getLsbD l).getD 32 := by
    rw [lowestLane, lanesOf, List.headD_eq_head?_getD, List.head?_filter]
  rw [hfind]
  cases h : (List.range 32).find? fun l => g.getLsbD l with
  | none =>
    rw [List.find?_eq_none] at h
    simpa using h
  | some n =>
    rw [List.find?_range_eq_some] at h
    obtain ⟨hn, hmem, hbelow⟩ := h
    exact ⟨by simpa using Nat.le_of_lt (List.mem_range.1 hmem), by simpa using hbelow, fun _ => hn⟩

variable {s : State} {x : ExecId} {w : Workgroup} {e : Exec} {c : Clause} {i : Instr} {ctl : Ctl}

/-- A word that the headspring does not accept is a warp's. -/
theorem isHead_of_legal (hl : Legal x w i ctl) (hi : headAccepts i = false) : isHead x.ctx = false := by
  obtain ⟨⟨-, -, hacc, -⟩, -⟩ := hl
  cases hx : isHead x.ctx with
  | false => rfl
  | true => simp [accepts, hx, hi] at hacc

/-- A warp's word executes where its guard set is not empty (R117). -/
theorem executes_of_warp (hx : isHead x.ctx = false) : executes x e ctl = decide (guardOf x e ctl ≠ 0) := by
  simp [executes, hx]

/-- An accepted word of a warp whose entry gives one write completes with it where G is not empty (R111). -/
theorem completes_once {f : View → Eff} {r : RegVal} (hi : exec i s = issueWord i ctl f s) (h : Issuing s x w e c) (hl : Legal x w i ctl)
    (hx : headAccepts i = false) (hf : f (viewOf s x w e c ctl) = once (viewOf s x w e c ctl) r) :
    Completes s x w e c i ctl { writes := if guardOf x e ctl = 0 then [] else [r] } := by
  have hw : once (viewOf s x w e c ctl) r = { writes := if guardOf x e ctl = 0 then [] else [r] } := by
    simp only [once, viewOf, executes_of_warp (isHead_of_legal hl hx)]
    by_cases hg : guardOf x e ctl = 0 <;> simp [hg]
  exact completes hi h hl (hf.trans hw) rfl rfl rfl

end Sys2Proof.Machine
end

section
/-! SUPPORT. Compares and aperture words (spec/06 R109 to R111). -/

namespace Sys2Proof.Machine

variable {s : State} {x : ExecId} {w : Workgroup} {e : Exec} {c : Clause}

-- compares

/-- The lanes of g in which the condition of a compare holds; one condition for all in the uniform form (R109). -/
def cmpTrue (e : Exec) (q : CmpW) (g : LaneSet) : LaneSet :=
  let holds (l : Nat) := condBits q.ty q.cond (e.src q.u q.ty q.a l) (e.src q.u q.ty q.b l)
  if q.u then (if holds 0 then g else 0) else laneSet ((lanesOf g).filter holds)

theorem getLsbD_cmpTrue (e : Exec) (q : CmpW) (g : LaneSet) (l : Nat) (hl : l < 32) :
    (cmpTrue e q g).getLsbD l = (g.getLsbD l &&
      condBits q.ty q.cond (e.src q.u q.ty q.a (if q.u then 0 else l)) (e.src q.u q.ty q.b (if q.u then 0 else l))) := by
  unfold cmpTrue
  cases hu : q.u with
  | true =>
    simp only [if_true]
    split <;> rename_i hholds <;> simp [hholds]
  | false => simpa using getLsbD_laneSet_filter g _ l hl

/-- A compare splits G (R109). -/
theorem cmpEff_viewOf {q : CmpW} (hx : isHead x.ctx = false) :
    cmpEff q (viewOf s x w e c q.ctl) =
      { writes := if q.u && guardOf x e q.ctl = 0 then []
          else [.a q.t.toNat (cmpTrue e q (guardOf x e q.ctl)), .a q.f.toNat (guardOf x e q.ctl &&& ~~~ cmpTrue e q (guardOf x e q.ctl))] } := by
  unfold cmpEff cmpTrue splitWrites viewOf
  simp only [executes_of_warp hx]
  cases q.u with
  | true => by_cases hg : guardOf x e q.ctl = 0 <;> simp [hg]
  | false => rfl

theorem split_of_cmpEff {q : CmpW} {i : Instr} (hi : exec i s = issueWord i q.ctl (cmpEff q) s) (h : Issuing s x w e c)
    (hl : Legal x w i q.ctl) (hx : headAccepts i = false) {holds : Word → Word → Bool} (hc : ∀ a b, condBits q.ty q.cond a b = holds a b) :
    let g := guardOf x e q.ctl
    ∃ t : LaneSet, (∀ l, l < 32 → t.getLsbD l =
        (g.getLsbD l && holds (e.src q.u q.ty q.a (if q.u then 0 else l)) (e.src q.u q.ty q.b (if q.u then 0 else l)))) ∧
      Completes s x w e c i q.ctl { writes := if q.u && g = 0 then [] else [.a q.t.toNat t, .a q.f.toNat (g &&& ~~~ t)] } :=
  ⟨_, fun l hlt => hc _ _ ▸ getLsbD_cmpTrue e q _ l hlt, completes hi h hl (cmpEff_viewOf (isHead_of_legal hl hx)) rfl rfl rfl⟩

theorem tyFloat_of_isF4 {t : Ty} (h : isF4 t = true) : tyFloat t = true := by revert h; cases t <;> decide

theorem isInt4_isB_of_tyFloat {t : Ty} (h : tyFloat t = true) : isInt4 t = false ∧ isB t = false := by revert h; cases t <;> decide

/-- CMP compares integers (R109). -/
theorem condBits_of_cmpOk {q : CmpW} (h : cmpOk q = true) (a b : Word) :
    condBits q.ty q.cond a b = condInt q.cond (toInt (tySigned q.ty) (tyBits q.ty) a.toNat) (toInt (tySigned q.ty) (tyBits q.ty) b.toNat) := by
  have hint : tyFloat q.ty = false := by
    cases ht : tyFloat q.ty with
    | false => rfl
    | true => simp [cmpOk, isInt4_isB_of_tyFloat ht] at h
  simp [condBits, hint]

/-- FCMP compares data (R109). -/
theorem condBits_of_fcmpOk {q : CmpW} (h : fcmpOk q = true) (a b : Word) :
    condBits q.ty q.cond a b = condFloat q.cond (unpackF (fmtOf q.ty) a.toNat) (unpackF (fmtOf q.ty) b.toNat) := by
  simp only [fcmpOk, Bool.and_eq_true] at h
  obtain ⟨-, ht⟩ := h
  simp [condBits, tyFloat_of_isF4 ht]

-- the entry of each word

theorem exec_cmp (q : CmpW) (s : State) : exec (.cmp q) s = execCmp q s := rfl
theorem exec_fcmp (q : CmpW) (s : State) : exec (.fcmp q) s = execFcmp q s := rfl
theorem exec_sel (q : SelW) (s : State) : exec (.sel q) s = execSel q s := rfl
theorem exec_aop (q : AopW) (s : State) : exec (.aop q) s = execAop q s := rfl
theorem exec_acnt (q : AkW) (s : State) : exec (.acnt q) s = execAcnt q s := rfl
theorem exec_afirst (q : AkW) (s : State) : exec (.afirst q) s = execAfirst q s := rfl
theorem exec_amovk (q : AmovkW) (s : State) : exec (.amovk q) s = execAmovk q s := rfl

theorem getLsbD_aopBits (tt : BitVec 4) (a b : LaneSet) (l : Nat) (hl : l < 32) :
    (aopBits tt a b).getLsbD l = tt.getLsbD (2 * (a.getLsbD l).toNat + (b.getLsbD l).toNat) := by
  rw [aopBits, getLsbD_laneSet _ l hl]
  simp [upto, hl]

end Sys2Proof.Machine
end

section
/-! Compares and apertures (spec/06 R109 to R111): the obligation. -/

namespace Sys2Proof.Machine

/-- Settles O9, word by word. -/
theorem comparesAndApertures : Obligations.ComparesAndApertures := by
  intro s x w e c h
  refine ⟨fun q hl => ?cmp, fun q hl => ?fcmp, fun q hl => ?sel, fun q => ⟨_, fun hl => ?aop, getLsbD_aopBits _ _ _⟩, fun q hl => ?acnt,
    fun q => ⟨lowestLane (e.ra q.a.toNat), fun hl => ?afirst, lowestLane_spec _⟩, fun q hl => ?amovk⟩
  case cmp =>
    obtain ⟨t, ht, hw⟩ := split_of_cmpEff (exec_cmp q s) h hl rfl (condBits_of_cmpOk (formOk_of_legal hl))
    refine ⟨t, fun l hlt => (ht l hlt).trans ?_, hw⟩
    dsimp only
    cases q.cond <;> rfl
  case fcmp =>
    obtain ⟨t, ht, hw⟩ := split_of_cmpEff (exec_fcmp q s) h hl rfl (condBits_of_fcmpOk (formOk_of_legal hl))
    refine ⟨t, fun l hlt => (ht l hlt).trans ?_, hw⟩
    dsimp only
    cases q.cond <;> rfl
  case sel =>
    have hpick (l : Nat) : e.src false q.ty (if (e.ra q.sel.toNat).getLsbD l then q.a else q.b) l =
        if (e.ra q.sel.toNat).getLsbD l then e.src false q.ty q.a l else e.src false q.ty q.b l := by split <;> rfl
    simp only [hpick]
    exact results_of (exec_sel q s) h hl rfl
  case aop => exact completes_once (exec_aop q s) h hl rfl rfl
  case acnt => exact completes_once (exec_acnt q s) h hl rfl (by rw [laneCount_eq]; rfl)
  case afirst => exact completes_once (exec_afirst q s) h hl rfl rfl
  case amovk => exact completes_once (exec_amovk q s) h hl rfl rfl

end Sys2Proof.Machine
end

section
/-! SUPPORT. BCAST (spec/06 R114): the value it gives, and the registers that take it. -/

namespace Sys2Proof.Machine

theorem exec_bcast (q : BcastW) (s : State) : exec (.bcast q) s = execBcast q s := rfl

variable {s : State} {x : ExecId} {w : Workgroup} {e : Exec} {c : Clause}

theorem ra0_of_issuing (h : Issuing s x w e c) : e.ra0 = e.a0 := by
  obtain ⟨-, -, -, -, hshadow, -⟩ := h
  simp [Exec.ra0, hshadow]

/-- What BCAST gives every lane: one lane's value, or 0 (R114). -/
def bcastValue (e : Exec) (q : BcastW) : Word :=
  let n := (e.rk q.k.toNat).toNat
  if n < 32 ∧ e.a0.getLsbD n = true then e.src false q.ty q.a n else 0

theorem bcast_results {q : BcastW} (h : Issuing s x w e c) (hl : Legal x w (.bcast q) q.ctl) :
    Results s x w e c (.bcast q) q.ctl 8 false q.ty q.d fun _ => bcastValue e q := by
  have hvalue : bcastValue e q =
      let n := (e.rk q.k.toNat).toNat
      if n < 32 && e.ra0.getLsbD n then e.src false q.ty q.a n else 0 := by
    simp [bcastValue, ra0_of_issuing h]
  rw [hvalue]
  exact results_of (exec_bcast q s) h hl rfl

theorem mem_laneWrites (v : View) (td : Ty) (d : VReg) (f : Nat → Word) (r : RegVal) :
    r ∈ laneWrites v false td d f ↔ ∃ l, l < 32 ∧ v.g.getLsbD l = true ∧ r ∈ dst false td d l (f l) := by
  simp [laneWrites, mem_lanesOf, and_assoc]

/-- The registers that a value of 32 or 64 untyped bits takes in a lane: one, or an even and odd pair (R40). -/
def RegOfPair (t : Ty) (j : Nat) : Prop := j = 0 ∨ (j = 1 ∧ t = .b64)

theorem mem_dst {t : Ty} (ht : t = .b32 ∨ t = .b64) (d : VReg) (l : Nat) (y : Word) (v : RegVal) :
    v ∈ dst false t d l y ↔ ∃ j, RegOfPair t j ∧ v = .v (d.toNat + j) l (y.extractLsb' (32 * j) 32) := by
  rcases ht with rfl | rfl
  · have hlow : BitVec.ofNat 32 (extendTo 32 .b32 y) = y.extractLsb' 0 32 := by
      apply BitVec.eq_of_toNat_eq
      simp [extendTo, tySigned, tyBits]
    simp [dst, tyIs64, RegOfPair, hlow]
  · simp [dst, tyIs64, RegOfPair, or_and_right, exists_or]

theorem extract_src {t : Ty} (ht : t = .b32 ∨ t = .b64) (e : Exec) (a : VReg) (n j : Nat) (hj : RegOfPair t j) :
    (e.src false t a n).extractLsb' (32 * j) 32 = e.rv (a.toNat + j) n := by
  rcases ht with rfl | rfl
  · obtain rfl : j = 0 := by simpa [RegOfPair] using hj
    apply BitVec.eq_of_toNat_eq
    simpa [Exec.src, tyIs64, tyBits, toNat_lowBits] using (e.rv a.toNat n).isLt
  · obtain rfl | ⟨rfl, -⟩ := hj
    · exact BitVec.extractLsb'_append_eq_right
    · exact BitVec.extractLsb'_append_eq_left

theorem extract_bcastValue {q : BcastW} (ht : q.ty = .b32 ∨ q.ty = .b64) {j : Nat} (hj : RegOfPair q.ty j) :
    (bcastValue e q).extractLsb' (32 * j) 32 =
      let n := (e.rk q.k.toNat).toNat
      if n < 32 ∧ e.a0.getLsbD n = true then e.rv (q.a.toNat + j) n else 0 := by
  unfold bcastValue
  dsimp only
  split
  · exact extract_src ht e q.a _ j hj
  · exact BitVec.extractLsb'_zero

theorem ty_of_bcastOk {q : BcastW} (h : (isB q.ty && regOk false q.ty q.d && regOk false q.ty q.a) = true) :
    q.ty = .b32 ∨ q.ty = .b64 := by
  simp only [Bool.and_eq_true, isB, Bool.or_eq_true, beq_iff_eq] at h
  obtain ⟨⟨ht, -⟩, -⟩ := h
  exact ht

end Sys2Proof.Machine
end

section
/-! BCAST (spec/06 R114): the obligation. -/

namespace Sys2Proof.Machine

/-- Settles O53. -/
theorem bcastReadsOneLane : Obligations.BcastReadsOneLane := by
  intro s x w e c q h hl
  have ht : q.ty = .b32 ∨ q.ty = .b64 := ty_of_bcastOk (formOk_of_legal hl)
  refine ⟨ht, _, bcast_results h hl, rfl, rfl, rfl, fun v => ?_⟩
  simp only [mem_laneWrites, mem_dst ht]
  refine exists_congr fun l => and_congr_right fun _ => and_congr_right fun _ => exists_congr fun j => and_congr_right fun hj => ?_
  rw [extract_bcastValue ht hj]

end Sys2Proof.Machine
end
